-- ==== Sys2Proof/Word.lean ====
section
/-! DEFINITION. The word and byte types of the CORE (00_scope.md R11): a register and a command word are 32-bit
values, a pixel and a bitstream byte are 8-bit values (20_memory.md R101, R105). -/

namespace Sys2Proof

/-- A 32-bit register value or command word. -/
abbrev Word := BitVec 32

/-- One byte of data memory. -/
abbrev Byte := BitVec 8

end Sys2Proof
end

