-- ==== Sys2Proof/Syntax.lean ====
section
/-! DEFINITION. The twenty commands of spec/opcode_table.json (30_encoding.md R131, R134), one constructor each.
Operand fields are unsigned numbers with no scaling (R133); single-bit flags are Bools. -/

namespace Sys2Proof

inductive Instr where
  /-- NOP (47_control.md R470) -/
  | nop
  /-- SYNC (R472) -/
  | sync
  /-- WREG widx, data (R473): two words -/
  | wreg (widx : Nat) (data : Word)
  /-- MB_SET row, col (R475) -/
  | mbSet (row col : Nat)
  /-- BD_INIT ctx (40_entropy.md R203) -/
  | bdInit (ctx : Nat)
  /-- BD_BOOL ctx, prob (R207) -/
  | bdBool (ctx prob : Nat)
  /-- BD_LIT ctx, n (R211) -/
  | bdLit (ctx n : Nat)
  /-- DETOK_FRAME (41_detokenizer.md R236) -/
  | detokFrame
  /-- DETOK_ROW (R237) -/
  | detokRow
  /-- DETOK_MB ctx, y2, skip (R238) -/
  | detokMb (ctx : Nat) (y2 skip : Bool)
  /-- QSETUP (42_dequant.md R275) -/
  | qsetup
  /-- DEQ_MB seg (R280) -/
  | deqMb (seg : Nat)
  /-- IWHT (43_transform.md R302) -/
  | iwht
  /-- IDCT_ADD blk (R306) -/
  | idctAdd (blk : Nat)
  /-- RECON_MB uvonly (R310) -/
  | reconMb (uvonly : Bool)
  /-- IPRED16 mode (44_intra.md R340) -/
  | ipred16 (mode : Nat)
  /-- IPREDUV mode (R345) -/
  | ipredUv (mode : Nat)
  /-- IPRED4 blk, bmode (R350) -/
  | ipred4 (blk bmode : Nat)
  /-- MC_MB ref, split, clamp (45_inter.md R395) -/
  | mcMb (ref : Nat) (split clamp : Bool)
  /-- LF_MB seg, ref, mode, nocoef (46_loopfilter.md R430) -/
  | lfMb (seg ref mode : Nat) (nocoef : Bool)
  deriving DecidableEq, Repr

end Sys2Proof
end

