-- ==== Sys2Proof/WellFormed.lean ====
section
/-! DEFINITION. Which terms are commands: every operand fits the field that 30_encoding.md R131 and R133 give it.
(A value that fits its field and is outside its LEGAL range is well formed: the command raises an error.) -/

namespace Sys2Proof

/-- Every operand fits its field (30_encoding.md R133). -/
def Instr.wf : Instr → Bool
  | .nop | .sync | .detokFrame | .detokRow | .qsetup | .iwht => true
  | .wreg widx _ => decide (widx < 4096)
  | .mbSet row col => decide (row < 4096) && decide (col < 4096)
  | .bdInit ctx => decide (ctx < 16)
  | .bdBool ctx prob => decide (ctx < 16) && decide (prob < 256)
  | .bdLit ctx n => decide (ctx < 16) && decide (n < 64)
  | .detokMb ctx _ _ => decide (ctx < 16)
  | .deqMb seg => decide (seg < 4)
  | .idctAdd blk => decide (blk < 32)
  | .reconMb _ => true
  | .ipred16 mode => decide (mode < 8)
  | .ipredUv mode => decide (mode < 8)
  | .ipred4 blk bmode => decide (blk < 32) && decide (bmode < 16)
  | .mcMb ref _ _ => decide (ref < 4)
  | .lfMb seg ref mode _ => decide (seg < 4) && decide (ref < 4) && decide (mode < 16)

end Sys2Proof
end

