-- ==== Sys2Proof/Decode.lean ====
section
/-! DEFINITION. Decoding of command words, total and rejecting by name, and the encoder, both written from
30_encoding.md R130 to R137 and R140. A command is one 32-bit word; WREG has a second word, its data (R130). -/

namespace Sys2Proof

/-- `v[hi:lo]`, zero-extended (00_scope.md R11). -/
def bits (v hi lo : Nat) : Nat := v / 2 ^ lo % 2 ^ (hi + 1 - lo)

/-- `v[i]` as a flag (00_scope.md R11). -/
def bit (v i : Nat) : Bool := bits v i i == 1

/-- Why a list of words holds no command. -/
inductive DecodeError where
  /-- there is no word at all -/
  | noWord
  /-- the opcode is not in the map (30_encoding.md R135): the CORE raises ILLEGAL_CMD -/
  | illegalOpcode
  /-- a reserved bit is set (30_encoding.md R132): the CORE raises ILLEGAL_CMD -/
  | reservedBits
  /-- the data word of WREG has not arrived (30_encoding.md R137): the CORE waits -/
  | missingData
  deriving DecidableEq, Repr

/-- OPC, bits [31:26] of the command word (30_encoding.md R130). -/
def opcodeOf (w : Word) : Nat := bits w.toNat 31 26

/-- The opcode of WREG, the only two-word command (30_encoding.md R130, R137). -/
def opcWreg : Nat := 0x02

/-- How many words a command has, decided from OPC alone (30_encoding.md R130). -/
def commandLength (w : Word) : Nat := if opcodeOf w = opcWreg then 2 else 1

/-- The reserved bits of a legal opcode, as the range [hi:lo] that must be 0 (30_encoding.md R132); `none` where the
opcode is not in the map (R134, R135). Every mask of R132 is one range: BD_INIT's is 0x00003FFF with 0x003FC000. -/
def reservedRange : Nat → Option (Nat × Nat)
  | 0x00 => some (25, 0)
  | 0x01 => some (25, 0)
  | 0x02 => some (25, 12)
  | 0x03 => some (25, 24)
  | 0x08 => some (21, 0)
  | 0x09 => some (13, 0)
  | 0x0A => some (15, 0)
  | 0x10 => some (25, 0)
  | 0x11 => some (25, 0)
  | 0x12 => some (19, 0)
  | 0x18 => some (25, 0)
  | 0x19 => some (23, 0)
  | 0x20 => some (25, 0)
  | 0x21 => some (25, 5)
  | 0x22 => some (25, 1)
  | 0x28 => some (25, 3)
  | 0x29 => some (25, 3)
  | 0x2A => some (25, 9)
  | 0x30 => some (21, 0)
  | 0x38 => some (16, 0)
  | _ => none

/-- The operand fields of a command word of value `n` whose opcode is legal and whose reserved bits are 0
(30_encoding.md R131); `data` is WREG's second word. `none` for an opcode outside the map. -/
def readFields (opc n : Nat) (data : Word) : Option Instr :=
  match opc with
  | 0x00 => some .nop
  | 0x01 => some .sync
  | 0x02 => some (.wreg (bits n 11 0) data)
  | 0x03 => some (.mbSet (bits n 23 12) (bits n 11 0))
  | 0x08 => some (.bdInit (bits n 25 22))
  | 0x09 => some (.bdBool (bits n 25 22) (bits n 21 14))
  | 0x0A => some (.bdLit (bits n 25 22) (bits n 21 16))
  | 0x10 => some .detokFrame
  | 0x11 => some .detokRow
  | 0x12 => some (.detokMb (bits n 25 22) (bit n 21) (bit n 20))
  | 0x18 => some .qsetup
  | 0x19 => some (.deqMb (bits n 25 24))
  | 0x20 => some .iwht
  | 0x21 => some (.idctAdd (bits n 4 0))
  | 0x22 => some (.reconMb (bit n 0))
  | 0x28 => some (.ipred16 (bits n 2 0))
  | 0x29 => some (.ipredUv (bits n 2 0))
  | 0x2A => some (.ipred4 (bits n 8 4) (bits n 3 0))
  | 0x30 => some (.mcMb (bits n 25 24) (bit n 23) (bit n 22))
  | 0x38 => some (.lfMb (bits n 25 24) (bits n 23 22) (bits n 21 18) (bit n 17))
  | _ => none

/-- Decode one command word with the data word that follows it, in the order of 30_encoding.md R136: opcode, then
reserved bits. -/
def decodeWord (w data : Word) : Except DecodeError Instr :=
  match reservedRange (opcodeOf w), readFields (opcodeOf w) w.toNat data with
  | some (hi, lo), some i => if bits w.toNat hi lo = 0 then .ok i else .error .reservedBits
  | _, _ => .error .illegalOpcode

/-- Decode the command at the head of a list of words; the words after it are handed back. -/
def decode : List Word → Except DecodeError (Instr × List Word)
  | [] => .error .noWord
  | w :: rest =>
    if opcodeOf w = opcWreg then
      match rest with
      | [] => .error .missingData
      | d :: rest' => (decodeWord w d).map fun i => (i, rest')
    else (decodeWord w 0).map fun i => (i, rest)

/-! ### The encoder (30_encoding.md R131, R134, R140) -/

/-- The opcode of a command (30_encoding.md R134). -/
def Instr.opcode : Instr → Nat
  | .nop => 0x00
  | .sync => 0x01
  | .wreg _ _ => 0x02
  | .mbSet _ _ => 0x03
  | .bdInit _ => 0x08
  | .bdBool _ _ => 0x09
  | .bdLit _ _ => 0x0A
  | .detokFrame => 0x10
  | .detokRow => 0x11
  | .detokMb _ _ _ => 0x12
  | .qsetup => 0x18
  | .deqMb _ => 0x19
  | .iwht => 0x20
  | .idctAdd _ => 0x21
  | .reconMb _ => 0x22
  | .ipred16 _ => 0x28
  | .ipredUv _ => 0x29
  | .ipred4 _ _ => 0x2A
  | .mcMb _ _ _ => 0x30
  | .lfMb _ _ _ _ => 0x38

/-- The operand fields of a command, each at its place in the command word (30_encoding.md R131). -/
def Instr.fields : Instr → Nat
  | .nop | .sync | .detokFrame | .detokRow | .qsetup | .iwht => 0
  | .wreg widx _ => widx
  | .mbSet row col => 2 ^ 12 * row + col
  | .bdInit ctx => 2 ^ 22 * ctx
  | .bdBool ctx prob => 2 ^ 22 * ctx + 2 ^ 14 * prob
  | .bdLit ctx n => 2 ^ 22 * ctx + 2 ^ 16 * n
  | .detokMb ctx y2 skip => 2 ^ 22 * ctx + 2 ^ 21 * y2.toNat + 2 ^ 20 * skip.toNat
  | .deqMb seg => 2 ^ 24 * seg
  | .idctAdd blk => blk
  | .reconMb uvonly => uvonly.toNat
  | .ipred16 mode => mode
  | .ipredUv mode => mode
  | .ipred4 blk bmode => 2 ^ 4 * blk + bmode
  | .mcMb ref split clamp => 2 ^ 24 * ref + 2 ^ 23 * split.toNat + 2 ^ 22 * clamp.toNat
  | .lfMb seg ref mode nocoef =>
    2 ^ 24 * seg + 2 ^ 22 * ref + 2 ^ 18 * mode + 2 ^ 17 * nocoef.toNat

/-- The command word of a command: its first word, the one ERRINFO records (60_exceptions.md R503). -/
def Instr.word (i : Instr) : Word := BitVec.ofNat 32 (2 ^ 26 * i.opcode + i.fields)

/-- The words of a command (30_encoding.md R130, R140). -/
def encode (i : Instr) : List Word :=
  match i with
  | .wreg _ data => [i.word, data]
  | _ => [i.word]

/-- The instruction read from a table word: bits [31:0] are the command word, bits [63:32] the data word of WREG, and
every bit from `nbits` up is 0. The CORE takes 32-bit words from CMDQ, so no byte order arises (20_memory.md R104,
R105). -/
def decodeTableWord (nbits w : Nat) : Option Instr :=
  let v := w % 2 ^ nbits
  match decode [BitVec.ofNat 32 v, BitVec.ofNat 32 (v / 2 ^ 32)] with
  | .ok (i, _) => some i
  | .error _ => none

end Sys2Proof
end

