-- ==== Sys2Proof/Machine/Arith.lean ====
section
/-! DEFINITION. Integer arithmetic and bit fields as 00_scope.md R11 to R14 define them, and reading and writing the
fixed register files. -/

namespace Sys2Proof.Machine

/-- `a >> n` on integers: floor(a / 2^n) (00_scope.md R13). -/
def asr (a : Int) (n : Nat) : Int := a / ((2 ^ n : Nat) : Int)

/-- `clamp(v, lo, hi)` (00_scope.md R14). -/
def clamp (v lo hi : Int) : Int := min (max v lo) hi

/-- `clamp255`, the clamp to a pixel (00_scope.md R14). -/
def clamp255 (v : Int) : Int := clamp v 0 255

/-- `sclamp8`, the clamp to a signed 8-bit value (00_scope.md R14). -/
def sclamp8 (v : Int) : Int := clamp v (-128) 127

/-- `sext_N`: the N-bit value v as two's complement (00_scope.md R12). -/
def sext (n : Nat) (v : Nat) : Int := if v < 2 ^ (n - 1) then (v : Int) else (v : Int) - ((2 ^ n : Nat) : Int)

/-- Byte lane `k` of a word, unsigned (20_memory.md R105). -/
def byteLane (w : Word) (k : Nat) : Nat := bits w.toNat (8 * k + 7) (8 * k)

/-- Byte lane `k` of a word as a signed 8-bit value (10_state.md R50, R52, R54). -/
def signedLane (w : Word) (k : Nat) : Int := sext 8 (byteLane w k)

/-- A flag as a number. -/
def flagNat (b : Bool) : Nat := b.toNat

/-- Entry `i` of a register file; `d` where there is no such entry. -/
def fileGet {α : Type} {n : Nat} (v : Vector α n) (i : Nat) (d : α) : α := v[i]?.getD d

/-- Write entry `i` of a register file; nothing happens where there is no such entry. -/
def fileSet {α : Type} {n : Nat} (v : Vector α n) (i : Nat) (x : α) : Vector α n := v.setIfInBounds i x

end Sys2Proof.Machine
end

