-- ==== Sys2Proof/Config.lean ====
section
/-! DEFINITION. What an implementation fixes (the queue depth, the shape of the ROM tables) and the free values:
constants with no body, so that a claim about them holds whatever they are. The VALUES of the ROM tables stand in
Sys2Proof/Machine/Tables.lean. -/

namespace Sys2Proof.Config

/-- FREE VALUE. What data memory holds at an address that no HOST or CORE write has reached
(93_implementation_defined.md U13: "A model treats bytes the HOST never wrote as arbitrary"). One unknown byte for
each address, the same at every read of it until it is written. Log entry 1. -/
opaque initialByte : Nat → Byte

/-- FREE VALUE. What a HOST read of the RAM windows returns for an entry that nothing has written since the hard
reset (93_implementation_defined.md U1: "any value"): the first argument counts hard resets, the second is the byte
offset of the word in the MMIO window. No command ever reads it. Log entry 2. -/
opaque ramAtReset : Nat → Nat → Word

/-- How many entries the command queue has beyond the two that 00_scope.md R9 promises. Log entry 3. -/
opaque cmdqExtra : Nat

/-- P_CMDQ_DEPTH (00_scope.md R9: OPEN, at least 2). -/
def cmdqDepth : Nat := cmdqExtra + 2

/-- The eight ROM tables of 00_scope.md R9. R10: a model takes them as configuration arguments; State.rom is that
argument. Their shapes are those of the rules that give the defaults (41_detokenizer.md R230, 42_dequant.md R270,
45_inter.md R380), whatever the values (log entry 7). -/
structure Tables where
  /-- T_ZIGZAG: raster index of a scan position. -/
  zigzag : Vector (Fin 16) 16
  /-- T_BANDS: band of a scan position. -/
  bands : Vector (Fin 8) 16
  /-- T_CATPROB: extra-bit probabilities of CAT1 to CAT6. -/
  catProb : Vector (List Byte) 6
  /-- T_CATBASE: base magnitude of CAT1 to CAT6. -/
  catBase : Vector Nat 6
  /-- T_DCQ: DC step sizes. -/
  dcq : Vector Nat 128
  /-- T_ACQ: AC step sizes. -/
  acq : Vector Nat 128
  /-- T_SIXTAP: six taps for each of eight phases. -/
  sixtap : Vector (Vector Int 6) 8
  /-- T_BILINEAR: two taps for each of eight phases. -/
  bilinear : Vector (Vector Int 2) 8
  deriving DecidableEq, Repr

end Sys2Proof.Config
end

