-- ==== Sys2Proof/Machine/Tables.lean ====
section
/-! DEFINITION. The values of the eight ROM tables: the defaults that 00_scope.md R10 gives the configuration argument
State.rom (log entry 7), and how the tables are read. -/

namespace Sys2Proof.Machine

/-- T_ZIGZAG (41_detokenizer.md R230). -/
def zigzagTable : Vector (Fin 16) 16 := #v[0, 1, 4, 8, 5, 2, 3, 6, 9, 12, 13, 10, 7, 11, 14, 15]

/-- T_BANDS (41_detokenizer.md R230). -/
def bandsTable : Vector (Fin 8) 16 := #v[0, 1, 2, 3, 6, 4, 5, 6, 6, 6, 6, 6, 6, 6, 6, 7]

/-- T_CATPROB, CAT1 first (41_detokenizer.md R230). -/
def catProbTable : Vector (List Byte) 6 :=
  #v[[159], [165, 145], [173, 148, 140], [176, 155, 140, 135], [180, 157, 141, 134, 130],
   [254, 254, 243, 230, 196, 177, 153, 140, 133, 130, 129]]

/-- T_CATBASE, CAT1 first (41_detokenizer.md R230). -/
def catBaseTable : Vector Nat 6 := #v[5, 7, 11, 19, 35, 67]

/-- The values of T_DCQ, 16 entries a row (42_dequant.md R270). -/
def dcqValues : List Nat :=
  [4, 5, 6, 7, 8, 9, 10, 10, 11, 12, 13, 14, 15, 16, 17, 17] ++
  [18, 19, 20, 20, 21, 21, 22, 22, 23, 23, 24, 25, 25, 26, 27, 28] ++
  [29, 30, 31, 32, 33, 34, 35, 36, 37, 37, 38, 39, 40, 41, 42, 43] ++
  [44, 45, 46, 46, 47, 48, 49, 50, 51, 52, 53, 54, 55, 56, 57, 58] ++
  [59, 60, 61, 62, 63, 64, 65, 66, 67, 68, 69, 70, 71, 72, 73, 74] ++
  [75, 76, 76, 77, 78, 79, 80, 81, 82, 83, 84, 85, 86, 87, 88, 89] ++
  [91, 93, 95, 96, 98, 100, 101, 102, 104, 106, 108, 110, 112, 114, 116, 118] ++
  [122, 124, 126, 128, 130, 132, 134, 136, 138, 140, 143, 145, 148, 151, 154, 157]

/-- The values of T_ACQ, 16 entries a row (42_dequant.md R270). -/
def acqValues : List Nat :=
  [4, 5, 6, 7, 8, 9, 10, 11, 12, 13, 14, 15, 16, 17, 18, 19] ++
  [20, 21, 22, 23, 24, 25, 26, 27, 28, 29, 30, 31, 32, 33, 34, 35] ++
  [36, 37, 38, 39, 40, 41, 42, 43, 44, 45, 46, 47, 48, 49, 50, 51] ++
  [52, 53, 54, 55, 56, 57, 58, 60, 62, 64, 66, 68, 70, 72, 74, 76] ++
  [78, 80, 82, 84, 86, 88, 90, 92, 94, 96, 98, 100, 102, 104, 106, 108] ++
  [110, 112, 114, 116, 119, 122, 125, 128, 131, 134, 137, 140, 143, 146, 149, 152] ++
  [155, 158, 161, 164, 167, 170, 173, 177, 181, 185, 189, 193, 197, 201, 205, 209] ++
  [213, 217, 221, 225, 229, 234, 239, 245, 249, 254, 259, 264, 269, 274, 279, 284]

/-- T_DCQ. -/
def dcqTable : Vector Nat 128 := ⟨dcqValues.toArray, rfl⟩

/-- T_ACQ. -/
def acqTable : Vector Nat 128 := ⟨acqValues.toArray, rfl⟩

/-- T_SIXTAP, phase 0 first (45_inter.md R380). -/
def sixtapTable : Vector (Vector Int 6) 8 :=
  #v[#v[0, 0, 128, 0, 0, 0], #v[0, -6, 123, 12, -1, 0], #v[2, -11, 108, 36, -8, 1], #v[0, -9, 93, 50, -6, 0],
    #v[3, -16, 77, 77, -16, 3], #v[0, -6, 50, 93, -9, 0], #v[1, -8, 36, 108, -11, 2], #v[0, -1, 12, 123, -6, 0]]

/-- T_BILINEAR, phase 0 first (45_inter.md R380). -/
def bilinearTable : Vector (Vector Int 2) 8 :=
  #v[#v[128, 0], #v[112, 16], #v[96, 32], #v[80, 48], #v[64, 64], #v[48, 80], #v[32, 96], #v[16, 112]]

/-- The default of the configuration argument (00_scope.md R10). -/
def romTables : Config.Tables :=
  { zigzag := zigzagTable, bands := bandsTable, catProb := catProbTable, catBase := catBaseTable,
    dcq := dcqTable, acq := acqTable, sixtap := sixtapTable, bilinear := bilinearTable }

/-- T_ZIGZAG[n] (41_detokenizer.md R230). -/
def scanIndex (T : Config.Tables) (n : Nat) : Nat := (fileGet T.zigzag n 0).val

/-- T_BANDS[n] (41_detokenizer.md R230). -/
def scanBand (T : Config.Tables) (n : Nat) : Nat := (fileGet T.bands n 0).val

/-- The extra-bit probabilities of category `k`, 0 for CAT1 (41_detokenizer.md R230). -/
def catProbs (T : Config.Tables) (k : Nat) : List Nat := (fileGet T.catProb k []).map BitVec.toNat

/-- The base of category `k` (41_detokenizer.md R230). -/
def catBaseOf (T : Config.Tables) (k : Nat) : Nat := fileGet T.catBase k 0

/-- T_DCQ[q] (42_dequant.md R270). -/
def dcStep (T : Config.Tables) (q : Nat) : Nat := fileGet T.dcq q 0

/-- T_ACQ[q] (42_dequant.md R270). -/
def acStep (T : Config.Tables) (q : Nat) : Nat := fileGet T.acq q 0

/-- T_SIXTAP[f][k] (45_inter.md R380). -/
def sixTapAt (T : Config.Tables) (f k : Nat) : Int := fileGet (fileGet T.sixtap f (Vector.replicate 6 0)) k 0

/-- T_BILINEAR[f][k] (45_inter.md R380). -/
def bilinearAt (T : Config.Tables) (f k : Nat) : Int := fileGet (fileGet T.bilinear f (Vector.replicate 2 0)) k 0

end Sys2Proof.Machine
end

