-- ==== Sys2Proof/Machine/State.lean ====
section
/-! DEFINITION. The state of the machine (10_state.md R30: the registers, the bool-decoder contexts, the RAMs, the
command queue and the execution flag), its ROM tables (00_scope.md R9), the data memory it shares with the HOST
(20_memory.md R100), and the HOST actions still to come; the reasons a step can stop; the state after reset (70_reset_and_hazards.md R540, R542).
Plain data throughout: no field holds a function. -/

namespace Sys2Proof.Machine

/-- A sparse store: pairs of a key and a value, keys strictly rising. An unlisted key holds nothing ("unwritten",
10_state.md R65). -/
abbrev Cells (α : Type) := List (Nat × α)

/-- The nine nonzero flags of one macroblock side (10_state.md R61): bits 0..3 Y, 4..5 U, 6..7 V, 8 Y2. `none` is a
flag that nothing has written since the hard reset (R65). -/
abbrev NzRow := Vector (Option Bool) 9

/-- One bool-decoder context (10_state.md R62). -/
structure BoolCtx where
  /-- the 16-bit window of compressed bits -/
  value : BitVec 16
  /-- 128..255 on a valid context between commands -/
  range : BitVec 8
  /-- bits shifted since the last byte load -/
  bitCount : BitVec 3
  /-- address of the next byte to load, exact: it can be 2^32 (log entry 4) -/
  pos : Nat
  /-- one past the last byte of the partition, exact: it can be 2^32 (log entry 4); the spec's `end` -/
  stop : Nat
  /-- 1 once BD_INIT has run -/
  valid : Bool
  /-- 1 once a byte past the end was asked for -/
  exh : Bool
  /-- zero bytes supplied past the end, saturating -/
  zfill : Word
  /-- MODEL'S OWN: BD_START as it was at BD_INIT (R208 names it); read by no command (log entry 5) -/
  start : Nat
  deriving DecidableEq, Repr

/-- Every field of a context after reset is 0 (10_state.md R62). -/
def BoolCtx.reset : BoolCtx :=
  { value := 0, range := 0, bitCount := 0, pos := 0, stop := 0, valid := false, exh := false, zfill := 0, start := 0 }

/-- The CFG registers (10_state.md R41 to R47, R49 to R54, R56): written by the HOST while BUSY = 0 and by WREG. Each is
held as its 32-bit value with every RSV bit 0. -/
structure CfgRegs where
  mbPos : Word
  frameDim : Word
  decCfg : Word
  roleMap : Word
  slotYBase : Vector Word 4
  slotUBase : Vector Word 4
  slotVBase : Vector Word 4
  slotStride : Vector Word 4
  bdStart : Vector Word 9
  bdSize : Vector Word 9
  qBase : Word
  qDelta0 : Word
  qDelta1 : Word
  segCfg : Word
  segQ : Word
  segLf : Word
  lfCfg : Word
  lfRefDelta : Word
  lfModeDelta : Word
  mv : Vector Word 16
  deriving DecidableEq, Repr

/-- Every CFG register is 0 after reset (70_reset_and_hazards.md R542). -/
def CfgRegs.reset : CfgRegs :=
  { mbPos := 0, frameDim := 0, decCfg := 0, roleMap := 0,
    slotYBase := Vector.replicate 4 0, slotUBase := Vector.replicate 4 0,
    slotVBase := Vector.replicate 4 0, slotStride := Vector.replicate 4 0,
    bdStart := Vector.replicate 9 0, bdSize := Vector.replicate 9 0,
    qBase := 0, qDelta0 := 0, qDelta1 := 0, segCfg := 0, segQ := 0, segLf := 0,
    lfCfg := 0, lfRefDelta := 0, lfModeDelta := 0, mv := Vector.replicate 16 0 }

/-- The internal RAMs (10_state.md R57 to R61): an unlisted entry is unwritten since the hard reset (R65). -/
structure Rams where
  /-- EOB[b], key b = 0..24 (R57) -/
  eob : Cells (BitVec 5)
  /-- PROB, key e = ((t*8 + band)*3 + ctx)*11 + k (R58) -/
  prob : Cells Byte
  /-- COEF[b][i], key 16*b + i (R59) -/
  coef : Cells (BitVec 16)
  /-- DQ[b][i], key 16*b + i (R60) -/
  dq : Cells (BitVec 32)
  /-- NZ_LEFT (R61) -/
  nzLeft : NzRow
  /-- NZ_ABOVE[c], key c = 0..4095 (R61); an unlisted column has nine unwritten flags -/
  nzAbove : Cells NzRow
  deriving DecidableEq, Repr

/-- Nine unwritten flags. -/
def NzRow.unwritten : NzRow := Vector.replicate 9 none

/-- Every RAM entry is unwritten after a hard reset (10_state.md R65, 70_reset_and_hazards.md R540). -/
def Rams.reset : Rams :=
  { eob := [], prob := [], coef := [], dq := [], nzLeft := NzRow.unwritten, nzAbove := [] }

/-- A command taken from the queue: its command word and, for WREG, its data word (30_encoding.md R130). -/
structure Command where
  word : Word
  data : Word
  /-- a soft reset waits for this command to complete (70_reset_and_hazards.md R541) -/
  resetAfter : Bool
  deriving DecidableEq, Repr

/-- What happens next outside the CORE's own execution. The list of them in State is the HOST's part of a run and the
interleaving of HOST and CORE (93_implementation_defined.md U7); any list may stand there. Log entry 6. -/
inductive Input where
  /-- the HOST writes `value` with a `width`-byte access at byte offset `offset` of the MMIO window (10_state.md R32) -/
  | mmioWrite (offset width : Nat) (value : Word)
  /-- the HOST writes one byte of data memory (20_memory.md R116, R117) -/
  | memWrite (addr : Word) (value : Byte)
  /-- the platform's reset input (70_reset_and_hazards.md R540) -/
  | hardReset
  /-- the CORE takes its next command and does not complete it yet: EXEC becomes 1 (47_control.md R471) -/
  | beginCommand
  /-- the CORE completes the command in execution, or takes and completes the next one -/
  | run
  deriving DecidableEq, Repr

structure State where
  /-- the ROM tables: the configuration argument of 00_scope.md R10 (log entry 7). Nothing the CORE or the HOST does
  changes them, a reset included. -/
  rom : Config.Tables
  /-- CTRL.IE_SYNC (R35) -/
  ieSync : Bool
  /-- CTRL.IE_ERR (R35) -/
  ieErr : Bool
  /-- STATUS.SYNC_DONE (R36) -/
  syncDone : Bool
  /-- STATUS.CFG_DROP (R36) -/
  cfgDrop : Bool
  /-- STATUS.WIDE16 (R36) -/
  wide16 : Bool
  /-- STATUS.ERR (R36) -/
  err : Bool
  /-- STATUS.ERRCODE (R36, R501) -/
  errCode : BitVec 4
  /-- ERRINFO (R40) -/
  errInfo : Word
  /-- RESULT (R38) -/
  result : Word
  /-- EOBTOTAL (R39) -/
  eobTotal : BitVec 10
  /-- the CFG registers (R41 to R56) -/
  cfg : CfgRegs
  /-- DQF[s][k], index 6*s + k (R55) -/
  dqf : Vector (BitVec 16) 24
  /-- the bool-decoder contexts BD[0..8] (R62) -/
  bd : Vector BoolCtx 9
  /-- the internal RAMs (R57 to R61) -/
  ram : Rams
  /-- CMDQ, head first (R63) -/
  cmdq : List Word
  /-- the command in execution; EXEC = 1 exactly when there is one (R64) -/
  running : Option Command
  /-- data memory (20_memory.md R100): the bytes that have been written; an unlisted address holds an unknown byte
  (Config.initialByte, log entry 1) -/
  mem : List Host.Cell
  /-- MODEL'S OWN: the HOST's actions still to come, in order (log entry 6) -/
  inputs : List Input
  /-- MODEL'S OWN: how many hard resets there have been; only the free value Config.ramAtReset is applied to it
  (log entry 2) -/
  epoch : Nat
  deriving DecidableEq, Repr

/-- The reasons a step stops with a fault. Both are model-only faults of 60_exceptions.md R510: the HOST broke a boot
duty and the spec gives the run no result. -/
inductive Fault where
  /-- UNINIT: a command reads a RAM entry that nothing has written since the hard reset (10_state.md R65). Raised by
  DETOK_MB (PROB, NZ_ABOVE, NZ_LEFT), DEQ_MB (COEF), IWHT, IDCT_ADD and RECON_MB (DQ). Safe: the hardware goes on with
  whatever the RAM holds, and the model stops. -/
  | uninit
  /-- ADDR_WRAP: a command forms a pixel address outside [0, 2^32) (20_memory.md R102). Raised by the commands that read
  or write pixels. Safe: the hardware goes on modulo 2^32, and the model stops. -/
  | addrWrap
  deriving DecidableEq, Repr

/-- The reasons a step is given no meaning. -/
inductive Refusal where
  /-- an instruction that has no meaning yet, by its mnemonic; raised by no arm of this model -/
  | notModelled (mnemonic : String)
  /-- a HOST access to the MMIO window that is not an aligned 32-bit word inside it (10_state.md R32: "A model refuses
  such an access"; 93 U5). Raised by the step that performs the HOST's access. Safe: the hardware ignores it. -/
  | mmioAccess
  /-- the HOST writes, while BUSY = 1, a byte of a covered partition, of slot CUR or of a reference slot (20_memory.md
  R117; 93 U3). Raised by the step that performs the HOST's write. Safe: the spec gives such a run no result. -/
  | hostRace
  deriving DecidableEq, Repr

/-- The three outcomes of a step of this machine. -/
abbrev Outcome := Host.Outcome State Fault Refusal

/-- The machine right after a hard reset (70_reset_and_hazards.md R540, R542), with the default ROM tables (00_scope.md
R10), no HOST action to come and nothing written to data memory. -/
def State.reset : State :=
  { rom := romTables,
    ieSync := false, ieErr := false, syncDone := false, cfgDrop := false, wide16 := false, err := false,
    errCode := 0, errInfo := 0, result := 0, eobTotal := 0,
    cfg := CfgRegs.reset, dqf := Vector.replicate 24 0, bd := Vector.replicate 9 BoolCtx.reset,
    ram := Rams.reset, cmdq := [], running := none, mem := [], inputs := [], epoch := 0 }

end Sys2Proof.Machine
end

