-- ==== Sys2Proof/Machine/Ops.lean ====
section
/-! DEFINITION. The named operations over memory, RAMs and registers, and the error entry. A sparse store (RAM or data
memory) is read and written here only; data memory is reached one byte at a time (20_memory.md R101). -/

namespace Sys2Proof.Machine

/-! ### Sparse stores -/

/-- The entry listed for a key; `none` is "unwritten" (10_state.md R65). -/
def Cells.get {α : Type} : Cells α → Nat → Option α
  | [], _ => none
  | (a, x) :: t, k => if a = k then some x else Cells.get t k

/-- Write an entry, keeping the keys rising. -/
def Cells.set {α : Type} : Cells α → Nat → α → Cells α
  | [], k, v => [(k, v)]
  | (a, x) :: t, k, v =>
    if k < a then (k, v) :: (a, x) :: t else if k = a then (k, v) :: t else (a, x) :: Cells.set t k v

/-- Entries 0..n-1 written, entry k with `f k`: a command that writes a whole RAM. -/
def Cells.fill {α : Type} (n : Nat) (f : Nat → α) : Cells α := (List.range n).map fun k => (k, f k)

/-- Every key of a store is above `lo` and the keys rise strictly. -/
def Cells.risingFrom {α : Type} : Nat → Cells α → Bool
  | _, [] => true
  | lo, (a, _) :: t => decide (lo ≤ a) && Cells.risingFrom (a + 1) t

/-- The canonical form of a store with `size` entries: keys strictly rising, each below `size`. Nothing else is needed
for equal contents to be equal lists, since an unlisted key holds no value at all. -/
def Cells.wf {α : Type} (size : Nat) (c : Cells α) : Bool :=
  Cells.risingFrom 0 c && c.all fun e => decide (e.1 < size)

/-! ### Data memory (20_memory.md R100, R101) -/

/-- The number of bytes of data memory: 2^P_ADDR_W (00_scope.md R9, 20_memory.md R100). -/
def memSize : Nat := 4294967296

/-- The canonical form of data memory: addresses strictly rising and inside the address space. An unlisted address
reads as the unknown byte Config.initialByte, which equals no written byte for all the model knows, so a written byte
is always listed. -/
def Memory.wf (m : List Host.Cell) : Bool := Cells.wf memSize m

/-- MemRead(addr, 1) (00_scope.md R15). -/
def readByte (m : List Host.Cell) (a : Nat) : Byte := (Cells.get m a).getD (Config.initialByte a)

/-- MemWrite(addr, 1, v) (00_scope.md R15). -/
def writeByte (m : List Host.Cell) (a : Nat) (v : Byte) : List Host.Cell := Cells.set m a v

/-! ### The nonzero flags (10_state.md R61) -/

/-- Flag `k` of a row; `none` is unwritten. -/
def nzGet (r : NzRow) (k : Nat) : Option Bool := fileGet r k none

/-- Write flag `k` of a row. -/
def nzSet (r : NzRow) (k : Nat) (b : Bool) : NzRow := fileSet r k (some b)

/-- All nine flags 0 (41_detokenizer.md R236, R237). -/
def NzRow.zero : NzRow := Vector.replicate 9 (some false)

/-- NZ_ABOVE[c]. -/
def nzAboveGet (a : Cells NzRow) (c : Nat) : NzRow := (Cells.get a c).getD NzRow.unwritten

/-! ### Named updates of State -/

/-- Data memory replaced. -/
def State.setMem (s : State) (m : List Host.Cell) : State := { s with mem := m }

/-- Context BD[i] replaced. -/
def State.setBd (s : State) (i : Nat) (c : BoolCtx) : State := { s with bd := fileSet s.bd i c }

/-- Context BD[i]. -/
def State.ctx (s : State) (i : Nat) : BoolCtx := fileGet s.bd i BoolCtx.reset

/-- RESULT written (10_state.md R38). -/
def State.setResult (s : State) (v : Nat) : State := { s with result := BitVec.ofNat 32 v }

/-- The DQ RAM replaced. -/
def State.setDq (s : State) (d : Cells (BitVec 32)) : State := { s with ram := { s.ram with dq := d } }

/-- STATUS.WIDE16 set when `b` holds, never cleared (10_state.md R36, 42_dequant.md R281). -/
def State.orWide (s : State) (b : Bool) : State := { s with wide16 := s.wide16 || b }

/-! ### Taking an error (60_exceptions.md R503) -/

/-- The error codes of 60_exceptions.md R501. -/
inductive ErrorCode where
  | illegalCmd | bdNotInit | posOob | badParam | mcOob | bdRange | refIsCur
  deriving DecidableEq, Repr

/-- STATUS.ERRCODE of an error (60_exceptions.md R501). -/
def ErrorCode.code : ErrorCode → BitVec 4
  | .illegalCmd => 1
  | .bdNotInit => 2
  | .posOob => 3
  | .badParam => 4
  | .mcOob => 5
  | .bdRange => 6
  | .refIsCur => 7

/-- The error entry (60_exceptions.md R503): ERR, ERRCODE and ERRINFO are written, CMDQ is emptied, EXEC becomes 0;
nothing else changes. `w` is the command word of the failing command. -/
def errorEntry (e : ErrorCode) (w : Word) (s : State) : State :=
  { s with err := true, errCode := e.code, errInfo := w, cmdq := [], running := none }

/-- `raise Error(e)` (00_scope.md R15) as the outcome of command `i`. -/
def raise (e : ErrorCode) (i : Instr) (s : State) : Outcome := .next (errorEntry e i.word s)

/-! ### Leaving the error state: the resets (60_exceptions.md R506) -/

/-- The soft reset when no command is executing (70_reset_and_hazards.md R541): every register and context at its reset
value, CMDQ empty; the RAMs and data memory are kept, and the ROM tables are no register. The HOST's actions to come are not the CORE's. -/
def softReset (s : State) : State :=
  { State.reset with rom := s.rom, ram := s.ram, mem := s.mem, inputs := s.inputs, epoch := s.epoch }

/-- The hard reset (70_reset_and_hazards.md R540): as the soft reset, and every RAM entry is unwritten again. -/
def hardReset (s : State) : State :=
  { State.reset with rom := s.rom, mem := s.mem, inputs := s.inputs, epoch := s.epoch + 1 }

/-! ### Pixels (20_memory.md R106) -/

/-- The planes of a slot (20_memory.md R106). -/
inductive Plane where
  | y | u | v
  deriving DecidableEq, Repr

/-- base(s, p): the address of pixel (0, 0) (20_memory.md R106, 10_state.md R45). -/
def planeBase (c : CfgRegs) (slot : Nat) : Plane → Nat
  | .y => (fileGet c.slotYBase slot 0).toNat
  | .u => (fileGet c.slotUBase slot 0).toNat
  | .v => (fileGet c.slotVBase slot 0).toNat

/-- pitch(s, p): the row pitch in bytes (20_memory.md R106, 10_state.md R46). -/
def planePitch (c : CfgRegs) (slot : Nat) : Plane → Nat
  | .y => bits (fileGet c.slotStride slot 0).toNat 15 0
  | .u | .v => bits (fileGet c.slotStride slot 0).toNat 31 16

/-- addr(s, p, x, y), an exact integer (20_memory.md R102, R106). -/
def pixelAddr (c : CfgRegs) (slot : Nat) (p : Plane) (x y : Int) : Int :=
  (planeBase c slot p : Int) + (planePitch c slot p : Int) * y + x

/-- The address of a pixel lies in data memory (20_memory.md R102). -/
def pixelOk (c : CfgRegs) (slot : Nat) (p : Plane) (x y : Int) : Bool :=
  decide (0 ≤ pixelAddr c slot p x y) && decide (pixelAddr c slot p x y < (memSize : Int))

/-- FM(s, p, x, y) as a number 0..255 (20_memory.md R106); meant where `pixelOk` holds. -/
def pixel (c : CfgRegs) (m : List Host.Cell) (slot : Nat) (p : Plane) (x y : Int) : Int :=
  ((readByte m (pixelAddr c slot p x y).toNat).toNat : Int)

/-- A position in a plane. -/
structure Point where
  plane : Plane
  x : Int
  y : Int
  deriving DecidableEq, Repr

/-- A pixel to be written. -/
structure PixelWrite where
  at_ : Point
  value : Int
  deriving DecidableEq, Repr

/-- FMW(s, p, x, y, v) (20_memory.md R106). -/
def writePixel (c : CfgRegs) (slot : Nat) (m : List Host.Cell) (w : PixelWrite) : List Host.Cell :=
  writeByte m (pixelAddr c slot w.at_.plane w.at_.x w.at_.y).toNat (BitVec.ofInt 8 w.value)

/-- A list of pixels written in order. -/
def writePixels (c : CfgRegs) (slot : Nat) (ws : List PixelWrite) (m : List Host.Cell) : List Host.Cell :=
  ws.foldl (writePixel c slot) m

/-- Every point's address lies in data memory. -/
def pointsOk (c : CfgRegs) (slot : Nat) (ps : List Point) : Bool := ps.all fun q => pixelOk c slot q.plane q.x q.y

/-- The points of an N x N area at (x0, y0), row by row (00_scope.md R16). -/
def areaPoints (p : Plane) (x0 y0 : Int) (n : Nat) : List Point :=
  (List.range (n * n)).map fun k => { plane := p, x := x0 + (k % n : Nat), y := y0 + (k / n : Nat) }

/-- The block B[r][c] written to the N x N area at (x0, y0), row by row. -/
def areaWrites (p : Plane) (x0 y0 : Int) (n : Nat) (b : Nat → Nat → Int) : List PixelWrite :=
  (List.range (n * n)).map fun k =>
    { at_ := { plane := p, x := x0 + (k % n : Nat), y := y0 + (k / n : Nat) }, value := b (k / n) (k % n) }

end Sys2Proof.Machine
end

