-- ==== Sys2Proof/Machine/Operands.lean ====
section
/-! DEFINITION. What the commands' operands name: the fields of the CFG registers (10_state.md R41 to R56), the geometry
of macroblocks, blocks and planes (20_memory.md R107, R108), the position check (47_control.md R476) and the meaning
of mode numbers (00_scope.md R19). -/

namespace Sys2Proof.Machine

/-! ### Fields of the CFG registers -/

/-- MBPOS.MB_COL (10_state.md R41). -/
def CfgRegs.mbCol (c : CfgRegs) : Nat := bits c.mbPos.toNat 11 0
/-- MBPOS.MB_ROW (R41). -/
def CfgRegs.mbRow (c : CfgRegs) : Nat := bits c.mbPos.toNat 27 16
/-- FRAME_DIM.MB_COLS (R42). -/
def CfgRegs.mbCols (c : CfgRegs) : Nat := bits c.frameDim.toNat 11 0
/-- FRAME_DIM.MB_ROWS (R42). -/
def CfgRegs.mbRows (c : CfgRegs) : Nat := bits c.frameDim.toNat 27 16
/-- DEC_CFG.KEY_FRAME (R43). -/
def CfgRegs.keyFrame (c : CfgRegs) : Bool := bit c.decCfg.toNat 0
/-- DEC_CFG.MC_BILINEAR (R43). -/
def CfgRegs.mcBilinear (c : CfgRegs) : Bool := bit c.decCfg.toNat 1
/-- DEC_CFG.CHROMA_FULLPIXEL (R43). -/
def CfgRegs.chromaFullpixel (c : CfgRegs) : Bool := bit c.decCfg.toNat 2
/-- DEC_CFG.BORDER_Y (R43). -/
def CfgRegs.borderY (c : CfgRegs) : Nat := bits c.decCfg.toNat 15 8
/-- The slot of role r: 0 CUR, 1 LAST, 2 GOLDEN, 3 ALTREF: ROLE_MAP[2r+1:2r] (R44). -/
def CfgRegs.roleSlot (c : CfgRegs) (r : Nat) : Nat := bits c.roleMap.toNat (2 * r + 1) (2 * r)
/-- ROLE_MAP.CUR (R44). -/
def CfgRegs.cur (c : CfgRegs) : Nat := c.roleSlot 0
/-- Q_BASE.BASE_Q (R49). -/
def CfgRegs.baseQ (c : CfgRegs) : Int := (bits c.qBase.toNat 6 0 : Nat)
/-- SEG_CFG.SEG_ENABLED (R51). -/
def CfgRegs.segEnabled (c : CfgRegs) : Bool := bit c.segCfg.toNat 0
/-- SEG_CFG.SEG_ABS (R51). -/
def CfgRegs.segAbs (c : CfgRegs) : Bool := bit c.segCfg.toNat 1
/-- LF_CFG.LEVEL (R53). -/
def CfgRegs.lfLevel (c : CfgRegs) : Nat := bits c.lfCfg.toNat 5 0
/-- LF_CFG.SHARPNESS (R53). -/
def CfgRegs.lfSharpness (c : CfgRegs) : Nat := bits c.lfCfg.toNat 10 8
/-- LF_CFG.SIMPLE (R53). -/
def CfgRegs.lfSimple (c : CfgRegs) : Bool := bit c.lfCfg.toNat 16
/-- LF_CFG.DELTA_EN (R53). -/
def CfgRegs.lfDeltaEn (c : CfgRegs) : Bool := bit c.lfCfg.toNat 17
/-- BD_START[i] (R47). -/
def CfgRegs.bdStartAt (c : CfgRegs) (i : Nat) : Nat := (fileGet c.bdStart i 0).toNat
/-- BD_SIZE[i] (R47). -/
def CfgRegs.bdSizeAt (c : CfgRegs) (i : Nat) : Nat := (fileGet c.bdSize i 0).toNat
/-- MV[b].COL, signed (R56). -/
def CfgRegs.mvCol (c : CfgRegs) (b : Nat) : Int := sext 16 (bits (fileGet c.mv b 0).toNat 15 0)
/-- MV[b].ROW, signed (R56). -/
def CfgRegs.mvRow (c : CfgRegs) (b : Nat) : Int := sext 16 (bits (fileGet c.mv b 0).toNat 31 16)

/-! ### Planes (20_memory.md R107) -/

/-- W_p. -/
def planeW (c : CfgRegs) : Plane → Int
  | .y => 16 * (c.mbCols : Int)
  | .u | .v => 8 * (c.mbCols : Int)

/-- H_p. -/
def planeH (c : CfgRegs) : Plane → Int
  | .y => 16 * (c.mbRows : Int)
  | .u | .v => 8 * (c.mbRows : Int)

/-- B_p. -/
def planeB (c : CfgRegs) : Plane → Int
  | .y => (c.borderY : Int)
  | .u | .v => ((c.borderY / 2 : Nat) : Int)

/-- The readable region R_p: the visible plane and its border. -/
def readable (c : CfgRegs) (p : Plane) (x y : Int) : Bool :=
  decide (-planeB c p ≤ x) && decide (x < planeW c p + planeB c p) &&
  decide (-planeB c p ≤ y) && decide (y < planeH c p + planeB c p)

/-! ### The macroblock and its blocks (20_memory.md R108) -/

/-- The macroblock's edge length in a plane: 16 luma, 8 chroma. -/
def mbSize : Plane → Nat
  | .y => 16
  | .u | .v => 8

/-- x0 or xc. -/
def mbX (c : CfgRegs) (p : Plane) : Int := (mbSize p : Int) * (c.mbCol : Int)

/-- y0 or yc. -/
def mbY (c : CfgRegs) (p : Plane) : Int := (mbSize p : Int) * (c.mbRow : Int)

/-- The plane of block b: 0..15 luma, 16..19 U, 20..23 V. -/
def blockPlane (b : Nat) : Plane := if b < 16 then .y else if b < 20 then .u else .v

/-- The left column of block b. -/
def blockX (c : CfgRegs) (b : Nat) : Int :=
  mbX c (blockPlane b) + 4 * ((if b < 16 then b % 4 else b % 2 : Nat) : Int)

/-- The top row of block b. -/
def blockY (c : CfgRegs) (b : Nat) : Int :=
  mbY c (blockPlane b) + 4 * ((if b < 16 then b / 4 else b % 4 / 2 : Nat) : Int)

/-- The position check (47_control.md R476). -/
def posOk (c : CfgRegs) : Bool :=
  decide (0 < c.mbCols) && decide (0 < c.mbRows) && decide (c.mbCol < c.mbCols) && decide (c.mbRow < c.mbRows)

/-! ### Modes (00_scope.md R19) -/

/-- The whole-block intra modes 0..3 of IPRED16 and IPREDUV (44_intra.md R339). -/
inductive IntraMode where
  | dc | v | h | tm
  deriving DecidableEq, Repr

/-- The mode a MODE field of IPRED16 or IPREDUV names; `none` for 4..7 (44_intra.md R340, R345). -/
def intraModeOf : Nat → Option IntraMode
  | 0 => some .dc
  | 1 => some .v
  | 2 => some .h
  | 3 => some .tm
  | _ => none

/-- The subblock modes 0..9 (00_scope.md R19). -/
inductive SubMode where
  | dc | tm | ve | he | ld | rd | vr | vl | hd | hu
  deriving DecidableEq, Repr

/-- The mode a BMODE field names; `none` for 10..15 (44_intra.md R350). -/
def subModeOf : Nat → Option SubMode
  | 0 => some .dc
  | 1 => some .tm
  | 2 => some .ve
  | 3 => some .he
  | 4 => some .ld
  | 5 => some .rd
  | 6 => some .vr
  | 7 => some .vl
  | 8 => some .hd
  | 9 => some .hu
  | _ => none

/-- Mode number of B_PRED (00_scope.md R19). -/
def modeBPred : Nat := 4
/-- Mode number of ZEROMV (00_scope.md R19). -/
def modeZeroMv : Nat := 7
/-- Mode number of SPLITMV (00_scope.md R19). -/
def modeSplitMv : Nat := 9

end Sys2Proof.Machine
end

