-- ==== Sys2Proof/Machine/Flags.lean ====
section
/-! DEFINITION. The status flags: how STATUS reads, what clears its bits, what sets WIDE16, and the interrupt line
(10_state.md R36, R64; 60_exceptions.md R511). -/

namespace Sys2Proof.Machine

/-- STATUS.BUSY (10_state.md R36, R64): CMDQ is not empty or a command is executing. -/
def busy (s : State) : Bool := !s.cmdq.isEmpty || s.running.isSome

/-- STATUS.BD_EXH (10_state.md R36): the OR of EXH over all contexts. -/
def bdExh (s : State) : Bool := s.bd.toList.any fun c => c.exh

/-- STATUS (10_state.md R36). -/
def statusWord (s : State) : Word :=
  BitVec.ofNat 32 (flagNat (busy s) + 2 * flagNat s.err + 4 * flagNat s.syncDone + 8 * flagNat s.cfgDrop +
    16 * flagNat s.wide16 + 32 * flagNat (bdExh s) + 256 * s.errCode.toNat)

/-- A HOST write to STATUS (10_state.md R31, R36): writing 1 clears SYNC_DONE, CFG_DROP or WIDE16; no other bit is
writable. -/
def statusWrite (v : Word) (s : State) : State :=
  { s with
    syncDone := s.syncDone && !bit v.toNat 2
    cfgDrop := s.cfgDrop && !bit v.toNat 3
    wide16 := s.wide16 && !bit v.toNat 4 }

/-- The interrupt output (60_exceptions.md R511). -/
def irq (s : State) : Bool := (s.syncDone && s.ieSync) || (s.err && s.ieErr)

/-- A value that leaves [-32768, 32767], the 16-bit range of the reference decoder (42_dequant.md R281, 43_transform.md
R303, R307). -/
def wide (v : Int) : Bool := decide (v < -32768) || decide (32767 < v)

/-- Some value of a list leaves the 16-bit range. -/
def anyWide (vs : List Int) : Bool := vs.any wide

end Sys2Proof.Machine
end

