-- ==== Sys2Proof/Machine/Regs.lean ====
section
/-! DEFINITION. The register map of the MMIO window (10_state.md section 2): which register stands at a byte offset,
what a HOST read of it returns, and writing a CFG register or a PROB word (shared by WREG and the HOST's writes). -/

namespace Sys2Proof.Machine

/-- The registers and window words of 10_state.md's map. -/
inductive Reg where
  | id | ctrl | status | cmd | result | eobTotal | errInfo
  | mbPos | frameDim | decCfg | roleMap
  | slotYBase (s : Nat) | slotUBase (s : Nat) | slotVBase (s : Nat) | slotStride (s : Nat)
  | bdStart (i : Nat) | bdSize (i : Nat)
  | bdValue (i : Nat) | bdState (i : Nat) | bdPos (i : Nat) | bdZfill (i : Nat)
  | qBase | qDelta0 | qDelta1 | segCfg | segQ | segLf | lfCfg | lfRefDelta | lfModeDelta
  /-- DQF[s][k], index 6*s + k -/
  | dqf (j : Nat)
  | mv (b : Nat)
  | eob (b : Nat)
  /-- word j of the PROB window: entries 4j..4j+3 -/
  | prob (j : Nat)
  /-- word j of the COEF window: entries 2j and 2j+1 -/
  | coef (j : Nat)
  /-- word j of the DQ window: entry j -/
  | dq (j : Nat)
  | nzLeft
  | nzAbove (c : Nat)
  /-- every other word of the window (10_state.md R31) -/
  | rsv
  deriving DecidableEq, Repr

/-- The register at word index `k` of the window (byte offset 4*k), from the map of 10_state.md section 2. -/
def regAtWord (k : Nat) : Reg :=
  if k = 0 then .id
  else if k = 1 then .ctrl
  else if k = 2 then .status
  else if k = 3 then .cmd
  else if k = 4 then .result
  else if k = 5 then .eobTotal
  else if k = 6 then .errInfo
  else if k = 7 then .mbPos
  else if k = 8 then .frameDim
  else if k = 9 then .decCfg
  else if k = 10 then .roleMap
  else if 0x10 ≤ k ∧ k < 0x20 then
    (if k % 4 = 0 then .slotYBase (k / 4 - 4)
     else if k % 4 = 1 then .slotUBase (k / 4 - 4)
     else if k % 4 = 2 then .slotVBase (k / 4 - 4)
     else .slotStride (k / 4 - 4))
  else if 0x20 ≤ k ∧ k < 0x32 then
    (if k % 2 = 0 then .bdStart (k / 2 - 16) else .bdSize (k / 2 - 16))
  else if 0x40 ≤ k ∧ k < 0x64 then
    (if k % 4 = 0 then .bdValue (k / 4 - 16)
     else if k % 4 = 1 then .bdState (k / 4 - 16)
     else if k % 4 = 2 then .bdPos (k / 4 - 16)
     else .bdZfill (k / 4 - 16))
  else if k = 0x80 then .qBase
  else if k = 0x81 then .qDelta0
  else if k = 0x82 then .qDelta1
  else if k = 0x83 then .segCfg
  else if k = 0x84 then .segQ
  else if k = 0x85 then .segLf
  else if k = 0x86 then .lfCfg
  else if k = 0x87 then .lfRefDelta
  else if k = 0x88 then .lfModeDelta
  else if 0x90 ≤ k ∧ k < 0xA8 then .dqf (k - 0x90)
  else if 0xC0 ≤ k ∧ k < 0xD0 then .mv (k - 0xC0)
  else if 0x100 ≤ k ∧ k < 0x119 then .eob (k - 0x100)
  else if 0x200 ≤ k ∧ k < 0x308 then .prob (k - 0x200)
  else if 0x400 ≤ k ∧ k < 0x4C8 then .coef (k - 0x400)
  else if 0x800 ≤ k ∧ k < 0x990 then .dq (k - 0x800)
  else if k = 0xC00 then .nzLeft
  else if 0x1000 ≤ k ∧ k < 0x2000 then .nzAbove (k - 0x1000)
  else .rsv

/-- The access type CFG (10_state.md R31): the registers WREG may write, and whose HOST writes need BUSY = 0; the PROB
window is one of them (R58). -/
def Reg.isCfg : Reg → Bool
  | .mbPos | .frameDim | .decCfg | .roleMap => true
  | .slotYBase _ | .slotUBase _ | .slotVBase _ | .slotStride _ => true
  | .bdStart _ | .bdSize _ => true
  | .qBase | .qDelta0 | .qDelta1 | .segCfg | .segQ | .segLf | .lfCfg | .lfRefDelta | .lfModeDelta => true
  | .mv _ | .prob _ => true
  | .id | .ctrl | .status | .cmd | .result | .eobTotal | .errInfo => false
  | .bdValue _ | .bdState _ | .bdPos _ | .bdZfill _ => false
  | .dqf _ | .eob _ | .coef _ | .dq _ | .nzLeft | .nzAbove _ | .rsv => false

/-- The bits of a CFG register that a field names (10_state.md R41 to R56); the others are RSV: they read 0 and a write
leaves them 0 (R31). -/
def Reg.mask : Reg → Word
  | .mbPos | .frameDim => 0x0FFF0FFF
  | .decCfg => 0x0000FF07
  | .roleMap => 0x000000FF
  | .qBase => 0x0000007F
  | .qDelta1 => 0x000000FF
  | .segCfg => 0x00000003
  | .lfCfg => 0x0003073F
  | _ => 0xFFFFFFFF

/-- The four bytes of PROB word `j` take the four bytes of `d` (10_state.md R58, 47_control.md R473). -/
def writeProbWord (p : Cells Byte) (j : Nat) (d : Word) : Cells Byte :=
  let put (q : Cells Byte) (k : Nat) : Cells Byte := Cells.set q (4 * j + k) (BitVec.ofNat 8 (byteLane d k))
  put (put (put (put p 0) 1) 2) 3

/-- A CFG register takes the value `d`, keeping only its defined fields (47_control.md R473); registers that are not CFG
do not change. -/
def writeCfg (s : State) (r : Reg) (d : Word) : State :=
  let v := d &&& r.mask
  let c := s.cfg
  match r with
  | .mbPos => { s with cfg := { c with mbPos := v } }
  | .frameDim => { s with cfg := { c with frameDim := v } }
  | .decCfg => { s with cfg := { c with decCfg := v } }
  | .roleMap => { s with cfg := { c with roleMap := v } }
  | .slotYBase i => { s with cfg := { c with slotYBase := fileSet c.slotYBase i v } }
  | .slotUBase i => { s with cfg := { c with slotUBase := fileSet c.slotUBase i v } }
  | .slotVBase i => { s with cfg := { c with slotVBase := fileSet c.slotVBase i v } }
  | .slotStride i => { s with cfg := { c with slotStride := fileSet c.slotStride i v } }
  | .bdStart i => { s with cfg := { c with bdStart := fileSet c.bdStart i v } }
  | .bdSize i => { s with cfg := { c with bdSize := fileSet c.bdSize i v } }
  | .qBase => { s with cfg := { c with qBase := v } }
  | .qDelta0 => { s with cfg := { c with qDelta0 := v } }
  | .qDelta1 => { s with cfg := { c with qDelta1 := v } }
  | .segCfg => { s with cfg := { c with segCfg := v } }
  | .segQ => { s with cfg := { c with segQ := v } }
  | .segLf => { s with cfg := { c with segLf := v } }
  | .lfCfg => { s with cfg := { c with lfCfg := v } }
  | .lfRefDelta => { s with cfg := { c with lfRefDelta := v } }
  | .lfModeDelta => { s with cfg := { c with lfModeDelta := v } }
  | .mv b => { s with cfg := { c with mv := fileSet c.mv b v } }
  | .prob j => { s with ram := { s.ram with prob := writeProbWord s.ram.prob j d } }
  | .id | .ctrl | .status | .cmd | .result | .eobTotal | .errInfo => s
  | .bdValue _ | .bdState _ | .bdPos _ | .bdZfill _ => s
  | .dqf _ | .eob _ | .coef _ | .dq _ | .nzLeft | .nzAbove _ | .rsv => s

/-! ### What a HOST read returns -/

/-- CTRL as it reads: SOFT_RESET reads 0 (10_state.md R35). -/
def ctrlWord (s : State) : Word := BitVec.ofNat 32 (2 * flagNat s.ieSync + 4 * flagNat s.ieErr)

/-- BD_STATE[i] (10_state.md R48). -/
def bdStateWord (c : BoolCtx) : Word :=
  BitVec.ofNat 32 (c.range.toNat + 256 * c.bitCount.toNat + 65536 * flagNat c.valid + 131072 * flagNat c.exh)

/-- The unknown word that an unwritten entry reads as, at word index `k` of the window (log entry 2). -/
def freeWord (s : State) (k : Nat) : Word := Config.ramAtReset s.epoch (4 * k)

/-- A lane of an entry: the written value, or that lane of the unknown word. -/
def laneOr (x : Option Nat) (free : Word) (width k : Nat) : Nat :=
  2 ^ (width * k) * x.getD (bits free.toNat (width * k + width - 1) (width * k))

/-- PROB word `j` (10_state.md R58). -/
def probWord (s : State) (j : Nat) : Word :=
  let lane (k : Nat) : Nat :=
    laneOr ((Cells.get s.ram.prob (4 * j + k)).map BitVec.toNat) (freeWord s (0x200 + j)) 8 k
  BitVec.ofNat 32 (lane 0 + lane 1 + lane 2 + lane 3)

/-- COEF word `j` (10_state.md R59). -/
def coefWord (s : State) (j : Nat) : Word :=
  let lane (k : Nat) : Nat :=
    laneOr ((Cells.get s.ram.coef (2 * j + k)).map BitVec.toNat) (freeWord s (0x400 + j)) 16 k
  BitVec.ofNat 32 (lane 0 + lane 1)

/-- A row of nonzero flags as it reads (10_state.md R61): a row with an unwritten flag reads as the unknown word in every
bit that is not a written flag. -/
def nzWord (r : NzRow) (free : Word) : Word :=
  let flag (k : Nat) : Nat := laneOr ((nzGet r k).map flagNat) free 1 k
  let high : Nat := if r.toList.all fun f => f.isSome then 0 else 512 * bits free.toNat 31 9
  BitVec.ofNat 32 ((List.range 9).foldl (fun a k => a + flag k) 0 + high)

/-- What a HOST read of a register returns (10_state.md R34 to R61); `k` is its word index in the window. No register has
a read side effect (20_memory.md R111). -/
def readReg (s : State) (k : Nat) : Reg → Word
  | .id => 0x56503801
  | .ctrl => ctrlWord s
  | .status => statusWord s
  | .cmd => 0
  | .result => s.result
  | .eobTotal => s.eobTotal.setWidth 32
  | .errInfo => s.errInfo
  | .mbPos => s.cfg.mbPos
  | .frameDim => s.cfg.frameDim
  | .decCfg => s.cfg.decCfg
  | .roleMap => s.cfg.roleMap
  | .slotYBase i => fileGet s.cfg.slotYBase i 0
  | .slotUBase i => fileGet s.cfg.slotUBase i 0
  | .slotVBase i => fileGet s.cfg.slotVBase i 0
  | .slotStride i => fileGet s.cfg.slotStride i 0
  | .bdStart i => fileGet s.cfg.bdStart i 0
  | .bdSize i => fileGet s.cfg.bdSize i 0
  | .bdValue i => (s.ctx i).value.setWidth 32
  | .bdState i => bdStateWord (s.ctx i)
  | .bdPos i => BitVec.ofNat 32 (s.ctx i).pos
  | .bdZfill i => (s.ctx i).zfill
  | .qBase => s.cfg.qBase
  | .qDelta0 => s.cfg.qDelta0
  | .qDelta1 => s.cfg.qDelta1
  | .segCfg => s.cfg.segCfg
  | .segQ => s.cfg.segQ
  | .segLf => s.cfg.segLf
  | .lfCfg => s.cfg.lfCfg
  | .lfRefDelta => s.cfg.lfRefDelta
  | .lfModeDelta => s.cfg.lfModeDelta
  | .dqf j => (fileGet s.dqf j 0).setWidth 32
  | .mv b => fileGet s.cfg.mv b 0
  | .eob b => ((Cells.get s.ram.eob b).map fun e => e.setWidth 32).getD (freeWord s k)
  | .prob j => probWord s j
  | .coef j => coefWord s j
  | .dq j => (Cells.get s.ram.dq j).getD (freeWord s k)
  | .nzLeft => nzWord s.ram.nzLeft (freeWord s k)
  | .nzAbove c => nzWord (nzAboveGet s.ram.nzAbove c) (freeWord s k)
  | .rsv => 0

end Sys2Proof.Machine
end

