-- ==== Sys2Proof/Machine/Control.lean ====
section
/-! DEFINITION. The control commands NOP, SYNC, WREG and MB_SET (47_control.md R470, R472, R473, R475). -/

namespace Sys2Proof.Machine

/-- NOP (R470): no effect. -/
def execNop (s : State) : Outcome := .next s

/-- SYNC (R472): STATUS.SYNC_DONE <- 1. Commands complete in order, so every earlier effect is already in State. -/
def execSync (s : State) : Outcome := .next { s with syncDone := true }

/-- WREG (R473): the target must be a CFG register or a word of the PROB window, else BAD_PARAM. -/
def execWreg (widx : Nat) (data : Word) (s : State) : Outcome :=
  let r := regAtWord widx
  if r.isCfg then .next (writeCfg s r data) else raise .badParam (.wreg widx data) s

/-- MB_SET (R475): the target must lie inside FRAME_DIM, else POS_OOB. -/
def execMbSet (row col : Nat) (s : State) : Outcome :=
  let c := s.cfg
  if 0 < c.mbCols ∧ 0 < c.mbRows ∧ col < c.mbCols ∧ row < c.mbRows then
    .next { s with cfg := { c with mbPos := BitVec.ofNat 32 (65536 * row + col) } }
  else raise .posOob (.mbSet row col) s

end Sys2Proof.Machine
end

