-- ==== Sys2Proof/Machine/Dequant.lean ====
section
/-! DEFINITION. The dequantizer: QSETUP and DEQ_MB (42_dequant.md R270 to R281). -/

namespace Sys2Proof.Machine

/-- The quantizer index of segment s (R271). -/
def segQuant (c : CfgRegs) (s : Nat) : Int :=
  if !c.segEnabled then c.baseQ
  else if c.segAbs then clamp (signedLane c.segQ s) 0 127
  else clamp (c.baseQ + signedLane c.segQ s) 0 127

/-- qidx(s, d) (R272). -/
def qidx (c : CfgRegs) (s : Nat) (d : Int) : Nat := (clamp (segQuant c s + d) 0 127).toNat

/-- Factor k of segment s: 0 Y1DC, 1 Y1AC, 2 Y2DC, 3 Y2AC, 4 UVDC, 5 UVAC (R272, R273). -/
def quantFactor (T : Config.Tables) (c : CfgRegs) (s : Nat) : Nat → Nat
  | 0 => dcStep T (qidx c s (signedLane c.qDelta0 0))
  | 1 => acStep T (qidx c s 0)
  | 2 => 2 * dcStep T (qidx c s (signedLane c.qDelta0 1))
  | 3 => max (acStep T (qidx c s (signedLane c.qDelta0 2)) * 155 / 100) 8
  | 4 => min (dcStep T (qidx c s (signedLane c.qDelta0 3))) 132
  | _ => acStep T (qidx c s (signedLane c.qDelta1 0))

/-- The factor table of all segments (R275): entry 6*s + k. With tables other than the defaults a factor is taken modulo
2^16, the width of its field (log entry 7). -/
def quantTable (T : Config.Tables) (c : CfgRegs) : Vector (BitVec 16) 24 :=
  (List.range 24).foldl (fun v j => fileSet v j (BitVec.ofNat 16 (quantFactor T c (j / 6) (j % 6))))
    (Vector.replicate 24 0)

/-- DQF[s][k] (10_state.md R55). -/
def dqfAt (s : State) (seg k : Nat) : Nat := (fileGet s.dqf (6 * seg + k) 0).toNat

/-- Which factor coefficient i of block b takes (R276). -/
def factorIndex (b i : Nat) : Nat :=
  let dc := if b < 16 then 0 else if b < 24 then 4 else 2
  if i = 0 then dc else dc + 1

/-- COEF[b][i] as a signed number; `none` is unwritten (10_state.md R59, R65). -/
def coefAt (r : Rams) (b i : Nat) : Option Int := (Cells.get r.coef (16 * b + i)).map BitVec.toInt

/-- DQ[b][i] as a signed number; `none` is unwritten (10_state.md R60, R65). -/
def dqAt (r : Rams) (b i : Nat) : Option Int := (Cells.get r.dq (16 * b + i)).map BitVec.toInt

/-- Every COEF entry has been written. -/
def coefWritten (r : Rams) : Bool := (List.range 400).all fun j => (Cells.get r.coef j).isSome

/-- The exact product of coefficient i of block b for segment `seg` (R278). -/
def dequantValue (s : State) (seg b i : Nat) : Int :=
  (coefAt s.ram b i).getD 0 * (dqfAt s seg (factorIndex b i) : Int)

/-- The 400 products, key 16*b + i. -/
def dequantAt (s : State) (seg j : Nat) : Int := dequantValue s seg (j / 16) (j % 16)

/-- QSETUP (R275). -/
def execQsetup (s : State) : Outcome := .next { s with dqf := quantTable s.rom s.cfg }

/-- DEQ_MB (R280): UNINIT when a COEF entry is unwritten. -/
def execDeqMb (seg : Nat) (s : State) : Outcome :=
  if coefWritten s.ram then
    .next ((s.setDq (Cells.fill 400 fun j => BitVec.ofInt 32 (dequantAt s seg j))).orWide
      (anyWide ((List.range 400).map (dequantAt s seg))))
  else .fault .uninit

end Sys2Proof.Machine
end

