-- ==== Sys2Proof/Machine/Entropy.lean ====
section
/-! DEFINITION. The bool decoder: the primitives of 40_entropy.md R200 to R206 on one context, and the commands BD_INIT,
BD_BOOL and BD_LIT (R203, R207, R211). A primitive reads data memory and no other context (R200, R215). -/

namespace Sys2Proof.Machine

/-- The number of contexts: P_NCTX (00_scope.md R9). -/
def numCtx : Nat := 9

/-- R201: the next compressed byte, or a zero byte past the end. -/
def nextByte (m : List Host.Cell) (c : BoolCtx) : Byte × BoolCtx :=
  if c.pos < c.stop then (readByte m c.pos, { c with pos := c.pos + 1 })
  else (0, { c with exh := true, zfill := if c.zfill = 0xFFFFFFFF then c.zfill else c.zfill + 1 })

/-- R202: the split of probability `p` at range `r`. -/
def split (r p : Nat) : Nat := 1 + (r - 1) * p / 256

/-- R204: the decision step of `bool_decode`. -/
def boolDecide (p : Nat) (c : BoolCtx) : Bool × BoolCtx :=
  let sp := split c.range.toNat p
  if 256 * sp ≤ c.value.toNat then
    (true, { c with
      range := BitVec.ofNat 8 (c.range.toNat - sp), value := BitVec.ofNat 16 (c.value.toNat - 256 * sp) })
  else (false, { c with range := BitVec.ofNat 8 sp })

/-- R205: one turn of the renormalisation loop: value*2 mod 2^16, range*2, and a byte after eight shifts. -/
def shiftOnce (m : List Host.Cell) (c : BoolCtx) : BoolCtx :=
  let c1 := { c with value := c.value <<< 1, range := c.range <<< 1, bitCount := c.bitCount + 1 }
  if c1.bitCount = 0 then
    let r := nextByte m c1
    { r.2 with value := r.2.value ||| r.1.setWidth 16 }
  else c1

/-- R205: the renormalisation loop. Seven turns bring any range from 1 up to 128 or more. -/
def renorm (m : List Host.Cell) : Nat → BoolCtx → BoolCtx
  | 0, c => c
  | k + 1, c => if c.range.toNat < 128 then renorm m k (shiftOnce m c) else c

/-- `bool_decode(i, p)` on a context (R204, R205). -/
def boolDecode (m : List Host.Cell) (p : Nat) (c : BoolCtx) : Bool × BoolCtx :=
  let r := boolDecide p c
  (r.1, renorm m 7 r.2)

/-- `read_literal` (R206), `v` being the bits read so far. -/
def readLiteral (m : List Host.Cell) : Nat → Nat → BoolCtx → Nat × BoolCtx
  | 0, v, c => (v, c)
  | k + 1, v, c =>
    let r := boolDecode m 128 c
    readLiteral m k (2 * v + flagNat r.1) r.2

/-- R203: a context set up over the bytes [start, start + size). -/
def initCtx (m : List Host.Cell) (start size : Nat) : BoolCtx :=
  let c := { BoolCtx.reset with pos := start, stop := start + size, valid := true, start := start }
  let r0 := nextByte m c
  let r1 := nextByte m r0.2
  { r1.2 with value := BitVec.ofNat 16 (256 * r0.1.toNat + r1.1.toNat), range := 255, bitCount := 0 }

/-- R200: the context exists and is usable. -/
def ctxUsable (s : State) (i : Nat) : Bool := decide (i < numCtx) && (s.ctx i).valid

/-- BD_INIT (R203). -/
def execBdInit (ctx : Nat) (s : State) : Outcome :=
  if ¬ ctx < numCtx then raise .bdNotInit (.bdInit ctx) s
  else if memSize < s.cfg.bdStartAt ctx + s.cfg.bdSizeAt ctx then raise .bdRange (.bdInit ctx) s
  else .next (s.setBd ctx (initCtx s.mem (s.cfg.bdStartAt ctx) (s.cfg.bdSizeAt ctx)))

/-- BD_BOOL (R207). -/
def execBdBool (ctx prob : Nat) (s : State) : Outcome :=
  if ctxUsable s ctx then
    let r := boolDecode s.mem prob (s.ctx ctx)
    .next ((s.setBd ctx r.2).setResult (flagNat r.1))
  else raise .bdNotInit (.bdBool ctx prob) s

/-- BD_LIT (R211). -/
def execBdLit (ctx n : Nat) (s : State) : Outcome :=
  if ¬ ctxUsable s ctx then raise .bdNotInit (.bdLit ctx n) s
  else if 32 < n then raise .badParam (.bdLit ctx n) s
  else
    let r := readLiteral s.mem n 0 (s.ctx ctx)
    .next ((s.setBd ctx r.2).setResult r.1)

end Sys2Proof.Machine
end

