-- ==== Sys2Proof/Machine/Detok.lean ====
section
/-! DEFINITION. The coefficient detokenizer: DETOK_FRAME, DETOK_ROW and DETOK_MB (41_detokenizer.md R230 to R248). A
helper answers `none` when it would read an entry that nothing has written since the hard reset (10_state.md R65,
R247). -/

namespace Sys2Proof.Machine

/-! ### Tokens (R232, R233) -/

/-- Entry `k` of the probability row PROB[t][band][ctx] (10_state.md R58). -/
def probEntry (prob : Cells Byte) (t band ctx k : Nat) : Option Nat :=
  (Cells.get prob (((t * 8 + band) * 3 + ctx) * 11 + k)).map BitVec.toNat

/-- `bool_decode` at a probability that may be unwritten. -/
def decodeAt (m : List Host.Cell) (p : Option Nat) (c : BoolCtx) : Option (Bool × BoolCtx) :=
  p.map fun q => boolDecode m q c

/-- The extra bits of a category, most significant first (R233). -/
def extraBits (m : List Host.Cell) : List Nat → Nat → BoolCtx → Nat × BoolCtx
  | [], e, c => (e, c)
  | q :: qs, e, c =>
    let r := boolDecode m q c
    extraBits m qs (2 * e + flagNat r.1) r.2

/-- The magnitude of a token of category `k` (0 for CAT1): its base and its extra bits (R233). -/
def categoryValue (T : Config.Tables) (m : List Host.Cell) (k : Nat) (c : BoolCtx) : Nat × BoolCtx :=
  let r := extraBits m (catProbs T k) 0 c
  (catBaseOf T k + r.1, r.2)

/-- `decode_magnitude(i, p)` (R233); `p k` is entry k of the probability row. -/
def decodeMagnitude (T : Config.Tables) (m : List Host.Cell) (p : Nat → Option Nat) (c : BoolCtx) :
    Option (Nat × BoolCtx) :=
  (decodeAt m (p 2) c).bind fun r2 =>
  if !r2.1 then some (1, r2.2) else
  (decodeAt m (p 3) r2.2).bind fun r3 =>
  if !r3.1 then
    (decodeAt m (p 4) r3.2).bind fun r4 =>
    if !r4.1 then some (2, r4.2) else
    (decodeAt m (p 5) r4.2).bind fun r5 => some (3 + flagNat r5.1, r5.2)
  else
    (decodeAt m (p 6) r3.2).bind fun r6 =>
    if !r6.1 then
      (decodeAt m (p 7) r6.2).bind fun r7 => some (categoryValue T m (flagNat r7.1) r7.2)
    else
      (decodeAt m (p 8) r6.2).bind fun r8 =>
      (decodeAt m (p (9 + flagNat r8.1)) r8.2).bind fun r9 =>
      some (categoryValue T m (2 + 2 * flagNat r8.1 + flagNat r9.1) r9.2)

/-! ### One block (R234, R235) -/

/-- What decoding a block leaves: its eob, the context and the COEF RAM. -/
structure BlockResult where
  eob : Nat
  ctx : BoolCtx
  coef : Cells (BitVec 16)
  deriving DecidableEq, Repr

/-- The loop of `decode_block` (R234) at scan position `n` with `left` positions to go, probability context `ctx`, and
`afterZero` when the last token was ZERO. -/
def blockLoop (T : Config.Tables) (m : List Host.Cell) (prob : Cells Byte) (t b : Nat) :
    (left n ctx : Nat) → (afterZero : Bool) → BoolCtx → Cells (BitVec 16) → Option BlockResult
  | 0, n, _, _, c, coef => some { eob := n, ctx := c, coef := coef }
  | left + 1, n, ctx, afterZero, c, coef =>
    let p := probEntry prob t (scanBand T n) ctx
    (if afterZero then some (true, c) else decodeAt m (p 0) c).bind fun r0 =>
    if !r0.1 then some { eob := n, ctx := r0.2, coef := coef } else
    (decodeAt m (p 1) r0.2).bind fun r1 =>
    if !r1.1 then blockLoop T m prob t b left (n + 1) 0 true r1.2 coef else
    (decodeMagnitude T m p r1.2).bind fun v =>
    let sg := boolDecode m 128 v.2
    let x : Int := if sg.1 then -(v.1 : Int) else (v.1 : Int)
    let coef1 := Cells.set coef (16 * b + scanIndex T n) (BitVec.ofInt 16 x)
    blockLoop T m prob t b left (n + 1) (if v.1 = 1 then 1 else 2) false sg.2 coef1

/-- `decode_block(i, t, b, first, ctx0)` (R234). -/
def decodeBlock (T : Config.Tables) (m : List Host.Cell) (prob : Cells Byte) (t b first ctx0 : Nat) (c : BoolCtx)
    (coef : Cells (BitVec 16)) : Option BlockResult :=
  blockLoop T m prob t b (16 - first) first ctx0 false c coef

/-! ### The blocks of a macroblock (R231, R239) -/

/-- A block to decode: its number, its type, its first position, and the bits of its above and left flags (R239, R242). -/
structure BlockJob where
  block : Nat
  type : Nat
  first : Nat
  aboveFlag : Nat
  leftFlag : Nat
  deriving DecidableEq, Repr

/-- The Y2 block (R231, R239). -/
def y2Job : BlockJob := { block := 24, type := 1, first := 0, aboveFlag := 8, leftFlag := 8 }

/-- Y block b: type 0 from position 1 with a Y2 block, type 3 from position 0 without (R231). -/
def yJob (y2 : Bool) (b : Nat) : BlockJob :=
  { block := b, type := if y2 then 0 else 3, first := if y2 then 1 else 0, aboveFlag := b % 4, leftFlag := b / 4 }

/-- U block 16 + j (R231, R239). -/
def uJob (j : Nat) : BlockJob :=
  { block := 16 + j, type := 2, first := 0, aboveFlag := 4 + j % 2, leftFlag := 4 + j / 2 }

/-- V block 20 + j (R231, R239). -/
def vJob (j : Nat) : BlockJob :=
  { block := 20 + j, type := 2, first := 0, aboveFlag := 6 + j % 2, leftFlag := 6 + j / 2 }

/-- The blocks DETOK_MB decodes, in order (R239). -/
def blockJobs (y2 : Bool) : List BlockJob :=
  (if y2 then [y2Job] else []) ++ (List.range 16).map (yJob y2) ++ (List.range 4).map uJob ++ (List.range 4).map vJob

/-- What the blocks decoded so far have left: the context, COEF, EOB, the flags A and L, and the total. -/
structure DetokAcc where
  ctx : BoolCtx
  coef : Cells (BitVec 16)
  eob : Cells (BitVec 5)
  above : NzRow
  left : NzRow
  total : Nat
  deriving DecidableEq, Repr

/-- One block: the first context from its two flags (R239), the decode (R234), then EOB, the flags and the total
(R241). -/
def runJob (T : Config.Tables) (m : List Host.Cell) (prob : Cells Byte) (j : BlockJob) (a : DetokAcc) :
    Option DetokAcc :=
  (nzGet a.above j.aboveFlag).bind fun fa =>
  (nzGet a.left j.leftFlag).bind fun fl =>
  (decodeBlock T m prob j.type j.block j.first (flagNat fa + flagNat fl) a.ctx a.coef).bind fun r =>
  let nz := decide (j.first < r.eob)
  some { ctx := r.ctx, coef := r.coef, eob := Cells.set a.eob j.block (BitVec.ofNat 5 r.eob),
         above := nzSet a.above j.aboveFlag nz, left := nzSet a.left j.leftFlag nz,
         total := a.total + (r.eob - j.first) }

/-- The blocks of a list, in order. -/
def runJobs (T : Config.Tables) (m : List Host.Cell) (prob : Cells Byte) : List BlockJob → DetokAcc → Option DetokAcc
  | [], a => some a
  | j :: js, a => (runJob T m prob j a).bind fun a1 => runJobs T m prob js a1

/-- COEF with every entry 0 (R238). -/
def coefZero : Cells (BitVec 16) := Cells.fill 400 fun _ => 0

/-- EOB with every entry 0 (R238). -/
def eobZero : Cells (BitVec 5) := Cells.fill 25 fun _ => 0

/-- The flags of a skipped macroblock (R243): Y, U and V cleared, Y2 cleared only when it has a Y2 block. -/
def skipRow (y2 : Bool) (r : NzRow) : NzRow :=
  (List.range (if y2 then 9 else 8)).foldl (fun q k => nzSet q k false) r

/-- What a completed DETOK_MB leaves (R238, R246). -/
def State.setDetok (s : State) (col : Nat) (coef : Cells (BitVec 16)) (eob : Cells (BitVec 5)) (above left : NzRow)
    (total : Nat) : State :=
  { s with
    eobTotal := BitVec.ofNat 10 total
    ram := { s.ram with coef := coef, eob := eob, nzAbove := Cells.set s.ram.nzAbove col above, nzLeft := left } }

/-! ### The commands -/

/-- DETOK_FRAME (R236): every flag of every column becomes 0. -/
def execDetokFrame (s : State) : Outcome :=
  .next { s with ram := { s.ram with nzAbove := Cells.fill 4096 fun _ => NzRow.zero } }

/-- DETOK_ROW (R237): every flag of NZ_LEFT becomes 0. -/
def execDetokRow (s : State) : Outcome := .next { s with ram := { s.ram with nzLeft := NzRow.zero } }

/-- DETOK_MB (R238): the position check, then R200 on the context unless the macroblock is skipped. -/
def execDetokMb (ctx : Nat) (y2 skip : Bool) (s : State) : Outcome :=
  let col := s.cfg.mbCol
  let above := nzAboveGet s.ram.nzAbove col
  let left := s.ram.nzLeft
  if ¬ posOk s.cfg then raise .posOob (.detokMb ctx y2 skip) s
  else if skip then
    .next (s.setDetok col coefZero eobZero (skipRow y2 above) (skipRow y2 left) 0)
  else if ¬ ctxUsable s ctx then raise .bdNotInit (.detokMb ctx y2 skip) s
  else
    match runJobs s.rom s.mem s.ram.prob (blockJobs y2)
        { ctx := s.ctx ctx, coef := coefZero, eob := eobZero, above := above, left := left, total := 0 } with
    | none => .fault .uninit
    | some a => .next ((s.setDetok col a.coef a.eob a.above a.left a.total).setBd ctx a.ctx)

/-! ### The token tree as an array (R213, R232) -/

/-- The tokens of R232. -/
inductive Token where
  | eob | zero | one | two | three | four | cat1 | cat2 | cat3 | cat4 | cat5 | cat6
  deriving DecidableEq, Repr

/-- The tree of R232: entry i is a leaf (a token) or the index of a child pair. -/
def tokenTree : List (Token ⊕ Nat) :=
  [.inl .eob, .inr 2, .inl .zero, .inr 4, .inl .one, .inr 6, .inr 8, .inr 12, .inl .two, .inr 10, .inl .three,
   .inl .four, .inr 14, .inr 16, .inl .cat1, .inl .cat2, .inr 18, .inr 20, .inl .cat3, .inl .cat4, .inl .cat5, .inl .cat6]

/-- The walk of R213 from the pair at index `i`: node i uses probability p[i >> 1]; at most `fuel` bits. -/
def treeWalk (tree : List (Token ⊕ Nat)) (m : List Host.Cell) (p : Nat → Option Nat) :
    (fuel i : Nat) → BoolCtx → Option (Token × BoolCtx)
  | 0, _, _ => none
  | fuel + 1, i, c =>
    (decodeAt m (p (i / 2)) c).bind fun r =>
    match tree[i + flagNat r.1]? with
    | some (.inl t) => some (t, r.2)
    | some (.inr k) => treeWalk tree m p fuel k r.2
    | none => none

/-- The magnitude a token other than EOB and ZERO stands for, with its extra bits (R232, R233). -/
def tokenValue (T : Config.Tables) (m : List Host.Cell) : Token → BoolCtx → Nat × BoolCtx
  | .eob, c | .zero, c => (0, c)
  | .one, c => (1, c)
  | .two, c => (2, c)
  | .three, c => (3, c)
  | .four, c => (4, c)
  | .cat1, c => categoryValue T m 0 c
  | .cat2, c => categoryValue T m 1 c
  | .cat3, c => categoryValue T m 2 c
  | .cat4, c => categoryValue T m 3 c
  | .cat5, c => categoryValue T m 4 c
  | .cat6, c => categoryValue T m 5 c

end Sys2Proof.Machine
end

