-- ==== Sys2Proof/Machine/Inter.lean ====
section
/-! DEFINITION. Inter prediction: MC_MB (45_inter.md R380 to R400). -/

namespace Sys2Proof.Machine

/-- A vector: the components (row, col). -/
structure Mv where
  row : Int
  col : Int
  deriving DecidableEq, Repr

/-! ### Vectors (R383 to R386) -/

/-- e_left (R383). -/
def edgeLeft (c : CfgRegs) : Int := -(4 * mbX c .y)
/-- e_right (R383). -/
def edgeRight (c : CfgRegs) : Int := 4 * (planeW c .y - 16 - mbX c .y)
/-- e_top (R383). -/
def edgeTop (c : CfgRegs) : Int := -(4 * mbY c .y)
/-- e_bottom (R383). -/
def edgeBottom (c : CfgRegs) : Int := 4 * (planeH c .y - 16 - mbY c .y)

/-- uclamp(v, lo, hi) (R384). -/
def uclamp (v lo hi : Int) : Int := if v < lo - 76 then lo - 64 else if hi + 72 < v then hi + 64 else v

/-- uclamp_mv (R384). -/
def uclampMv (c : CfgRegs) (v : Mv) : Mv :=
  { row := uclamp v.row (edgeTop c) (edgeBottom c), col := uclamp v.col (edgeLeft c) (edgeRight c) }

/-- MV[b] (10_state.md R56). -/
def mvReg (c : CfgRegs) (b : Nat) : Mv := { row := c.mvRow b, col := c.mvCol b }

/-- The vector of luma block b (R385). -/
def lumaMv (c : CfgRegs) (split clamp : Bool) (b : Nat) : Mv :=
  let v := mvReg c (if split then b else 0)
  if clamp then uclampMv c v else v

/-- The rounded average of a chroma block's four luma components, from their sum (R386). -/
def chromaAvg (sum : Int) : Int :=
  let t := 2 * sum
  if 0 ≤ t then Int.tdiv (t + 4) 8 else Int.tdiv (t - 4) 8

/-- v - (v mod 8) (R386). -/
def fullPixel (v : Int) : Int := v - v % 8

/-- The vector of chroma block j = 0..3 (R386), in eighths of a chroma pixel. -/
def chromaMv (c : CfgRegs) (split clamp : Bool) (j : Nat) : Mv :=
  let k := 8 * (j / 2) + 2 * (j % 2)
  let v : Mv :=
    if split then
      { row := chromaAvg (c.mvRow k + c.mvRow (k + 1) + c.mvRow (k + 4) + c.mvRow (k + 5))
        col := chromaAvg (c.mvCol k + c.mvCol (k + 1) + c.mvCol (k + 4) + c.mvCol (k + 5)) }
    else lumaMv c false clamp 0
  let w : Mv := if c.chromaFullpixel then { row := fullPixel v.row, col := fullPixel v.col } else v
  if split && clamp then uclampMv c w else w

/-! ### Position and phase (R387) -/

/-- Where one pixel is predicted from: integer position and phases in eighths. -/
structure Source where
  ix : Int
  iy : Int
  fx : Nat
  fy : Nat
  deriving DecidableEq, Repr

/-- R387: quarter-pel luma, eighth-pel chroma. -/
def sourceOf (p : Plane) (x y : Int) (v : Mv) : Source :=
  match p with
  | .y => { ix := x + asr v.col 2, iy := y + asr v.row 2, fx := 2 * (v.col % 4).toNat, fy := 2 * (v.row % 4).toNat }
  | .u | .v => { ix := x + asr v.col 3, iy := y + asr v.row 3, fx := (v.col % 8).toNat, fy := (v.row % 8).toNat }

/-- The vector that pixel (x, y) of the macroblock in plane p uses: (dx, dy) is its offset in the macroblock (R395). -/
def pixelMv (c : CfgRegs) (split clamp : Bool) (p : Plane) (dx dy : Nat) : Mv :=
  match p with
  | .y => lumaMv c split clamp (4 * (dy / 4) + dx / 4)
  | .u | .v => chromaMv c split clamp (2 * (dy / 4) + dx / 4)

/-- The source of the pixel at offset (dx, dy) of the macroblock in plane p. -/
def pixelSource (c : CfgRegs) (split clamp : Bool) (p : Plane) (dx dy : Nat) : Source :=
  sourceOf p (mbX c p + (dx : Int)) (mbY c p + (dy : Int)) (pixelMv c split clamp p dx dy)

/-! ### Interpolation (R388, R389) -/

/-- Six-tap prediction of one pixel (R388); `rf x y` is RF. -/
def sixTap (T : Config.Tables) (rf : Int → Int → Int) (q : Source) : Int :=
  let h (j : Int) : Int :=
    if q.fx = 0 then rf q.ix j
    else clamp255 (asr (((List.range 6).map fun k => sixTapAt T q.fx k * rf (q.ix - 2 + (k : Int)) j).sum + 64) 7)
  if q.fy = 0 then h q.iy
  else clamp255 (asr (((List.range 6).map fun k => sixTapAt T q.fy k * h (q.iy - 2 + (k : Int))).sum + 64) 7)

/-- Bilinear prediction of one pixel (R389). At phase 0 it copies the pixel (R390, R397): with a T_BILINEAR whose row 0 is
not (128, 0) that is the model's choice over R389's formula (DESIGN CHOICE, log entry 7). -/
def bilinear (T : Config.Tables) (rf : Int → Int → Int) (q : Source) : Int :=
  let h (j : Int) : Int :=
    if q.fx = 0 then rf q.ix j
    else asr (bilinearAt T q.fx 0 * rf q.ix j + bilinearAt T q.fx 1 * rf (q.ix + 1) j + 64) 7
  if q.fy = 0 then h q.iy
  else asr (bilinearAt T q.fy 0 * h q.iy + bilinearAt T q.fy 1 * h (q.iy + 1) + 64) 7

/-- The filter DEC_CFG.MC_BILINEAR selects (R381, R391). -/
def interpolate (T : Config.Tables) (bil : Bool) (rf : Int → Int → Int) (q : Source) : Int :=
  if bil then bilinear T rf q else sixTap T rf q

/-! ### Footprint (R390, R392) -/

/-- The offsets an axis reads, from `footLo` to `footHi` (R390). -/
def footLo (bil : Bool) (f : Nat) : Int := if f = 0 then 0 else if bil then 0 else -2
def footHi (bil : Bool) (f : Nat) : Int := if f = 0 then 0 else if bil then 1 else 3

/-- The corner of the footprint with the least coordinates, and the one with the greatest (R390): the footprint is every
point between them. -/
def footMin (bil : Bool) (p : Plane) (q : Source) : Point :=
  { plane := p, x := q.ix + footLo bil q.fx, y := q.iy + footLo bil q.fy }
def footMax (bil : Bool) (p : Plane) (q : Source) : Point :=
  { plane := p, x := q.ix + footHi bil q.fx, y := q.iy + footHi bil q.fy }

/-- Every pixel of the footprint lies in the readable region, which is a rectangle: its two corners do (R392). -/
def footReadable (c : CfgRegs) (p : Plane) (q : Source) : Bool :=
  let lo := footMin c.mcBilinear p q
  let hi := footMax c.mcBilinear p q
  readable c p lo.x lo.y && readable c p hi.x hi.y

/-- Every address of the footprint lies in data memory: an address grows with x and with y, so its two corners do
(20_memory.md R102, R106). -/
def footAddrOk (c : CfgRegs) (slot : Nat) (p : Plane) (q : Source) : Bool :=
  pointsOk c slot [footMin c.mcBilinear p q, footMax c.mcBilinear p q]

/-- The offsets (dx, dy) of the macroblock's pixels in plane p. -/
def mbOffsets (p : Plane) : List (Nat × Nat) :=
  (List.range (mbSize p * mbSize p)).map fun k => (k % mbSize p, k / mbSize p)

/-- A check of every predicted pixel's source, luma and chroma. -/
def allSources (c : CfgRegs) (split clamp : Bool) (ok : Plane → Source → Bool) : Bool :=
  [Plane.y, .u, .v].all fun p => (mbOffsets p).all fun d => ok p (pixelSource c split clamp p d.1 d.2)

/-! ### The command (R395) -/

/-- The predicted pixel at offset (dx, dy) of plane p, read from slot `sr` of memory m. -/
def interPred (T : Config.Tables) (c : CfgRegs) (m : List Host.Cell) (sr : Nat) (split clamp : Bool) (p : Plane)
    (dy dx : Nat) : Int :=
  interpolate T c.mcBilinear (pixel c m sr p) (pixelSource c split clamp p dx dy)

/-- The pixels written in plane p. -/
def interWrites (T : Config.Tables) (c : CfgRegs) (m : List Host.Cell) (sr : Nat) (split clamp : Bool) (p : Plane) :
    List PixelWrite :=
  areaWrites p (mbX c p) (mbY c p) (mbSize p) (interPred T c m sr split clamp p)

/-- The 384 pixels of the macroblock. -/
def mbAllPoints (c : CfgRegs) : List Point :=
  [Plane.y, .u, .v].flatMap fun p => areaPoints p (mbX c p) (mbY c p) (mbSize p)

/-- MC_MB (R395): all reads precede all writes; predY, then predU, then predV are written. -/
def execMcMb (ref : Nat) (split clamp : Bool) (s : State) : Outcome :=
  let c := s.cfg
  let sr := c.roleSlot ref
  if ref = 0 then raise .badParam (.mcMb ref split clamp) s
  else if ¬ posOk c then raise .posOob (.mcMb ref split clamp) s
  else if sr = c.cur then raise .refIsCur (.mcMb ref split clamp) s
  else if ¬ allSources c split clamp (footReadable c) then raise .mcOob (.mcMb ref split clamp) s
  else if ¬ (allSources c split clamp (footAddrOk c sr) && pointsOk c c.cur (mbAllPoints c)) then .fault .addrWrap
  else .next (s.setMem (writePixels c c.cur
    ([Plane.y, .u, .v].flatMap (interWrites s.rom c s.mem sr split clamp)) s.mem))

end Sys2Proof.Machine
end

