-- ==== Sys2Proof/Machine/Intra.lean ====
section
/-! DEFINITION. Intra prediction: IPRED16, IPREDUV and IPRED4 (44_intra.md R330 to R359). A prediction is a function of
the row r and the column c, computed whole from the neighbour samples before any pixel is written (R334). -/

namespace Sys2Proof.Machine

/-- avg2 (R330). -/
def avg2 (a b : Int) : Int := asr (a + b + 1) 1

/-- avg3 (R330). -/
def avg3 (a b c : Int) : Int := asr (a + 2 * b + c + 2) 2

/-! ### Neighbour samples (R331) -/

/-- Edge(p, x, y) (R331). -/
def edge (c : CfgRegs) (m : List Host.Cell) (p : Plane) (x y : Int) : Int :=
  if y < 0 then 127
  else if x < 0 then 129
  else if planeW c p ≤ x then pixel c m c.cur p (planeW c p - 1) y
  else pixel c m c.cur p x y

/-- The pixel that Edge(p, x, y) reads; none where it synthesises the value (R331). -/
def edgePoints (c : CfgRegs) (p : Plane) (x y : Int) : List Point :=
  if y < 0 ∨ x < 0 then [] else [{ plane := p, x := if planeW c p ≤ x then planeW c p - 1 else x, y := y }]

/-- Availability of the row above (R333). -/
def upAvail (c : CfgRegs) : Bool := decide (0 < c.mbRow)

/-- Availability of the column left (R333). -/
def leftAvail (c : CfgRegs) : Bool := decide (0 < c.mbCol)

/-! ### Whole-block modes (R335 to R338) -/

/-- The samples of an area: A above, L left, P above-left. -/
structure Samples where
  above : List Int
  left : List Int
  corner : Int
  deriving DecidableEq, Repr

/-- A[k]. -/
def Samples.a (q : Samples) (k : Nat) : Int := q.above[k]?.getD 0

/-- L[k]. -/
def Samples.l (q : Samples) (k : Nat) : Int := q.left[k]?.getD 0

/-- The samples of the macroblock's area of plane p. -/
def mbSamples (c : CfgRegs) (m : List Host.Cell) (p : Plane) : Samples :=
  let n := mbSize p
  { above := (List.range n).map fun k => edge c m p (mbX c p + (k : Int)) (mbY c p - 1)
    left := (List.range n).map fun k => edge c m p (mbX c p - 1) (mbY c p + (k : Int))
    corner := edge c m p (mbX c p - 1) (mbY c p - 1) }

/-- DC_PRED's value (R335): n is the area's size. -/
def dcValue (n : Nat) (up left : Bool) (q : Samples) : Int :=
  let k := Nat.log2 n
  match up, left with
  | true, true => asr (q.above.sum + q.left.sum + (n : Int)) (k + 1)
  | true, false => asr (q.above.sum + ((n / 2 : Nat) : Int)) k
  | false, true => asr (q.left.sum + ((n / 2 : Nat) : Int)) k
  | false, false => 128

/-- The prediction B[r][c] of a whole-block mode (R335 to R338). -/
def wholePred (n : Nat) (up left : Bool) (mode : IntraMode) (q : Samples) (r c : Nat) : Int :=
  match mode with
  | .dc => dcValue n up left q
  | .v => q.a c
  | .h => q.l r
  | .tm => clamp255 (q.l r + q.a c - q.corner)

/-- The prediction of the macroblock's area of plane p. -/
def mbPred (c : CfgRegs) (m : List Host.Cell) (mode : IntraMode) (p : Plane) : Nat → Nat → Int :=
  wholePred (mbSize p) (upAvail c) (leftAvail c) mode (mbSamples c m p)

/-- The pixels that the samples above the area are read from. -/
def abovePoints (c : CfgRegs) (p : Plane) : List Point :=
  (List.range (mbSize p)).flatMap fun k => edgePoints c p (mbX c p + (k : Int)) (mbY c p - 1)

/-- The pixels that the samples left of the area are read from. -/
def leftPoints (c : CfgRegs) (p : Plane) : List Point :=
  (List.range (mbSize p)).flatMap fun k => edgePoints c p (mbX c p - 1) (mbY c p + (k : Int))

/-- The pixels a whole-block mode reads (R335 to R338): DC reads only the sides that are available. -/
def wholeReads (c : CfgRegs) (mode : IntraMode) (p : Plane) : List Point :=
  match mode with
  | .dc => (if upAvail c then abovePoints c p else []) ++ (if leftAvail c then leftPoints c p else [])
  | .v => abovePoints c p
  | .h => leftPoints c p
  | .tm => abovePoints c p ++ leftPoints c p ++ edgePoints c p (mbX c p - 1) (mbY c p - 1)

/-- The pixels of the macroblock in plane p. -/
def mbPoints (c : CfgRegs) (p : Plane) : List Point := areaPoints p (mbX c p) (mbY c p) (mbSize p)

/-- The pixels written by a whole-block prediction of plane p (R334). -/
def wholeWrites (c : CfgRegs) (m : List Host.Cell) (mode : IntraMode) (p : Plane) : List PixelWrite :=
  areaWrites p (mbX c p) (mbY c p) (mbSize p) (mbPred c m mode p)

/-- Predict and write the planes of a list, every prediction computed before the first write (R334). -/
def predictPlanes (ps : List Plane) (mode : IntraMode) (s : State) : Outcome :=
  let c := s.cfg
  if pointsOk c c.cur (ps.flatMap fun p => wholeReads c mode p ++ mbPoints c p) then
    .next (s.setMem (writePixels c c.cur (ps.flatMap (wholeWrites c s.mem mode)) s.mem))
  else .fault .addrWrap

/-- IPRED16 (R340). -/
def execIpred16 (mode : Nat) (s : State) : Outcome :=
  match intraModeOf mode with
  | none => raise .badParam (.ipred16 mode) s
  | some md => if posOk s.cfg then predictPlanes [.y] md s else raise .posOob (.ipred16 mode) s

/-- IPREDUV (R345): U first, then V. -/
def execIpredUv (mode : Nat) (s : State) : Outcome :=
  match intraModeOf mode with
  | none => raise .badParam (.ipredUv mode) s
  | some md => if posOk s.cfg then predictPlanes [.u, .v] md s else raise .posOob (.ipredUv mode) s

/-! ### 4x4 modes (R346 to R357) -/

/-- The place of above sample k of luma block b (R346): the above-right samples of the right column come from the row
above the macroblock. -/
def subAbovePlace (c : CfgRegs) (b k : Nat) : Int × Int :=
  if k < 4 then (blockX c b + (k : Int), blockY c b - 1)
  else if b % 4 = 3 then (mbX c .y + 16 + ((k - 4 : Nat) : Int), mbY c .y - 1)
  else (blockX c b + 4 + ((k - 4 : Nat) : Int), blockY c b - 1)

/-- The samples of luma block b (R346). -/
def subSamples (c : CfgRegs) (m : List Host.Cell) (b : Nat) : Samples :=
  { above := (List.range 8).map fun k => edge c m .y (subAbovePlace c b k).1 (subAbovePlace c b k).2
    left := (List.range 4).map fun k => edge c m .y (blockX c b - 1) (blockY c b + (k : Int))
    corner := edge c m .y (blockX c b - 1) (blockY c b - 1) }

/-- The pixels those samples are read from. -/
def subReads (c : CfgRegs) (b : Nat) : List Point :=
  ((List.range 8).flatMap fun k => edgePoints c .y (subAbovePlace c b k).1 (subAbovePlace c b k).2) ++
  ((List.range 4).flatMap fun k => edgePoints c .y (blockX c b - 1) (blockY c b + (k : Int))) ++
  edgePoints c .y (blockX c b - 1) (blockY c b - 1)

/-- E[0..8], the edge from bottom-left to top-right (R346). -/
def Samples.e (q : Samples) (k : Nat) : Int :=
  if k < 4 then q.l (3 - k) else if k = 4 then q.corner else q.a (k - 5)

/-- avg3e(k) (R354). -/
def Samples.avg3e (q : Samples) (k : Nat) : Int := avg3 (q.e (k - 1)) (q.e k) (q.e (k + 1))
/-- avg2e(k) (R354). -/
def Samples.avg2e (q : Samples) (k : Nat) : Int := avg2 (q.e k) (q.e (k + 1))
/-- avg3a(k) (R355). -/
def Samples.avg3a (q : Samples) (k : Nat) : Int := avg3 (q.a (k - 1)) (q.a k) (q.a (k + 1))
/-- avg2a(k) (R355). -/
def Samples.avg2a (q : Samples) (k : Nat) : Int := avg2 (q.a k) (q.a (k + 1))

/-- B_DC_PRED (R347). -/
def subDc (q : Samples) : Int :=
  asr (q.a 0 + q.a 1 + q.a 2 + q.a 3 + q.l 0 + q.l 1 + q.l 2 + q.l 3 + 4) 3

/-- B_VE_PRED at column c (R349): A'[-1] is P. -/
def subVe (q : Samples) (c : Nat) : Int :=
  avg3 (if c = 0 then q.corner else q.a (c - 1)) (q.a c) (q.a (c + 1))

/-- B_HE_PRED at row r (R351). -/
def subHe (q : Samples) : Nat → Int
  | 0 => avg3 q.corner (q.l 0) (q.l 1)
  | 1 => avg3 (q.l 0) (q.l 1) (q.l 2)
  | 2 => avg3 (q.l 1) (q.l 2) (q.l 3)
  | _ => avg3 (q.l 2) (q.l 3) (q.l 3)

/-- B_LD_PRED (R352). -/
def subLd (q : Samples) (r c : Nat) : Int :=
  if r + c < 6 then avg3 (q.a (r + c)) (q.a (r + c + 1)) (q.a (r + c + 2)) else avg3 (q.a 6) (q.a 7) (q.a 7)

/-- B_RD_PRED (R353). -/
def subRd (q : Samples) (r c : Nat) : Int := avg3 (q.e (3 + c - r)) (q.e (4 + c - r)) (q.e (5 + c - r))

/-- B_VR_PRED (R354). -/
def subVr (q : Samples) (r c : Nat) : Int :=
  match r, c with
  | 3, 0 => q.avg3e 2
  | 2, 0 => q.avg3e 3
  | 3, 1 | 1, 0 => q.avg3e 4
  | 2, 1 | 0, 0 => q.avg2e 4
  | 3, 2 | 1, 1 => q.avg3e 5
  | 2, 2 | 0, 1 => q.avg2e 5
  | 3, 3 | 1, 2 => q.avg3e 6
  | 2, 3 | 0, 2 => q.avg2e 6
  | 1, 3 => q.avg3e 7
  | _, _ => q.avg2e 7

/-- B_VL_PRED (R355): the last two entries do not follow the diagonal pattern. -/
def subVl (q : Samples) (r c : Nat) : Int :=
  match r, c with
  | 0, 0 => q.avg2a 0
  | 1, 0 => q.avg3a 1
  | 2, 0 | 0, 1 => q.avg2a 1
  | 1, 1 | 3, 0 => q.avg3a 2
  | 2, 1 | 0, 2 => q.avg2a 2
  | 3, 1 | 1, 2 => q.avg3a 3
  | 2, 2 | 0, 3 => q.avg2a 3
  | 3, 2 | 1, 3 => q.avg3a 4
  | 2, 3 => q.avg3a 5
  | _, _ => q.avg3a 6

/-- B_HD_PRED (R356). -/
def subHd (q : Samples) (r c : Nat) : Int :=
  match r, c with
  | 3, 0 => q.avg2e 0
  | 3, 1 => q.avg3e 1
  | 2, 0 | 3, 2 => q.avg2e 1
  | 2, 1 | 3, 3 => q.avg3e 2
  | 2, 2 | 1, 0 => q.avg2e 2
  | 2, 3 | 1, 1 => q.avg3e 3
  | 1, 2 | 0, 0 => q.avg2e 3
  | 1, 3 | 0, 1 => q.avg3e 4
  | 0, 2 => q.avg3e 5
  | _, _ => q.avg3e 6

/-- B_HU_PRED (R357). -/
def subHu (q : Samples) (r c : Nat) : Int :=
  match r, c with
  | 0, 0 => avg2 (q.l 0) (q.l 1)
  | 0, 1 => avg3 (q.l 0) (q.l 1) (q.l 2)
  | 0, 2 | 1, 0 => avg2 (q.l 1) (q.l 2)
  | 0, 3 | 1, 1 => avg3 (q.l 1) (q.l 2) (q.l 3)
  | 1, 2 | 2, 0 => avg2 (q.l 2) (q.l 3)
  | 1, 3 | 2, 1 => avg3 (q.l 2) (q.l 3) (q.l 3)
  | _, _ => q.l 3

/-- The prediction B[r][c] of a subblock mode (R347 to R349, R351 to R357). -/
def subPred (mode : SubMode) (q : Samples) (r c : Nat) : Int :=
  match mode with
  | .dc => subDc q
  | .tm => clamp255 (q.l r + q.a c - q.corner)
  | .ve => subVe q c
  | .he => subHe q r
  | .ld => subLd q r c
  | .rd => subRd q r c
  | .vr => subVr q r c
  | .vl => subVl q r c
  | .hd => subHd q r c
  | .hu => subHu q r c

/-- Predict and write luma block b (R334, R350). -/
def predictSub (b : Nat) (mode : SubMode) (s : State) : Outcome :=
  let c := s.cfg
  if pointsOk c c.cur (subReads c b ++ areaPoints .y (blockX c b) (blockY c b) 4) then
    .next (s.setMem (writePixels c c.cur
      (areaWrites .y (blockX c b) (blockY c b) 4 (subPred mode (subSamples c s.mem b))) s.mem))
  else .fault .addrWrap

/-- IPRED4 (R350). -/
def execIpred4 (blk bmode : Nat) (s : State) : Outcome :=
  if 15 < blk then raise .badParam (.ipred4 blk bmode) s
  else
    match subModeOf bmode with
    | none => raise .badParam (.ipred4 blk bmode) s
    | some md => if posOk s.cfg then predictSub blk md s else raise .posOob (.ipred4 blk bmode) s

end Sys2Proof.Machine
end

