-- ==== Sys2Proof/Machine/LoopFilter.lean ====
section
/-! DEFINITION. The deblocking loop filter: LF_MB (46_loopfilter.md R420 to R439). -/

namespace Sys2Proof.Machine

/-! ### Level, limits and threshold (R420 to R425) -/

/-- lvl_seg (R420). -/
def segLevel (c : CfgRegs) (seg : Nat) : Int :=
  if !c.segEnabled then (c.lfLevel : Int)
  else if c.segAbs then clamp (signedLane c.segLf seg) 0 63
  else clamp ((c.lfLevel : Int) + signedLane c.segLf seg) 0 63

/-- mdelta (R420): the mode delta of an intra macroblock (ref 0) or of an inter one. -/
def modeDelta (c : CfgRegs) (ref mode : Nat) : Int :=
  if ref = 0 then (if mode = modeBPred then signedLane c.lfModeDelta 0 else 0)
  else if mode = modeZeroMv then signedLane c.lfModeDelta 1
  else if mode = modeSplitMv then signedLane c.lfModeDelta 3
  else signedLane c.lfModeDelta 2

/-- The effective level (R420). -/
def filterLevel (c : CfgRegs) (seg ref mode : Nat) : Int :=
  if !c.lfDeltaEn then segLevel c seg
  else clamp (segLevel c seg + signedLane c.lfRefDelta ref + modeDelta c ref mode) 0 63

/-- I (R422). -/
def interiorLimit (lvl : Int) (sharp : Nat) : Int :=
  let i0 := asr lvl ((if 0 < sharp then 1 else 0) + (if 4 < sharp then 1 else 0))
  let i1 := if 0 < sharp then min i0 (9 - (sharp : Int)) else i0
  max i1 1

/-- E_mb (R423). -/
def edgeLimitMb (lvl i : Int) : Int := 2 * (lvl + 2) + i

/-- E_in (R423). -/
def edgeLimitIn (lvl i : Int) : Int := 2 * lvl + i

/-- t (R425). -/
def hevThreshold (lvl : Int) (key : Bool) : Int :=
  if 40 ≤ lvl then (if key then 2 else 3)
  else if 20 ≤ lvl then (if key then 1 else 2)
  else if 15 ≤ lvl then 1
  else 0

/-! ### The filters on one line (R426 to R431) -/

/-- The eight pixels across an edge (R426). -/
structure Line8 where
  p3 : Int
  p2 : Int
  p1 : Int
  p0 : Int
  q0 : Int
  q1 : Int
  q2 : Int
  q3 : Int
  deriving DecidableEq, Repr

/-- |a|. -/
def absI (a : Int) : Int := (a.natAbs : Int)

/-- smask(E) (R427). -/
def simpleMask (l : Line8) (e : Int) : Bool :=
  decide (absI (l.p0 - l.q0) * 2 + asr (absI (l.p1 - l.q1)) 1 ≤ e)

/-- mask(E, I) (R427). -/
def normalMask (l : Line8) (e i : Int) : Bool :=
  decide (absI (l.p3 - l.p2) ≤ i) && decide (absI (l.p2 - l.p1) ≤ i) && decide (absI (l.p1 - l.p0) ≤ i) &&
  decide (absI (l.q1 - l.q0) ≤ i) && decide (absI (l.q2 - l.q1) ≤ i) && decide (absI (l.q3 - l.q2) ≤ i) &&
  simpleMask l e

/-- hev(t) (R427). -/
def hev (l : Line8) (t : Int) : Bool := decide (t < absI (l.p1 - l.p0)) || decide (t < absI (l.q1 - l.q0))

/-- The inner-edge filter of the normal family (R428). -/
def innerFilter (l : Line8) (e i t : Int) : Line8 :=
  let m := normalMask l e i
  let h := hev l t
  let ps1 := l.p1 - 128
  let ps0 := l.p0 - 128
  let qs0 := l.q0 - 128
  let qs1 := l.q1 - 128
  let f0 := if h then sclamp8 (ps1 - qs1) else 0
  let f := if m then sclamp8 (f0 + 3 * (qs0 - ps0)) else 0
  let f1 := asr (sclamp8 (f + 4)) 3
  let f2 := asr (sclamp8 (f + 3)) 3
  let a := asr (f1 + 1) 1
  { l with
    q0 := sclamp8 (qs0 - f1) + 128
    p0 := sclamp8 (ps0 + f2) + 128
    q1 := if h then l.q1 else sclamp8 (qs1 - a) + 128
    p1 := if h then l.p1 else sclamp8 (ps1 + a) + 128 }

/-- The macroblock-edge filter of the normal family (R429). -/
def mbFilter (l : Line8) (e i t : Int) : Line8 :=
  let m := normalMask l e i
  let h := hev l t
  let ps2 := l.p2 - 128
  let ps1 := l.p1 - 128
  let qs1 := l.q1 - 128
  let qs2 := l.q2 - 128
  let f := if m then sclamp8 (sclamp8 (ps1 - qs1) + 3 * ((l.q0 - 128) - (l.p0 - 128))) else 0
  let g := if h then f else 0
  let f1 := asr (sclamp8 (g + 4)) 3
  let f2 := asr (sclamp8 (g + 3)) 3
  let qs0 := sclamp8 ((l.q0 - 128) - f1)
  let ps0 := sclamp8 ((l.p0 - 128) + f2)
  let w := if h then 0 else f
  let u27 := sclamp8 (asr (63 + w * 27) 7)
  let u18 := sclamp8 (asr (63 + w * 18) 7)
  let u9 := sclamp8 (asr (63 + w * 9) 7)
  { l with
    q0 := sclamp8 (qs0 - u27) + 128
    p0 := sclamp8 (ps0 + u27) + 128
    q1 := sclamp8 (qs1 - u18) + 128
    p1 := sclamp8 (ps1 + u18) + 128
    q2 := sclamp8 (qs2 - u9) + 128
    p2 := sclamp8 (ps2 + u9) + 128 }

/-- The simple filter (R431). -/
def simpleFilter (l : Line8) (e : Int) : Line8 :=
  let f :=
    if simpleMask l e then
      sclamp8 (sclamp8 ((l.p1 - 128) - (l.q1 - 128)) + 3 * ((l.q0 - 128) - (l.p0 - 128)))
    else 0
  { l with
    q0 := sclamp8 ((l.q0 - 128) - asr (sclamp8 (f + 4)) 3) + 128
    p0 := sclamp8 ((l.p0 - 128) + asr (sclamp8 (f + 3)) 3) + 128 }

/-! ### Edges (R433, R434) -/

/-- What the filters of one LF_MB use: the limits, the threshold and the family (R430). -/
structure FilterParams where
  simple : Bool
  limit : Int
  edgeMb : Int
  edgeIn : Int
  threshold : Int
  deriving DecidableEq, Repr

/-- The parameters at level `lvl` (R422, R423, R425; LF_CFG.SIMPLE). -/
def filterParams (c : CfgRegs) (lvl : Int) : FilterParams :=
  let i := interiorLimit lvl c.lfSharpness
  { simple := c.lfSimple, limit := i, edgeMb := edgeLimitMb lvl i, edgeIn := edgeLimitIn lvl i,
    threshold := hevThreshold lvl c.keyFrame }

/-- One line of an edge: the plane, whether the edge is vertical, whether it is a macroblock edge, and the position of
q0 (R426). -/
structure EdgeLine where
  plane : Plane
  vertical : Bool
  mbEdge : Bool
  x : Int
  y : Int
  deriving DecidableEq, Repr

/-- Pixel k of a line, k = 0..7 for p3, p2, p1, p0, q0, q1, q2, q3 (R426). -/
def linePoint (e : EdgeLine) (k : Nat) : Point :=
  if e.vertical then { plane := e.plane, x := e.x - 4 + (k : Int), y := e.y }
  else { plane := e.plane, x := e.x, y := e.y - 4 + (k : Int) }

/-- The lines of one edge: at offset `off` into the macroblock, one line for each row or column of it. -/
def edgeLines (c : CfgRegs) (p : Plane) (vertical mbEdge : Bool) (off : Int) : List EdgeLine :=
  (List.range (mbSize p)).map fun k =>
    if vertical then
      { plane := p, vertical := true, mbEdge := mbEdge, x := mbX c p + off, y := mbY c p + (k : Int) }
    else { plane := p, vertical := false, mbEdge := mbEdge, x := mbX c p + (k : Int), y := mbY c p + off }

/-- The macroblock edges of one direction: Y, then U and V in the normal family only (R434 items 1 and 3). -/
def mbEdgeGroup (c : CfgRegs) (simple vertical : Bool) : List EdgeLine :=
  edgeLines c .y vertical true 0 ++
  (if simple then [] else edgeLines c .u vertical true 0 ++ edgeLines c .v vertical true 0)

/-- The inner edges of one direction (R434 items 2 and 4). -/
def innerEdgeGroup (c : CfgRegs) (simple vertical : Bool) : List EdgeLine :=
  edgeLines c .y vertical false 4 ++ edgeLines c .y vertical false 8 ++ edgeLines c .y vertical false 12 ++
  (if simple then [] else edgeLines c .u vertical false 4 ++ edgeLines c .v vertical false 4)

/-- skip_inner (R433). -/
def skipInner (mode : Nat) (nocoef : Bool) : Bool := nocoef && !(mode == modeBPred) && !(mode == modeSplitMv)

/-- The edge list of the macroblock, line by line, in order (R434). -/
def mbEdgeLines (c : CfgRegs) (mode : Nat) (nocoef : Bool) : List EdgeLine :=
  let inner := !skipInner mode nocoef
  (if 0 < c.mbCol then mbEdgeGroup c c.lfSimple true else []) ++
  (if inner then innerEdgeGroup c c.lfSimple true else []) ++
  (if 0 < c.mbRow then mbEdgeGroup c c.lfSimple false else []) ++
  (if inner then innerEdgeGroup c c.lfSimple false else [])

/-- The filter an edge uses (R434). -/
def filterLine (f : FilterParams) (mbEdge : Bool) (l : Line8) : Line8 :=
  if f.simple then simpleFilter l (if mbEdge then f.edgeMb else f.edgeIn)
  else if mbEdge then mbFilter l f.edgeMb f.limit f.threshold
  else innerFilter l f.edgeIn f.limit f.threshold

/-- The pixels of a line in slot CUR of memory m. -/
def readLine (c : CfgRegs) (m : List Host.Cell) (e : EdgeLine) : Line8 :=
  let px (k : Nat) : Int := pixel c m c.cur (linePoint e k).plane (linePoint e k).x (linePoint e k).y
  { p3 := px 0, p2 := px 1, p1 := px 2, p0 := px 3, q0 := px 4, q1 := px 5, q2 := px 6, q3 := px 7 }

/-- The changed pixels of a line, to be written: "write the changed pixels" (R430). DESIGN CHOICE (log entry 16): they are
written in the order p2, p1, p0, q0, q1, q2, which R430 leaves open; it shows only where two of them share a byte. -/
def changedPixels (e : EdgeLine) (old new : Line8) : List PixelWrite :=
  let put (k : Nat) (o n : Int) : List PixelWrite := if n = o then [] else [{ at_ := linePoint e k, value := n }]
  put 1 old.p2 new.p2 ++ put 2 old.p1 new.p1 ++ put 3 old.p0 new.p0 ++
  put 4 old.q0 new.q0 ++ put 5 old.q1 new.q1 ++ put 6 old.q2 new.q2

/-- One line read, filtered and written back (R430). -/
def filterOne (c : CfgRegs) (f : FilterParams) (m : List Host.Cell) (e : EdgeLine) : List Host.Cell :=
  let old := readLine c m e
  writePixels c c.cur (changedPixels e old (filterLine f e.mbEdge old)) m

/-- The lines of a list, in order: each edge reads the pixels as the one before left them (R434). -/
def filterLines (c : CfgRegs) (f : FilterParams) (es : List EdgeLine) (m : List Host.Cell) : List Host.Cell :=
  es.foldl (filterOne c f) m

/-- The eight pixels of every line. -/
def linesPoints (es : List EdgeLine) : List Point := es.flatMap fun e => (List.range 8).map (linePoint e)

/-- The checks of LF_MB on its operands (R430 items 1 and 2). -/
def lfOperandsOk (ref mode : Nat) : Bool :=
  decide (mode ≤ 9) && ((decide (ref = 0) && decide (mode ≤ 4)) || (decide (1 ≤ ref) && decide (5 ≤ mode)))

/-- LF_MB (R430). -/
def execLfMb (seg ref mode : Nat) (nocoef : Bool) (s : State) : Outcome :=
  let c := s.cfg
  if ¬ lfOperandsOk ref mode then raise .badParam (.lfMb seg ref mode nocoef) s
  else if ¬ posOk c then raise .posOob (.lfMb seg ref mode nocoef) s
  else if c.lfLevel = 0 ∨ filterLevel c seg ref mode = 0 then .next s
  else
    let es := mbEdgeLines c mode nocoef
    if pointsOk c c.cur (linesPoints es) then
      .next (s.setMem (filterLines c (filterParams c (filterLevel c seg ref mode)) es s.mem))
    else .fault .addrWrap

end Sys2Proof.Machine
end

