-- ==== Sys2Proof/Machine/Transform.lean ====
section
/-! DEFINITION. The inverse transforms and reconstruction: IWHT, IDCT_ADD and RECON_MB (43_transform.md R300 to R313). A
4x4 block is a function of its raster index 0..15 (00_scope.md R16). -/

namespace Sys2Proof.Machine

/-- The butterfly of one line of the inverse WHT, output `k` (R301; the same in both passes). -/
def whtLine (x0 x1 x2 x3 : Int) (k : Nat) : Int :=
  let a1 := x0 + x3
  let b1 := x1 + x2
  let c1 := x1 - x2
  let d1 := x0 - x3
  if k = 0 then a1 + b1 else if k = 1 then c1 + d1 else if k = 2 then a1 - b1 else d1 - c1

/-- The first pass of `iwht`, on columns (R301). -/
def iwhtFirst (x : Nat → Int) (i : Nat) : Int :=
  let c := i % 4
  whtLine (x c) (x (4 + c)) (x (8 + c)) (x (12 + c)) (i / 4)

/-- `iwht` (R301). -/
def iwht (x : Nat → Int) (i : Nat) : Int :=
  let r := i / 4
  let t := iwhtFirst x
  asr (whtLine (t (4 * r)) (t (4 * r + 1)) (t (4 * r + 2)) (t (4 * r + 3)) (i % 4) + 3) 3

/-- x * cos(pi/8) * sqrt(2) (R305). -/
def mulC (x : Int) : Int := x + asr (x * 20091) 16

/-- x * sin(pi/8) * sqrt(2) (R305). -/
def mulS (x : Int) : Int := asr (x * 35468) 16

/-- The butterfly of one line of the inverse DCT, output `k` (R305; the same in both passes). -/
def dctLine (x0 x1 x2 x3 : Int) (k : Nat) : Int :=
  let a1 := x0 + x2
  let b1 := x0 - x2
  let c1 := mulS x1 - mulC x3
  let d1 := mulC x1 + mulS x3
  if k = 0 then a1 + d1 else if k = 1 then b1 + c1 else if k = 2 then b1 - c1 else a1 - d1

/-- The first pass of `idct`, on columns (R305). -/
def idctFirst (x : Nat → Int) (i : Nat) : Int :=
  let c := i % 4
  dctLine (x c) (x (4 + c)) (x (8 + c)) (x (12 + c)) (i / 4)

/-- `idct` (R305). -/
def idct (x : Nat → Int) (i : Nat) : Int :=
  let r := i / 4
  let t := idctFirst x
  asr (dctLine (t (4 * r)) (t (4 * r + 1)) (t (4 * r + 2)) (t (4 * r + 3)) (i % 4) + 4) 3

/-- The 16 values of a block, in raster order. -/
def blockList (x : Nat → Int) : List Int := (List.range 16).map x

/-- Every entry of DQ[b] has been written. -/
def dqWritten (r : Rams) (b : Nat) : Bool := (List.range 16).all fun i => (dqAt r b i).isSome

/-- DQ[b][0..15] as a block. -/
def dqBlock (r : Rams) (b : Nat) (i : Nat) : Int := (dqAt r b i).getD 0

/-! ### IWHT -/

/-- DQ[b][0] <- out[b] for b = 0..15 (R302). -/
def writeDcs (d : Cells (BitVec 32)) (out : Nat → Int) : Cells (BitVec 32) :=
  (List.range 16).foldl (fun q b => Cells.set q (16 * b) (BitVec.ofInt 32 (out b))) d

/-- What sets WIDE16 in IWHT: a first-pass value or an output (R303). -/
def iwhtWide (x : Nat → Int) : Bool := anyWide (blockList (iwhtFirst x)) || anyWide (blockList (iwht x))

/-- IWHT (R302): UNINIT when an entry of DQ[24] is unwritten. -/
def execIwht (s : State) : Outcome :=
  if dqWritten s.ram 24 then
    let x := dqBlock s.ram 24
    .next ((s.setDq (writeDcs s.ram.dq (iwht x))).orWide (iwhtWide x))
  else .fault .uninit

/-! ### IDCT_ADD and RECON_MB -/

/-- What sets WIDE16 in IDCT_ADD: an input, a first-pass value or a result (R307). -/
def idctWide (x : Nat → Int) : Bool :=
  anyWide (blockList x) || anyWide (blockList (idctFirst x)) || anyWide (blockList (idct x))

/-- The 16 pixels of block b after its residual `res` is added (R306): all reads are of memory `m` before any write. -/
def addResidual (c : CfgRegs) (m : List Host.Cell) (b : Nat) (res : Nat → Int) : List PixelWrite :=
  let p := blockPlane b
  areaWrites p (blockX c b) (blockY c b) 4 fun r k =>
    clamp255 (pixel c m c.cur p (blockX c b + (k : Int)) (blockY c b + (r : Int)) + res (4 * r + k))

/-- The pixels of block b. -/
def blockPoints (c : CfgRegs) (b : Nat) : List Point := areaPoints (blockPlane b) (blockX c b) (blockY c b) 4

/-- The effect of IDCT_ADD on one block (R306, R307). -/
def addBlock (b : Nat) (s : State) : State :=
  let x := dqBlock s.ram b
  (s.setMem (writePixels s.cfg s.cfg.cur (addResidual s.cfg s.mem b (idct x)) s.mem)).orWide (idctWide x)

/-- The effect of IDCT_ADD on the blocks of a list, in order (R310). -/
def addBlocks : List Nat → State → Outcome
  | [], s => .next s
  | b :: bs, s =>
    if ¬ dqWritten s.ram b then .fault .uninit
    else if ¬ pointsOk s.cfg s.cfg.cur (blockPoints s.cfg b) then .fault .addrWrap
    else addBlocks bs (addBlock b s)

/-- IDCT_ADD (R306). -/
def execIdctAdd (blk : Nat) (s : State) : Outcome :=
  if 23 < blk then raise .badParam (.idctAdd blk) s
  else if ¬ posOk s.cfg then raise .posOob (.idctAdd blk) s
  else addBlocks [blk] s

/-- The blocks of RECON_MB, in order (R310). -/
def reconBlocks (uvonly : Bool) : List Nat :=
  if uvonly then (List.range 8).map fun k => 16 + k else List.range 24

/-- RECON_MB (R310). -/
def execReconMb (uvonly : Bool) (s : State) : Outcome :=
  if ¬ posOk s.cfg then raise .posOob (.reconMb uvonly) s
  else addBlocks (reconBlocks uvonly) s

end Sys2Proof.Machine
end

