-- ==== Sys2Proof/Machine/Dispatch.lean ====
section
/-! DEFINITION. Each command and its meaning, one arm a constructor. -/

namespace Sys2Proof.Machine

def exec (i : Instr) (s : State) : Host.Outcome State Fault Refusal :=
  match i with
  | .nop => Sys2Proof.Machine.execNop s
  | .sync => Sys2Proof.Machine.execSync s
  | .wreg widx data => Sys2Proof.Machine.execWreg widx data s
  | .mbSet row col => Sys2Proof.Machine.execMbSet row col s
  | .bdInit ctx => Sys2Proof.Machine.execBdInit ctx s
  | .bdBool ctx prob => Sys2Proof.Machine.execBdBool ctx prob s
  | .bdLit ctx n => Sys2Proof.Machine.execBdLit ctx n s
  | .detokFrame => Sys2Proof.Machine.execDetokFrame s
  | .detokRow => Sys2Proof.Machine.execDetokRow s
  | .detokMb ctx y2 skip => Sys2Proof.Machine.execDetokMb ctx y2 skip s
  | .qsetup => Sys2Proof.Machine.execQsetup s
  | .deqMb seg => Sys2Proof.Machine.execDeqMb seg s
  | .iwht => Sys2Proof.Machine.execIwht s
  | .idctAdd blk => Sys2Proof.Machine.execIdctAdd blk s
  | .reconMb uvonly => Sys2Proof.Machine.execReconMb uvonly s
  | .ipred16 mode => Sys2Proof.Machine.execIpred16 mode s
  | .ipredUv mode => Sys2Proof.Machine.execIpredUv mode s
  | .ipred4 blk bmode => Sys2Proof.Machine.execIpred4 blk bmode s
  | .mcMb ref split clamp => Sys2Proof.Machine.execMcMb ref split clamp s
  | .lfMb seg ref mode nocoef => Sys2Proof.Machine.execLfMb seg ref mode nocoef s

end Sys2Proof.Machine
end

