-- ==== Sys2Proof/Machine/Sequencer.lean ====
section
/-! DEFINITION. The CORE's command loop (47_control.md R471) and the HOST's port to the CORE (10_state.md R31 to R37, R63;
20_memory.md R116, R117; 70_reset_and_hazards.md R540, R541). Step.lean only calls what stands here. -/

namespace Sys2Proof.Machine

/-! ### The command loop -/

/-- The command at the head of CMDQ and the queue after it; `none` where no complete command is there (47_control.md
R471, 30_encoding.md R137). -/
def takeCommand : List Word → Option (Command × List Word)
  | [] => none
  | w :: rest =>
    if opcodeOf w = opcWreg then
      match rest with
      | [] => none
      | d :: rest' => some ({ word := w, data := d, resetAfter := false }, rest')
    else some ({ word := w, data := 0, resetAfter := false }, rest)

/-- What is done with command `c` once it has completed: EXEC is 0 (47_control.md R471), and a soft reset that waited for
it takes place (70_reset_and_hazards.md R541). -/
def endCommand (c : Command) : Outcome → Outcome
  | .next s => .next (if c.resetAfter then softReset s else { s with running := none })
  | .fault f => .fault f
  | .refused r => .refused r

/-- Decode and perform the command in execution (47_control.md R471): an undecodable word raises ILLEGAL_CMD. -/
def completeCommand (c : Command) (s : State) : Outcome :=
  endCommand c
    (match decodeWord c.word c.data with
    | .ok i => exec i s
    | .error _ => .next (errorEntry .illegalCmd c.word s))

/-- The next command leaves the queue and is in execution; nothing happens when one is in execution already, when
STATUS.ERR = 1 (60_exceptions.md R505) or when no complete command is queued. -/
def startCommand (s : State) : State :=
  if s.running.isSome || s.err then s
  else
    match takeCommand s.cmdq with
    | none => s
    | some (c, rest) => { s with cmdq := rest, running := some c }

/-- One turn of the CORE: the command in execution, or else the next one, is performed to its end. With nothing to do
the CORE is idle and keeps all state (60_exceptions.md R516); it waits for a WREG's data word (30_encoding.md R137). -/
def coreStep (s : State) : Outcome :=
  let s1 := startCommand s
  match s1.running with
  | some c => completeCommand c s1
  | none => .next s1

/-! ### The HOST's writes to the register window -/

/-- An access the window serves: an aligned 32-bit word inside it (10_state.md R32). -/
def mmioAccessOk (offset width : Nat) : Bool := decide (width = 4) && decide (offset % 4 = 0) && decide (offset < 0x8000)

/-- A HOST write to CTRL with SOFT_RESET = 1 (70_reset_and_hazards.md R541): it resets at once where no command is in
execution; else it waits for that command to complete, and until then the CORE stays busy and the HOST may go on
(93_implementation_defined.md U7). -/
def requestReset (s : State) : State :=
  match s.running with
  | none => softReset s
  | some c => { s with running := some { c with resetAfter := true } }

/-- A HOST write to CTRL (10_state.md R35). -/
def ctrlWrite (v : Word) (s : State) : State :=
  if bit v.toNat 0 then requestReset s
  else { s with ieSync := bit v.toNat 1, ieErr := bit v.toNat 2 }

/-- A HOST write to CMD that completes: discarded while STATUS.ERR = 1, else appended (10_state.md R37, R63). -/
def cmdWrite (v : Word) (s : State) : State := if s.err then s else { s with cmdq := s.cmdq ++ [v] }

/-- A HOST write of `v` to a register (10_state.md R31, R33, R35, R36, R37). A CFG register is written while BUSY = 0, and
the write is dropped with CFG_DROP while BUSY = 1; RO and RSV ignore it. -/
def hostWrite (r : Reg) (v : Word) (s : State) : Outcome :=
  match r with
  | .ctrl => .next (ctrlWrite v s)
  | .status => .next (statusWrite v s)
  | .cmd => .next (cmdWrite v s)
  | r =>
    if r.isCfg then
      if busy s then .next { s with cfgDrop := true } else .next (writeCfg s r v)
    else .next s

/-- A HOST write to CMD while CMDQ is full is held: the bus write does not complete (10_state.md R63). -/
def cmdHeld (s : State) : Bool := !s.err && decide (Config.cmdqDepth ≤ s.cmdq.length)

/-- What a HOST read of the register window returns (10_state.md R31, R32); it changes nothing (20_memory.md R111). -/
def hostRead (s : State) (offset width : Nat) : Except Refusal Word :=
  if mmioAccessOk offset width then .ok (readReg s (offset / 4) (regAtWord (offset / 4))) else .error .mmioAccess

/-! ### The HOST's writes to data memory -/

/-- Address `a` is a byte of a partition that a valid context covers (20_memory.md R117). -/
def inPartition (s : State) (a : Nat) : Bool :=
  s.bd.toList.any fun c => c.valid && decide (c.start ≤ a) && decide (a < c.stop)

/-- Address `a` is a pixel of plane p of a slot, its border with it (20_memory.md R106, R107). -/
def inPlane (c : CfgRegs) (slot : Nat) (p : Plane) (a : Nat) : Bool :=
  (List.range (planeH c p + 2 * planeB c p).toNat).any fun k =>
    let y : Int := (k : Int) - planeB c p
    readable c p ((a : Int) - pixelAddr c slot p 0 y) y

/-- Address `a` is a pixel of slot CUR or of a slot that a reference role names (20_memory.md R117). -/
def inFrameSlot (s : State) (a : Nat) : Bool :=
  (List.range 4).any fun r => [Plane.y, .u, .v].any fun p => inPlane s.cfg (s.cfg.roleSlot r) p a

/-- A HOST write of one byte of data memory (20_memory.md R116): refused while BUSY = 1 at a byte the CORE may be using
(R117, 93_implementation_defined.md U3). -/
def hostMemWrite (a : Word) (v : Byte) (s : State) : Outcome :=
  if busy s && (inPartition s a.toNat || inFrameSlot s a.toNat) then .refused .hostRace
  else .next (s.setMem (writeByte s.mem a.toNat v))

/-! ### One turn of a run -/

/-- The HOST's next action, or the CORE's turn it calls for. -/
def inputStep : Input → State → Outcome
  | .mmioWrite offset width v, s =>
    if mmioAccessOk offset width then hostWrite (regAtWord (offset / 4)) v s else .refused .mmioAccess
  | .memWrite a v, s => hostMemWrite a v s
  | .hardReset, s => .next (hardReset s)
  | .beginCommand, s => .next (startCommand s)
  | .run, s => coreStep s

/-- The action is a write to CMD that is held because CMDQ is full. -/
def inputHeld (i : Input) (s : State) : Bool :=
  match i with
  | .mmioWrite offset width _ => mmioAccessOk offset width && decide (offset / 4 = 3) && cmdHeld s
  | _ => false

/-- One turn: the HOST's next action where there is one (log entry 6), else the CORE's. While a write to CMD is held the
HOST waits and the CORE has the turn (10_state.md R63, 93_implementation_defined.md U6). -/
def turn (s : State) : Outcome :=
  match s.inputs with
  | [] => coreStep s
  | i :: rest => if inputHeld i s then coreStep s else inputStep i { s with inputs := rest }

/-! ### Placing a command (the host's check of this model) -/

/-- The words of the table word `w`: its command word and, for WREG, its data word. -/
def tableWords (nbits w : Nat) : List Word :=
  let v := w % 2 ^ nbits
  let w0 : Word := BitVec.ofNat 32 v
  if opcodeOf w0 = opcWreg then [w0, BitVec.ofNat 32 (v / 2 ^ 32)] else [w0]

/-- The state with those words at the head of CMDQ, over what stood there, and with the CORE free to take them: no command
in execution, no error, no HOST action waiting. -/
def placeCommand (s : State) (nbits w : Nat) : State :=
  let ws := tableWords nbits w
  { s with
    cmdq := ws ++ s.cmdq.drop ws.length
    running := none, err := false, errCode := 0, errInfo := 0, inputs := [] }

end Sys2Proof.Machine
end

