-- ==== Sys2Proof/Machine/Step.lean ====
section
/-! DEFINITION. One step of the machine, and placing a command where the next step takes it. -/

namespace Sys2Proof.Machine

/-- One step (47_control.md R471, log entry 6): the HOST's next action, or one turn of the CORE. -/
def step (s : State) : Host.Outcome State Fault Refusal := turn s

/-- The state with one command at the head of CMDQ, ready to be taken by the next step (log entry 8). -/
def State.withFetchWord (s : State) (nbits w : Nat) : State := placeCommand s nbits w

end Sys2Proof.Machine
end

