-- ==== Sys2Proof/Safety.lean ====
section
/-! DEFINITION. What counts as a safe run, and the invariant of the machine: what the spec says is always so of the
registers, the contexts, the RAMs, the queue and data memory. -/

namespace Sys2Proof.Machine

/-- A run of `n` steps from `s` meets no model-only fault and no refusal. -/
def runSafe (n : Nat) (s : State) : Prop := ∃ t, Host.Core.run core n s = .next t

/-- What 40_entropy.md R208 and R201 say of a context: 128 <= range <= 255 once it is valid, BD_START <= pos <= end, and
EXH set exactly when zero bytes were supplied; its end lies in data memory (R203). -/
structure BoolCtx.Ok (c : BoolCtx) : Prop where
  range : c.valid = true → 128 ≤ c.range.toNat
  start_pos : c.start ≤ c.pos
  pos_stop : c.pos ≤ c.stop
  stop_mem : c.stop ≤ memSize
  exh_zfill : c.exh = true ↔ c.zfill ≠ 0

/-- The bits of the CFG registers that no field names are 0 (10_state.md R31, 47_control.md R473). -/
structure CfgRegs.ReservedZero (c : CfgRegs) : Prop where
  mbPos : c.mbPos &&& Reg.mask .mbPos = c.mbPos
  frameDim : c.frameDim &&& Reg.mask .frameDim = c.frameDim
  decCfg : c.decCfg &&& Reg.mask .decCfg = c.decCfg
  roleMap : c.roleMap &&& Reg.mask .roleMap = c.roleMap
  qBase : c.qBase &&& Reg.mask .qBase = c.qBase
  qDelta1 : c.qDelta1 &&& Reg.mask .qDelta1 = c.qDelta1
  segCfg : c.segCfg &&& Reg.mask .segCfg = c.segCfg
  lfCfg : c.lfCfg &&& Reg.mask .lfCfg = c.lfCfg

/-- The RAMs are in canonical form, and an eob is at most 16 (10_state.md R57 to R61). -/
structure Rams.Ok (r : Rams) : Prop where
  eob : Cells.wf 25 r.eob = true
  eob_le : ∀ e ∈ r.eob, e.2.toNat ≤ 16
  prob : Cells.wf 1056 r.prob = true
  coef : Cells.wf 400 r.coef = true
  dq : Cells.wf 400 r.dq = true
  nzAbove : Cells.wf 4096 r.nzAbove = true

/-- The error state (60_exceptions.md R501, R503, R505; 10_state.md R36, R40): without an error ERRCODE and ERRINFO read
0; with one, ERRCODE is one of 1..7, no command is queued and none executes. -/
structure State.ErrorOk (s : State) : Prop where
  clear : s.err = false → s.errCode = 0 ∧ s.errInfo = 0
  held : s.err = true → s.cmdq = [] ∧ s.running = none ∧ 1 ≤ s.errCode.toNat ∧ s.errCode.toNat ≤ 7

/-- The invariant of the machine. -/
structure State.Inv (s : State) : Prop where
  mem : Memory.wf s.mem = true
  ram : s.ram.Ok
  ctx : ∀ i, i < numCtx → (s.ctx i).Ok
  reserved : s.cfg.ReservedZero
  error : s.ErrorOk
  total : s.eobTotal.toNat ≤ 384
  queue : s.cmdq.length ≤ Config.cmdqDepth

/-! ### What claims say of pixels -/

/-- The address of a point of a slot (20_memory.md R106). -/
def Point.addr (c : CfgRegs) (slot : Nat) (q : Point) : Int := pixelAddr c slot q.plane q.x q.y

/-- The pixel at a point of a slot, 0..255. -/
def pixelAt (c : CfgRegs) (m : List Host.Cell) (slot : Nat) (q : Point) : Int := pixel c m slot q.plane q.x q.y

/-- The point lies in the visible region of its plane (20_memory.md R107). -/
def Visible (c : CfgRegs) (q : Point) : Prop :=
  0 ≤ q.x ∧ q.x < planeW c q.plane ∧ 0 ≤ q.y ∧ q.y < planeH c q.plane

/-- The point lies in the readable region of its plane: the visible region and its border (20_memory.md R107). -/
def Readable (c : CfgRegs) (q : Point) : Prop :=
  -planeB c q.plane ≤ q.x ∧ q.x < planeW c q.plane + planeB c q.plane ∧
  -planeB c q.plane ≤ q.y ∧ q.y < planeH c q.plane + planeB c q.plane

/-- The HOST's boot duty for the visible region of a slot (20_memory.md R102). -/
def VisibleInMemory (c : CfgRegs) (slot : Nat) : Prop :=
  ∀ q, Visible c q → 0 ≤ q.addr c slot ∧ q.addr c slot < (memSize : Int)

/-- The HOST's boot duty for the readable region of a slot (20_memory.md R102). -/
def ReadableInMemory (c : CfgRegs) (slot : Nat) : Prop :=
  ∀ q, Readable c q → 0 ≤ q.addr c slot ∧ q.addr c slot < (memSize : Int)

/-- The point lies in the current macroblock (20_memory.md R108). -/
def InMb (c : CfgRegs) (q : Point) : Prop :=
  mbX c q.plane ≤ q.x ∧ q.x < mbX c q.plane + (mbSize q.plane : Int) ∧
  mbY c q.plane ≤ q.y ∧ q.y < mbY c q.plane + (mbSize q.plane : Int)

/-- The point lies in block `b` of the current macroblock (20_memory.md R108). -/
def InBlock (c : CfgRegs) (b : Nat) (q : Point) : Prop :=
  q.plane = blockPlane b ∧ blockX c b ≤ q.x ∧ q.x < blockX c b + 4 ∧ blockY c b ≤ q.y ∧ q.y < blockY c b + 4

/-- The raster index 0..15 of a point of block `b`. -/
def blockIndex (c : CfgRegs) (b : Nat) (q : Point) : Nat :=
  (4 * (q.y - blockY c b) + (q.x - blockX c b)).toNat

/-- No other of the points `P` has the byte of `q`. The spec's slots keep every pixel in a byte of its own (a pitch of at
least the plane's width, 10_state.md R46); a claim about a pixel's new value asks it of that pixel only. -/
def OwnByte (c : CfgRegs) (slot : Nat) (P : Point → Prop) (q : Point) : Prop :=
  ∀ r, P r → r.addr c slot = q.addr c slot → r = q

/-- Memory `m'` is `m` with the pixels `P` of a slot written: each that has a byte of its own holds its value `v`, and every
byte that is no pixel of `P` reads as before. -/
structure PixelsWritten (c : CfgRegs) (slot : Nat) (P : Point → Prop) (v : Point → Int) (m m' : List Host.Cell) : Prop where
  value : ∀ q, P q → OwnByte c slot P q → pixelAt c m' slot q = v q
  frame : ∀ a : Nat, (∀ q, P q → q.addr c slot ≠ (a : Int)) → readByte m' a = readByte m a

/-! ### What claims say of the bool decoder -/

/-- The loop of 40_entropy.md R205 takes context `c` to `d`: as many turns as it takes to bring range to 128 or more. -/
def Renormalised (m : List Host.Cell) (c d : BoolCtx) : Prop :=
  ∃ k, k ≤ 7 ∧ d = (shiftOnce m)^[k] c ∧ 128 ≤ d.range.toNat ∧ ∀ j, j < k → ((shiftOnce m)^[j] c).range.toNat < 128

/-! ### What claims say of inter prediction -/

/-- The vector that predicts a point of the current macroblock (45_inter.md R395): that of its 4x4 block. -/
def mvAt (c : CfgRegs) (split clamp : Bool) (q : Point) : Mv :=
  let dx := (q.x - mbX c q.plane) / 4
  let dy := (q.y - mbY c q.plane) / 4
  match q.plane with
  | .y => lumaMv c split clamp (4 * dy + dx).toNat
  | .u | .v => chromaMv c split clamp (2 * dy + dx).toNat

/-- Where a point of the current macroblock is predicted from (45_inter.md R387). -/
def sourceAt (c : CfgRegs) (split clamp : Bool) (q : Point) : Source := sourceOf q.plane q.x q.y (mvAt c split clamp q)

/-- (x, y) is in the footprint of a source: per axis, offset 0 at phase 0, else -2..3 for six taps and 0..1 for the
bilinear filter (45_inter.md R390). -/
def InFootprint (bil : Bool) (q : Source) (x y : Int) : Prop :=
  (if q.fx = 0 then x = q.ix else if bil then q.ix ≤ x ∧ x ≤ q.ix + 1 else q.ix - 2 ≤ x ∧ x ≤ q.ix + 3) ∧
  (if q.fy = 0 then y = q.iy else if bil then q.iy ≤ y ∧ y ≤ q.iy + 1 else q.iy - 2 ≤ y ∧ y ≤ q.iy + 3)

/-- Every footprint of the macroblock lies in the readable region (45_inter.md R395 check 4). -/
def FootprintsReadable (c : CfgRegs) (split clamp : Bool) : Prop :=
  ∀ q, InMb c q → ∀ x y, InFootprint c.mcBilinear (sourceAt c split clamp q) x y →
    Readable c { plane := q.plane, x := x, y := y }

/-! ### What claims say of the loop filter -/

/-- LF_MB filters the edge at offset `off` into the macroblock in plane p (46_loopfilter.md R434): the macroblock edge
away from the frame edge, the inner edges unless they are skipped, chroma in the normal family only. -/
def FilteredEdge (c : CfgRegs) (inner vertical : Bool) (p : Plane) (off : Int) : Prop :=
  (p = .y ∨ c.lfSimple = false) ∧
  ((off = 0 ∧ (if vertical then 0 < c.mbCol else 0 < c.mbRow)) ∨
   (inner = true ∧ (off = 4 ∨ (p = .y ∧ (off = 8 ∨ off = 12)))))

/-- The point is one that a filter of a filtered edge may write: p2..q2 of one of its lines (46_loopfilter.md R426). -/
def NearFilteredEdge (c : CfgRegs) (inner : Bool) (q : Point) : Prop :=
  ∃ vertical off, FilteredEdge c inner vertical q.plane off ∧
    if vertical = true then
      mbX c q.plane + off - 3 ≤ q.x ∧ q.x ≤ mbX c q.plane + off + 2 ∧
      mbY c q.plane ≤ q.y ∧ q.y < mbY c q.plane + (mbSize q.plane : Int)
    else
      mbX c q.plane ≤ q.x ∧ q.x < mbX c q.plane + (mbSize q.plane : Int) ∧
      mbY c q.plane + off - 3 ≤ q.y ∧ q.y ≤ mbY c q.plane + off + 2

/-- The point lies in the current macroblock, or in the three columns left of it or the three rows above it
(20_memory.md R109). -/
def NearMb (c : CfgRegs) (q : Point) : Prop :=
  InMb c q ∨
  (mbX c q.plane - 3 ≤ q.x ∧ q.x < mbX c q.plane ∧
   mbY c q.plane ≤ q.y ∧ q.y < mbY c q.plane + (mbSize q.plane : Int)) ∨
  (mbX c q.plane ≤ q.x ∧ q.x < mbX c q.plane + (mbSize q.plane : Int) ∧
   mbY c q.plane - 3 ≤ q.y ∧ q.y < mbY c q.plane)

/-! ### What claims say of the turns of a run -/

/-- The next step of `s` is the CORE's turn, and `later` is the HOST's list after it (log entry 6): no HOST action waits,
the list says that the CORE runs, or its head is a write to CMD that is held because CMDQ is full (10_state.md R63). -/
def CoreTurn (s : State) (later : List Input) : Prop :=
  (s.inputs = [] ∧ later = []) ∨ s.inputs = .run :: later ∨
  (later = s.inputs ∧ s.err = false ∧ Config.cmdqDepth ≤ s.cmdq.length ∧
    ∃ v rest, s.inputs = .mmioWrite 0x000C 4 v :: rest)

/-! ### What claims say of commands in a row -/

/-- The commands of a list performed one after another (47_control.md R471), stopping at a fault or a refusal. -/
def execAll : List Instr → State → Outcome
  | [], s => .next s
  | i :: is, s =>
    match exec i s with
    | .next t => execAll is t
    | .fault f => .fault f
    | .refused r => .refused r

end Sys2Proof.Machine
end

