-- ==== Sys2Proof/Certificates/Slice0/Obligations.lean ====
section
/-! DEFINITION. The statements about the machine, each from rules of spec/. A command's own effect is stated as
`exec i s = .next t`; the fields of `s` that `t` does not name are unchanged. -/

section

open Sys2Proof Sys2Proof.Machine

/-! ### Encoding -/

/-- 30_encoding.md R130, R131, R136: the encoder's words decode to the command they were made from, whatever follows. -/
def Obligations.DecodeEncode : Prop :=
  ∀ (i : Instr) (rest : List Word), i.wf = true → decode (encode i ++ rest) = .ok (i, rest)

/-- 30_encoding.md R130 to R136: words that decode are the encoder's words of the decoded command, which is well formed:
no bit of a legal word is ignored. -/
def Obligations.EncodeDecode : Prop :=
  ∀ (ws rest : List Word) (i : Instr), decode ws = .ok (i, rest) → i.wf = true ∧ ws = encode i ++ rest

/-- 30_encoding.md R140. -/
def Obligations.CommandWords : Prop :=
  encode .nop = [0x00000000] ∧ encode .sync = [0x04000000] ∧
  (∀ widx d, widx < 4096 → encode (.wreg widx d) = [(0x08000000 : Word) ||| BitVec.ofNat 32 widx, d]) ∧
  (∀ row col, row < 4096 → col < 4096 →
    encode (.mbSet row col) = [(0x0C000000 : Word) ||| BitVec.ofNat 32 row <<< 12 ||| BitVec.ofNat 32 col]) ∧
  (∀ ctx, ctx < 16 → encode (.bdInit ctx) = [(0x20000000 : Word) ||| BitVec.ofNat 32 ctx <<< 22]) ∧
  (∀ ctx prob, ctx < 16 → prob < 256 →
    encode (.bdBool ctx prob) = [(0x24000000 : Word) ||| BitVec.ofNat 32 ctx <<< 22 ||| BitVec.ofNat 32 prob <<< 14]) ∧
  (∀ ctx n, ctx < 16 → n < 64 →
    encode (.bdLit ctx n) = [(0x28000000 : Word) ||| BitVec.ofNat 32 ctx <<< 22 ||| BitVec.ofNat 32 n <<< 16]) ∧
  encode .detokFrame = [0x40000000] ∧ encode .detokRow = [0x44000000] ∧
  (∀ ctx y2 skip, ctx < 16 →
    encode (.detokMb ctx y2 skip) =
      [(0x48000000 : Word) ||| BitVec.ofNat 32 ctx <<< 22 ||| BitVec.ofNat 32 y2.toNat <<< 21 |||
        BitVec.ofNat 32 skip.toNat <<< 20]) ∧
  encode .qsetup = [0x60000000] ∧
  (∀ seg, seg < 4 → encode (.deqMb seg) = [(0x64000000 : Word) ||| BitVec.ofNat 32 seg <<< 24]) ∧
  encode .iwht = [0x80000000] ∧
  (∀ blk, blk < 32 → encode (.idctAdd blk) = [(0x84000000 : Word) ||| BitVec.ofNat 32 blk]) ∧
  (∀ uvonly, encode (.reconMb uvonly) = [(0x88000000 : Word) ||| BitVec.ofNat 32 uvonly.toNat]) ∧
  (∀ mode, mode < 8 → encode (.ipred16 mode) = [(0xA0000000 : Word) ||| BitVec.ofNat 32 mode]) ∧
  (∀ mode, mode < 8 → encode (.ipredUv mode) = [(0xA4000000 : Word) ||| BitVec.ofNat 32 mode]) ∧
  (∀ blk bmode, blk < 32 → bmode < 16 →
    encode (.ipred4 blk bmode) = [(0xA8000000 : Word) ||| BitVec.ofNat 32 blk <<< 4 ||| BitVec.ofNat 32 bmode]) ∧
  (∀ ref split clamp, ref < 4 →
    encode (.mcMb ref split clamp) =
      [(0xC0000000 : Word) ||| BitVec.ofNat 32 ref <<< 24 ||| BitVec.ofNat 32 split.toNat <<< 23 |||
        BitVec.ofNat 32 clamp.toNat <<< 22]) ∧
  (∀ seg ref mode nocoef, seg < 4 → ref < 4 → mode < 16 →
    encode (.lfMb seg ref mode nocoef) =
      [(0xE0000000 : Word) ||| BitVec.ofNat 32 seg <<< 24 ||| BitVec.ofNat 32 ref <<< 22 ||| BitVec.ofNat 32 mode <<< 18 |||
        BitVec.ofNat 32 nocoef.toNat <<< 17])

/-- 30_encoding.md R132 and R135: a set reserved bit, the masks opcode by opcode, or an opcode outside the map raises
ILLEGAL_CMD and does nothing else (the error entry of 60_exceptions.md R503); a word of a mapped opcode with no reserved bit
set is a command, whatever WREG's data. In every turn of the CORE (CoreTurn: which steps these are is the model's choice, log
entry 6, DESIGN CHOICE), on a command it takes and on one already in execution; one that a soft reset waits for is
SoftResetRule's. -/
def Obligations.IllegalCommands : Prop :=
  let masks : List (Nat × Word) :=
    [(0x00, 0x03FFFFFF), (0x01, 0x03FFFFFF), (0x02, 0x03FFF000), (0x03, 0x03000000), (0x08, 0x003FFFFF),
     (0x09, 0x00003FFF), (0x0A, 0x0000FFFF), (0x10, 0x03FFFFFF), (0x11, 0x03FFFFFF), (0x12, 0x000FFFFF),
     (0x18, 0x03FFFFFF), (0x19, 0x00FFFFFF), (0x20, 0x03FFFFFF), (0x21, 0x03FFFFE0), (0x22, 0x03FFFFFE),
     (0x28, 0x03FFFFF8), (0x29, 0x03FFFFF8), (0x2A, 0x03FFFE00), (0x30, 0x003FFFFF), (0x38, 0x0001FFFF)]
  ∀ (s : State) (c : Command) (later : List Input), CoreTurn s later →
    ((s.running = none ∧ s.err = false ∧ ∃ rest, takeCommand s.cmdq = some (c, rest)) ∨
      (s.running = some c ∧ c.resetAfter = false)) →
    let raised := Host.Outcome.next
      { s with inputs := later, err := true, errCode := 1, errInfo := c.word, cmdq := [], running := none }
    (∀ p ∈ masks, (c.word >>> 26).toNat = p.1 →
      (c.word &&& p.2 ≠ 0 → step s = raised) ∧
      (c.word &&& p.2 = 0 → ∃ i, decodeWord c.word c.data = .ok i)) ∧
    ((∀ p ∈ masks, (c.word >>> 26).toNat ≠ p.1) → step s = raised)

/-- Words written out from 30_encoding.md R131 (opcode, then the fields at their bits) decode to the commands they stand
for: BD_BOOL ctx 1, prob 255; MB_SET row 1, col 1; MC_MB ref 1; LF_MB seg 0, ref 0, mode 4; WREG widx 9. -/
def Obligations.WrittenWordsDecode : Prop :=
  decode [0x247FC000] = .ok (.bdBool 1 255, []) ∧ decode [0x0C001001] = .ok (.mbSet 1 1, []) ∧
  decode [0xC1000000] = .ok (.mcMb 1 false false, []) ∧ decode [0xE0100000] = .ok (.lfMb 0 0 4 false, []) ∧
  decode [0x08000009, 0xFFFFFFFF, 0x00000000] = .ok (.wreg 9 0xFFFFFFFF, [0x00000000])

/-! ### The command loop -/

/-- 47_control.md R471: in every turn of the CORE (CoreTurn, log entry 6, DESIGN CHOICE), when the words at the head of CMDQ
decode to a command and nothing is in execution, the step takes them from CMDQ, performs the command with EXEC = 1, and
leaves EXEC = 0; and a command already in execution is performed in the same way. A command just taken has no soft reset
waiting for it; what one that does leaves is SoftResetRule's. A fault or a refusal of the command is the step's. A
beginCommand entry of the HOST's list only takes the command, whether or not it decodes, and takes none while one executes,
while ERR = 1 or while no complete command is queued: the point in between at which HOST actions may stand is the model's
choice, log entry 6 (DESIGN CHOICE). -/
def Obligations.StepRunsDecoded : Prop :=
  (∀ (s : State) (i : Instr) (rest : List Word) (later : List Input), CoreTurn s later → s.running = none →
    s.err = false → decode s.cmdq = .ok (i, rest) →
    ∃ c : Command, takeCommand s.cmdq = some (c, rest) ∧ c.word = i.word ∧ c.resetAfter = false ∧
      decodeWord c.word c.data = .ok i ∧
      step s = endCommand c (exec i { s with inputs := later, cmdq := rest, running := some c })) ∧
  (∀ (s : State) (i : Instr) (c : Command) (later : List Input), CoreTurn s later → s.running = some c →
    decodeWord c.word c.data = .ok i → step s = endCommand c (exec i { s with inputs := later })) ∧
  (∀ (c : Command) (t : State), c.resetAfter = false → endCommand c (.next t) = .next { t with running := none }) ∧
  (∀ (c : Command) (f : Fault) (r : Refusal), endCommand c (.fault f) = .fault f ∧ endCommand c (.refused r) = .refused r) ∧
  (∀ (s : State) (later : List Input), s.inputs = .beginCommand :: later →
    (∀ c rest, s.running = none → s.err = false → takeCommand s.cmdq = some (c, rest) →
      step s = .next { s with inputs := later, cmdq := rest, running := some c }) ∧
    (s.running.isSome = true ∨ s.err = true ∨ takeCommand s.cmdq = none → step s = .next { s with inputs := later }))

/-- 30_encoding.md R130, R137: the opcode is bits [31:26]; WREG alone has two words; it is taken with its data word, whatever
that word is; without it the CORE waits with BUSY = 1; any other word is taken alone, and from an empty CMDQ nothing is. -/
def Obligations.WregWaitsForData : Prop :=
  (∀ w : Word, opcodeOf w = (w >>> 26).toNat ∧ (commandLength w = 2 ↔ (w >>> 26).toNat = 0x02) ∧
    (commandLength w = 1 ↔ (w >>> 26).toNat ≠ 0x02)) ∧
  (∀ (w d : Word) (rest : List Word), (w >>> 26).toNat = 0x02 →
    takeCommand (w :: d :: rest) = some ({ word := w, data := d, resetAfter := false }, rest)) ∧
  (∀ (w : Word) (rest : List Word), (w >>> 26).toNat ≠ 0x02 →
    takeCommand (w :: rest) = some ({ word := w, data := 0, resetAfter := false }, rest)) ∧
  takeCommand [] = none ∧
  (∀ (s : State) (w : Word), (w >>> 26).toNat = 0x02 → s.inputs = [] → s.running = none → s.cmdq = [w] →
    takeCommand [w] = none ∧ step s = .next s ∧ busy s = true)

/-! ### The HOST's port -/

/-- 10_state.md R33: a HOST write to a CFG register or a PROB word is performed while BUSY = 0 and dropped with CFG_DROP
set while BUSY = 1; WREG performs it always. -/
def Obligations.CfgWritePaths : Prop :=
  ∀ (s : State) (k : Nat) (v : Word) (later : List Input),
    (7 ≤ k ∧ k ≤ 10) ∨ (0x10 ≤ k ∧ k < 0x32) ∨ (0x80 ≤ k ∧ k < 0x89) ∨ (0xC0 ≤ k ∧ k < 0xD0) ∨
      (0x200 ≤ k ∧ k < 0x308) →
    (s.inputs = .mmioWrite (4 * k) 4 v :: later →
      (busy s = true → step s = .next { s with inputs := later, cfgDrop := true }) ∧
      (busy s = false → step s = .next (writeCfg { s with inputs := later } (regAtWord k) v))) ∧
    exec (.wreg k v) s = .next (writeCfg s (regAtWord k) v)

/-- 10_state.md R37, with the held write of R63 and the depth of 00_scope.md R9 (at least 2): a HOST write to CMD appends its word to CMDQ; while ERR = 1 it is
discarded; while CMDQ is full it is held; a read of CMD gives 0. That a held write waits at the head of the HOST's list and
the CORE has the turn (step s = coreStep s) is the model's choice, log entry 6 (DESIGN CHOICE). -/
def Obligations.CmdPort : Prop :=
  2 ≤ Config.cmdqDepth ∧
  ∀ (s : State) (v : Word) (later : List Input), s.inputs = .mmioWrite 0x000C 4 v :: later →
    (s.err = false → s.cmdq.length < Config.cmdqDepth →
      step s = .next { s with inputs := later, cmdq := s.cmdq ++ [v] }) ∧
    (s.err = true → step s = .next { s with inputs := later }) ∧
    (s.err = false → Config.cmdqDepth ≤ s.cmdq.length → step s = coreStep s) ∧
    hostRead s 0x000C 4 = .ok 0

/-- 10_state.md R36: how STATUS reads, bit by bit, and what a HOST write to it does: W1C on SYNC_DONE, CFG_DROP and WIDE16,
nothing on the other bits. BUSY is R64's, and irq is that of 60_exceptions.md R511. -/
def Obligations.StatusRegister : Prop :=
  (∀ s : State, ∃ w : Word, hostRead s 0x0008 4 = .ok w ∧
    w.getLsbD 0 = (!s.cmdq.isEmpty || s.running.isSome) ∧ w.getLsbD 1 = s.err ∧ w.getLsbD 2 = s.syncDone ∧
    w.getLsbD 3 = s.cfgDrop ∧ w.getLsbD 4 = s.wide16 ∧
    (w.getLsbD 5 = true ↔ ∃ i, i < 9 ∧ (s.ctx i).exh = true) ∧ w.getLsbD 6 = false ∧ w.getLsbD 7 = false ∧
    w.extractLsb' 8 4 = s.errCode ∧ w.extractLsb' 12 20 = 0 ∧ busy s = w.getLsbD 0 ∧
    irq s = (s.syncDone && s.ieSync || s.err && s.ieErr)) ∧
  (∀ (s : State) (v : Word) (later : List Input), s.inputs = .mmioWrite 0x0008 4 v :: later →
    step s = .next { s with
      inputs := later
      syncDone := s.syncDone && !v.getLsbD 2
      cfgDrop := s.cfgDrop && !v.getLsbD 3
      wide16 := s.wide16 && !v.getLsbD 4 })

/-- The HOST's other accesses. As the model steps them (log entries 10 and 11, its choice where 10_state.md R32 and
20_memory.md R117 let a model refuse): a register access that is not an aligned word of the window is refused; a HOST byte
write is performed, except while BUSY = 1 at a byte of a partition of a valid context or at a pixel, border included, of
slot CUR or a reference slot, where it is refused; a written byte reads as written and every other as before. 10_state.md R31: a write to an RO or RSV word is ignored. What a read
gives of ID, RESULT, EOBTOTAL and ERRINFO (R34, R38 to R40), CTRL (R35), the BD state registers (R48), DQF (R55), the
written entries of the RAM windows (R57 to R61) and RSV words (R31); that a row of nine written flags reads 0 above them is
log entry 20 (DESIGN CHOICE). -/
def Obligations.HostAccesses : Prop :=
  (∀ (s : State) (off width : Nat) (v : Word) (later : List Input), ¬ (width = 4 ∧ off % 4 = 0 ∧ off < 0x8000) →
    hostRead s off width = .error .mmioAccess ∧
    (s.inputs = .mmioWrite off width v :: later → step s = .refused .mmioAccess)) ∧
  (∀ (s : State) (a : Word) (v : Byte) (later : List Input), s.inputs = .memWrite a v :: later →
    (busy s = true ∧
      ((∃ i, i < 9 ∧ (s.ctx i).valid = true ∧ (s.ctx i).start ≤ a.toNat ∧ a.toNat < (s.ctx i).stop) ∨
       (∃ r, r < 4 ∧ ∃ q, Readable s.cfg q ∧ q.addr s.cfg (s.cfg.roleSlot r) = (a.toNat : Int))) →
      step s = .refused .hostRace) ∧
    (¬ (busy s = true ∧
      ((∃ i, i < 9 ∧ (s.ctx i).valid = true ∧ (s.ctx i).start ≤ a.toNat ∧ a.toNat < (s.ctx i).stop) ∨
       (∃ r, r < 4 ∧ ∃ q, Readable s.cfg q ∧ q.addr s.cfg (s.cfg.roleSlot r) = (a.toNat : Int)))) →
      step s = .next { s with inputs := later, mem := writeByte s.mem a.toNat v })) ∧
  (∀ (m : List Host.Cell) (a : Nat) (v : Byte), readByte (writeByte m a v) a = v ∧
    ∀ b, b ≠ a → readByte (writeByte m a v) b = readByte m b) ∧
  (let writable : List (Nat × Nat) := [(1, 4), (7, 11), (0x10, 0x32), (0x80, 0x89), (0xC0, 0xD0), (0x200, 0x308)]
   ∀ (s : State) (k : Nat) (v : Word) (later : List Input), k < 8192 → (∀ p ∈ writable, ¬ (p.1 ≤ k ∧ k < p.2)) →
    s.inputs = .mmioWrite (4 * k) 4 v :: later → step s = .next { s with inputs := later }) ∧
  (let mapped : List (Nat × Nat) :=
    [(0, 11), (0x10, 0x32), (0x40, 0x64), (0x80, 0x89), (0x90, 0xA8), (0xC0, 0xD0), (0x100, 0x119), (0x200, 0x308),
     (0x400, 0x4C8), (0x800, 0x990), (0xC00, 0xC01), (0x1000, 0x2000)]
   ∀ (s : State) (k : Nat), k < 8192 → (∀ p ∈ mapped, ¬ (p.1 ≤ k ∧ k < p.2)) → hostRead s (4 * k) 4 = .ok 0) ∧
  (∀ s : State,
    hostRead s 0x0000 4 = .ok 0x56503801 ∧ hostRead s 0x0010 4 = .ok s.result ∧
    hostRead s 0x0014 4 = .ok (s.eobTotal.setWidth 32) ∧ hostRead s 0x0018 4 = .ok s.errInfo ∧
    (∃ w : Word, hostRead s 0x0004 4 = .ok w ∧ w.getLsbD 0 = false ∧ w.getLsbD 1 = s.ieSync ∧ w.getLsbD 2 = s.ieErr ∧
      w.extractLsb' 3 29 = 0) ∧
    (∀ i, i < 9 →
      hostRead s (0x0100 + 16 * i) 4 = .ok ((s.ctx i).value.setWidth 32) ∧
      (∃ w : Word, hostRead s (0x0104 + 16 * i) 4 = .ok w ∧ w.extractLsb' 0 8 = (s.ctx i).range ∧
        w.extractLsb' 8 3 = (s.ctx i).bitCount ∧ w.extractLsb' 11 5 = 0 ∧ w.getLsbD 16 = (s.ctx i).valid ∧
        w.getLsbD 17 = (s.ctx i).exh ∧ w.extractLsb' 18 14 = 0) ∧
      hostRead s (0x0108 + 16 * i) 4 = .ok (BitVec.ofNat 32 (s.ctx i).pos) ∧
      hostRead s (0x010C + 16 * i) 4 = .ok (s.ctx i).zfill) ∧
    (∀ g k, g < 4 → k < 6 → hostRead s (0x0240 + 4 * (6 * g + k)) 4 = .ok ((fileGet s.dqf (6 * g + k) 0).setWidth 32)) ∧
    (∀ b v, b < 25 → Cells.get s.ram.eob b = some v → hostRead s (0x0400 + 4 * b) 4 = .ok (v.setWidth 32)) ∧
    (∀ e v, e < 1056 → Cells.get s.ram.prob e = some v →
      ∃ w : Word, hostRead s (0x0800 + 4 * (e / 4)) 4 = .ok w ∧ w.extractLsb' (8 * (e % 4)) 8 = v) ∧
    (∀ j v, j < 400 → Cells.get s.ram.coef j = some v →
      ∃ w : Word, hostRead s (0x1000 + 4 * (j / 2)) 4 = .ok w ∧ w.extractLsb' (16 * (j % 2)) 16 = v) ∧
    (∀ j v, j < 400 → Cells.get s.ram.dq j = some v → hostRead s (0x2000 + 4 * j) 4 = .ok v) ∧
    (∃ w : Word, hostRead s 0x3000 4 = .ok w ∧
      (∀ k b, k < 9 → nzGet s.ram.nzLeft k = some b → w.getLsbD k = b) ∧
      ((∀ k, k < 9 → (nzGet s.ram.nzLeft k).isSome = true) → w.extractLsb' 9 23 = 0)) ∧
    (∀ c, c < 4096 → ∃ w : Word, hostRead s (0x4000 + 4 * c) 4 = .ok w ∧
      (∀ k b, k < 9 → nzGet (nzAboveGet s.ram.nzAbove c) k = some b → w.getLsbD k = b) ∧
      ((∀ k, k < 9 → (nzGet (nzAboveGet s.ram.nzAbove c) k).isSome = true) → w.extractLsb' 9 23 = 0)))

/-! ### Reset and the error state -/

/-- 70_reset_and_hazards.md R541: writing CTRL with bit 0 = 1 resets every register and context, empties CMDQ and keeps RAMs
and data memory, whatever the other bits: at once where no command is in execution, else when that command has completed.
Until then EXEC stays 1 and the write changes nothing else. The command's effects stay: the completing turn leaves the RAMs
and data memory of exec, or, for an undecodable word, those before. Which turns complete it is the model's choice (CoreTurn,
log entry 6, DESIGN CHOICE). With bit 0 = 0 only the enables change. -/
def Obligations.SoftResetRule : Prop :=
  (∀ (s : State) (v : Word) (later : List Input), s.inputs = .mmioWrite 0x0004 4 v :: later →
    (v.getLsbD 0 = true → s.running = none →
      step s = .next { State.reset with
        rom := s.rom, ram := s.ram, mem := s.mem, inputs := later, epoch := s.epoch }) ∧
    (∀ c : Command, v.getLsbD 0 = true → s.running = some c →
      step s = .next { s with inputs := later, running := some { c with resetAfter := true } }) ∧
    (v.getLsbD 0 = false → step s = .next { s with inputs := later, ieSync := v.getLsbD 1, ieErr := v.getLsbD 2 })) ∧
  (∀ (s : State) (c : Command) (later : List Input), s.running = some c → c.resetAfter = true →
    CoreTurn s later →
    (∀ (i : Instr) (t : State), decodeWord c.word c.data = .ok i → exec i { s with inputs := later } = .next t →
      step s = .next { State.reset with
        rom := s.rom, ram := t.ram, mem := t.mem, inputs := later, epoch := s.epoch }) ∧
    ((∀ i, decodeWord c.word c.data ≠ .ok i) →
      step s = .next { State.reset with
        rom := s.rom, ram := s.ram, mem := s.mem, inputs := later, epoch := s.epoch }))

/-- 70_reset_and_hazards.md R540: the hard reset resets every register and context, empties CMDQ, clears EXEC and irq,
leaves every RAM entry unwritten and does not touch data memory. That a command in execution leaves none of its effects on
data memory is the model's choice, log entry 18 (DESIGN CHOICE): R540 is silent there. -/
def Obligations.HardResetRule : Prop :=
  ∀ (s : State) (later : List Input), s.inputs = .hardReset :: later →
    ∃ t, step s = .next t ∧
      t = { State.reset with rom := s.rom, mem := s.mem, inputs := later, epoch := s.epoch + 1 } ∧
      irq t = false ∧
      (∀ k, Cells.get t.ram.eob k = none ∧ Cells.get t.ram.prob k = none ∧ Cells.get t.ram.coef k = none ∧
        Cells.get t.ram.dq k = none ∧ nzGet t.ram.nzLeft k = none ∧ ∀ c, nzGet (nzAboveGet t.ram.nzAbove c) k = none)

/-- 70_reset_and_hazards.md R542: what every register of the window reads after a reset, the queue and the contexts; the
RAM windows are those the rule leaves unspecified (hard) or unchanged (soft). -/
def Obligations.ResetValues : Prop :=
  ∀ s t : State, (t = State.reset ∨ t = softReset s ∨ t = hardReset s) →
    hostRead t 0x0000 4 = .ok 0x56503801 ∧
    (∀ k, 1 ≤ k → k < 8192 → ¬ (0x100 ≤ k ∧ k < 0x119) → ¬ (0x200 ≤ k ∧ k < 0x308) → ¬ (0x400 ≤ k ∧ k < 0x4C8) →
      ¬ (0x800 ≤ k ∧ k < 0x990) → k ≠ 0xC00 → ¬ 0x1000 ≤ k → hostRead t (4 * k) 4 = .ok 0) ∧
    (∀ i, i < 9 → (t.ctx i).value = 0 ∧ (t.ctx i).range = 0 ∧ (t.ctx i).bitCount = 0 ∧ (t.ctx i).pos = 0 ∧
      (t.ctx i).stop = 0 ∧ (t.ctx i).valid = false ∧ (t.ctx i).exh = false ∧ (t.ctx i).zfill = 0) ∧
    t.cmdq = [] ∧ t.running = none ∧ irq t = false ∧
    (t = softReset s → t.ram = s.ram)

/-- 70_reset_and_hazards.md R543, on whatever state has the reset value each clause names. The per-macroblock commands are
those of 47_control.md R476, with operands that pass the checks before the position check. -/
def Obligations.ResetConsequences : Prop :=
  ∀ s : State,
    (s.cfg.frameDim = 0 → ∀ i : Instr,
      ((∃ c y2 skip, i = .detokMb c y2 skip) ∨ (∃ m, m ≤ 3 ∧ (i = .ipred16 m ∨ i = .ipredUv m)) ∨
        (∃ b m, b ≤ 15 ∧ m ≤ 9 ∧ i = .ipred4 b m) ∨ (∃ b, b ≤ 23 ∧ i = .idctAdd b) ∨ (∃ u, i = .reconMb u) ∨
        (∃ r split clamp, 1 ≤ r ∧ i = .mcMb r split clamp) ∨
        (∃ seg r m nocoef, m ≤ 9 ∧ ((r = 0 ∧ m ≤ 4) ∨ (1 ≤ r ∧ 5 ≤ m)) ∧ i = .lfMb seg r m nocoef)) →
      exec i s = .next (errorEntry .posOob i.word s)) ∧
    ((∀ i, (s.ctx i).valid = false) →
      (∀ i p, exec (.bdBool i p) s = .next (errorEntry .bdNotInit (Instr.bdBool i p).word s)) ∧
      (∀ i n, exec (.bdLit i n) s = .next (errorEntry .bdNotInit (Instr.bdLit i n).word s)) ∧
      (posOk s.cfg = true → ∀ i y2, exec (.detokMb i y2 false) s =
        .next (errorEntry .bdNotInit (Instr.detokMb i y2 false).word s))) ∧
    (s.dqf = Vector.replicate 24 0 → (∀ j, j < 400 → (Cells.get s.ram.coef j).isSome = true) → ∀ seg, seg < 4 →
      ∃ t, exec (.deqMb seg) s = .next t ∧ ∀ j, j < 400 → Cells.get t.ram.dq j = some 0) ∧
    (s.cfg.roleMap = 0 → posOk s.cfg = true → ∀ r split clamp, 1 ≤ r → r < 4 →
      exec (.mcMb r split clamp) s = .next (errorEntry .refIsCur (Instr.mcMb r split clamp).word s))

/-- 60_exceptions.md R503: a command that raises an error has the error entry as its only effect, and with IE_ERR = 1 the
interrupt line is up (R511). Every command of every state whose ERR is 0. R501: the code of each error, in numbers, and the
opcodes that may raise it; ILLEGAL_CMD is raised by words that decode to no command (IllegalCommands). -/
def Obligations.ErrorEntryPrecise : Prop :=
  (let codes : List (ErrorCode × BitVec 4) :=
    [(.illegalCmd, 1), (.bdNotInit, 2), (.posOob, 3), (.badParam, 4), (.mcOob, 5), (.bdRange, 6), (.refIsCur, 7)]
   ∀ (e : ErrorCode), ∃ n, (e, n) ∈ codes ∧ ∀ (w : Word) (s : State),
    errorEntry e w s = { s with err := true, errCode := n, errInfo := w, cmdq := [], running := none }) ∧
  ∀ (i : Instr) (s t : State), s.err = false → exec i s = .next t → t.err = true →
    t = { s with err := true, errCode := t.errCode, errInfo := i.word, cmdq := [], running := none } ∧
    (let raisers : List (BitVec 4 × List Nat) :=
      [(2, [0x08, 0x09, 0x0A, 0x12]), (3, [0x03, 0x12, 0x21, 0x22, 0x28, 0x29, 0x2A, 0x30, 0x38]),
       (4, [0x02, 0x0A, 0x21, 0x28, 0x29, 0x2A, 0x30, 0x38]), (5, [0x30]), (6, [0x08]), (7, [0x30])]
     ∃ r ∈ raisers, t.errCode = r.1 ∧ i.opcode ∈ r.2) ∧
    busy t = false ∧ irq t = (s.syncDone && s.ieSync || s.ieErr)

/-- 60_exceptions.md R505: what works and what does not while ERR = 1. That CMDQ is empty and nothing executes then is the
invariant of StepKeepsInv. -/
def Obligations.ErrorStateHolds : Prop :=
  ∀ s : State, s.err = true → s.cmdq = [] → s.running = none →
    (s.inputs = [] → step s = .next s) ∧
    (∀ later, s.inputs = .run :: later → step s = .next { s with inputs := later }) ∧
    (∀ v later, s.inputs = .mmioWrite 0x000C 4 v :: later → step s = .next { s with inputs := later }) ∧
    (∀ k v later, (7 ≤ k ∧ k ≤ 10) ∨ (0x10 ≤ k ∧ k < 0x32) ∨ (0x80 ≤ k ∧ k < 0x89) ∨ (0xC0 ≤ k ∧ k < 0xD0) ∨
        (0x200 ≤ k ∧ k < 0x308) → s.inputs = .mmioWrite (4 * k) 4 v :: later →
      ∃ t, step s = .next t ∧ t = writeCfg { s with inputs := later } (regAtWord k) v ∧
        t.err = true ∧ t.errCode = s.errCode ∧ t.errInfo = s.errInfo) ∧
    (∀ k, k < 8192 → ∃ v, hostRead s (4 * k) 4 = .ok v)

/-- 60_exceptions.md R506, R507: a step out of the error state keeps ERR, ERRCODE and ERRINFO, unless it is the hard reset
or a write of CTRL with SOFT_RESET = 1, which clear them. -/
def Obligations.OnlyResetClearsError : Prop :=
  ∀ s t : State, s.Inv → s.err = true → step s = .next t →
    (t.err = true ∧ t.errCode = s.errCode ∧ t.errInfo = s.errInfo) ∨
    (((∃ later, s.inputs = .hardReset :: later) ∨
      (∃ v later, s.inputs = .mmioWrite 0x0004 4 v :: later ∧ v.getLsbD 0 = true)) ∧
      t.err = false ∧ t.errCode = 0 ∧ t.errInfo = 0)

/-! ### Control commands -/

/-- 47_control.md R470, R472: NOP has no effect; SYNC sets SYNC_DONE and nothing else, which raises irq when IE_SYNC = 1. -/
def Obligations.NopAndSync : Prop :=
  ∀ s : State, exec .nop s = .next s ∧ exec .sync s = .next { s with syncDone := true } ∧
    (s.ieSync = true → irq { s with syncDone := true } = true)

/-- 47_control.md R473: WREG to a CFG register or a PROB word completes; that register then reads `d` with its RSV bits 0
(the masks of 10_state.md R41 to R54), the four PROB bytes of a PROB word are the four bytes of `d` (R58), and every other
register reads as before (BUSY does not matter); data memory, the contexts and every other part of State are unchanged. Any
other target raises BAD_PARAM. Then, in numbers, which CFG register the HOST reads at each offset of the map of 10_state.md
section 2, and what the fields of those registers are (R41 to R56): positions, dimensions, border, roles, flags, levels, and
with them the position check (47_control.md R476) and the places of pixels, planes, macroblocks and blocks (20_memory.md
R106 to R108). -/
def Obligations.WregRule : Prop :=
  (let target : Nat → Prop := fun k =>
     (7 ≤ k ∧ k ≤ 10) ∨ (0x10 ≤ k ∧ k < 0x20) ∨ (0x20 ≤ k ∧ k < 0x32) ∨ (0x80 ≤ k ∧ k < 0x89) ∨
     (0xC0 ≤ k ∧ k < 0xD0) ∨ (0x200 ≤ k ∧ k < 0x308)
   let mask : Nat → Word := fun k =>
     if k = 0x07 ∨ k = 0x08 then 0x0FFF0FFF
     else if k = 0x09 then 0x0000FF07
     else if k = 0x0A ∨ k = 0x82 then 0x000000FF
     else if k = 0x80 then 0x0000007F
     else if k = 0x83 then 0x00000003
     else if k = 0x86 then 0x0003073F
     else 0xFFFFFFFF
   ∀ (s : State) (k : Nat) (d : Word), k < 4096 →
    (target k →
      ∃ t, exec (.wreg k d) s = .next t ∧
        t = { s with cfg := t.cfg, ram := { s.ram with prob := t.ram.prob } } ∧
        hostRead t (4 * k) 4 = .ok (d &&& mask k) ∧
        (0x200 ≤ k → ∀ j, j < 4 → Cells.get t.ram.prob (4 * (k - 0x200) + j) = some (d.extractLsb' (8 * j) 8)) ∧
        ∀ j, j < 8192 → j ≠ k → hostRead t (4 * j) 4 = hostRead s (4 * j) 4) ∧
    (¬ target k → exec (.wreg k d) s = .next (errorEntry .badParam (Instr.wreg k d).word s))) ∧
  (∀ s : State,
    hostRead s 0x001C 4 = .ok s.cfg.mbPos ∧ hostRead s 0x0020 4 = .ok s.cfg.frameDim ∧
    hostRead s 0x0024 4 = .ok s.cfg.decCfg ∧ hostRead s 0x0028 4 = .ok s.cfg.roleMap ∧
    (∀ g, g < 4 →
      hostRead s (0x0040 + 16 * g) 4 = .ok (fileGet s.cfg.slotYBase g 0) ∧
      hostRead s (0x0044 + 16 * g) 4 = .ok (fileGet s.cfg.slotUBase g 0) ∧
      hostRead s (0x0048 + 16 * g) 4 = .ok (fileGet s.cfg.slotVBase g 0) ∧
      hostRead s (0x004C + 16 * g) 4 = .ok (fileGet s.cfg.slotStride g 0)) ∧
    (∀ i, i < 9 →
      hostRead s (0x0080 + 8 * i) 4 = .ok (fileGet s.cfg.bdStart i 0) ∧
      hostRead s (0x0084 + 8 * i) 4 = .ok (fileGet s.cfg.bdSize i 0)) ∧
    hostRead s 0x0200 4 = .ok s.cfg.qBase ∧ hostRead s 0x0204 4 = .ok s.cfg.qDelta0 ∧
    hostRead s 0x0208 4 = .ok s.cfg.qDelta1 ∧ hostRead s 0x020C 4 = .ok s.cfg.segCfg ∧
    hostRead s 0x0210 4 = .ok s.cfg.segQ ∧ hostRead s 0x0214 4 = .ok s.cfg.segLf ∧
    hostRead s 0x0218 4 = .ok s.cfg.lfCfg ∧ hostRead s 0x021C 4 = .ok s.cfg.lfRefDelta ∧
    hostRead s 0x0220 4 = .ok s.cfg.lfModeDelta ∧
    (∀ b, b < 16 → hostRead s (0x0300 + 4 * b) 4 = .ok (fileGet s.cfg.mv b 0))) ∧
  (∀ c : CfgRegs,
    c.mbCol = (c.mbPos.extractLsb' 0 12).toNat ∧ c.mbRow = (c.mbPos.extractLsb' 16 12).toNat ∧
    c.mbCols = (c.frameDim.extractLsb' 0 12).toNat ∧ c.mbRows = (c.frameDim.extractLsb' 16 12).toNat ∧
    c.keyFrame = c.decCfg.getLsbD 0 ∧ c.mcBilinear = c.decCfg.getLsbD 1 ∧ c.chromaFullpixel = c.decCfg.getLsbD 2 ∧
    c.borderY = (c.decCfg.extractLsb' 8 8).toNat ∧
    c.cur = (c.roleMap.extractLsb' 0 2).toNat ∧ (∀ r, r < 4 → c.roleSlot r = (c.roleMap.extractLsb' (2 * r) 2).toNat) ∧
    (posOk c = true ↔ 0 < c.mbCols ∧ 0 < c.mbRows ∧ c.mbCol < c.mbCols ∧ c.mbRow < c.mbRows) ∧
    (∀ i, c.bdStartAt i = (fileGet c.bdStart i 0).toNat ∧ c.bdSizeAt i = (fileGet c.bdSize i 0).toNat) ∧
    c.lfLevel = (c.lfCfg.extractLsb' 0 6).toNat ∧ c.lfSharpness = (c.lfCfg.extractLsb' 8 3).toNat ∧
    c.lfSimple = c.lfCfg.getLsbD 16 ∧ c.lfDeltaEn = c.lfCfg.getLsbD 17 ∧
    (∀ (slot : Nat) (x y : Int),
      let yPitch : Int := ((fileGet c.slotStride slot 0).extractLsb' 0 16).toNat
      let uvPitch : Int := ((fileGet c.slotStride slot 0).extractLsb' 16 16).toNat
      ({ plane := .y, x := x, y := y } : Point).addr c slot = (fileGet c.slotYBase slot 0).toNat + y * yPitch + x ∧
      ({ plane := .u, x := x, y := y } : Point).addr c slot = (fileGet c.slotUBase slot 0).toNat + y * uvPitch + x ∧
      ({ plane := .v, x := x, y := y } : Point).addr c slot = (fileGet c.slotVBase slot 0).toNat + y * uvPitch + x) ∧
    (∀ q : Point,
      let n : Int := if q.plane = .y then 16 else 8
      let border : Int := if q.plane = .y then c.borderY else c.borderY / 2
      (Visible c q ↔ 0 ≤ q.x ∧ q.x < n * c.mbCols ∧ 0 ≤ q.y ∧ q.y < n * c.mbRows) ∧
      (Readable c q ↔ -border ≤ q.x ∧ q.x < n * c.mbCols + border ∧ -border ≤ q.y ∧ q.y < n * c.mbRows + border) ∧
      (InMb c q ↔ n * c.mbCol ≤ q.x ∧ q.x < n * c.mbCol + n ∧ n * c.mbRow ≤ q.y ∧ q.y < n * c.mbRow + n) ∧
      (∀ b, b < 24 →
        let bx4 : Int := 4 * ((if b < 16 then b % 4 else b % 2 : Nat) : Int)
        let by4 : Int := 4 * ((if b < 16 then b / 4 else b % 4 / 2 : Nat) : Int)
        (InBlock c b q ↔ q.plane = (if b < 16 then .y else if b < 20 then .u else .v) ∧
          n * c.mbCol + bx4 ≤ q.x ∧ q.x < n * c.mbCol + bx4 + 4 ∧ n * c.mbRow + by4 ≤ q.y ∧ q.y < n * c.mbRow + by4 + 4))))

/-- 47_control.md R475. -/
def Obligations.MbSetRule : Prop :=
  ∀ (s : State) (row col : Nat), row < 4096 → col < 4096 →
    (0 < s.cfg.mbCols ∧ 0 < s.cfg.mbRows ∧ col < s.cfg.mbCols ∧ row < s.cfg.mbRows →
      ∃ t, exec (.mbSet row col) s = .next t ∧ t.cfg.mbRow = row ∧ t.cfg.mbCol = col ∧
        t = { s with cfg := { s.cfg with mbPos := t.cfg.mbPos } }) ∧
    (¬ (0 < s.cfg.mbCols ∧ 0 < s.cfg.mbRows ∧ col < s.cfg.mbCols ∧ row < s.cfg.mbRows) →
      exec (.mbSet row col) s = .next (errorEntry .posOob (Instr.mbSet row col).word s))

/-! ### The bool decoder -/

/-- 40_entropy.md R203: the checks of BD_INIT in order, and every field of the context it leaves, which the later
statements name `initCtx`. -/
def Obligations.BdInitRule : Prop :=
  ∀ (s : State) (i : Nat),
    (8 < i → exec (.bdInit i) s = .next (errorEntry .bdNotInit (Instr.bdInit i).word s)) ∧
    (i ≤ 8 → 2 ^ 32 < s.cfg.bdStartAt i + s.cfg.bdSizeAt i →
      exec (.bdInit i) s = .next (errorEntry .bdRange (Instr.bdInit i).word s)) ∧
    (i ≤ 8 → s.cfg.bdStartAt i + s.cfg.bdSizeAt i ≤ 2 ^ 32 →
      let start := s.cfg.bdStartAt i
      let size := s.cfg.bdSizeAt i
      let byte : Nat → Nat := fun k => if k < size then (readByte s.mem (start + k)).toNat else 0
      ∃ d : BoolCtx, exec (.bdInit i) s = .next { s with bd := fileSet s.bd i d } ∧
        d = initCtx s.mem start size ∧
        d.pos = start + min size 2 ∧ d.stop = start + size ∧ d.valid = true ∧
        (d.exh = true ↔ size < 2) ∧ d.zfill.toNat = 2 - size ∧
        d.value.toNat = 256 * byte 0 + byte 1 ∧ d.range.toNat = 255 ∧ d.bitCount.toNat = 0)

/-- 40_entropy.md R204, R207 with the split of R202: BD_BOOL decides by the split, writes RESULT and leaves the context
renormalised (R205), by `bool_decode`, which the later statements name; no other context and no other part of State changes. -/
def Obligations.BdBoolRule : Prop :=
  ∀ (s : State) (i p : Nat), p < 256 →
    (¬ (i ≤ 8 ∧ (s.ctx i).valid = true) →
      exec (.bdBool i p) s = .next (errorEntry .bdNotInit (Instr.bdBool i p).word s)) ∧
    (i ≤ 8 → (s.ctx i).valid = true → 128 ≤ (s.ctx i).range.toNat →
      let c := s.ctx i
      let sp := 1 + ((c.range.toNat - 1) * p) >>> 8
      let one := decide (sp * 256 ≤ c.value.toNat)
      1 ≤ sp ∧ sp ≤ c.range.toNat - 1 ∧
      ∃ d : BoolCtx, exec (.bdBool i p) s =
          .next { s with bd := fileSet s.bd i d, result := if one then 1 else 0 } ∧
        boolDecode s.mem p c = (one, d) ∧
        Renormalised s.mem
          (if one then { c with range := BitVec.ofNat 8 (c.range.toNat - sp),
                                value := BitVec.ofNat 16 (c.value.toNat - sp * 256) }
           else { c with range := BitVec.ofNat 8 sp }) d)

/-- 40_entropy.md R205 with `next_byte` of R201: one turn of the renormalisation loop, in numbers, and the loop: it turns
until range is 128 or more and no longer. -/
def Obligations.Renormalisation : Prop :=
  (∀ (m : List Host.Cell) (c : BoolCtx), c.range.toNat < 128 →
    let d := shiftOnce m c
    d.range.toNat = c.range.toNat * 2 ∧ d.stop = c.stop ∧ d.start = c.start ∧ d.valid = c.valid ∧
    (c.bitCount.toNat < 7 →
      d.bitCount.toNat = c.bitCount.toNat + 1 ∧ d.value.toNat = c.value.toNat * 2 % 65536 ∧ d.pos = c.pos ∧
      d.exh = c.exh ∧ d.zfill = c.zfill) ∧
    (c.bitCount.toNat = 7 → d.bitCount.toNat = 0 ∧
      (c.pos < c.stop → d.pos = c.pos + 1 ∧ d.exh = c.exh ∧ d.zfill = c.zfill ∧
        d.value.toNat = (c.value.toNat * 2 % 65536) ||| (readByte m c.pos).toNat) ∧
      (c.stop ≤ c.pos → d.pos = c.pos ∧ d.exh = true ∧ d.zfill.toNat = min (c.zfill.toNat + 1) (2 ^ 32 - 1) ∧
        d.value.toNat = c.value.toNat * 2 % 65536))) ∧
  (∀ (m : List Host.Cell) (c : BoolCtx), 1 ≤ c.range.toNat → Renormalised m c (renorm m 7 c))

/-- 40_entropy.md R206, R211: the checks of BD_LIT in order; BD_LIT of 0 bits writes RESULT 0 and nothing else; BD_LIT of
n + 1 bits is BD_LIT of n bits, one decision at probability 128, and RESULT twice the first plus the second. It completes
for every n up to 32. -/
def Obligations.BdLitRule : Prop :=
  ∀ (s : State) (i n : Nat),
    (¬ (i ≤ 8 ∧ (s.ctx i).valid = true) →
      exec (.bdLit i n) s = .next (errorEntry .bdNotInit (Instr.bdLit i n).word s)) ∧
    (i ≤ 8 → (s.ctx i).valid = true → 32 < n →
      exec (.bdLit i n) s = .next (errorEntry .badParam (Instr.bdLit i n).word s)) ∧
    (i ≤ 8 → (s.ctx i).valid = true →
      exec (.bdLit i 0) s = .next { s with result := 0 } ∧
      (n < 32 → ∃ u t, exec (.bdLit i n) s = .next u ∧ exec (.bdBool i 128) u = .next t ∧
        t.result.toNat ≤ 1 ∧
        exec (.bdLit i (n + 1)) s = .next { t with result := BitVec.ofNat 32 (2 * u.result.toNat + t.result.toNat) } ∧
        2 * u.result.toNat + t.result.toNat < 2 ^ (n + 1)))

/-- 40_entropy.md R208: the invariants of a valid context, after BD_INIT and after every complete decision. The bounds of
value and bit_count are those of their widths. -/
def Obligations.ContextInvariant : Prop :=
  (∀ (m : List Host.Cell) (start size : Nat), start + size ≤ memSize →
    (initCtx m start size).Ok ∧ (initCtx m start size).start = start) ∧
  (∀ (m : List Host.Cell) (p : Nat) (c : BoolCtx), p < 256 → c.valid = true → c.Ok →
    let d := (boolDecode m p c).2
    d.Ok ∧ d.valid = true ∧ d.start = c.start ∧
    (c.value.toNat < c.range.toNat * 256 → d.value.toNat < d.range.toNat * 256))

/-- 40_entropy.md R209: value < range * 256 fails after BD_INIT exactly when the first byte is 0xFF, and then the decision
gives bit 1 at every probability. -/
def Obligations.FirstByteFF : Prop :=
  ∀ (m : List Host.Cell) (start size : Nat), start + size ≤ memSize →
    let c := initCtx m start size
    (¬ c.value.toNat < c.range.toNat * 256 ↔ 0 < size ∧ readByte m start = 0xFF) ∧
    (¬ c.value.toNat < c.range.toNat * 256 → ∀ p, p < 256 → (boolDecode m p c).1 = true)

/-- 40_entropy.md R200, R201, R215: what BD_BOOL and BD_LIT leave in context i and in RESULT depends on nothing but that
context and the bytes of [pos, end): no other context, no byte at or past the end. -/
def Obligations.StreamDeterminism : Prop :=
  ∀ (s u : State) (i : Nat) (cmd : Instr), ((∃ p, cmd = .bdBool i p) ∨ ∃ n, cmd = .bdLit i n) →
    s.ctx i = u.ctx i → s.result = u.result →
    (∀ a, (s.ctx i).pos ≤ a → a < (s.ctx i).stop → readByte s.mem a = readByte u.mem a) →
    ∀ s' u', exec cmd s = .next s' → exec cmd u = .next u' →
      s'.ctx i = u'.ctx i ∧ s'.result = u'.result ∧ ∀ j, j ≠ i → s'.ctx j = s.ctx j

/-! ### The detokenizer -/

/-- 41_detokenizer.md R236, R237: DETOK_FRAME clears every flag of every column, DETOK_ROW every flag of NZ_LEFT. -/
def Obligations.DetokFrameAndRow : Prop :=
  ∀ s : State,
    (∃ t, exec .detokFrame s = .next t ∧ t = { s with ram := { s.ram with nzAbove := t.ram.nzAbove } } ∧
      ∀ c k, c < 4096 → k < 9 → nzGet (nzAboveGet t.ram.nzAbove c) k = some false) ∧
    (∃ t, exec .detokRow s = .next t ∧ t = { s with ram := { s.ram with nzLeft := t.ram.nzLeft } } ∧
      ∀ k, k < 9 → nzGet t.ram.nzLeft k = some false)

/-- 41_detokenizer.md R243: a skipped macroblock clears its Y, U and V flags, and Y2 only when it has a Y2 block; COEF and
EOB are all 0 and so is EOBTOTAL. The CTX field is ignored (R238). -/
def Obligations.SkippedMacroblock : Prop :=
  ∀ (s : State) (i : Nat) (y2 : Bool), posOk s.cfg = true →
    ∃ t, exec (.detokMb i y2 true) s = .next t ∧
      t = { s with
        eobTotal := 0
        ram := { s.ram with coef := t.ram.coef, eob := t.ram.eob, nzAbove := t.ram.nzAbove, nzLeft := t.ram.nzLeft } } ∧
      (∀ j, j < 400 → Cells.get t.ram.coef j = some 0) ∧ (∀ b, b < 25 → Cells.get t.ram.eob b = some 0) ∧
      (∀ k, k < 8 → nzGet (nzAboveGet t.ram.nzAbove s.cfg.mbCol) k = some false ∧ nzGet t.ram.nzLeft k = some false) ∧
      nzGet (nzAboveGet t.ram.nzAbove s.cfg.mbCol) 8 =
        (if y2 then some false else nzGet (nzAboveGet s.ram.nzAbove s.cfg.mbCol) 8) ∧
      nzGet t.ram.nzLeft 8 = (if y2 then some false else nzGet s.ram.nzLeft 8) ∧
      (∀ c, c ≠ s.cfg.mbCol → nzAboveGet t.ram.nzAbove c = nzAboveGet s.ram.nzAbove c)

/-- 41_detokenizer.md R238: the checks of DETOK_MB in order; where they pass and every PROB byte and the flags it reads have
been written, it completes and changes nothing but EOBTOTAL, COEF, EOB, its column's flags, NZ_LEFT and context i. Where a
position and a context are legal, those are what `decode_block` (R234) leaves, run over the blocks in the order of R239, each
with the type and first position of R231, the context above flag + left flag of R239 (the bits of R242) and the PROB RAM as
it was (R247), its eob, flags and total written back before the next block (R241); where it needs an unwritten flag or PROB
entry the command faults with UNINIT (10_state.md R65, log entry 9, DEDUCED). -/
def Obligations.DetokMbCompletes : Prop :=
  ∀ (s : State) (i : Nat) (y2 : Bool),
    (posOk s.cfg = false → ∀ skip,
      exec (.detokMb i y2 skip) s = .next (errorEntry .posOob (Instr.detokMb i y2 skip).word s)) ∧
    (posOk s.cfg = true → ¬ (i ≤ 8 ∧ (s.ctx i).valid = true) →
      exec (.detokMb i y2 false) s = .next (errorEntry .bdNotInit (Instr.detokMb i y2 false).word s)) ∧
    (posOk s.cfg = true → i ≤ 8 → (s.ctx i).valid = true →
      (∀ e, e < 1056 → (Cells.get s.ram.prob e).isSome = true) →
      (∀ k, k < (if y2 then 9 else 8) → (nzGet (nzAboveGet s.ram.nzAbove s.cfg.mbCol) k).isSome = true ∧
        (nzGet s.ram.nzLeft k).isSome = true) →
      ∃ t, exec (.detokMb i y2 false) s = .next t ∧
        t = { s with
          eobTotal := t.eobTotal, bd := fileSet s.bd i (t.ctx i)
          ram := { s.ram with coef := t.ram.coef, eob := t.ram.eob, nzAbove := t.ram.nzAbove, nzLeft := t.ram.nzLeft } } ∧
        (∀ c, c ≠ s.cfg.mbCol → nzAboveGet t.ram.nzAbove c = nzAboveGet s.ram.nzAbove c)) ∧
    (posOk s.cfg = true → i ≤ 8 → (s.ctx i).valid = true →
      let order : List Nat := (if y2 then [24] else []) ++ List.range 24
      let type : Nat → Nat := fun b => if b = 24 then 1 else if 16 ≤ b then 2 else if y2 then 0 else 3
      let first : Nat → Nat := fun b => if b < 16 ∧ y2 = true then 1 else 0
      let aboveBit : Nat → Nat := fun b =>
        if b = 24 then 8 else if b < 16 then b % 4 else if b < 20 then 4 + b % 2 else 6 + b % 2
      let leftBit : Nat → Nat := fun b =>
        if b = 24 then 8 else if b < 16 then b / 4 else if b < 20 then 4 + (b - 16) / 2 else 6 + (b - 20) / 2
      let block : DetokAcc → Nat → Option DetokAcc := fun a b =>
        (nzGet a.above (aboveBit b)).bind fun fa => (nzGet a.left (leftBit b)).bind fun fl =>
        (decodeBlock s.rom s.mem s.ram.prob (type b) b (first b) (fa.toNat + fl.toNat) a.ctx a.coef).map fun r =>
          { ctx := r.ctx, coef := r.coef, eob := Cells.set a.eob b (BitVec.ofNat 5 r.eob),
            above := nzSet a.above (aboveBit b) (decide (first b < r.eob)),
            left := nzSet a.left (leftBit b) (decide (first b < r.eob)), total := a.total + (r.eob - first b) }
      let start : DetokAcc :=
        { ctx := s.ctx i, coef := Cells.fill 400 fun _ => 0, eob := Cells.fill 25 fun _ => 0,
          above := nzAboveGet s.ram.nzAbove s.cfg.mbCol, left := s.ram.nzLeft, total := 0 }
      (∀ z, order.foldlM block start = some z → ∃ t, exec (.detokMb i y2 false) s = .next t ∧
        t.ctx i = z.ctx ∧ t.ram.coef = z.coef ∧ t.ram.eob = z.eob ∧ nzAboveGet t.ram.nzAbove s.cfg.mbCol = z.above ∧
        t.ram.nzLeft = z.left ∧ t.eobTotal.toNat = z.total) ∧
      (order.foldlM block start = none → exec (.detokMb i y2 false) s = .fault .uninit))

/-- 41_detokenizer.md R239 to R241, R245: after a DETOK_MB that decodes, EOB[b] lies between the block's first position and
16; EOBTOTAL is the sum of eob - first, at most 384; each flag above and left is the test eob > first of the last block
written to it (the bottom row and the right column of each plane); without a Y2 block EOB[24] is 0 and the Y2 flags keep
their values. -/
def Obligations.DetokFlagsAndTotal : Prop :=
  ∀ (s t : State) (i : Nat) (y2 : Bool), posOk s.cfg = true → i ≤ 8 → (s.ctx i).valid = true →
    exec (.detokMb i y2 false) s = .next t →
    let first : Nat → Nat := fun b => if y2 ∧ b < 16 then 1 else 0
    ∃ eob : Nat → Nat,
      (∀ b, b < 25 → Cells.get t.ram.eob b = some (BitVec.ofNat 5 (eob b)) ∧
        eob b ≤ 16 ∧ (first b ≤ eob b)) ∧
      (y2 = false → eob 24 = 0) ∧
      t.eobTotal.toNat = ((List.range 25).map fun b => eob b - first b).sum ∧ t.eobTotal.toNat ≤ 384 ∧
      (let above := nzAboveGet t.ram.nzAbove s.cfg.mbCol
       let left := t.ram.nzLeft
       let nz : Nat → Option Bool := fun b => some (decide (first b < eob b))
       (∀ k, k < 4 → nzGet above k = nz (12 + k) ∧ nzGet left k = nz (4 * k + 3)) ∧
       (∀ k, k < 2 → nzGet above (4 + k) = nz (18 + k) ∧ nzGet left (4 + k) = nz (17 + 2 * k)) ∧
       (∀ k, k < 2 → nzGet above (6 + k) = nz (22 + k) ∧ nzGet left (6 + k) = nz (21 + 2 * k)) ∧
       nzGet above 8 = (if y2 then nz 24 else nzGet (nzAboveGet s.ram.nzAbove s.cfg.mbCol) 8) ∧
       nzGet left 8 = (if y2 then nz 24 else nzGet s.ram.nzLeft 8))

/-- 41_detokenizer.md R244 with R240: with the default tables (00_scope.md R10) every COEF entry after a DETOK_MB that decodes
lies in -2114..2114, the DC of a luma block is 0 with a Y2 block, and COEF[24] is all 0 without one. -/
def Obligations.DetokCoefRange : Prop :=
  ∀ (s t : State) (i : Nat) (y2 : Bool), s.rom = romTables → posOk s.cfg = true → i ≤ 8 → (s.ctx i).valid = true →
    exec (.detokMb i y2 false) s = .next t →
    (∀ b k, b < 25 → k < 16 → ∃ v, Cells.get t.ram.coef (16 * b + k) = some v ∧ -2114 ≤ v.toInt ∧ v.toInt ≤ 2114) ∧
    (y2 = true → ∀ b, b < 16 → Cells.get t.ram.coef (16 * b) = some 0) ∧
    (y2 = false → ∀ k, k < 16 → Cells.get t.ram.coef (384 + k) = some 0)

/-- 41_detokenizer.md R232 to R234: decoding at scan position n is one walk of the token tree, from its root or, after a
ZERO token, from the node behind the EOB bit; EOB ends the block, ZERO writes nothing, any other token's magnitude and
sign are written at the zig-zag position; the next probability context is 0, 1 or 2. A category's magnitude is its base plus
its extra bits, the most significant first (R233). The walk gives a token exactly where the bits decoded are the token's code
in R232. A block starts at its first position in context ctx0 and ends at position 16 without an EOB (R234). Then the
probability row (10_state.md R58) and the default tables (R230) in numbers. For all tables: a value too wide for COEF's 16
bits, which the defaults never give (R244), is taken modulo 2^16 (log entry 7, DESIGN CHOICE). -/
def Obligations.TokenByTree : Prop :=
  (∀ (T : Config.Tables) (m : List Host.Cell) (prob : Cells Byte) (t b left n ctx : Nat) (afterZero : Bool) (c : BoolCtx)
    (coef : Cells (BitVec 16)),
    let category : Nat → BoolCtx → Nat × BoolCtx := fun k c =>
      let e := (fileGet T.catProb k []).foldl
        (fun (a : Nat × BoolCtx) q =>
          let d := boolDecode m q.toNat a.2
          (2 * a.1 + (if d.1 then 1 else 0), d.2)) (0, c)
      (fileGet T.catBase k 0 + e.1, e.2)
    let value : Token → BoolCtx → Nat × BoolCtx := fun token c =>
      match token with
      | .eob | .zero => (0, c)
      | .one => (1, c)
      | .two => (2, c)
      | .three => (3, c)
      | .four => (4, c)
      | .cat1 => category 0 c
      | .cat2 => category 1 c
      | .cat3 => category 2 c
      | .cat4 => category 3 c
      | .cat5 => category 4 c
      | .cat6 => category 5 c
    blockLoop T m prob t b (left + 1) n ctx afterZero c coef =
      (treeWalk tokenTree m (probEntry prob t (scanBand T n) ctx) 11 (if afterZero then 2 else 0) c).bind fun r =>
        match r.1 with
        | .eob => some { eob := n, ctx := r.2, coef := coef }
        | .zero => blockLoop T m prob t b left (n + 1) 0 true r.2 coef
        | token =>
          let v := value token r.2
          let sg := boolDecode m 128 v.2
          blockLoop T m prob t b left (n + 1) (if v.1 = 1 then 1 else 2) false sg.2
            (Cells.set coef (16 * b + scanIndex T n)
              (BitVec.ofInt 16 (if sg.1 then -(v.1 : Int) else (v.1 : Int))))) ∧
  (∀ (T : Config.Tables) (m : List Host.Cell) (prob : Cells Byte) (t b first n ctx : Nat) (afterZero : Bool) (c : BoolCtx)
    (coef : Cells (BitVec 16)),
    blockLoop T m prob t b 0 n ctx afterZero c coef = some { eob := n, ctx := c, coef := coef } ∧
    decodeBlock T m prob t b first ctx c coef = blockLoop T m prob t b (16 - first) first ctx false c coef) ∧
  (let codes : List (Token × List (Nat × Bool)) :=
    [(.eob, [(0, false)]),
     (.zero, [(0, true), (1, false)]),
     (.one, [(0, true), (1, true), (2, false)]),
     (.two, [(0, true), (1, true), (2, true), (3, false), (4, false)]),
     (.three, [(0, true), (1, true), (2, true), (3, false), (4, true), (5, false)]),
     (.four, [(0, true), (1, true), (2, true), (3, false), (4, true), (5, true)]),
     (.cat1, [(0, true), (1, true), (2, true), (3, true), (6, false), (7, false)]),
     (.cat2, [(0, true), (1, true), (2, true), (3, true), (6, false), (7, true)]),
     (.cat3, [(0, true), (1, true), (2, true), (3, true), (6, true), (8, false), (9, false)]),
     (.cat4, [(0, true), (1, true), (2, true), (3, true), (6, true), (8, false), (9, true)]),
     (.cat5, [(0, true), (1, true), (2, true), (3, true), (6, true), (8, true), (10, false)]),
     (.cat6, [(0, true), (1, true), (2, true), (3, true), (6, true), (8, true), (10, true)])]
   ∀ (m : List Host.Cell) (p : Nat → Option Nat) (c : BoolCtx),
    let bit : BoolCtx → Nat × Bool → Option BoolCtx := fun c k =>
      (p k.1).bind fun q => if (boolDecode m q c).1 = k.2 then some (boolDecode m q c).2 else none
    ∀ code ∈ codes, ∀ d,
      (treeWalk tokenTree m p 11 0 c = some (code.1, d) ↔ code.2.foldlM bit c = some d) ∧
      (code.1 ≠ .eob → (treeWalk tokenTree m p 11 2 c = some (code.1, d) ↔ (code.2.drop 1).foldlM bit c = some d))) ∧
  (∀ (prob : Cells Byte) (t band ctx k : Nat),
    probEntry prob t band ctx k = (Cells.get prob (((t * 8 + band) * 3 + ctx) * 11 + k)).map BitVec.toNat) ∧
  (List.range 16).map (scanIndex romTables) = [0, 1, 4, 8, 5, 2, 3, 6, 9, 12, 13, 10, 7, 11, 14, 15] ∧
  (List.range 16).map (scanBand romTables) = [0, 1, 2, 3, 6, 4, 5, 6, 6, 6, 6, 6, 6, 6, 6, 7] ∧
  (List.range 6).map (fun k => fileGet romTables.catProb k []) =
    [[159], [165, 145], [173, 148, 140], [176, 155, 140, 135], [180, 157, 141, 134, 130],
     [254, 254, 243, 230, 196, 177, 153, 140, 133, 130, 129]] ∧
  (List.range 6).map (fun k => fileGet romTables.catBase k 0) = [5, 7, 11, 19, 35, 67]

/-- 41_detokenizer.md R235, with the default tables: eob lies in first..16; it is `first` when the first token is EOB; when
it is between, the coefficient at the scan position before it is not 0; no coefficient from it on is written. -/
def Obligations.BlockEob : Prop :=
  ∀ (m : List Host.Cell) (prob : Cells Byte) (t b first ctx0 : Nat) (c : BoolCtx) (coef : Cells (BitVec 16))
    (r : BlockResult), b < 25 → first < 16 → decodeBlock romTables m prob t b first ctx0 c coef = some r →
    first ≤ r.eob ∧ r.eob ≤ 16 ∧
    (∀ d, decodeAt m (probEntry prob t (scanBand romTables first) ctx0 0) c = some (false, d) →
      r.eob = first ∧ r.ctx = d ∧ r.coef = coef) ∧
    (first < r.eob → r.eob < 16 →
      ∃ v, Cells.get r.coef (16 * b + scanIndex romTables (r.eob - 1)) = some v ∧ v ≠ 0) ∧
    (∀ n, r.eob ≤ n → n < 16 →
      Cells.get r.coef (16 * b + scanIndex romTables n) = Cells.get coef (16 * b + scanIndex romTables n))

/-! ### The dequantizer -/

/-- 42_dequant.md R271 to R275: QSETUP completes and writes the six factors of each segment from the tables, as their 16-bit
fields hold them, and nothing else; with the default tables (00_scope.md R10) they lie in the ranges of R274; the scale of
R273 is the reference decoder's; and the default tables in numbers (R270). That a factor too wide for its field is taken modulo 2^16 is the model's choice, log entry 7
(DESIGN CHOICE). -/
def Obligations.QsetupRule : Prop :=
  (∀ s : State, ∃ v : Vector (BitVec 16) 24, exec .qsetup s = .next { s with dqf := v } ∧
    ∀ seg, seg < 4 →
      let c := s.cfg
      let cl : Int → Int := fun x => max 0 (min 127 x)
      let segq : Int :=
        if c.segCfg.getLsbD 0 = false then (c.qBase.extractLsb' 0 7).toNat
        else if c.segCfg.getLsbD 1 then cl (c.segQ.extractLsb' (8 * seg) 8).toInt
        else cl ((c.qBase.extractLsb' 0 7).toNat + (c.segQ.extractLsb' (8 * seg) 8).toInt)
      let q : Int → Nat := fun d => (cl (segq + d)).toNat
      let dc : Int → Nat := fun d => fileGet s.rom.dcq (q d) 0
      let ac : Int → Nat := fun d => fileGet s.rom.acq (q d) 0
      let f : Nat → Nat := fun k => (fileGet v (6 * seg + k) 0).toNat
      f 0 = dc (c.qDelta0.extractLsb' 0 8).toInt % 65536 ∧ f 1 = ac 0 % 65536 ∧
      f 2 = 2 * dc (c.qDelta0.extractLsb' 8 8).toInt % 65536 ∧
      f 3 = max (ac (c.qDelta0.extractLsb' 16 8).toInt * 155 / 100) 8 % 65536 ∧
      f 4 = min (dc (c.qDelta0.extractLsb' 24 8).toInt) 132 ∧
      f 5 = ac (c.qDelta1.extractLsb' 0 8).toInt % 65536 ∧
      (s.rom = romTables →
        (∀ d, dc d < 158 ∧ ac d < 285) ∧
        (4 ≤ f 0 ∧ f 0 ≤ 157) ∧ (4 ≤ f 1 ∧ f 1 ≤ 284) ∧ (8 ≤ f 2 ∧ f 2 ≤ 314) ∧ (8 ≤ f 3 ∧ f 3 ≤ 440) ∧
        (4 ≤ f 4 ∧ f 4 ≤ 132) ∧ (4 ≤ f 5 ∧ f 5 ≤ 284))) ∧
  (∀ x : Nat, x ≤ 284 → x * 155 / 100 = (x * 101581) >>> 16) ∧
  (List.range 128).map (fun k => fileGet romTables.dcq k 0) =
    [4, 5, 6, 7, 8, 9, 10, 10, 11, 12, 13, 14, 15, 16, 17, 17] ++
    [18, 19, 20, 20, 21, 21, 22, 22, 23, 23, 24, 25, 25, 26, 27, 28] ++
    [29, 30, 31, 32, 33, 34, 35, 36, 37, 37, 38, 39, 40, 41, 42, 43] ++
    [44, 45, 46, 46, 47, 48, 49, 50, 51, 52, 53, 54, 55, 56, 57, 58] ++
    [59, 60, 61, 62, 63, 64, 65, 66, 67, 68, 69, 70, 71, 72, 73, 74] ++
    [75, 76, 76, 77, 78, 79, 80, 81, 82, 83, 84, 85, 86, 87, 88, 89] ++
    [91, 93, 95, 96, 98, 100, 101, 102, 104, 106, 108, 110, 112, 114, 116, 118] ++
    [122, 124, 126, 128, 130, 132, 134, 136, 138, 140, 143, 145, 148, 151, 154, 157] ∧
  (List.range 128).map (fun k => fileGet romTables.acq k 0) =
    [4, 5, 6, 7, 8, 9, 10, 11, 12, 13, 14, 15, 16, 17, 18, 19] ++
    [20, 21, 22, 23, 24, 25, 26, 27, 28, 29, 30, 31, 32, 33, 34, 35] ++
    [36, 37, 38, 39, 40, 41, 42, 43, 44, 45, 46, 47, 48, 49, 50, 51] ++
    [52, 53, 54, 55, 56, 57, 58, 60, 62, 64, 66, 68, 70, 72, 74, 76] ++
    [78, 80, 82, 84, 86, 88, 90, 92, 94, 96, 98, 100, 102, 104, 106, 108] ++
    [110, 112, 114, 116, 119, 122, 125, 128, 131, 134, 137, 140, 143, 146, 149, 152] ++
    [155, 158, 161, 164, 167, 170, 173, 177, 181, 185, 189, 193, 197, 201, 205, 209] ++
    [213, 217, 221, 225, 229, 234, 239, 245, 249, 254, 259, 264, 269, 274, 279, 284]

/-- 42_dequant.md R276, R278, R280: DEQ_MB writes every product, exact, and sets WIDE16 when one leaves the 16-bit range; a
COEF entry that nothing has written makes it fault with UNINIT. -/
def Obligations.DeqMbRule : Prop :=
  ∀ (s : State) (seg : Nat), seg < 4 →
    ((∀ j, j < 400 → (Cells.get s.ram.coef j).isSome = true) →
      let factor : Nat → Nat → Int := fun b i =>
        ((fileGet s.dqf (6 * seg + (if b < 16 then 0 else if b < 24 then 4 else 2) + (if i = 0 then 0 else 1)) 0).toNat : Int)
      let product : Nat → Nat → Int := fun b i => ((Cells.get s.ram.coef (16 * b + i)).getD 0).toInt * factor b i
      ∃ t, exec (.deqMb seg) s = .next t ∧
        t = { s with wide16 := t.wide16, ram := { s.ram with dq := t.ram.dq } } ∧
        (∀ b i, b < 25 → i < 16 → ∃ v, Cells.get t.ram.dq (16 * b + i) = some v ∧ v.toInt = product b i) ∧
        (t.wide16 = true ↔ s.wide16 = true ∨
          ∃ b i, b < 25 ∧ i < 16 ∧ (product b i < -32768 ∨ 32767 < product b i))) ∧
    (∀ j, j < 400 → Cells.get s.ram.coef j = none → exec (.deqMb seg) s = .fault .uninit)

/-! ### Transforms and reconstruction -/

/-- 43_transform.md R302, R303: IWHT writes output b of the transform of DQ[24] to DQ[b][0], b = 0..15, sets WIDE16 when a
first-pass value or an output leaves the 16-bit range, and changes nothing else. An entry of DQ[24] that nothing has written
makes it fault with UNINIT: 10_state.md R65, as log entry 9 (DEDUCED) reads it. -/
def Obligations.IwhtRule : Prop :=
  ∀ s : State,
    ((∀ i, i < 16 → (Cells.get s.ram.dq (384 + i)).isSome = true) →
      let x : Nat → Int := fun i => ((Cells.get s.ram.dq (384 + i)).getD 0).toInt
      ∃ t, exec .iwht s = .next t ∧
        t = { s with wide16 := t.wide16, ram := { s.ram with dq := t.ram.dq } } ∧
        (∀ b, b < 16 → Cells.get t.ram.dq (16 * b) = some (BitVec.ofInt 32 (iwht x b))) ∧
        (∀ j, (∀ b, b < 16 → j ≠ 16 * b) → Cells.get t.ram.dq j = Cells.get s.ram.dq j) ∧
        (t.wide16 = true ↔ s.wide16 = true ∨ ∃ k, k < 16 ∧
          (iwhtFirst x k < -32768 ∨ 32767 < iwhtFirst x k ∨ iwht x k < -32768 ∨ 32767 < iwht x k))) ∧
    (∀ i, i < 16 → Cells.get s.ram.dq (384 + i) = none → exec .iwht s = .fault .uninit)

/-- 43_transform.md R301, read as a matrix: the inverse Walsh-Hadamard transform is H x H with the sign matrix H that the
butterfly has, rounded once by (v + 3) >> 3; the first pass, whose values R303 tests, is the vertical one: H times the block. -/
def Obligations.IwhtHadamard : Prop :=
  let h : Nat → Nat → Int := fun r c =>
    ((([[1, 1, 1, 1], [1, 1, -1, -1], [1, -1, -1, 1], [1, -1, 1, -1]] : List (List Int))[r]?.getD [])[c]?).getD 0
  ∀ (x : Nat → Int) (r c : Nat), r < 4 → c < 4 →
    iwhtFirst x (4 * r + c) = ((List.range 4).map fun i => h r i * x (4 * i + c)).sum ∧
    iwht x (4 * r + c) =
      (((List.range 4).map fun i => ((List.range 4).map fun j => h r i * h c j * x (4 * i + j)).sum).sum + 3) / 8

/-- 43_transform.md R304, R308: the DC-only cases of both transforms, and IDCT_ADD of an all-zero block leaves every pixel
as it was. -/
def Obligations.DcOnly : Prop :=
  (∀ x : Nat → Int, (∀ k, 0 < k → k < 16 → x k = 0) →
    ∀ k, k < 16 → iwht x k = (x 0 + 3) / 8 ∧ idct x k = (x 0 + 4) / 8) ∧
  (∀ (s : State) (b : Nat), b ≤ 23 → posOk s.cfg = true → VisibleInMemory s.cfg s.cfg.cur →
    (∀ i, i < 16 → Cells.get s.ram.dq (16 * b + i) = some 0) →
    ∃ m, exec (.idctAdd b) s = .next { s with mem := m } ∧ ∀ a, readByte m a = readByte s.mem a)

/-- 43_transform.md R305: the inverse DCT, in numbers. R306, R307: the checks of IDCT_ADD in order; its pixels are the
clamped sums; WIDE16 as R307 says; DQ and everything else unchanged. An entry of the block that nothing has written makes it
fault with UNINIT (10_state.md R65, log entry 9, DEDUCED), whatever the pixels' addresses: that UNINIT comes before ADDR_WRAP
is the model's choice, log entry 13 (DESIGN CHOICE). -/
def Obligations.IdctAddRule : Prop :=
  (∀ (x : Nat → Int) (r c : Nat), r < 4 → c < 4 →
    let mulC : Int → Int := fun v => v + v * 20091 / 65536
    let mulS : Int → Int := fun v => v * 35468 / 65536
    let line : Int → Int → Int → Int → Nat → Int := fun x0 x1 x2 x3 k =>
      let a1 := x0 + x2
      let b1 := x0 - x2
      let c1 := mulS x1 - mulC x3
      let d1 := mulC x1 + mulS x3
      (([a1 + d1, b1 + c1, b1 - c1, a1 - d1] : List Int)[k]?).getD 0
    let t : Nat → Nat → Int := fun i j => line (x j) (x (4 + j)) (x (8 + j)) (x (12 + j)) i
    idctFirst x (4 * r + c) = t r c ∧ idct x (4 * r + c) = (line (t r 0) (t r 1) (t r 2) (t r 3) c + 4) / 8) ∧
  ∀ (s : State) (b : Nat),
    (23 < b → exec (.idctAdd b) s = .next (errorEntry .badParam (Instr.idctAdd b).word s)) ∧
    (b ≤ 23 → posOk s.cfg = false → exec (.idctAdd b) s = .next (errorEntry .posOob (Instr.idctAdd b).word s)) ∧
    (b ≤ 23 → posOk s.cfg = true → (∃ i, i < 16 ∧ Cells.get s.ram.dq (16 * b + i) = none) →
      exec (.idctAdd b) s = .fault .uninit) ∧
    (b ≤ 23 → posOk s.cfg = true → VisibleInMemory s.cfg s.cfg.cur →
      (∀ i, i < 16 → (Cells.get s.ram.dq (16 * b + i)).isSome = true) →
      let x : Nat → Int := fun i => ((Cells.get s.ram.dq (16 * b + i)).getD 0).toInt
      ∃ m w, exec (.idctAdd b) s = .next { s with mem := m, wide16 := w } ∧
        PixelsWritten s.cfg s.cfg.cur (InBlock s.cfg b)
          (fun q => max 0 (min 255 (pixelAt s.cfg s.mem s.cfg.cur q + idct x (blockIndex s.cfg b q)))) s.mem m ∧
        (w = true ↔ s.wide16 = true ∨
          ∃ k, k < 16 ∧ ∃ v ∈ [x k, idctFirst x k, idct x k], v < -32768 ∨ 32767 < v))

/-- 43_transform.md R310: RECON_MB is IDCT_ADD of blocks 0..23, or 16..23, one after another; where the position is legal and
the entries of DQ it reads have been written, it completes, and each pixel with a byte of its own is the clamped sum. -/
def Obligations.ReconMbRule : Prop :=
  ∀ (s : State) (u : Bool),
    let blocks := if u then (List.range 8).map (16 + ·) else List.range 24
    (posOk s.cfg = false → exec (.reconMb u) s = .next (errorEntry .posOob (Instr.reconMb u).word s)) ∧
    (posOk s.cfg = true → exec (.reconMb u) s = execAll (blocks.map Instr.idctAdd) s) ∧
    (posOk s.cfg = true → VisibleInMemory s.cfg s.cfg.cur →
      (∀ b ∈ blocks, ∀ i, i < 16 → (Cells.get s.ram.dq (16 * b + i)).isSome = true) →
      ∃ m w, exec (.reconMb u) s = .next { s with mem := m, wide16 := w } ∧
        (∀ b ∈ blocks, ∀ q, InBlock s.cfg b q →
          OwnByte s.cfg s.cfg.cur (fun r => ∃ b' ∈ blocks, InBlock s.cfg b' r) q →
          pixelAt s.cfg m s.cfg.cur q =
            max 0 (min 255 (pixelAt s.cfg s.mem s.cfg.cur q +
              idct (fun i => ((Cells.get s.ram.dq (16 * b + i)).getD 0).toInt) (blockIndex s.cfg b q)))) ∧
        (∀ a : Nat, (∀ q, (∃ b ∈ blocks, InBlock s.cfg b q) → q.addr s.cfg s.cfg.cur ≠ (a : Int)) →
          readByte m a = readByte s.mem a))

/-! ### Intra prediction -/

/-- 44_intra.md R340: the checks of IPRED16 in order; it writes the prediction of the 16x16 luma area and nothing else. The
mode of each number is that of R339: 0 DC_PRED, 1 V_PRED, 2 H_PRED, 3 TM_PRED. -/
def Obligations.Ipred16Rule : Prop :=
  ∀ (s : State) (mode : Nat),
    (3 < mode → exec (.ipred16 mode) s = .next (errorEntry .badParam (Instr.ipred16 mode).word s)) ∧
    (mode ≤ 3 → posOk s.cfg = false →
      exec (.ipred16 mode) s = .next (errorEntry .posOob (Instr.ipred16 mode).word s)) ∧
    (mode ≤ 3 → posOk s.cfg = true → VisibleInMemory s.cfg s.cfg.cur →
      ∃ md m, ([.dc, .v, .h, .tm] : List IntraMode)[mode]? = some md ∧ exec (.ipred16 mode) s = .next { s with mem := m } ∧
        PixelsWritten s.cfg s.cfg.cur (fun q => q.plane = .y ∧ InMb s.cfg q)
          (fun q => mbPred s.cfg s.mem md .y (q.y - mbY s.cfg .y).toNat (q.x - mbX s.cfg .y).toNat) s.mem m)

/-- 44_intra.md R345, R341: the checks of IPREDUV in order; it writes the predictions of the two 8x8 chroma areas, each from
its own plane as it was before the command, and nothing else; the modes are numbered as in R339. That V is predicted before
U is written is log entry 15 (DEDUCED), read from R334. -/
def Obligations.IpredUvRule : Prop :=
  ∀ (s : State) (mode : Nat),
    (3 < mode → exec (.ipredUv mode) s = .next (errorEntry .badParam (Instr.ipredUv mode).word s)) ∧
    (mode ≤ 3 → posOk s.cfg = false →
      exec (.ipredUv mode) s = .next (errorEntry .posOob (Instr.ipredUv mode).word s)) ∧
    (mode ≤ 3 → posOk s.cfg = true → VisibleInMemory s.cfg s.cfg.cur →
      ∃ md m, ([.dc, .v, .h, .tm] : List IntraMode)[mode]? = some md ∧ exec (.ipredUv mode) s = .next { s with mem := m } ∧
        PixelsWritten s.cfg s.cfg.cur (fun q => q.plane ≠ .y ∧ InMb s.cfg q)
          (fun q => mbPred s.cfg s.mem md q.plane (q.y - mbY s.cfg q.plane).toNat (q.x - mbX s.cfg q.plane).toNat)
          s.mem m)

/-- 44_intra.md R350: the checks of IPRED4 in order; it writes the prediction of one 4x4 luma block and nothing else. The
mode of each number is that of 00_scope.md R19: 0 B_DC_PRED, 1 B_TM_PRED, 2 B_VE_PRED, 3 B_HE_PRED, 4 B_LD_PRED, 5 B_RD_PRED,
6 B_VR_PRED, 7 B_VL_PRED, 8 B_HD_PRED, 9 B_HU_PRED. -/
def Obligations.Ipred4Rule : Prop :=
  ∀ (s : State) (b mode : Nat),
    (15 < b ∨ 9 < mode → exec (.ipred4 b mode) s = .next (errorEntry .badParam (Instr.ipred4 b mode).word s)) ∧
    (b ≤ 15 → mode ≤ 9 → posOk s.cfg = false →
      exec (.ipred4 b mode) s = .next (errorEntry .posOob (Instr.ipred4 b mode).word s)) ∧
    (b ≤ 15 → mode ≤ 9 → posOk s.cfg = true → VisibleInMemory s.cfg s.cfg.cur →
      ∃ md m, ([.dc, .tm, .ve, .he, .ld, .rd, .vr, .vl, .hd, .hu] : List SubMode)[mode]? = some md ∧
        exec (.ipred4 b mode) s = .next { s with mem := m } ∧
        PixelsWritten s.cfg s.cfg.cur (InBlock s.cfg b)
          (fun q => subPred md (subSamples s.cfg s.mem b) (q.y - blockY s.cfg b).toNat (q.x - blockX s.cfg b).toNat)
          s.mem m)

/-- 44_intra.md R331, R333, R335 to R338: the whole-block predictions, in the samples around the area. -/
def Obligations.WholeBlockPredictions : Prop :=
  ∀ (c : CfgRegs) (m : List Host.Cell) (p : Plane) (row col : Nat), row < mbSize p → col < mbSize p →
    let n := mbSize p
    let sample : Int → Int → Int := fun x y =>
      if y < 0 then 127 else if x < 0 then 129
      else if planeW c p ≤ x then pixelAt c m c.cur { plane := p, x := planeW c p - 1, y := y }
      else pixelAt c m c.cur { plane := p, x := x, y := y }
    let above : Nat → Int := fun k => sample (mbX c p + k) (mbY c p - 1)
    let left : Nat → Int := fun k => sample (mbX c p - 1) (mbY c p + k)
    let corner := sample (mbX c p - 1) (mbY c p - 1)
    let sumAbove := ((List.range n).map above).sum
    let sumLeft := ((List.range n).map left).sum
    mbPred c m .dc p row col =
      (if 0 < c.mbRow ∧ 0 < c.mbCol then (sumAbove + sumLeft + n) / (2 * n)
       else if 0 < c.mbRow then (sumAbove + (n / 2 : Nat)) / n
       else if 0 < c.mbCol then (sumLeft + (n / 2 : Nat)) / n
       else 128) ∧
    mbPred c m .v p row col = above col ∧
    mbPred c m .h p row col = left row ∧
    mbPred c m .tm p row col = max 0 (min 255 (left row + above col - corner))

/-- 44_intra.md R346 to R349 and R351 to R357: the samples of a 4x4 block, and the prediction of each mode as the spec's
grid of averages of them. -/
def Obligations.SubblockPredictions : Prop :=
  (∀ (c : CfgRegs) (m : List Host.Cell) (b : Nat), b < 16 →
    let sample : Int → Int → Int := fun x y =>
      if y < 0 then 127 else if x < 0 then 129
      else if planeW c .y ≤ x then pixelAt c m c.cur { plane := .y, x := planeW c .y - 1, y := y }
      else pixelAt c m c.cur { plane := .y, x := x, y := y }
    let x := mbX c .y + 4 * ((b % 4 : Nat) : Int)
    let y := mbY c .y + 4 * ((b / 4 : Nat) : Int)
    let q := subSamples c m b
    (∀ k, k < 4 → q.a k = sample (x + k) (y - 1) ∧ q.l k = sample (x - 1) (y + k) ∧
      q.a (4 + k) = (if b % 4 = 3 then sample (mbX c .y + 16 + k) (mbY c .y - 1) else sample (x + 4 + k) (y - 1))) ∧
    q.corner = sample (x - 1) (y - 1)) ∧
  (∀ (a l : Nat → Int) (p : Int) (r c : Nat), r < 4 → c < 4 →
    let q : Samples := { above := (List.range 8).map a, left := (List.range 4).map l, corner := p }
    let e : Nat → Int := fun k => if k < 4 then l (3 - k) else if k = 4 then p else a (k - 5)
    let m2 : Int → Int → Int := fun u v => (u + v + 1) / 2
    let m3 : Int → Int → Int → Int := fun u v w => (u + 2 * v + w + 2) / 4
    let e2 : Nat → Int := fun k => m2 (e k) (e (k + 1))
    let e3 : Nat → Int := fun k => m3 (e (k - 1)) (e k) (e (k + 1))
    let a2 : Nat → Int := fun k => m2 (a k) (a (k + 1))
    let a3 : Nat → Int := fun k => m3 (a (k - 1)) (a k) (a (k + 1))
    let grid : List (List Int) → Int := fun g => ((g[r]?.getD [])[c]?).getD 0
    subPred .dc q r c = (a 0 + a 1 + a 2 + a 3 + l 0 + l 1 + l 2 + l 3 + 4) / 8 ∧
    subPred .tm q r c = max 0 (min 255 (l r + a c - p)) ∧
    subPred .ve q r c = m3 (if c = 0 then p else a (c - 1)) (a c) (a (c + 1)) ∧
    subPred .he q r c = m3 (if r = 0 then p else l (r - 1)) (l r) (l (min 3 (r + 1))) ∧
    subPred .ld q r c = m3 (a (r + c)) (a (r + c + 1)) (a (min 7 (r + c + 2))) ∧
    subPred .rd q r c = e3 (4 + c - r) ∧
    subPred .vr q r c = grid [[e2 4, e2 5, e2 6, e2 7], [e3 4, e3 5, e3 6, e3 7], [e3 3, e2 4, e2 5, e2 6],
      [e3 2, e3 4, e3 5, e3 6]] ∧
    subPred .vl q r c = grid [[a2 0, a2 1, a2 2, a2 3], [a3 1, a3 2, a3 3, a3 4], [a2 1, a2 2, a2 3, a3 5],
      [a3 2, a3 3, a3 4, a3 6]] ∧
    subPred .hd q r c = grid [[e2 3, e3 4, e3 5, e3 6], [e2 2, e3 3, e2 3, e3 4], [e2 1, e3 2, e2 2, e3 3],
      [e2 0, e3 1, e2 1, e3 2]] ∧
    subPred .hu q r c = grid [
      [m2 (l 0) (l 1), m3 (l 0) (l 1) (l 2), m2 (l 1) (l 2), m3 (l 1) (l 2) (l 3)],
      [m2 (l 1) (l 2), m3 (l 1) (l 2) (l 3), m2 (l 2) (l 3), m3 (l 2) (l 3) (l 3)],
      [m2 (l 2) (l 3), m3 (l 2) (l 3) (l 3), l 3, l 3], [l 3, l 3, l 3, l 3]])

/-- 44_intra.md R331, R332: an intra command reads no pixel outside the visible region of slot CUR. Of two states that differ
only in data memory, and in it at no visible pixel of slot CUR, it makes two that agree at every visible pixel of slot
CUR. -/
def Obligations.IntraReadsVisible : Prop :=
  ∀ (s : State) (m : List Host.Cell) (i : Instr),
    ((∃ mode, i = .ipred16 mode) ∨ (∃ mode, i = .ipredUv mode) ∨ (∃ b mode, i = .ipred4 b mode)) →
    (∀ q, Visible s.cfg q → pixelAt s.cfg s.mem s.cfg.cur q = pixelAt s.cfg m s.cfg.cur q) →
    ∀ t t', exec i s = .next t → exec i { s with mem := m } = .next t' →
      ∀ q, Visible s.cfg q → pixelAt s.cfg t.mem s.cfg.cur q = pixelAt s.cfg t'.mem s.cfg.cur q

/-! ### Inter prediction -/

/-- 45_inter.md R395: the four checks of MC_MB in order; where they pass, it writes the interpolated prediction of all 384
pixels of the macroblock, read from the reference slot as it was before, and nothing else. Then what that prediction is, in
numbers: the vectors (R383 to R386), the position and the phases (R387), the two filters (R388, R389, with the tables of
State.rom, 00_scope.md R10; the defaults are R380's), and that it is a pixel for every T_BILINEAR whose rows are weights of
sum 128, as those of R380 are. The model's choices, log entry 7 (DESIGN CHOICE): at phase 0 the bilinear filter copies the pixel for every
T_BILINEAR, where R389's formula would use row 0 (the same for the default row (128, 0); R390 and R397 speak of one pixel read
and of a copy there); and a byte takes the prediction modulo 256, which is the prediction itself for such weights. -/
def Obligations.McMbRule : Prop :=
  (∀ (s : State) (r : Nat) (split clamp : Bool),
    let c := s.cfg
    let i := Instr.mcMb r split clamp
    (r = 0 → exec i s = .next (errorEntry .badParam i.word s)) ∧
    (1 ≤ r → posOk c = false → exec i s = .next (errorEntry .posOob i.word s)) ∧
    (1 ≤ r → posOk c = true → c.roleSlot r = c.cur → exec i s = .next (errorEntry .refIsCur i.word s)) ∧
    (1 ≤ r → posOk c = true → c.roleSlot r ≠ c.cur → ¬ FootprintsReadable c split clamp →
      exec i s = .next (errorEntry .mcOob i.word s)) ∧
    (1 ≤ r → posOk c = true → c.roleSlot r ≠ c.cur → FootprintsReadable c split clamp →
      ReadableInMemory c (c.roleSlot r) → VisibleInMemory c c.cur →
      ∃ m, exec i s = .next { s with mem := m } ∧
        PixelsWritten c c.cur (InMb c)
          (fun q => interpolate s.rom c.mcBilinear
            (fun x y => pixelAt c s.mem (c.roleSlot r) { plane := q.plane, x := x, y := y })
            (sourceAt c split clamp q) % 256) s.mem m)) ∧
  (∀ (c : CfgRegs) (split clamp : Bool),
    let x0 : Int := 16 * c.mbCol
    let y0 : Int := 16 * c.mbRow
    let uc : Int → Int → Int → Int := fun v lo hi => if v < lo - 76 then lo - 64 else if hi + 72 < v then hi + 64 else v
    let ucv : Mv → Mv := fun v =>
      { row := uc v.row (-4 * y0) (4 * (16 * c.mbRows - 16 - y0)), col := uc v.col (-4 * x0) (4 * (16 * c.mbCols - 16 - x0)) }
    let row : Nat → Int := fun b => ((fileGet c.mv b 0).extractLsb' 16 16).toInt
    let col : Nat → Int := fun b => ((fileGet c.mv b 0).extractLsb' 0 16).toInt
    let sum : (Nat → Int) → Nat → Int := fun f k => f k + f (k + 1) + f (k + 4) + f (k + 5)
    let avg : Int → Int := fun n => if 0 ≤ 2 * n then (2 * n + 4) / 8 else -((4 - 2 * n) / 8)
    let whole : Int → Int := fun n => if c.decCfg.getLsbD 2 then n - n % 8 else n
    (∀ b, b < 16 →
      let k := if split then b else 0
      let v : Mv := { row := row k, col := col k }
      lumaMv c split clamp b = if clamp then ucv v else v) ∧
    (∀ j, j < 4 →
      let k := 8 * (j / 2) + 2 * (j % 2)
      let v : Mv :=
        if split then { row := avg (sum row k), col := avg (sum col k) } else lumaMv c false clamp 0
      let w : Mv := { row := whole v.row, col := whole v.col }
      chromaMv c split clamp j = if split && clamp then ucv w else w) ∧
    (∀ q, InMb c q →
      let o := sourceAt c split clamp q
      if q.plane = .y then
        let v := lumaMv c split clamp (4 * ((q.y - y0) / 4) + (q.x - x0) / 4).toNat
        o.ix = q.x + v.col / 4 ∧ (o.fx : Int) = 2 * (v.col % 4) ∧ o.iy = q.y + v.row / 4 ∧ (o.fy : Int) = 2 * (v.row % 4)
      else
        let v := chromaMv c split clamp (2 * ((q.y - 8 * c.mbRow) / 4) + (q.x - 8 * c.mbCol) / 4).toNat
        o.ix = q.x + v.col / 8 ∧ (o.fx : Int) = v.col % 8 ∧ o.iy = q.y + v.row / 8 ∧ (o.fy : Int) = v.row % 8)) ∧
  (∀ (T : Config.Tables) (rf : Int → Int → Int) (q : Source),
    let pixelOf : Int → Int := fun v => max 0 (min 255 v)
    let six : Nat → (Int → Int) → Int → Int := fun f g z =>
      let w := sixTapAt T f
      if f = 0 then g z
      else pixelOf ((w 0 * g (z - 2) + w 1 * g (z - 1) + w 2 * g z + w 3 * g (z + 1) + w 4 * g (z + 2) + w 5 * g (z + 3) +
        64) / 128)
    let two : Nat → (Int → Int) → Int → Int := fun f g z =>
      if f = 0 then g z else (bilinearAt T f 0 * g z + bilinearAt T f 1 * g (z + 1) + 64) / 128
    interpolate T false rf q = six q.fy (fun j => six q.fx (fun i => rf i j) q.ix) q.iy ∧
    interpolate T true rf q = two q.fy (fun j => two q.fx (fun i => rf i j) q.ix) q.iy ∧
    ((∀ x y, 0 ≤ rf x y ∧ rf x y ≤ 255) →
      (∀ f, f < 8 → 0 ≤ bilinearAt T f 0 ∧ 0 ≤ bilinearAt T f 1 ∧ bilinearAt T f 0 + bilinearAt T f 1 = 128) →
      ∀ bil, 0 ≤ interpolate T bil rf q ∧ interpolate T bil rf q ≤ 255)) ∧
  (List.range 8).map (fun f => (List.range 6).map (sixTapAt romTables f)) =
    [[0, 0, 128, 0, 0, 0], [0, -6, 123, 12, -1, 0], [2, -11, 108, 36, -8, 1], [0, -9, 93, 50, -6, 0],
     [3, -16, 77, 77, -16, 3], [0, -6, 50, 93, -9, 0], [1, -8, 36, 108, -11, 2], [0, -1, 12, 123, -6, 0]] ∧
  (List.range 8).map (fun f => [bilinearAt romTables f 0, bilinearAt romTables f 1]) =
    [[128, 0], [112, 16], [96, 32], [80, 48], [64, 64], [48, 80], [32, 96], [16, 112]] ∧
  (∀ f, f < 8 → ((List.range 6).map (sixTapAt romTables f)).sum = 128 ∧
    0 ≤ bilinearAt romTables f 0 ∧ 0 ≤ bilinearAt romTables f 1 ∧ bilinearAt romTables f 0 + bilinearAt romTables f 1 = 128)

/-- 45_inter.md R397: with MV[0] = (0, 0) and SPLIT = 0 MC_MB copies the macroblock from the reference slot, for either
filter, clamped or not, with whole-pixel chroma or not. With the default tables (00_scope.md R10), and for the six-tap filter
with any (R388), that is the spec's; that the bilinear filter copies at phase 0 for a T_BILINEAR whose row 0 is not (128, 0),
where R389's formula would use that row, is the model's choice, log entry 7 (DESIGN CHOICE). -/
def Obligations.ZeroVectorCopies : Prop :=
  ∀ (s : State) (r : Nat) (clamp : Bool), 1 ≤ r → posOk s.cfg = true → s.cfg.roleSlot r ≠ s.cfg.cur →
    fileGet s.cfg.mv 0 0 = 0 → VisibleInMemory s.cfg (s.cfg.roleSlot r) → VisibleInMemory s.cfg s.cfg.cur →
    ∃ m, exec (.mcMb r false clamp) s = .next { s with mem := m } ∧
      PixelsWritten s.cfg s.cfg.cur (InMb s.cfg) (fun q => pixelAt s.cfg s.mem (s.cfg.roleSlot r) q) s.mem m

/-- 45_inter.md R400 with the clamp of R384: with a border of at least 32, every luma vector within the clamp's range keeps
the luma footprints in columns [-21, W + 21) and rows [-21, H + 21), inside the readable region; and a clamped vector is
within that range. -/
def Obligations.BorderSufficiency : Prop :=
  ∀ (c : CfgRegs) (split clamp : Bool), posOk c = true →
    let w := planeW c .y
    let h := planeH c .y
    let inRange : Mv → Prop := fun v =>
      -(4 * mbX c .y) - 76 ≤ v.col ∧ v.col ≤ 4 * (w - 16 - mbX c .y) + 72 ∧
      -(4 * mbY c .y) - 76 ≤ v.row ∧ v.row ≤ 4 * (h - 16 - mbY c .y) + 72
    (clamp = true → ∀ b, inRange (lumaMv c split clamp b)) ∧
    ((∀ b, b < 16 → inRange (lumaMv c split clamp b)) →
      ∀ q, q.plane = .y → InMb c q → ∀ x y, InFootprint c.mcBilinear (sourceAt c split clamp q) x y →
        (-21 ≤ x ∧ x < w + 21 ∧ -21 ≤ y ∧ y < h + 21) ∧
        (32 ≤ c.borderY → Readable c { plane := .y, x := x, y := y }))

/-! ### The loop filter -/

/-- 46_loopfilter.md R420, R422, R423, R425, in numbers: the effective level, the limits and the threshold; R424: the level
lies in 0..63, and for a level in 1..63 the limits lie in their ranges, at every sharpness. -/
def Obligations.LfLevelAndLimits : Prop :=
  (∀ (c : CfgRegs) (seg ref mode : Nat), seg < 4 → ref < 4 →
    let lane : Word → Nat → Int := fun w k => (w.extractLsb' (8 * k) 8).toInt
    let cl : Int → Int := fun v => max 0 (min 63 v)
    let level : Int := (c.lfCfg.extractLsb' 0 6).toNat
    let lvlSeg : Int :=
      if c.segCfg.getLsbD 0 = false then level
      else if c.segCfg.getLsbD 1 then cl (lane c.segLf seg)
      else cl (level + lane c.segLf seg)
    let mdelta : Int :=
      if ref = 0 then (if mode = 4 then lane c.lfModeDelta 0 else 0)
      else if mode = 7 then lane c.lfModeDelta 1
      else if mode = 9 then lane c.lfModeDelta 3
      else lane c.lfModeDelta 2
    filterLevel c seg ref mode = (if c.lfCfg.getLsbD 17 = false then lvlSeg else cl (lvlSeg + lane c.lfRefDelta ref + mdelta)) ∧
    0 ≤ filterLevel c seg ref mode ∧ filterLevel c seg ref mode ≤ 63) ∧
  (∀ (lvl : Int) (sharp : Nat), 1 ≤ lvl → lvl ≤ 63 → sharp ≤ 7 →
    let i := interiorLimit lvl sharp
    i = max 1 (if sharp = 0 then lvl else min (lvl / (if 4 < sharp then 4 else 2)) (9 - sharp)) ∧
    edgeLimitMb lvl i = 2 * (lvl + 2) + i ∧ edgeLimitIn lvl i = 2 * lvl + i ∧
    (1 ≤ i ∧ i ≤ 63) ∧ (3 ≤ edgeLimitIn lvl i ∧ edgeLimitIn lvl i ≤ 189) ∧
    (7 ≤ edgeLimitMb lvl i ∧ edgeLimitMb lvl i ≤ 193)) ∧
  (∀ (lvl : Int) (key : Bool), 0 ≤ lvl → lvl ≤ 63 →
    (40 ≤ lvl → hevThreshold lvl key = if key then 2 else 3) ∧
    (20 ≤ lvl → lvl ≤ 39 → hevThreshold lvl key = if key then 1 else 2) ∧
    (15 ≤ lvl → lvl ≤ 19 → hevThreshold lvl key = 1) ∧
    (lvl ≤ 14 → hevThreshold lvl key = 0))

/-- 46_loopfilter.md R427 to R429 and R431, in numbers: the masks and the three filters of a line. R432, R439: the filters
keep pixels in 0..255, never change the outermost pixels of a line, leave a line that fails its mask and a flat line
unchanged. R426, R430: the pixels of a line; filtering it in memory writes only p2..q2, and where its eight pixels have
bytes of their own the line reads afterwards as the filter of what it read before. -/
def Obligations.FilteredLines : Prop :=
  (∀ (l : Line8) (e i t : Int),
    let dist : Int → Int → Int := fun a b => max (a - b) (b - a)
    let sc : Int → Int := fun v => max (-128) (min 127 v)
    (simpleMask l e = true ↔ dist l.p0 l.q0 * 2 + dist l.p1 l.q1 / 2 ≤ e) ∧
    (normalMask l e i = true ↔
      dist l.p3 l.p2 ≤ i ∧ dist l.p2 l.p1 ≤ i ∧ dist l.p1 l.p0 ≤ i ∧ dist l.q1 l.q0 ≤ i ∧ dist l.q2 l.q1 ≤ i ∧
      dist l.q3 l.q2 ≤ i ∧ dist l.p0 l.q0 * 2 + dist l.p1 l.q1 / 2 ≤ e) ∧
    (hev l t = true ↔ t < dist l.p1 l.p0 ∨ t < dist l.q1 l.q0) ∧
    (let f := if normalMask l e i then sc ((if hev l t then sc (l.p1 - l.q1) else 0) + 3 * (l.q0 - l.p0)) else 0
     let f1 := sc (f + 4) / 8
     let f2 := sc (f + 3) / 8
     let a := (f1 + 1) / 2
     innerFilter l e i t = { l with
       q0 := sc (l.q0 - 128 - f1) + 128
       p0 := sc (l.p0 - 128 + f2) + 128
       q1 := if hev l t then l.q1 else sc (l.q1 - 128 - a) + 128
       p1 := if hev l t then l.p1 else sc (l.p1 - 128 + a) + 128 }) ∧
    (let f := if normalMask l e i then sc (sc (l.p1 - l.q1) + 3 * (l.q0 - l.p0)) else 0
     let g := if hev l t then f else 0
     let w := if hev l t then 0 else f
     let u : Int → Int := fun n => sc ((63 + w * n) / 128)
     mbFilter l e i t = { l with
       q0 := sc (sc (l.q0 - 128 - sc (g + 4) / 8) - u 27) + 128
       p0 := sc (sc (l.p0 - 128 + sc (g + 3) / 8) + u 27) + 128
       q1 := sc (l.q1 - 128 - u 18) + 128
       p1 := sc (l.p1 - 128 + u 18) + 128
       q2 := sc (l.q2 - 128 - u 9) + 128
       p2 := sc (l.p2 - 128 + u 9) + 128 }) ∧
    (let f := if simpleMask l e then sc (sc (l.p1 - l.q1) + 3 * (l.q0 - l.p0)) else 0
     simpleFilter l e = { l with
       q0 := sc (l.q0 - 128 - sc (f + 4) / 8) + 128
       p0 := sc (l.p0 - 128 + sc (f + 3) / 8) + 128 })) ∧
  (∀ (l : Line8) (e i t : Int),
    (∀ v ∈ [l.p3, l.p2, l.p1, l.p0, l.q0, l.q1, l.q2, l.q3], 0 ≤ v ∧ v ≤ 255) →
    (∀ n ∈ [innerFilter l e i t, mbFilter l e i t, simpleFilter l e],
      (∀ v ∈ [n.p3, n.p2, n.p1, n.p0, n.q0, n.q1, n.q2, n.q3], 0 ≤ v ∧ v ≤ 255) ∧ n.p3 = l.p3 ∧ n.q3 = l.q3) ∧
    (normalMask l e i = false → innerFilter l e i t = l ∧ mbFilter l e i t = l) ∧
    (simpleMask l e = false → simpleFilter l e = l)) ∧
  (∀ v e i t : Int, 0 ≤ v → v ≤ 255 →
    let l : Line8 := { p3 := v, p2 := v, p1 := v, p0 := v, q0 := v, q1 := v, q2 := v, q3 := v }
    innerFilter l e i t = l ∧ mbFilter l e i t = l ∧ simpleFilter l e = l) ∧
  (∀ (c : CfgRegs) (f : FilterParams) (m : List Host.Cell) (e : EdgeLine),
    (∀ k, k < 8 → linePoint e k =
      if e.vertical then { plane := e.plane, x := e.x - 4 + k, y := e.y }
      else { plane := e.plane, x := e.x, y := e.y - 4 + k }) ∧
    (let px : Nat → Int := fun k => pixelAt c m c.cur (linePoint e k)
     readLine c m e =
      { p3 := px 0, p2 := px 1, p1 := px 2, p0 := px 3, q0 := px 4, q1 := px 5, q2 := px 6, q3 := px 7 }) ∧
    ((∀ k, k < 8 → 0 ≤ (linePoint e k).addr c c.cur) →
      (∀ a : Nat, (∀ k, 1 ≤ k → k ≤ 6 → (linePoint e k).addr c c.cur ≠ (a : Int)) →
        readByte (filterOne c f m e) a = readByte m a) ∧
      ((∀ j k, j < 8 → k < 8 → (linePoint e j).addr c c.cur = (linePoint e k).addr c c.cur → j = k) →
        readLine c (filterOne c f m e) e = filterLine f e.mbEdge (readLine c m e))))

/-- 46_loopfilter.md R438: with LF_CFG.LEVEL = 0, or an effective level of 0, LF_MB changes nothing at all. -/
def Obligations.LfLevelZero : Prop :=
  ∀ (s : State) (seg ref mode : Nat) (nocoef : Bool), mode ≤ 9 → (ref = 0 ∧ mode ≤ 4) ∨ (1 ≤ ref ∧ 5 ≤ mode) →
    posOk s.cfg = true → s.cfg.lfLevel = 0 ∨ filterLevel s.cfg seg ref mode = 0 →
    exec (.lfMb seg ref mode nocoef) s = .next s

/-- 46_loopfilter.md R430, R433, R434, R437: the checks of LF_MB in order; where they pass it completes. At level 0 (R421)
memory is as before; else it is that of filtering, one after another, the lines of R434's edges in R434's order, with the
filter and the limits R434 gives each; and no byte changes but those of pixels within three of a filtered edge, inside the
visible region of slot CUR. The order of the lines inside an edge, which R434 says changes no result, is the model's (log
entry 16, DESIGN CHOICE). -/
def Obligations.LfMbRule : Prop :=
  (∀ (s : State) (seg ref mode : Nat) (nocoef : Bool),
    let c := s.cfg
    let i := Instr.lfMb seg ref mode nocoef
    let legal := mode ≤ 9 ∧ ((ref = 0 ∧ mode ≤ 4) ∨ (1 ≤ ref ∧ 5 ≤ mode))
    let inner := !(nocoef && mode != 4 && mode != 9)
    let chroma : List Plane := if c.lfCfg.getLsbD 16 then [] else [.u, .v]
    let edge : Bool → Bool → Int → Plane → List EdgeLine := fun vertical mbEdge off p =>
      let n : Nat := if p = .y then 16 else 8
      (List.range n).map fun k =>
        if vertical then
          { plane := p, vertical := true, mbEdge := mbEdge, x := n * c.mbCol + off, y := n * c.mbRow + k }
        else { plane := p, vertical := false, mbEdge := mbEdge, x := n * c.mbCol + k, y := n * c.mbRow + off }
    let mbEdges : Bool → List EdgeLine := fun vertical => (Plane.y :: chroma).flatMap (edge vertical true 0)
    let innerEdges : Bool → List EdgeLine := fun vertical =>
      edge vertical false 4 .y ++ edge vertical false 8 .y ++ edge vertical false 12 .y ++
        chroma.flatMap (edge vertical false 4)
    (¬ legal → exec i s = .next (errorEntry .badParam i.word s)) ∧
    (legal → posOk c = false → exec i s = .next (errorEntry .posOob i.word s)) ∧
    (legal → posOk c = true → VisibleInMemory c c.cur →
      ∃ m, exec i s = .next { s with mem := m } ∧
        (c.lfLevel = 0 ∨ filterLevel c seg ref mode = 0 → m = s.mem) ∧
        (c.lfLevel ≠ 0 → filterLevel c seg ref mode ≠ 0 →
          m = ((if 0 < c.mbCol then mbEdges true else []) ++ (if inner then innerEdges true else []) ++
            (if 0 < c.mbRow then mbEdges false else []) ++ (if inner then innerEdges false else [])).foldl
              (filterOne c (filterParams c (filterLevel c seg ref mode))) s.mem) ∧
        (∀ a : Nat, (∀ q, Visible c q → NearFilteredEdge c inner q → q.addr c c.cur ≠ (a : Int)) →
          readByte m a = readByte s.mem a))) ∧
  (∀ (c : CfgRegs) (lvl : Int) (l : Line8),
    let f := filterParams c lvl
    let i := interiorLimit lvl (c.lfCfg.extractLsb' 8 3).toNat
    let t := hevThreshold lvl (c.decCfg.getLsbD 0)
    filterLine f true l =
      (if c.lfCfg.getLsbD 16 then simpleFilter l (edgeLimitMb lvl i) else mbFilter l (edgeLimitMb lvl i) i t) ∧
    filterLine f false l =
      (if c.lfCfg.getLsbD 16 then simpleFilter l (edgeLimitIn lvl i) else innerFilter l (edgeLimitIn lvl i) i t))

/-! ### The whole machine -/

/-- 10_state.md R38, R55, R58 to R62 and 41_detokenizer.md R246: who writes what, over every command. -/
def Obligations.WriteSets : Prop :=
  ∀ (i : Instr) (s t : State), exec i s = .next t →
    (t.rom = s.rom ∧ t.ieSync = s.ieSync ∧ t.ieErr = s.ieErr ∧ t.cfgDrop = s.cfgDrop ∧ t.inputs = s.inputs ∧ t.epoch = s.epoch) ∧
    (t.result ≠ s.result → i.opcode = 0x09 ∨ i.opcode = 0x0A) ∧
    (t.eobTotal ≠ s.eobTotal ∨ t.ram.coef ≠ s.ram.coef ∨ t.ram.eob ≠ s.ram.eob → i.opcode = 0x12) ∧
    (t.ram.nzAbove ≠ s.ram.nzAbove → i.opcode = 0x10 ∨ i.opcode = 0x12) ∧
    (t.ram.nzLeft ≠ s.ram.nzLeft → i.opcode = 0x11 ∨ i.opcode = 0x12) ∧
    (t.dqf ≠ s.dqf → i.opcode = 0x18) ∧
    (t.ram.dq ≠ s.ram.dq → i.opcode = 0x19 ∨ i.opcode = 0x20) ∧
    (t.ram.prob ≠ s.ram.prob → i.opcode = 0x02) ∧
    (t.cfg ≠ s.cfg → i.opcode = 0x02 ∨ i.opcode = 0x03) ∧
    (t.bd ≠ s.bd → i.opcode = 0x08 ∨ i.opcode = 0x09 ∨ i.opcode = 0x0A ∨ i.opcode = 0x12) ∧
    (t.syncDone ≠ s.syncDone → i.opcode = 0x01) ∧
    (t.wide16 ≠ s.wide16 → s.wide16 = false ∧
      (i.opcode = 0x19 ∨ i.opcode = 0x20 ∨ i.opcode = 0x21 ∨ i.opcode = 0x22)) ∧
    (t.mem ≠ s.mem → i.opcode = 0x21 ∨ i.opcode = 0x22 ∨ i.opcode = 0x28 ∨ i.opcode = 0x29 ∨ i.opcode = 0x2A ∨
      i.opcode = 0x30 ∨ i.opcode = 0x38)

/-- 20_memory.md R109: a command changes data memory only at visible pixels of slot CUR in the current macroblock, or, for
LF_MB, in the three columns left of it or the three rows above it. -/
def Obligations.WritesOnlyCurVisible : Prop :=
  ∀ (i : Instr) (s t : State), exec i s = .next t → ∀ a : Nat, readByte t.mem a ≠ readByte s.mem a →
    ∃ q, q.addr s.cfg s.cfg.cur = (a : Int) ∧ Visible s.cfg q ∧
      (InMb s.cfg q ∨ ((∃ seg ref mode nocoef, i = .lfMb seg ref mode nocoef) ∧ NearMb s.cfg q))

/-- 60_exceptions.md R510: a command faults only for the two model-only reasons, each raised by the commands that read that
RAM or form pixel addresses, and no command is refused. -/
def Obligations.OnlySpecFaults : Prop :=
  ∀ (i : Instr) (s : State),
    (∀ f, exec i s = .fault f →
      (f = .uninit ∧ (i.opcode = 0x12 ∨ i.opcode = 0x19 ∨ i.opcode = 0x20 ∨ i.opcode = 0x21 ∨ i.opcode = 0x22)) ∨
      (f = .addrWrap ∧ (i.opcode = 0x21 ∨ i.opcode = 0x22 ∨ i.opcode = 0x28 ∨ i.opcode = 0x29 ∨ i.opcode = 0x2A ∨
        i.opcode = 0x30 ∨ i.opcode = 0x38) ∧
        ¬ ∀ slot, slot < 4 → ReadableInMemory s.cfg slot)) ∧
    (∀ r, exec i s ≠ .refused r)

/-- The invariant of Safety.lean holds at reset. -/
def Obligations.ResetInv : Prop := State.reset.Inv

/-- The invariant of Safety.lean is kept by every step: data memory and the RAMs stay in canonical form, EOB at most 16,
EOBTOTAL at most 384 (10_state.md R39), the contexts as 40_entropy.md R208 says, the RSV bits 0 (R31), ERRCODE and ERRINFO
0 without an error and CMDQ empty with one (R40, 60_exceptions.md R503), CMDQ no longer than its depth (R63). -/
def Obligations.StepKeepsInv : Prop :=
  ∀ s t : State, s.Inv → step s = .next t → t.Inv

end
end

