-- ==== Sys2Proof/Laws/Arith.lean ====
section
/-! SUPPORT. The bit fields, lanes and clamps of Machine/Arith.lean as core operations on words and integers. -/

namespace Sys2Proof.Machine

theorem clamp_eq (v lo hi : Int) : clamp v lo hi = min hi (max lo v) := by
  simp only [clamp]
  omega

theorem clamp255_eq (v : Int) : clamp255 v = min 255 (max 0 v) := clamp_eq v 0 255

theorem sclamp8_eq (v : Int) : sclamp8 v = min 127 (max (-128) v) := clamp_eq v (-128) 127

/-- A bit field of a word is the extracted field. -/
theorem bits_toNat (w : Word) {hi lo : Nat} : bits w.toNat hi lo = (w.extractLsb' lo (hi + 1 - lo)).toNat := by
  simp only [bits, BitVec.extractLsb'_toNat, Nat.shiftRight_eq_div_pow]

theorem bit_toNat (w : Word) (i : Nat) : bit w.toNat i = w.getLsbD i := by
  have h : bits w.toNat i i = (w.getLsbD i).toNat := by
    rw [BitVec.getLsbD, Nat.toNat_testBit, bits, Nat.add_sub_cancel_left, Nat.pow_one]
  rw [bit, h]
  cases w.getLsbD i <;> rfl

/-- `sext_N` of an N-bit word is its signed value (00_scope.md R12). -/
theorem sext_toNat {n : Nat} (v : BitVec n) (h : 0 < n) : sext n v.toNat = v.toInt := by
  obtain ⟨k, rfl⟩ := Nat.exists_eq_succ_of_ne_zero (by omega : n ≠ 0)
  have hp : 2 ^ (k + 1) = 2 * 2 ^ k := by ring
  simp only [sext, BitVec.toInt_eq_toNat_cond, Nat.succ_eq_add_one, Nat.add_sub_cancel, hp]
  split <;> split <;> first | rfl | omega

/-- A signed byte lane of a word (10_state.md R50, R52, R54). -/
theorem signedLane_eq (w : Word) (k : Nat) : signedLane w k = (w.extractLsb' (8 * k) 8).toInt := by
  have h : 8 * k + 7 + 1 - 8 * k = 8 := by omega
  rw [← sext_toNat _ (by omega)]
  simp only [signedLane, byteLane, bits, BitVec.extractLsb'_toNat, Nat.shiftRight_eq_div_pow, h]

theorem mvRow_eq (c : CfgRegs) (b : Nat) : c.mvRow b = ((fileGet c.mv b 0).extractLsb' 16 16).toInt := by
  rw [← sext_toNat _ (by omega), CfgRegs.mvRow, bits_toNat]

theorem mvCol_eq (c : CfgRegs) (b : Nat) : c.mvCol b = ((fileGet c.mv b 0).extractLsb' 0 16).toInt := by
  rw [← sext_toNat _ (by omega), CfgRegs.mvCol, bits_toNat]

end Sys2Proof.Machine
end

