-- ==== Sys2Proof/Laws/State.lean ====
section
/-! SUPPORT. One lemma for each field of State under each named update (Machine/Ops.lean, Flags.lean, Detok.lean,
Regs.lean): what the update leaves there. All true by rfl. -/

namespace Sys2Proof.Machine

/-! ### State.setMem -/

@[simp] theorem State.setMem_rom (s : State) (m : List Host.Cell) : (s.setMem m).rom = s.rom := rfl
@[simp] theorem State.setMem_ieSync (s : State) (m : List Host.Cell) : (s.setMem m).ieSync = s.ieSync := rfl
@[simp] theorem State.setMem_ieErr (s : State) (m : List Host.Cell) : (s.setMem m).ieErr = s.ieErr := rfl
@[simp] theorem State.setMem_syncDone (s : State) (m : List Host.Cell) : (s.setMem m).syncDone = s.syncDone := rfl
@[simp] theorem State.setMem_cfgDrop (s : State) (m : List Host.Cell) : (s.setMem m).cfgDrop = s.cfgDrop := rfl
@[simp] theorem State.setMem_wide16 (s : State) (m : List Host.Cell) : (s.setMem m).wide16 = s.wide16 := rfl
@[simp] theorem State.setMem_err (s : State) (m : List Host.Cell) : (s.setMem m).err = s.err := rfl
@[simp] theorem State.setMem_errCode (s : State) (m : List Host.Cell) : (s.setMem m).errCode = s.errCode := rfl
@[simp] theorem State.setMem_errInfo (s : State) (m : List Host.Cell) : (s.setMem m).errInfo = s.errInfo := rfl
@[simp] theorem State.setMem_result (s : State) (m : List Host.Cell) : (s.setMem m).result = s.result := rfl
@[simp] theorem State.setMem_eobTotal (s : State) (m : List Host.Cell) : (s.setMem m).eobTotal = s.eobTotal := rfl
@[simp] theorem State.setMem_cfg (s : State) (m : List Host.Cell) : (s.setMem m).cfg = s.cfg := rfl
@[simp] theorem State.setMem_dqf (s : State) (m : List Host.Cell) : (s.setMem m).dqf = s.dqf := rfl
@[simp] theorem State.setMem_bd (s : State) (m : List Host.Cell) : (s.setMem m).bd = s.bd := rfl
@[simp] theorem State.setMem_ram (s : State) (m : List Host.Cell) : (s.setMem m).ram = s.ram := rfl
@[simp] theorem State.setMem_cmdq (s : State) (m : List Host.Cell) : (s.setMem m).cmdq = s.cmdq := rfl
@[simp] theorem State.setMem_running (s : State) (m : List Host.Cell) : (s.setMem m).running = s.running := rfl
@[simp] theorem State.setMem_mem (s : State) (m : List Host.Cell) : (s.setMem m).mem = m := rfl
@[simp] theorem State.setMem_inputs (s : State) (m : List Host.Cell) : (s.setMem m).inputs = s.inputs := rfl
@[simp] theorem State.setMem_epoch (s : State) (m : List Host.Cell) : (s.setMem m).epoch = s.epoch := rfl

/-! ### State.setBd -/

@[simp] theorem State.setBd_rom (s : State) (i : Nat) (c : BoolCtx) : (s.setBd i c).rom = s.rom := rfl
@[simp] theorem State.setBd_ieSync (s : State) (i : Nat) (c : BoolCtx) : (s.setBd i c).ieSync = s.ieSync := rfl
@[simp] theorem State.setBd_ieErr (s : State) (i : Nat) (c : BoolCtx) : (s.setBd i c).ieErr = s.ieErr := rfl
@[simp] theorem State.setBd_syncDone (s : State) (i : Nat) (c : BoolCtx) : (s.setBd i c).syncDone = s.syncDone := rfl
@[simp] theorem State.setBd_cfgDrop (s : State) (i : Nat) (c : BoolCtx) : (s.setBd i c).cfgDrop = s.cfgDrop := rfl
@[simp] theorem State.setBd_wide16 (s : State) (i : Nat) (c : BoolCtx) : (s.setBd i c).wide16 = s.wide16 := rfl
@[simp] theorem State.setBd_err (s : State) (i : Nat) (c : BoolCtx) : (s.setBd i c).err = s.err := rfl
@[simp] theorem State.setBd_errCode (s : State) (i : Nat) (c : BoolCtx) : (s.setBd i c).errCode = s.errCode := rfl
@[simp] theorem State.setBd_errInfo (s : State) (i : Nat) (c : BoolCtx) : (s.setBd i c).errInfo = s.errInfo := rfl
@[simp] theorem State.setBd_result (s : State) (i : Nat) (c : BoolCtx) : (s.setBd i c).result = s.result := rfl
@[simp] theorem State.setBd_eobTotal (s : State) (i : Nat) (c : BoolCtx) : (s.setBd i c).eobTotal = s.eobTotal := rfl
@[simp] theorem State.setBd_cfg (s : State) (i : Nat) (c : BoolCtx) : (s.setBd i c).cfg = s.cfg := rfl
@[simp] theorem State.setBd_dqf (s : State) (i : Nat) (c : BoolCtx) : (s.setBd i c).dqf = s.dqf := rfl
@[simp] theorem State.setBd_bd (s : State) (i : Nat) (c : BoolCtx) : (s.setBd i c).bd = fileSet s.bd i c := rfl
@[simp] theorem State.setBd_ram (s : State) (i : Nat) (c : BoolCtx) : (s.setBd i c).ram = s.ram := rfl
@[simp] theorem State.setBd_cmdq (s : State) (i : Nat) (c : BoolCtx) : (s.setBd i c).cmdq = s.cmdq := rfl
@[simp] theorem State.setBd_running (s : State) (i : Nat) (c : BoolCtx) : (s.setBd i c).running = s.running := rfl
@[simp] theorem State.setBd_mem (s : State) (i : Nat) (c : BoolCtx) : (s.setBd i c).mem = s.mem := rfl
@[simp] theorem State.setBd_inputs (s : State) (i : Nat) (c : BoolCtx) : (s.setBd i c).inputs = s.inputs := rfl
@[simp] theorem State.setBd_epoch (s : State) (i : Nat) (c : BoolCtx) : (s.setBd i c).epoch = s.epoch := rfl

/-! ### State.setResult -/

@[simp] theorem State.setResult_rom (s : State) (v : Nat) : (s.setResult v).rom = s.rom := rfl
@[simp] theorem State.setResult_ieSync (s : State) (v : Nat) : (s.setResult v).ieSync = s.ieSync := rfl
@[simp] theorem State.setResult_ieErr (s : State) (v : Nat) : (s.setResult v).ieErr = s.ieErr := rfl
@[simp] theorem State.setResult_syncDone (s : State) (v : Nat) : (s.setResult v).syncDone = s.syncDone := rfl
@[simp] theorem State.setResult_cfgDrop (s : State) (v : Nat) : (s.setResult v).cfgDrop = s.cfgDrop := rfl
@[simp] theorem State.setResult_wide16 (s : State) (v : Nat) : (s.setResult v).wide16 = s.wide16 := rfl
@[simp] theorem State.setResult_err (s : State) (v : Nat) : (s.setResult v).err = s.err := rfl
@[simp] theorem State.setResult_errCode (s : State) (v : Nat) : (s.setResult v).errCode = s.errCode := rfl
@[simp] theorem State.setResult_errInfo (s : State) (v : Nat) : (s.setResult v).errInfo = s.errInfo := rfl
@[simp] theorem State.setResult_result (s : State) (v : Nat) : (s.setResult v).result = BitVec.ofNat 32 v := rfl
@[simp] theorem State.setResult_eobTotal (s : State) (v : Nat) : (s.setResult v).eobTotal = s.eobTotal := rfl
@[simp] theorem State.setResult_cfg (s : State) (v : Nat) : (s.setResult v).cfg = s.cfg := rfl
@[simp] theorem State.setResult_dqf (s : State) (v : Nat) : (s.setResult v).dqf = s.dqf := rfl
@[simp] theorem State.setResult_bd (s : State) (v : Nat) : (s.setResult v).bd = s.bd := rfl
@[simp] theorem State.setResult_ram (s : State) (v : Nat) : (s.setResult v).ram = s.ram := rfl
@[simp] theorem State.setResult_cmdq (s : State) (v : Nat) : (s.setResult v).cmdq = s.cmdq := rfl
@[simp] theorem State.setResult_running (s : State) (v : Nat) : (s.setResult v).running = s.running := rfl
@[simp] theorem State.setResult_mem (s : State) (v : Nat) : (s.setResult v).mem = s.mem := rfl
@[simp] theorem State.setResult_inputs (s : State) (v : Nat) : (s.setResult v).inputs = s.inputs := rfl
@[simp] theorem State.setResult_epoch (s : State) (v : Nat) : (s.setResult v).epoch = s.epoch := rfl

/-! ### State.setDq -/

@[simp] theorem State.setDq_rom (s : State) (d : Cells (BitVec 32)) : (s.setDq d).rom = s.rom := rfl
@[simp] theorem State.setDq_ieSync (s : State) (d : Cells (BitVec 32)) : (s.setDq d).ieSync = s.ieSync := rfl
@[simp] theorem State.setDq_ieErr (s : State) (d : Cells (BitVec 32)) : (s.setDq d).ieErr = s.ieErr := rfl
@[simp] theorem State.setDq_syncDone (s : State) (d : Cells (BitVec 32)) : (s.setDq d).syncDone = s.syncDone := rfl
@[simp] theorem State.setDq_cfgDrop (s : State) (d : Cells (BitVec 32)) : (s.setDq d).cfgDrop = s.cfgDrop := rfl
@[simp] theorem State.setDq_wide16 (s : State) (d : Cells (BitVec 32)) : (s.setDq d).wide16 = s.wide16 := rfl
@[simp] theorem State.setDq_err (s : State) (d : Cells (BitVec 32)) : (s.setDq d).err = s.err := rfl
@[simp] theorem State.setDq_errCode (s : State) (d : Cells (BitVec 32)) : (s.setDq d).errCode = s.errCode := rfl
@[simp] theorem State.setDq_errInfo (s : State) (d : Cells (BitVec 32)) : (s.setDq d).errInfo = s.errInfo := rfl
@[simp] theorem State.setDq_result (s : State) (d : Cells (BitVec 32)) : (s.setDq d).result = s.result := rfl
@[simp] theorem State.setDq_eobTotal (s : State) (d : Cells (BitVec 32)) : (s.setDq d).eobTotal = s.eobTotal := rfl
@[simp] theorem State.setDq_cfg (s : State) (d : Cells (BitVec 32)) : (s.setDq d).cfg = s.cfg := rfl
@[simp] theorem State.setDq_dqf (s : State) (d : Cells (BitVec 32)) : (s.setDq d).dqf = s.dqf := rfl
@[simp] theorem State.setDq_bd (s : State) (d : Cells (BitVec 32)) : (s.setDq d).bd = s.bd := rfl
@[simp] theorem State.setDq_ram (s : State) (d : Cells (BitVec 32)) : (s.setDq d).ram = { s.ram with dq := d } := rfl
@[simp] theorem State.setDq_cmdq (s : State) (d : Cells (BitVec 32)) : (s.setDq d).cmdq = s.cmdq := rfl
@[simp] theorem State.setDq_running (s : State) (d : Cells (BitVec 32)) : (s.setDq d).running = s.running := rfl
@[simp] theorem State.setDq_mem (s : State) (d : Cells (BitVec 32)) : (s.setDq d).mem = s.mem := rfl
@[simp] theorem State.setDq_inputs (s : State) (d : Cells (BitVec 32)) : (s.setDq d).inputs = s.inputs := rfl
@[simp] theorem State.setDq_epoch (s : State) (d : Cells (BitVec 32)) : (s.setDq d).epoch = s.epoch := rfl

/-! ### State.orWide -/

@[simp] theorem State.orWide_rom (s : State) (b : Bool) : (s.orWide b).rom = s.rom := rfl
@[simp] theorem State.orWide_ieSync (s : State) (b : Bool) : (s.orWide b).ieSync = s.ieSync := rfl
@[simp] theorem State.orWide_ieErr (s : State) (b : Bool) : (s.orWide b).ieErr = s.ieErr := rfl
@[simp] theorem State.orWide_syncDone (s : State) (b : Bool) : (s.orWide b).syncDone = s.syncDone := rfl
@[simp] theorem State.orWide_cfgDrop (s : State) (b : Bool) : (s.orWide b).cfgDrop = s.cfgDrop := rfl
@[simp] theorem State.orWide_wide16 (s : State) (b : Bool) : (s.orWide b).wide16 = (s.wide16 || b) := rfl
@[simp] theorem State.orWide_err (s : State) (b : Bool) : (s.orWide b).err = s.err := rfl
@[simp] theorem State.orWide_errCode (s : State) (b : Bool) : (s.orWide b).errCode = s.errCode := rfl
@[simp] theorem State.orWide_errInfo (s : State) (b : Bool) : (s.orWide b).errInfo = s.errInfo := rfl
@[simp] theorem State.orWide_result (s : State) (b : Bool) : (s.orWide b).result = s.result := rfl
@[simp] theorem State.orWide_eobTotal (s : State) (b : Bool) : (s.orWide b).eobTotal = s.eobTotal := rfl
@[simp] theorem State.orWide_cfg (s : State) (b : Bool) : (s.orWide b).cfg = s.cfg := rfl
@[simp] theorem State.orWide_dqf (s : State) (b : Bool) : (s.orWide b).dqf = s.dqf := rfl
@[simp] theorem State.orWide_bd (s : State) (b : Bool) : (s.orWide b).bd = s.bd := rfl
@[simp] theorem State.orWide_ram (s : State) (b : Bool) : (s.orWide b).ram = s.ram := rfl
@[simp] theorem State.orWide_cmdq (s : State) (b : Bool) : (s.orWide b).cmdq = s.cmdq := rfl
@[simp] theorem State.orWide_running (s : State) (b : Bool) : (s.orWide b).running = s.running := rfl
@[simp] theorem State.orWide_mem (s : State) (b : Bool) : (s.orWide b).mem = s.mem := rfl
@[simp] theorem State.orWide_inputs (s : State) (b : Bool) : (s.orWide b).inputs = s.inputs := rfl
@[simp] theorem State.orWide_epoch (s : State) (b : Bool) : (s.orWide b).epoch = s.epoch := rfl

/-! ### State.setDetok -/

@[simp] theorem State.setDetok_rom (s : State) (k : Nat) (co : Cells (BitVec 16)) (eo : Cells (BitVec 5)) (ab le : NzRow) (t : Nat) : (s.setDetok k co eo ab le t).rom = s.rom := rfl
@[simp] theorem State.setDetok_ieSync (s : State) (k : Nat) (co : Cells (BitVec 16)) (eo : Cells (BitVec 5)) (ab le : NzRow) (t : Nat) : (s.setDetok k co eo ab le t).ieSync = s.ieSync := rfl
@[simp] theorem State.setDetok_ieErr (s : State) (k : Nat) (co : Cells (BitVec 16)) (eo : Cells (BitVec 5)) (ab le : NzRow) (t : Nat) : (s.setDetok k co eo ab le t).ieErr = s.ieErr := rfl
@[simp] theorem State.setDetok_syncDone (s : State) (k : Nat) (co : Cells (BitVec 16)) (eo : Cells (BitVec 5)) (ab le : NzRow) (t : Nat) : (s.setDetok k co eo ab le t).syncDone = s.syncDone := rfl
@[simp] theorem State.setDetok_cfgDrop (s : State) (k : Nat) (co : Cells (BitVec 16)) (eo : Cells (BitVec 5)) (ab le : NzRow) (t : Nat) : (s.setDetok k co eo ab le t).cfgDrop = s.cfgDrop := rfl
@[simp] theorem State.setDetok_wide16 (s : State) (k : Nat) (co : Cells (BitVec 16)) (eo : Cells (BitVec 5)) (ab le : NzRow) (t : Nat) : (s.setDetok k co eo ab le t).wide16 = s.wide16 := rfl
@[simp] theorem State.setDetok_err (s : State) (k : Nat) (co : Cells (BitVec 16)) (eo : Cells (BitVec 5)) (ab le : NzRow) (t : Nat) : (s.setDetok k co eo ab le t).err = s.err := rfl
@[simp] theorem State.setDetok_errCode (s : State) (k : Nat) (co : Cells (BitVec 16)) (eo : Cells (BitVec 5)) (ab le : NzRow) (t : Nat) : (s.setDetok k co eo ab le t).errCode = s.errCode := rfl
@[simp] theorem State.setDetok_errInfo (s : State) (k : Nat) (co : Cells (BitVec 16)) (eo : Cells (BitVec 5)) (ab le : NzRow) (t : Nat) : (s.setDetok k co eo ab le t).errInfo = s.errInfo := rfl
@[simp] theorem State.setDetok_result (s : State) (k : Nat) (co : Cells (BitVec 16)) (eo : Cells (BitVec 5)) (ab le : NzRow) (t : Nat) : (s.setDetok k co eo ab le t).result = s.result := rfl
@[simp] theorem State.setDetok_eobTotal (s : State) (k : Nat) (co : Cells (BitVec 16)) (eo : Cells (BitVec 5)) (ab le : NzRow) (t : Nat) : (s.setDetok k co eo ab le t).eobTotal = BitVec.ofNat 10 t := rfl
@[simp] theorem State.setDetok_cfg (s : State) (k : Nat) (co : Cells (BitVec 16)) (eo : Cells (BitVec 5)) (ab le : NzRow) (t : Nat) : (s.setDetok k co eo ab le t).cfg = s.cfg := rfl
@[simp] theorem State.setDetok_dqf (s : State) (k : Nat) (co : Cells (BitVec 16)) (eo : Cells (BitVec 5)) (ab le : NzRow) (t : Nat) : (s.setDetok k co eo ab le t).dqf = s.dqf := rfl
@[simp] theorem State.setDetok_bd (s : State) (k : Nat) (co : Cells (BitVec 16)) (eo : Cells (BitVec 5)) (ab le : NzRow) (t : Nat) : (s.setDetok k co eo ab le t).bd = s.bd := rfl
@[simp] theorem State.setDetok_ram (s : State) (k : Nat) (co : Cells (BitVec 16)) (eo : Cells (BitVec 5)) (ab le : NzRow) (t : Nat) : (s.setDetok k co eo ab le t).ram = 
    { s.ram with coef := co, eob := eo, nzAbove := Cells.set s.ram.nzAbove k ab, nzLeft := le } := rfl
@[simp] theorem State.setDetok_cmdq (s : State) (k : Nat) (co : Cells (BitVec 16)) (eo : Cells (BitVec 5)) (ab le : NzRow) (t : Nat) : (s.setDetok k co eo ab le t).cmdq = s.cmdq := rfl
@[simp] theorem State.setDetok_running (s : State) (k : Nat) (co : Cells (BitVec 16)) (eo : Cells (BitVec 5)) (ab le : NzRow) (t : Nat) : (s.setDetok k co eo ab le t).running = s.running := rfl
@[simp] theorem State.setDetok_mem (s : State) (k : Nat) (co : Cells (BitVec 16)) (eo : Cells (BitVec 5)) (ab le : NzRow) (t : Nat) : (s.setDetok k co eo ab le t).mem = s.mem := rfl
@[simp] theorem State.setDetok_inputs (s : State) (k : Nat) (co : Cells (BitVec 16)) (eo : Cells (BitVec 5)) (ab le : NzRow) (t : Nat) : (s.setDetok k co eo ab le t).inputs = s.inputs := rfl
@[simp] theorem State.setDetok_epoch (s : State) (k : Nat) (co : Cells (BitVec 16)) (eo : Cells (BitVec 5)) (ab le : NzRow) (t : Nat) : (s.setDetok k co eo ab le t).epoch = s.epoch := rfl

/-! ### errorEntry -/

@[simp] theorem errorEntry_rom (s : State) (e : ErrorCode) (w : Word) : (errorEntry e w s).rom = s.rom := rfl
@[simp] theorem errorEntry_ieSync (s : State) (e : ErrorCode) (w : Word) : (errorEntry e w s).ieSync = s.ieSync := rfl
@[simp] theorem errorEntry_ieErr (s : State) (e : ErrorCode) (w : Word) : (errorEntry e w s).ieErr = s.ieErr := rfl
@[simp] theorem errorEntry_syncDone (s : State) (e : ErrorCode) (w : Word) : (errorEntry e w s).syncDone = s.syncDone := rfl
@[simp] theorem errorEntry_cfgDrop (s : State) (e : ErrorCode) (w : Word) : (errorEntry e w s).cfgDrop = s.cfgDrop := rfl
@[simp] theorem errorEntry_wide16 (s : State) (e : ErrorCode) (w : Word) : (errorEntry e w s).wide16 = s.wide16 := rfl
@[simp] theorem errorEntry_err (s : State) (e : ErrorCode) (w : Word) : (errorEntry e w s).err = true := rfl
@[simp] theorem errorEntry_errCode (s : State) (e : ErrorCode) (w : Word) : (errorEntry e w s).errCode = e.code := rfl
@[simp] theorem errorEntry_errInfo (s : State) (e : ErrorCode) (w : Word) : (errorEntry e w s).errInfo = w := rfl
@[simp] theorem errorEntry_result (s : State) (e : ErrorCode) (w : Word) : (errorEntry e w s).result = s.result := rfl
@[simp] theorem errorEntry_eobTotal (s : State) (e : ErrorCode) (w : Word) : (errorEntry e w s).eobTotal = s.eobTotal := rfl
@[simp] theorem errorEntry_cfg (s : State) (e : ErrorCode) (w : Word) : (errorEntry e w s).cfg = s.cfg := rfl
@[simp] theorem errorEntry_dqf (s : State) (e : ErrorCode) (w : Word) : (errorEntry e w s).dqf = s.dqf := rfl
@[simp] theorem errorEntry_bd (s : State) (e : ErrorCode) (w : Word) : (errorEntry e w s).bd = s.bd := rfl
@[simp] theorem errorEntry_ram (s : State) (e : ErrorCode) (w : Word) : (errorEntry e w s).ram = s.ram := rfl
@[simp] theorem errorEntry_cmdq (s : State) (e : ErrorCode) (w : Word) : (errorEntry e w s).cmdq = [] := rfl
@[simp] theorem errorEntry_running (s : State) (e : ErrorCode) (w : Word) : (errorEntry e w s).running = none := rfl
@[simp] theorem errorEntry_mem (s : State) (e : ErrorCode) (w : Word) : (errorEntry e w s).mem = s.mem := rfl
@[simp] theorem errorEntry_inputs (s : State) (e : ErrorCode) (w : Word) : (errorEntry e w s).inputs = s.inputs := rfl
@[simp] theorem errorEntry_epoch (s : State) (e : ErrorCode) (w : Word) : (errorEntry e w s).epoch = s.epoch := rfl

/-! ### softReset -/

@[simp] theorem softReset_rom (s : State) : (softReset s).rom = s.rom := rfl
@[simp] theorem softReset_ieSync (s : State) : (softReset s).ieSync = State.reset.ieSync := rfl
@[simp] theorem softReset_ieErr (s : State) : (softReset s).ieErr = State.reset.ieErr := rfl
@[simp] theorem softReset_syncDone (s : State) : (softReset s).syncDone = State.reset.syncDone := rfl
@[simp] theorem softReset_cfgDrop (s : State) : (softReset s).cfgDrop = State.reset.cfgDrop := rfl
@[simp] theorem softReset_wide16 (s : State) : (softReset s).wide16 = State.reset.wide16 := rfl
@[simp] theorem softReset_err (s : State) : (softReset s).err = State.reset.err := rfl
@[simp] theorem softReset_errCode (s : State) : (softReset s).errCode = State.reset.errCode := rfl
@[simp] theorem softReset_errInfo (s : State) : (softReset s).errInfo = State.reset.errInfo := rfl
@[simp] theorem softReset_result (s : State) : (softReset s).result = State.reset.result := rfl
@[simp] theorem softReset_eobTotal (s : State) : (softReset s).eobTotal = State.reset.eobTotal := rfl
@[simp] theorem softReset_cfg (s : State) : (softReset s).cfg = State.reset.cfg := rfl
@[simp] theorem softReset_dqf (s : State) : (softReset s).dqf = State.reset.dqf := rfl
@[simp] theorem softReset_bd (s : State) : (softReset s).bd = State.reset.bd := rfl
@[simp] theorem softReset_ram (s : State) : (softReset s).ram = s.ram := rfl
@[simp] theorem softReset_cmdq (s : State) : (softReset s).cmdq = State.reset.cmdq := rfl
@[simp] theorem softReset_running (s : State) : (softReset s).running = State.reset.running := rfl
@[simp] theorem softReset_mem (s : State) : (softReset s).mem = s.mem := rfl
@[simp] theorem softReset_inputs (s : State) : (softReset s).inputs = s.inputs := rfl
@[simp] theorem softReset_epoch (s : State) : (softReset s).epoch = s.epoch := rfl

/-! ### hardReset -/

@[simp] theorem hardReset_rom (s : State) : (hardReset s).rom = s.rom := rfl
@[simp] theorem hardReset_ieSync (s : State) : (hardReset s).ieSync = State.reset.ieSync := rfl
@[simp] theorem hardReset_ieErr (s : State) : (hardReset s).ieErr = State.reset.ieErr := rfl
@[simp] theorem hardReset_syncDone (s : State) : (hardReset s).syncDone = State.reset.syncDone := rfl
@[simp] theorem hardReset_cfgDrop (s : State) : (hardReset s).cfgDrop = State.reset.cfgDrop := rfl
@[simp] theorem hardReset_wide16 (s : State) : (hardReset s).wide16 = State.reset.wide16 := rfl
@[simp] theorem hardReset_err (s : State) : (hardReset s).err = State.reset.err := rfl
@[simp] theorem hardReset_errCode (s : State) : (hardReset s).errCode = State.reset.errCode := rfl
@[simp] theorem hardReset_errInfo (s : State) : (hardReset s).errInfo = State.reset.errInfo := rfl
@[simp] theorem hardReset_result (s : State) : (hardReset s).result = State.reset.result := rfl
@[simp] theorem hardReset_eobTotal (s : State) : (hardReset s).eobTotal = State.reset.eobTotal := rfl
@[simp] theorem hardReset_cfg (s : State) : (hardReset s).cfg = State.reset.cfg := rfl
@[simp] theorem hardReset_dqf (s : State) : (hardReset s).dqf = State.reset.dqf := rfl
@[simp] theorem hardReset_bd (s : State) : (hardReset s).bd = State.reset.bd := rfl
@[simp] theorem hardReset_ram (s : State) : (hardReset s).ram = State.reset.ram := rfl
@[simp] theorem hardReset_cmdq (s : State) : (hardReset s).cmdq = State.reset.cmdq := rfl
@[simp] theorem hardReset_running (s : State) : (hardReset s).running = State.reset.running := rfl
@[simp] theorem hardReset_mem (s : State) : (hardReset s).mem = s.mem := rfl
@[simp] theorem hardReset_inputs (s : State) : (hardReset s).inputs = s.inputs := rfl
@[simp] theorem hardReset_epoch (s : State) : (hardReset s).epoch = s.epoch + 1 := rfl

/-! ### statusWrite -/

@[simp] theorem statusWrite_rom (s : State) (v : Word) : (statusWrite v s).rom = s.rom := rfl
@[simp] theorem statusWrite_ieSync (s : State) (v : Word) : (statusWrite v s).ieSync = s.ieSync := rfl
@[simp] theorem statusWrite_ieErr (s : State) (v : Word) : (statusWrite v s).ieErr = s.ieErr := rfl
@[simp] theorem statusWrite_syncDone (s : State) (v : Word) : (statusWrite v s).syncDone = (s.syncDone && !bit v.toNat 2) := rfl
@[simp] theorem statusWrite_cfgDrop (s : State) (v : Word) : (statusWrite v s).cfgDrop = (s.cfgDrop && !bit v.toNat 3) := rfl
@[simp] theorem statusWrite_wide16 (s : State) (v : Word) : (statusWrite v s).wide16 = (s.wide16 && !bit v.toNat 4) := rfl
@[simp] theorem statusWrite_err (s : State) (v : Word) : (statusWrite v s).err = s.err := rfl
@[simp] theorem statusWrite_errCode (s : State) (v : Word) : (statusWrite v s).errCode = s.errCode := rfl
@[simp] theorem statusWrite_errInfo (s : State) (v : Word) : (statusWrite v s).errInfo = s.errInfo := rfl
@[simp] theorem statusWrite_result (s : State) (v : Word) : (statusWrite v s).result = s.result := rfl
@[simp] theorem statusWrite_eobTotal (s : State) (v : Word) : (statusWrite v s).eobTotal = s.eobTotal := rfl
@[simp] theorem statusWrite_cfg (s : State) (v : Word) : (statusWrite v s).cfg = s.cfg := rfl
@[simp] theorem statusWrite_dqf (s : State) (v : Word) : (statusWrite v s).dqf = s.dqf := rfl
@[simp] theorem statusWrite_bd (s : State) (v : Word) : (statusWrite v s).bd = s.bd := rfl
@[simp] theorem statusWrite_ram (s : State) (v : Word) : (statusWrite v s).ram = s.ram := rfl
@[simp] theorem statusWrite_cmdq (s : State) (v : Word) : (statusWrite v s).cmdq = s.cmdq := rfl
@[simp] theorem statusWrite_running (s : State) (v : Word) : (statusWrite v s).running = s.running := rfl
@[simp] theorem statusWrite_mem (s : State) (v : Word) : (statusWrite v s).mem = s.mem := rfl
@[simp] theorem statusWrite_inputs (s : State) (v : Word) : (statusWrite v s).inputs = s.inputs := rfl
@[simp] theorem statusWrite_epoch (s : State) (v : Word) : (statusWrite v s).epoch = s.epoch := rfl

/-! ### writeCfg: only CFG registers and PROB change (47_control.md R473) -/

@[simp] theorem writeCfg_rom (s : State) (r : Reg) (d : Word) : (writeCfg s r d).rom = s.rom := by cases r <;> rfl
@[simp] theorem writeCfg_ieSync (s : State) (r : Reg) (d : Word) : (writeCfg s r d).ieSync = s.ieSync := by cases r <;> rfl
@[simp] theorem writeCfg_ieErr (s : State) (r : Reg) (d : Word) : (writeCfg s r d).ieErr = s.ieErr := by cases r <;> rfl
@[simp] theorem writeCfg_syncDone (s : State) (r : Reg) (d : Word) : (writeCfg s r d).syncDone = s.syncDone := by cases r <;> rfl
@[simp] theorem writeCfg_cfgDrop (s : State) (r : Reg) (d : Word) : (writeCfg s r d).cfgDrop = s.cfgDrop := by cases r <;> rfl
@[simp] theorem writeCfg_wide16 (s : State) (r : Reg) (d : Word) : (writeCfg s r d).wide16 = s.wide16 := by cases r <;> rfl
@[simp] theorem writeCfg_err (s : State) (r : Reg) (d : Word) : (writeCfg s r d).err = s.err := by cases r <;> rfl
@[simp] theorem writeCfg_errCode (s : State) (r : Reg) (d : Word) : (writeCfg s r d).errCode = s.errCode := by cases r <;> rfl
@[simp] theorem writeCfg_errInfo (s : State) (r : Reg) (d : Word) : (writeCfg s r d).errInfo = s.errInfo := by cases r <;> rfl
@[simp] theorem writeCfg_result (s : State) (r : Reg) (d : Word) : (writeCfg s r d).result = s.result := by cases r <;> rfl
@[simp] theorem writeCfg_eobTotal (s : State) (r : Reg) (d : Word) : (writeCfg s r d).eobTotal = s.eobTotal := by cases r <;> rfl
@[simp] theorem writeCfg_dqf (s : State) (r : Reg) (d : Word) : (writeCfg s r d).dqf = s.dqf := by cases r <;> rfl
@[simp] theorem writeCfg_bd (s : State) (r : Reg) (d : Word) : (writeCfg s r d).bd = s.bd := by cases r <;> rfl
@[simp] theorem writeCfg_cmdq (s : State) (r : Reg) (d : Word) : (writeCfg s r d).cmdq = s.cmdq := by cases r <;> rfl
@[simp] theorem writeCfg_running (s : State) (r : Reg) (d : Word) : (writeCfg s r d).running = s.running := by cases r <;> rfl
@[simp] theorem writeCfg_mem (s : State) (r : Reg) (d : Word) : (writeCfg s r d).mem = s.mem := by cases r <;> rfl
@[simp] theorem writeCfg_inputs (s : State) (r : Reg) (d : Word) : (writeCfg s r d).inputs = s.inputs := by cases r <;> rfl
@[simp] theorem writeCfg_epoch (s : State) (r : Reg) (d : Word) : (writeCfg s r d).epoch = s.epoch := by cases r <;> rfl
@[simp] theorem writeCfg_ram_eob (s : State) (r : Reg) (d : Word) : (writeCfg s r d).ram.eob = s.ram.eob := by
  cases r <;> rfl
@[simp] theorem writeCfg_ram_coef (s : State) (r : Reg) (d : Word) : (writeCfg s r d).ram.coef = s.ram.coef := by
  cases r <;> rfl
@[simp] theorem writeCfg_ram_dq (s : State) (r : Reg) (d : Word) : (writeCfg s r d).ram.dq = s.ram.dq := by
  cases r <;> rfl
@[simp] theorem writeCfg_ram_nzLeft (s : State) (r : Reg) (d : Word) : (writeCfg s r d).ram.nzLeft = s.ram.nzLeft := by
  cases r <;> rfl
@[simp] theorem writeCfg_ram_nzAbove (s : State) (r : Reg) (d : Word) : (writeCfg s r d).ram.nzAbove = s.ram.nzAbove := by
  cases r <;> rfl

/-! ### Contexts -/

/-- Reading the context just written. -/
theorem State.ctx_setBd_same (s : State) (i : Nat) (c : BoolCtx) (h : i < 9) : (s.setBd i c).ctx i = c := by
  simp [State.ctx, State.setBd, fileGet, fileSet, h]

/-- Every other context is unchanged. -/
theorem State.ctx_setBd_other (s : State) (i j : Nat) (c : BoolCtx) (h : i ≠ j) : (s.setBd i c).ctx j = s.ctx j := by
  simp [State.ctx, State.setBd, fileGet, fileSet, h]

@[simp] theorem State.ctx_setMem (s : State) (m : List Host.Cell) (i : Nat) : (s.setMem m).ctx i = s.ctx i := rfl
@[simp] theorem State.ctx_setResult (s : State) (v i : Nat) : (s.setResult v).ctx i = s.ctx i := rfl
@[simp] theorem State.ctx_setDq (s : State) (d : Cells (BitVec 32)) (i : Nat) : (s.setDq d).ctx i = s.ctx i := rfl
@[simp] theorem State.ctx_orWide (s : State) (b : Bool) (i : Nat) : (s.orWide b).ctx i = s.ctx i := rfl
@[simp] theorem State.ctx_errorEntry (s : State) (e : ErrorCode) (w : Word) (i : Nat) :
    (errorEntry e w s).ctx i = s.ctx i := rfl
@[simp] theorem State.ctx_writeCfg (s : State) (r : Reg) (d : Word) (i : Nat) : (writeCfg s r d).ctx i = s.ctx i := by
  simp [State.ctx]

/-! ### Combining updates -/

@[simp] theorem State.orWide_orWide (s : State) (a b : Bool) : (s.orWide a).orWide b = s.orWide (a || b) := by
  simp [State.orWide, Bool.or_assoc]
@[simp] theorem State.setMem_setMem (s : State) (m n : List Host.Cell) : (s.setMem m).setMem n = s.setMem n := rfl
@[simp] theorem State.setMem_orWide (s : State) (m : List Host.Cell) (b : Bool) :
    (s.orWide b).setMem m = (s.setMem m).orWide b := rfl
@[simp] theorem State.setMem_self (s : State) : s.setMem s.mem = s := rfl
@[simp] theorem State.orWide_false (s : State) : s.orWide false = s := by simp [State.orWide]

end Sys2Proof.Machine
end

