-- ==== Sys2Proof/Laws/Entropy.lean ====
section
/-! SUPPORT. The laws of the bool decoder (40_entropy.md): the split's bounds, what each primitive keeps of a context
(R208), and which bytes of memory it can depend on (R215). -/

namespace Sys2Proof.Machine

/-- R202: the split lies strictly inside the range. -/
theorem split_bounds {r p : Nat} (hr : 2 ≤ r) (hp : p ≤ 255) : 1 ≤ split r p ∧ split r p ≤ r - 1 := by
  refine ⟨by simp [split], ?_⟩
  have h : (r - 1) * p ≤ (r - 1) * 255 := Nat.mul_le_mul_left _ hp
  have h2 : (r - 1) * p / 256 ≤ (r - 1) * 255 / 256 := Nat.div_le_div_right h
  have h3 : (r - 1) * 255 / 256 < r - 1 := by omega
  simp only [split]
  omega

/-! ### What the primitives keep -/

/-- What reading bytes keeps of a context: its partition, its validity, and R201's bookkeeping. -/
structure SamePartition (c d : BoolCtx) : Prop where
  start : d.start = c.start
  stop : d.stop = c.stop
  valid : d.valid = c.valid
  pos : c.pos ≤ d.pos
  bound : c.pos ≤ c.stop → d.pos ≤ c.stop
  exh : (c.exh = true ↔ c.zfill ≠ 0) → (d.exh = true ↔ d.zfill ≠ 0)

theorem SamePartition.refl (c : BoolCtx) : SamePartition c c :=
  ⟨rfl, rfl, rfl, le_rfl, id, id⟩

theorem SamePartition.trans {c d e : BoolCtx} (h : SamePartition c d) (h' : SamePartition d e) : SamePartition c e :=
  ⟨h'.start.trans h.start, h'.stop.trans h.stop, h'.valid.trans h.valid, h.pos.trans h'.pos,
    fun hb => h.stop ▸ h'.bound (h.stop.symm ▸ h.bound hb), fun he => h'.exh (h.exh he)⟩

/-- R201: `next_byte`. -/
theorem nextByte_keeps (m : List Host.Cell) (c : BoolCtx) : SamePartition c (nextByte m c).2 := by
  unfold nextByte
  split
  · exact ⟨rfl, rfl, rfl, by simp, fun _ => by simpa using ‹c.pos < c.stop›, id⟩
  · refine ⟨rfl, rfl, rfl, le_rfl, id, fun _ => ?_⟩
    simp only [true_iff]
    split
    · rename_i h
      rw [h]
      decide
    · rename_i h
      intro h0
      apply h
      have : c.zfill + 1 - 1 = 0 - 1 := by rw [h0]
      simpa using this

theorem nextByte_fields (m : List Host.Cell) (c : BoolCtx) : (nextByte m c).2.range = c.range ∧
    (nextByte m c).2.value = c.value ∧ (nextByte m c).2.bitCount = c.bitCount := by
  unfold nextByte
  split <;> exact ⟨rfl, rfl, rfl⟩

/-- R204: the decision changes only the range and the value. -/
theorem boolDecide_keeps (p : Nat) (c : BoolCtx) : SamePartition c (boolDecide p c).2 := by
  unfold boolDecide
  simp only
  split <;> exact ⟨rfl, rfl, rfl, le_rfl, id, id⟩

/-- R204: the range after the decision, before renormalisation. -/
theorem boolDecide_range {p : Nat} (hp : p ≤ 255) {c : BoolCtx} (hr : 128 ≤ c.range.toNat) :
    1 ≤ (boolDecide p c).2.range.toNat := by
  have hb := split_bounds (r := c.range.toNat) (by omega) hp
  have hlt := c.range.isLt
  unfold boolDecide
  simp only
  split
  · simp only [BitVec.toNat_ofNat]
    rw [Nat.mod_eq_of_lt (by omega)]
    omega
  · simp only [BitVec.toNat_ofNat]
    rw [Nat.mod_eq_of_lt (by omega)]
    omega

theorem shiftOnce_keeps (m : List Host.Cell) (c : BoolCtx) : SamePartition c (shiftOnce m c) := by
  unfold shiftOnce
  simp only
  split
  · have h := nextByte_keeps m { c with value := c.value <<< 1, range := c.range <<< 1, bitCount := c.bitCount + 1 }
    exact ⟨h.start, h.stop, h.valid, h.pos, h.bound, h.exh⟩
  · exact ⟨rfl, rfl, rfl, le_rfl, id, id⟩

theorem shiftOnce_range (m : List Host.Cell) (c : BoolCtx) : (shiftOnce m c).range = c.range <<< 1 := by
  unfold shiftOnce
  simp only
  split
  · exact (nextByte_fields m _).1
  · rfl

theorem shl_range {c : BoolCtx} (h : c.range.toNat < 128) : (c.range <<< 1).toNat = 2 * c.range.toNat := by
  simp only [BitVec.toNat_shiftLeft, Nat.shiftLeft_eq]
  omega

theorem renorm_keeps (m : List Host.Cell) (k : Nat) (c : BoolCtx) : SamePartition c (renorm m k c) := by
  induction k generalizing c with
  | zero => exact SamePartition.refl c
  | succ k ih =>
    simp only [renorm]
    split
    · exact (shiftOnce_keeps m c).trans (ih _)
    · exact SamePartition.refl c

/-- R205: enough turns bring the range to 128 or more. -/
theorem renorm_range (m : List Host.Cell) {k : Nat} {c : BoolCtx} (h : 128 ≤ c.range.toNat * 2 ^ k) :
    128 ≤ (renorm m k c).range.toNat := by
  induction k generalizing c with
  | zero => simpa [renorm] using h
  | succ k ih =>
    simp only [renorm]
    split
    · rename_i hlt
      apply ih
      rw [shiftOnce_range, shl_range hlt]
      calc 128 ≤ c.range.toNat * 2 ^ (k + 1) := h
        _ = 2 * c.range.toNat * 2 ^ k := by ring
    · omega

theorem boolDecode_keeps (m : List Host.Cell) (p : Nat) (c : BoolCtx) : SamePartition c (boolDecode m p c).2 :=
  (boolDecide_keeps p c).trans (renorm_keeps m 7 _)

/-- R208: after `bool_decode` at a probability 0..255 the range is 128 or more again. -/
theorem boolDecode_range (m : List Host.Cell) {p : Nat} (hp : p ≤ 255) {c : BoolCtx} (hr : 128 ≤ c.range.toNat) :
    128 ≤ (boolDecode m p c).2.range.toNat := by
  have h := boolDecide_range hp hr
  refine renorm_range m ?_
  have : 1 * 2 ^ 7 ≤ (boolDecide p c).2.range.toNat * 2 ^ 7 := Nat.mul_le_mul_right _ h
  omega

/-- What `SamePartition` and the range say together. -/
theorem BoolCtx.Ok.of_samePartition {c d : BoolCtx} (h : c.Ok) (hs : SamePartition c d)
    (hr : d.valid = true → 128 ≤ d.range.toNat) : d.Ok :=
  ⟨hr, hs.start ▸ h.start_pos.trans hs.pos, hs.stop ▸ hs.bound h.pos_stop, hs.stop ▸ h.stop_mem, hs.exh h.exh_zfill⟩

/-- R208: `bool_decode` keeps a valid context in order. -/
theorem boolDecode_ok (m : List Host.Cell) {p : Nat} (hp : p ≤ 255) {c : BoolCtx} (hv : c.valid = true) (h : c.Ok) :
    (boolDecode m p c).2.Ok :=
  h.of_samePartition (boolDecode_keeps m p c) fun _ => boolDecode_range m hp (h.range hv)

theorem readLiteral_ok (m : List Host.Cell) (n v : Nat) {c : BoolCtx} (hv : c.valid = true) (h : c.Ok) :
    (readLiteral m n v c).2.Ok ∧ (readLiteral m n v c).2.valid = true := by
  induction n generalizing v c with
  | zero => exact ⟨h, hv⟩
  | succ n ih =>
    simp only [readLiteral]
    exact ih _ ((boolDecode_keeps m 128 c).valid.trans hv) (boolDecode_ok m (by omega) hv h)

/-- R206: a literal of n bits is below 2^n. -/
theorem readLiteral_lt (m : List Host.Cell) (n v : Nat) (c : BoolCtx) :
    (readLiteral m n v c).1 < (v + 1) * 2 ^ n := by
  induction n generalizing v c with
  | zero => simp [readLiteral]
  | succ n ih =>
    simp only [readLiteral]
    refine lt_of_lt_of_le (ih _ _) ?_
    have : flagNat (boolDecode m 128 c).1 ≤ 1 := by cases (boolDecode m 128 c).1 <;> simp [flagNat]
    calc (2 * v + flagNat (boolDecode m 128 c).1 + 1) * 2 ^ n ≤ (2 * (v + 1)) * 2 ^ n :=
          Nat.mul_le_mul_right _ (by omega)
      _ = (v + 1) * 2 ^ (n + 1) := by ring

/-- R203: a context just set up is in order. -/
theorem initCtx_ok (m : List Host.Cell) {start size : Nat} (h : start + size ≤ memSize) :
    (initCtx m start size).Ok ∧ (initCtx m start size).valid = true := by
  have k := (nextByte_keeps m { BoolCtx.reset with pos := start, stop := start + size, valid := true, start := start }).trans
    (nextByte_keeps m _)
  refine ⟨⟨fun _ => by simp [initCtx], ?_, ?_, ?_, ?_⟩, ?_⟩
  · have := k.start
    have := k.pos
    simp only [initCtx] at *
    omega
  · have := k.bound (by simp)
    have := k.stop
    simp only [initCtx] at *
    omega
  · have := k.stop
    simp only [initCtx] at *
    omega
  · exact k.exh (by simp [BoolCtx.reset])
  · exact k.valid

/-! ### What the result depends on (R201, R215) -/

/-- Two memories hold the same bytes from `lo` up to `hi`. -/
def SameBytes (m m' : List Host.Cell) (lo hi : Nat) : Prop := ∀ a, lo ≤ a → a < hi → readByte m a = readByte m' a

theorem nextByte_congr {m m' : List Host.Cell} {c : BoolCtx} (h : SameBytes m m' c.pos c.stop) :
    nextByte m c = nextByte m' c := by
  unfold nextByte
  split
  · rw [h c.pos le_rfl ‹_›]
  · rfl

theorem shiftOnce_congr {m m' : List Host.Cell} {c : BoolCtx} (h : SameBytes m m' c.pos c.stop) :
    shiftOnce m c = shiftOnce m' c := by
  unfold shiftOnce
  simp only
  split
  · rw [nextByte_congr (c := { c with value := c.value <<< 1, range := c.range <<< 1, bitCount := c.bitCount + 1 }) h]
  · rfl

theorem renorm_congr {m m' : List Host.Cell} {k : Nat} {c : BoolCtx} (h : SameBytes m m' c.pos c.stop) :
    renorm m k c = renorm m' k c := by
  induction k generalizing c with
  | zero => rfl
  | succ k ih =>
    simp only [renorm]
    split
    · rw [← shiftOnce_congr h]
      have hk := shiftOnce_keeps m c
      exact ih fun a ha hb => h a (hk.pos.trans ha) (hk.stop ▸ hb)
    · rfl

/-- `bool_decode` depends on memory only through the bytes of the partition from `pos` on. -/
theorem boolDecode_congr {m m' : List Host.Cell} {p : Nat} {c : BoolCtx} (h : SameBytes m m' c.pos c.stop) :
    boolDecode m p c = boolDecode m' p c := by
  have hk := boolDecide_keeps p c
  simp only [boolDecode]
  rw [renorm_congr fun a ha hb => h a (hk.pos.trans ha) (hk.stop ▸ hb)]

theorem readLiteral_congr {m m' : List Host.Cell} {n v : Nat} {c : BoolCtx} (h : SameBytes m m' c.pos c.stop) :
    readLiteral m n v c = readLiteral m' n v c := by
  induction n generalizing v c with
  | zero => rfl
  | succ n ih =>
    simp only [readLiteral]
    rw [← boolDecode_congr h]
    have hk := boolDecode_keeps m 128 c
    exact ih fun a ha hb => h a (hk.pos.trans ha) (hk.stop ▸ hb)

end Sys2Proof.Machine
end

