-- ==== Sys2Proof/Laws/Memory.lean ====
section
/-! SUPPORT. The laws of the sparse stores, of data memory and of pixels: a read after a write, every other key left
alone, the canonical form kept, and what a list of pixel writes does to each byte. -/

namespace Sys2Proof.Machine

variable {α : Type}

/-! ### Sparse stores: reading and writing -/

@[simp] theorem Cells.get_set_same (c : Cells α) (k : Nat) (v : α) : Cells.get (Cells.set c k v) k = some v := by
  induction c with
  | nil => simp [Cells.set, Cells.get]
  | cons e t ih =>
    obtain ⟨a, x⟩ := e
    simp only [Cells.set]
    split
    · simp [Cells.get]
    · split
      · simp [Cells.get]
      · rename_i h1 h2
        simp [Cells.get, ih, Ne.symm h2]

theorem Cells.get_set_other (c : Cells α) {k j : Nat} (v : α) (h : k ≠ j) :
    Cells.get (Cells.set c k v) j = Cells.get c j := by
  induction c with
  | nil => simp [Cells.set, Cells.get, h]
  | cons e t ih =>
    obtain ⟨a, x⟩ := e
    simp only [Cells.set]
    split
    · simp [Cells.get, h]
    · split
      · rename_i h1 h2
        subst h2
        simp [Cells.get, h]
      · simp [Cells.get, ih]

/-! ### Sparse stores: the canonical form -/

theorem Cells.risingFrom_mono {lo lo' : Nat} (hle : lo' ≤ lo) {c : Cells α} (h : Cells.risingFrom lo c = true) :
    Cells.risingFrom lo' c = true := by
  cases c with
  | nil => rfl
  | cons e t =>
    simp only [Cells.risingFrom, Bool.and_eq_true, decide_eq_true_eq] at h ⊢
    exact ⟨by omega, h.2⟩

theorem Cells.risingFrom_set (c : Cells α) {lo k : Nat} (v : α) (hk : lo ≤ k) (h : Cells.risingFrom lo c = true) :
    Cells.risingFrom lo (Cells.set c k v) = true := by
  induction c generalizing lo with
  | nil => simp [Cells.set, Cells.risingFrom, hk]
  | cons e t ih =>
    obtain ⟨a, x⟩ := e
    simp only [Cells.risingFrom, Bool.and_eq_true, decide_eq_true_eq] at h
    simp only [Cells.set]
    split
    · simp only [Cells.risingFrom, Bool.and_eq_true, decide_eq_true_eq]
      exact ⟨hk, by omega, h.2⟩
    · split
      · rename_i h1 h2
        subst h2
        simp [Cells.risingFrom, h.2, hk]
      · simp only [Cells.risingFrom, Bool.and_eq_true, decide_eq_true_eq]
        exact ⟨h.1, ih (by omega) h.2⟩

theorem Cells.mem_set {c : Cells α} {k : Nat} {v : α} {e : Nat × α} (h : e ∈ Cells.set c k v) : e = (k, v) ∨ e ∈ c := by
  induction c with
  | nil => simpa [Cells.set] using h
  | cons d t ih =>
    obtain ⟨a, x⟩ := d
    simp only [Cells.set] at h
    split at h
    · simpa using h
    · split at h
      · simp only [List.mem_cons] at h ⊢
        tauto
      · simp only [List.mem_cons] at h ⊢
        rcases h with h | h
        · exact .inr (.inl h)
        · rcases ih h with h | h <;> tauto

/-- Writing an entry inside the store keeps its canonical form. -/
theorem Cells.wf_set {n k : Nat} {c : Cells α} (v : α) (hk : k < n) (h : Cells.wf n c = true) :
    Cells.wf n (Cells.set c k v) = true := by
  simp only [Cells.wf, Bool.and_eq_true, List.all_eq_true, decide_eq_true_eq] at h ⊢
  refine ⟨Cells.risingFrom_set c v (Nat.zero_le k) h.1, fun e he => ?_⟩
  rcases Cells.mem_set he with rfl | he
  · exact hk
  · exact h.2 e he

theorem Cells.fill_succ (n : Nat) (f : Nat → α) : Cells.fill (n + 1) f = Cells.fill n f ++ [(n, f n)] := by
  simp [Cells.fill, List.range_succ]

theorem Cells.risingFrom_append {lo k : Nat} {c : Cells α} {v : α} (h : Cells.risingFrom lo c = true) (hlo : lo ≤ k)
    (hk : ∀ e ∈ c, e.1 < k) : Cells.risingFrom lo (c ++ [(k, v)]) = true := by
  induction c generalizing lo with
  | nil => simp [Cells.risingFrom, hlo]
  | cons e t ih =>
    simp only [List.cons_append, Cells.risingFrom, Bool.and_eq_true, decide_eq_true_eq] at h ⊢
    exact ⟨h.1, ih h.2 (hk e (by simp)) fun d hd => hk d (by simp [hd])⟩

theorem Cells.mem_fill {n : Nat} {f : Nat → α} {e : Nat × α} : e ∈ Cells.fill n f ↔ e.1 < n ∧ e.2 = f e.1 := by
  simp only [Cells.fill, List.mem_map, List.mem_range]
  constructor
  · rintro ⟨k, hk, rfl⟩
    exact ⟨hk, rfl⟩
  · rintro ⟨h1, h2⟩
    exact ⟨e.1, h1, by rw [← h2]⟩

/-- A store written whole is in canonical form. -/
theorem Cells.wf_fill (n : Nat) (f : Nat → α) : Cells.wf n (Cells.fill n f) = true := by
  simp only [Cells.wf, Bool.and_eq_true, List.all_eq_true, decide_eq_true_eq]
  refine ⟨?_, fun e he => (Cells.mem_fill.1 he).1⟩
  induction n with
  | zero => rfl
  | succ n ih =>
    rw [Cells.fill_succ]
    exact Cells.risingFrom_append ih (Nat.zero_le n) fun e he => (Cells.mem_fill.1 he).1

theorem Cells.get_append_of_lt {c d : Cells α} {k : Nat} (h : Cells.get c k = none) :
    Cells.get (c ++ d) k = Cells.get d k := by
  induction c with
  | nil => rfl
  | cons e t ih =>
    obtain ⟨a, x⟩ := e
    simp only [Cells.get] at h
    split at h
    · exact absurd h (by simp)
    · rename_i hne
      simp [Cells.get, hne, ih h]

theorem Cells.get_append_of_some {c d : Cells α} {k : Nat} {v : α} (h : Cells.get c k = some v) :
    Cells.get (c ++ d) k = some v := by
  induction c with
  | nil => simp [Cells.get] at h
  | cons e t ih =>
    obtain ⟨a, x⟩ := e
    simp only [Cells.get, List.cons_append] at h ⊢
    split at h
    · rename_i he
      rw [if_pos he]
      exact h
    · rename_i he
      rw [if_neg he]
      exact ih h

/-- Reading a store written whole. -/
theorem Cells.get_fill (n : Nat) (f : Nat → α) (k : Nat) :
    Cells.get (Cells.fill n f) k = if k < n then some (f k) else none := by
  induction n with
  | zero => rfl
  | succ n ih =>
    rw [Cells.fill_succ]
    by_cases hk : k < n
    · rw [Cells.get_append_of_some (by rw [ih, if_pos hk])]
      rw [if_pos (by omega)]
    · rw [Cells.get_append_of_lt (by rw [ih, if_neg hk])]
      by_cases he : n = k
      · subst he
        simp [Cells.get]
      · rw [if_neg (by omega)]
        simp [Cells.get, he]

theorem Cells.get_fill_lt {n k : Nat} (f : Nat → α) (h : k < n) : Cells.get (Cells.fill n f) k = some (f k) := by
  rw [Cells.get_fill, if_pos h]

/-- In a canonical store an entry listed is the entry read. -/
theorem Cells.get_of_mem_rising {c : Cells α} {lo : Nat} (h : Cells.risingFrom lo c = true) {e : Nat × α} (he : e ∈ c) :
    Cells.get c e.1 = some e.2 ∧ lo ≤ e.1 := by
  induction c generalizing lo with
  | nil => simp at he
  | cons d t ih =>
    obtain ⟨a, x⟩ := d
    simp only [Cells.risingFrom, Bool.and_eq_true, decide_eq_true_eq] at h
    rcases List.mem_cons.1 he with rfl | he
    · exact ⟨by simp [Cells.get], h.1⟩
    · obtain ⟨h1, h2⟩ := ih h.2 he
      refine ⟨?_, by omega⟩
      simp only [Cells.get]
      rw [if_neg (by omega), h1]

/-! ### Data memory -/

@[simp] theorem readByte_writeByte_same (m : List Host.Cell) (a : Nat) (v : Byte) :
    readByte (writeByte m a v) a = v := by
  simp [readByte, writeByte]

theorem readByte_writeByte_other (m : List Host.Cell) {a b : Nat} (v : Byte) (h : a ≠ b) :
    readByte (writeByte m a v) b = readByte m b := by
  simp [readByte, writeByte, Cells.get_set_other _ _ h]

/-- A write inside the address space keeps the canonical form of memory. -/
theorem Memory.wf_writeByte {m : List Host.Cell} {a : Nat} (v : Byte) (ha : a < memSize) (h : Memory.wf m = true) :
    Memory.wf (writeByte m a v) = true := Cells.wf_set v ha h

theorem Memory.wf_reset : Memory.wf State.reset.mem = true := by rfl

/-! ### Pixels -/

/-- The address of a pixel to be written. -/
def PixelWrite.addr (c : CfgRegs) (slot : Nat) (w : PixelWrite) : Nat :=
  (pixelAddr c slot w.at_.plane w.at_.x w.at_.y).toNat

theorem pixelOk_iff {c : CfgRegs} {slot : Nat} {p : Plane} {x y : Int} :
    pixelOk c slot p x y = true ↔ 0 ≤ pixelAddr c slot p x y ∧ pixelAddr c slot p x y < (memSize : Int) := by
  simp [pixelOk]

theorem pixelOk_toNat_lt {c : CfgRegs} {slot : Nat} {p : Plane} {x y : Int} (h : pixelOk c slot p x y = true) :
    (pixelAddr c slot p x y).toNat < memSize := by
  have := pixelOk_iff.1 h
  omega

theorem pointsOk_iff {c : CfgRegs} {slot : Nat} {ps : List Point} :
    pointsOk c slot ps = true ↔ ∀ q ∈ ps, pixelOk c slot q.plane q.x q.y = true := by
  simp [pointsOk]

theorem pointsOk_append {c : CfgRegs} {slot : Nat} {ps qs : List Point} :
    pointsOk c slot (ps ++ qs) = true ↔ pointsOk c slot ps = true ∧ pointsOk c slot qs = true := by
  simp [pointsOk]

@[simp] theorem writePixels_nil (c : CfgRegs) (slot : Nat) (m : List Host.Cell) : writePixels c slot [] m = m := rfl

@[simp] theorem writePixels_cons (c : CfgRegs) (slot : Nat) (w : PixelWrite) (ws : List PixelWrite)
    (m : List Host.Cell) : writePixels c slot (w :: ws) m = writePixels c slot ws (writePixel c slot m w) := rfl

theorem writePixels_append (c : CfgRegs) (slot : Nat) (ws vs : List PixelWrite) (m : List Host.Cell) :
    writePixels c slot (ws ++ vs) m = writePixels c slot vs (writePixels c slot ws m) := by
  simp [writePixels, List.foldl_append]

/-- A byte at no address written reads as before. -/
theorem readByte_writePixels_other {c : CfgRegs} {slot : Nat} {ws : List PixelWrite} {a : Nat}
    (h : ∀ w ∈ ws, w.addr c slot ≠ a) (m : List Host.Cell) : readByte (writePixels c slot ws m) a = readByte m a := by
  induction ws generalizing m with
  | nil => rfl
  | cons w ws ih =>
    rw [writePixels_cons, ih fun v hv => h v (by simp [hv])]
    exact readByte_writeByte_other _ _ (h w (by simp))

/-- A byte written by one write of the list, and by no later one, holds the value of that write. -/
theorem readByte_writePixels_at {c : CfgRegs} {slot : Nat} {ws vs : List PixelWrite} {w : PixelWrite}
    (h : ∀ v ∈ vs, v.addr c slot ≠ w.addr c slot) (m : List Host.Cell) :
    readByte (writePixels c slot (ws ++ w :: vs) m) (w.addr c slot) = BitVec.ofInt 8 w.value := by
  rw [writePixels_append, writePixels_cons, readByte_writePixels_other h]
  exact readByte_writeByte_same _ _ _

/-- Where no two writes of the list have one address, each byte written holds its own write's value. -/
theorem readByte_writePixels_mem {c : CfgRegs} {slot : Nat} {ws : List PixelWrite}
    (hp : ws.Pairwise fun v w => v.addr c slot ≠ w.addr c slot) {w : PixelWrite} (hw : w ∈ ws) (m : List Host.Cell) :
    readByte (writePixels c slot ws m) (w.addr c slot) = BitVec.ofInt 8 w.value := by
  obtain ⟨as, bs, rfl⟩ := List.append_of_mem hw
  refine readByte_writePixels_at (fun v hv => ?_) m
  have := (List.pairwise_append.1 hp).2.1
  exact (List.rel_of_pairwise_cons this hv).symm

/-- Writes inside the address space keep the canonical form of memory. -/
theorem Memory.wf_writePixels {c : CfgRegs} {slot : Nat} {ws : List PixelWrite}
    (h : ∀ w ∈ ws, w.addr c slot < memSize) {m : List Host.Cell} (hm : Memory.wf m = true) :
    Memory.wf (writePixels c slot ws m) = true := by
  induction ws generalizing m with
  | nil => exact hm
  | cons w ws ih =>
    rw [writePixels_cons]
    exact ih (fun v hv => h v (by simp [hv])) (Memory.wf_writeByte _ (h w (by simp)) hm)

/-! ### Areas -/

theorem mem_areaPoints {p : Plane} {x0 y0 : Int} {n : Nat} {q : Point} (h : q ∈ areaPoints p x0 y0 n) :
    ∃ r k : Nat, r < n ∧ k < n ∧ q = { plane := p, x := x0 + (k : Int), y := y0 + (r : Int) } := by
  simp only [areaPoints, List.mem_map, List.mem_range] at h
  obtain ⟨k, hk, rfl⟩ := h
  have hn : 0 < n := by
    rcases Nat.eq_zero_or_pos n with rfl | h0
    · simp at hk
    · exact h0
  exact ⟨k / n, k % n, Nat.div_lt_of_lt_mul hk, Nat.mod_lt k hn, rfl⟩

theorem areaPoints_mem (p : Plane) (x0 y0 : Int) {n r k : Nat} (hr : r < n) (hk : k < n) :
    ({ plane := p, x := x0 + (k : Int), y := y0 + (r : Int) } : Point) ∈ areaPoints p x0 y0 n := by
  simp only [areaPoints, List.mem_map, List.mem_range]
  have hn : 0 < n := by omega
  refine ⟨n * r + k, ?_, ?_⟩
  · calc n * r + k < n * r + n := by omega
      _ = n * (r + 1) := by ring
      _ ≤ n * n := Nat.mul_le_mul_left n hr
  · rw [Nat.mul_add_mod, Nat.mod_eq_of_lt hk, Nat.mul_add_div hn, Nat.div_eq_of_lt hk, Nat.add_zero]

/-- A write of an area is the write of one of its points. -/
theorem mem_areaWrites {p : Plane} {x0 y0 : Int} {n : Nat} {b : Nat → Nat → Int} {w : PixelWrite}
    (h : w ∈ areaWrites p x0 y0 n b) :
    ∃ r k : Nat, r < n ∧ k < n ∧
      w = { at_ := { plane := p, x := x0 + (k : Int), y := y0 + (r : Int) }, value := b r k } := by
  simp only [areaWrites, List.mem_map, List.mem_range] at h
  obtain ⟨k, hk, rfl⟩ := h
  have hn : 0 < n := by
    rcases Nat.eq_zero_or_pos n with rfl | h0
    · simp at hk
    · exact h0
  exact ⟨k / n, k % n, Nat.div_lt_of_lt_mul hk, Nat.mod_lt k hn, rfl⟩

theorem areaWrites_mem (p : Plane) (x0 y0 : Int) (b : Nat → Nat → Int) {n r k : Nat} (hr : r < n) (hk : k < n) :
    ({ at_ := { plane := p, x := x0 + (k : Int), y := y0 + (r : Int) }, value := b r k } : PixelWrite) ∈
      areaWrites p x0 y0 n b := by
  simp only [areaWrites, List.mem_map, List.mem_range]
  have hn : 0 < n := by omega
  refine ⟨n * r + k, ?_, ?_⟩
  · calc n * r + k < n * r + n := by omega
      _ = n * (r + 1) := by ring
      _ ≤ n * n := Nat.mul_le_mul_left n hr
  · rw [Nat.mul_add_mod, Nat.mod_eq_of_lt hk, Nat.mul_add_div hn, Nat.div_eq_of_lt hk, Nat.add_zero]

/-- The writes of an area whose points are all in data memory are in data memory. -/
theorem areaWrites_addr_lt {c : CfgRegs} {slot n : Nat} {p : Plane} {x0 y0 : Int} {b : Nat → Nat → Int}
    (h : pointsOk c slot (areaPoints p x0 y0 n) = true) {w : PixelWrite} (hw : w ∈ areaWrites p x0 y0 n b) :
    w.addr c slot < memSize := by
  obtain ⟨r, k, hr, hk, rfl⟩ := mem_areaWrites hw
  exact pixelOk_toNat_lt (pointsOk_iff.1 h _ (areaPoints_mem p x0 y0 hr hk))

/-- In a plane whose pitch is at least the area's width, two places of the area have one address only if they are one
place. -/
theorem pixelAddr_inj_area {c : CfgRegs} {slot n : Nat} {p : Plane} (hp : n ≤ planePitch c slot p) {x0 y0 : Int}
    {r k r' k' : Nat} (hk : k < n) (hk' : k' < n)
    (h : pixelAddr c slot p (x0 + (k : Int)) (y0 + (r : Int)) = pixelAddr c slot p (x0 + (k' : Int)) (y0 + (r' : Int))) :
    r = r' ∧ k = k' := by
  simp only [pixelAddr] at h
  generalize (planePitch c slot p) = P at h hp
  have h' : P * r + k = P * r' + k' := by
    have : (P : Int) * r + k = (P : Int) * r' + k' := by linarith
    exact_mod_cast this
  have hP : 0 < P := by omega
  have h1 : (P * r + k) / P = r := by
    rw [Nat.mul_add_div hP, Nat.div_eq_of_lt (by omega), Nat.add_zero]
  have h2 : (P * r' + k') / P = r' := by
    rw [Nat.mul_add_div hP, Nat.div_eq_of_lt (by omega), Nat.add_zero]
  have : r = r' := by rw [← h1, ← h2, h']
  subst this
  exact ⟨rfl, by omega⟩

/-- Reading back an area that was just written, in a plane whose pitch is at least the area's width. -/
theorem readByte_areaWrites {c : CfgRegs} {slot n : Nat} {p : Plane} {x0 y0 : Int} {b : Nat → Nat → Int}
    (hp : n ≤ planePitch c slot p) (hok : pointsOk c slot (areaPoints p x0 y0 n) = true) {r k : Nat} (hr : r < n)
    (hk : k < n) (m : List Host.Cell) :
    readByte (writePixels c slot (areaWrites p x0 y0 n b) m)
      (pixelAddr c slot p (x0 + (k : Int)) (y0 + (r : Int))).toNat = BitVec.ofInt 8 (b r k) := by
  refine readByte_writePixels_mem (w := ⟨⟨p, x0 + (k : Int), y0 + (r : Int)⟩, b r k⟩) ?_
    (areaWrites_mem p x0 y0 b hr hk) m
  have hn : 0 < n := by omega
  simp only [areaWrites, List.pairwise_map]
  refine (List.pairwise_lt_range).imp_of_mem ?_
  intro i j hi hj hij heq
  simp only [List.mem_range] at hi hj
  simp only [PixelWrite.addr] at heq
  have e1 := pixelOk_iff.1 (pointsOk_iff.1 hok _ (areaPoints_mem p x0 y0 (Nat.div_lt_of_lt_mul hi) (Nat.mod_lt i hn)))
  have e2 := pixelOk_iff.1 (pointsOk_iff.1 hok _ (areaPoints_mem p x0 y0 (Nat.div_lt_of_lt_mul hj) (Nat.mod_lt j hn)))
  simp only at e1 e2
  have he : pixelAddr c slot p (x0 + ((i % n : Nat) : Int)) (y0 + ((i / n : Nat) : Int)) =
      pixelAddr c slot p (x0 + ((j % n : Nat) : Int)) (y0 + ((j / n : Nat) : Int)) := by omega
  obtain ⟨h1, h2⟩ := pixelAddr_inj_area hp (Nat.mod_lt i hn) (Nat.mod_lt j hn) he
  have h3 := Nat.div_add_mod i n
  have h4 := Nat.div_add_mod j n
  rw [h1, h2, h4] at h3
  omega

end Sys2Proof.Machine
end

