-- ==== Sys2Proof/Laws/Detok.lean ====
section
/-! SUPPORT. The laws of the detokenizer (41_detokenizer.md): what decoding tokens, blocks and a macroblock keeps of the
context, the bounds of magnitudes, of eob and of EOBTOTAL (R233, R235, R245), the values COEF takes (R244), and when a
decode reads only written entries (R247). -/

namespace Sys2Proof.Machine

/-- What a sequence of `bool_decode` at probabilities 0..255 keeps of a context. -/
structure Decoded (c d : BoolCtx) : Prop where
  same : SamePartition c d
  range : 128 ≤ c.range.toNat → 128 ≤ d.range.toNat

theorem Decoded.refl (c : BoolCtx) : Decoded c c := ⟨SamePartition.refl c, id⟩

theorem Decoded.trans {c d e : BoolCtx} (h : Decoded c d) (h' : Decoded d e) : Decoded c e :=
  ⟨h.same.trans h'.same, fun hr => h'.range (h.range hr)⟩

theorem boolDecode_decoded (m : List Host.Cell) {p : Nat} (hp : p ≤ 255) (c : BoolCtx) :
    Decoded c (boolDecode m p c).2 :=
  ⟨boolDecode_keeps m p c, boolDecode_range m hp⟩

theorem Decoded.ok {c d : BoolCtx} (h : Decoded c d) (hv : c.valid = true) (hc : c.Ok) : d.Ok ∧ d.valid = true :=
  ⟨hc.of_samePartition h.same fun _ => h.range (hc.range hv), h.same.valid.trans hv⟩

/-! ### Tokens -/

/-- A probability that is unwritten or a byte. -/
def ByteProb (p : Option Nat) : Prop := ∀ v, p = some v → v ≤ 255

theorem probEntry_byte (prob : Cells Byte) (t band ctx k : Nat) : ByteProb (probEntry prob t band ctx k) := by
  intro v h
  simp only [probEntry, Option.map_eq_some_iff] at h
  obtain ⟨b, -, rfl⟩ := h
  omega

theorem decodeAt_decoded {m : List Host.Cell} {p : Option Nat} (hp : ByteProb p) {c : BoolCtx} {r : Bool × BoolCtx}
    (h : decodeAt m p c = some r) : Decoded c r.2 := by
  simp only [decodeAt, Option.map_eq_some_iff] at h
  obtain ⟨q, hq, rfl⟩ := h
  exact boolDecode_decoded m (hp q hq) c

theorem decodeAt_isSome {m : List Host.Cell} {p : Option Nat} {c : BoolCtx} :
    (decodeAt m p c).isSome = p.isSome := by simp [decodeAt]

theorem flagNat_le (b : Bool) : flagNat b ≤ 1 := by cases b <;> simp [flagNat]

/-- The extra bits as a fold over their probabilities: each bit doubles what was read and adds itself (R233). -/
theorem extraBits_eq_foldl (m : List Host.Cell) (qs : List Byte) (e : Nat) (c : BoolCtx) :
    extraBits m (qs.map BitVec.toNat) e c =
      qs.foldl (fun (a : Nat × BoolCtx) q =>
        let d := boolDecode m q.toNat a.2
        (2 * a.1 + (if d.1 then 1 else 0), d.2)) (e, c) := by
  induction qs generalizing e c with
  | nil => rfl
  | cons q qs ih =>
    simp only [List.map_cons, extraBits, List.foldl_cons, ih]
    congr 2
    cases (boolDecode m q.toNat c).1 <;> rfl

theorem extraBits_spec (m : List Host.Cell) {qs : List Nat} (hq : ∀ q ∈ qs, q ≤ 255) (e : Nat) (c : BoolCtx) :
    Decoded c (extraBits m qs e c).2 ∧ (extraBits m qs e c).1 < (e + 1) * 2 ^ qs.length := by
  induction qs generalizing e c with
  | nil => exact ⟨Decoded.refl c, by simp [extraBits]⟩
  | cons q qs ih =>
    obtain ⟨h1, h2⟩ := ih (fun q' h => hq q' (by simp [h])) (2 * e + flagNat (boolDecode m q c).1) (boolDecode m q c).2
    simp only [extraBits]
    refine ⟨(boolDecode_decoded m (hq q (by simp)) c).trans h1, lt_of_lt_of_le h2 ?_⟩
    have := flagNat_le (boolDecode m q c).1
    calc (2 * e + flagNat (boolDecode m q c).1 + 1) * 2 ^ qs.length ≤ (2 * (e + 1)) * 2 ^ qs.length :=
          Nat.mul_le_mul_right _ (by omega)
      _ = (e + 1) * 2 ^ (q :: qs).length := by rw [List.length_cons]; ring

theorem catProbs_byte (T : Config.Tables) (k : Nat) : ∀ q ∈ catProbs T k, q ≤ 255 := by
  intro q hq
  obtain ⟨b, -, rfl⟩ := List.mem_map.1 hq
  omega

/-- With the default tables the values of every category run up to at most 2114 (R232). -/
theorem category_facts : ∀ k, k < 6 → 1 ≤ catBaseOf romTables k ∧
    catBaseOf romTables k + 2 ^ (catProbs romTables k).length ≤ 2115 := by decide

theorem categoryValue_spec (T : Config.Tables) (m : List Host.Cell) {k : Nat} (hk : k < 6) (c : BoolCtx) :
    Decoded c (categoryValue T m k c).2 ∧
      (T = romTables → 1 ≤ (categoryValue T m k c).1 ∧ (categoryValue T m k c).1 ≤ 2114) := by
  obtain ⟨h4, h5⟩ := extraBits_spec m (catProbs_byte T k) 0 c
  simp only [categoryValue]
  refine ⟨h4, ?_⟩
  rintro rfl
  obtain ⟨h2, h3⟩ := category_facts k hk
  omega

/-- R233: reading a magnitude keeps the context in order, and with the default tables it is 1..2114. -/
theorem decodeMagnitude_spec {T : Config.Tables} {m : List Host.Cell} {p : Nat → Option Nat} (hp : ∀ k, ByteProb (p k))
    {c : BoolCtx} {r : Nat × BoolCtx} (h : decodeMagnitude T m p c = some r) :
    Decoded c r.2 ∧ (T = romTables → 1 ≤ r.1 ∧ r.1 ≤ 2114) := by
  simp only [decodeMagnitude, Option.bind_eq_some_iff] at h
  obtain ⟨r2, h2, h⟩ := h
  have d2 := decodeAt_decoded (hp 2) h2
  split at h
  · obtain rfl := Option.some.inj h
    exact ⟨d2, fun _ => by omega⟩
  obtain ⟨r3, h3, h⟩ := Option.bind_eq_some_iff.1 h
  have d3 := d2.trans (decodeAt_decoded (hp 3) h3)
  split at h
  · obtain ⟨r4, h4, h⟩ := Option.bind_eq_some_iff.1 h
    have d4 := d3.trans (decodeAt_decoded (hp 4) h4)
    split at h
    · obtain rfl := Option.some.inj h
      exact ⟨d4, fun _ => by omega⟩
    · obtain ⟨r5, h5, h⟩ := Option.bind_eq_some_iff.1 h
      obtain rfl := Option.some.inj h
      have := flagNat_le r5.1
      exact ⟨d4.trans (decodeAt_decoded (hp 5) h5), fun _ => by simp only; omega⟩
  · obtain ⟨r6, h6, h⟩ := Option.bind_eq_some_iff.1 h
    have d6 := d3.trans (decodeAt_decoded (hp 6) h6)
    split at h
    · obtain ⟨r7, h7, h⟩ := Option.bind_eq_some_iff.1 h
      obtain rfl := Option.some.inj h
      have hf := flagNat_le r7.1
      have hc := categoryValue_spec T m (k := flagNat r7.1) (by omega) r7.2
      exact ⟨(d6.trans (decodeAt_decoded (hp 7) h7)).trans hc.1, hc.2⟩
    · obtain ⟨r8, h8, h⟩ := Option.bind_eq_some_iff.1 h
      obtain ⟨r9, h9, h⟩ := Option.bind_eq_some_iff.1 h
      obtain rfl := Option.some.inj h
      have hf := flagNat_le r8.1
      have hg := flagNat_le r9.1
      have hc := categoryValue_spec T m (k := 2 + 2 * flagNat r8.1 + flagNat r9.1) (by omega) r9.2
      exact ⟨((d6.trans (decodeAt_decoded (hp 8) h8)).trans (decodeAt_decoded (hp _) h9)).trans hc.1, hc.2⟩

/-- A magnitude is read whenever its probability row is written. -/
theorem decodeMagnitude_isSome (T : Config.Tables) (m : List Host.Cell) {p : Nat → Option Nat}
    (hp : ∀ k, k < 11 → (p k).isSome = true) (c : BoolCtx) : (decodeMagnitude T m p c).isSome = true := by
  have hd : ∀ k, k < 11 → ∀ c, ∃ r, decodeAt m (p k) c = some r := fun k hk c =>
    Option.isSome_iff_exists.1 (decodeAt_isSome.trans (hp k hk))
  unfold decodeMagnitude
  obtain ⟨r2, h2⟩ := hd 2 (by omega) c
  rw [h2, Option.bind_some]
  split
  · rfl
  obtain ⟨r3, h3⟩ := hd 3 (by omega) r2.2
  rw [h3, Option.bind_some]
  split
  · obtain ⟨r4, h4⟩ := hd 4 (by omega) r3.2
    rw [h4, Option.bind_some]
    split
    · rfl
    · obtain ⟨r5, h5⟩ := hd 5 (by omega) r4.2
      rw [h5]
      rfl
  · obtain ⟨r6, h6⟩ := hd 6 (by omega) r3.2
    rw [h6, Option.bind_some]
    split
    · obtain ⟨r7, h7⟩ := hd 7 (by omega) r6.2
      rw [h7]
      rfl
    · obtain ⟨r8, h8⟩ := hd 8 (by omega) r6.2
      rw [h8, Option.bind_some]
      have := flagNat_le r8.1
      obtain ⟨r9, h9⟩ := hd (9 + flagNat r8.1) (by omega) r8.2
      rw [h9]
      rfl

/-! ### One block -/

theorem scanIndex_le (T : Config.Tables) (n : Nat) : scanIndex T n ≤ 15 := Nat.le_of_lt_succ (Fin.isLt _)

theorem scanBand_le (T : Config.Tables) (n : Nat) : scanBand T n ≤ 7 := Nat.le_of_lt_succ (Fin.isLt _)

/-- With the default tables the DC is scan position 0's alone. -/
theorem scanIndex_pos : ∀ n, n < 16 → 1 ≤ n → 1 ≤ scanIndex romTables n := by decide

/-- What decoding block `b` may do to COEF: with the default tables every entry is the old one or lies in -2114..2114, and
an entry outside the scan positions from `n` on is the old one. -/
structure CoefStep (T : Config.Tables) (b n : Nat) (c d : Cells (BitVec 16)) : Prop where
  wf : Cells.wf 400 c = true → Cells.wf 400 d = true
  other : ∀ j, (∀ k, n ≤ k → k < 16 → j ≠ 16 * b + scanIndex T k) → Cells.get d j = Cells.get c j
  value : T = romTables → ∀ j v, Cells.get d j = some v → Cells.get c j = some v ∨ (-2114 ≤ v.toInt ∧ v.toInt ≤ 2114)
  written : ∀ j, (Cells.get c j).isSome = true → (Cells.get d j).isSome = true

theorem CoefStep.refl (T : Config.Tables) (b n : Nat) (c : Cells (BitVec 16)) : CoefStep T b n c c :=
  ⟨id, fun _ _ => rfl, fun _ _ _ h => .inl h, fun _ h => h⟩

theorem CoefStep.later {T : Config.Tables} {b n : Nat} {c d : Cells (BitVec 16)} (h : CoefStep T b (n + 1) c d) :
    CoefStep T b n c d :=
  ⟨h.wf, fun j hj => h.other j fun k hk => hj k (by omega), h.value, h.written⟩

theorem CoefStep.after_set {T : Config.Tables} {b n : Nat} {c d : Cells (BitVec 16)} {x : Int} (hb : b < 25) (hn : n < 16)
    (hx : T = romTables → -2114 ≤ x ∧ x ≤ 2114)
    (h : CoefStep T b (n + 1) (Cells.set c (16 * b + scanIndex T n) (BitVec.ofInt 16 x)) d) :
    CoefStep T b n c d := by
  have hz := scanIndex_le T n
  refine ⟨fun hc => h.wf (Cells.wf_set _ (by omega) hc), fun j hj => ?_, fun hT j v hv => ?_, fun j hj => h.written j ?_⟩
  · rw [h.other j fun k hk hk2 => hj k (by omega) hk2]
    exact Cells.get_set_other _ _ (hj n le_rfl hn).symm
  · have hx := hx hT
    rcases h.value hT j v hv with h1 | h1
    · by_cases he : 16 * b + scanIndex T n = j
      · subst he
        rw [Cells.get_set_same] at h1
        obtain rfl := Option.some.inj h1
        right
        have : (BitVec.ofInt 16 x).toInt = x := by
          rw [BitVec.toInt_ofInt, Int.bmod_def]
          split <;> omega
        omega
      · rw [Cells.get_set_other _ _ he] at h1
        exact .inl h1
    · exact .inr h1
  · by_cases he : 16 * b + scanIndex T n = j
    · subst he
      simp
    · rw [Cells.get_set_other _ _ he]
      exact hj

/-- R235, R244: the loop ends at a scan position from `n` to `n + left`, keeps the context in order, and touches COEF
only as `CoefStep` says. -/
theorem blockLoop_spec {T : Config.Tables} {m : List Host.Cell} {prob : Cells Byte} {t b : Nat} (hb : b < 25) :
    ∀ {left n ctx : Nat} {az : Bool} {c : BoolCtx} {coef : Cells (BitVec 16)} {r : BlockResult},
      n + left = 16 → blockLoop T m prob t b left n ctx az c coef = some r →
      n ≤ r.eob ∧ r.eob ≤ 16 ∧ Decoded c r.ctx ∧ CoefStep T b n coef r.coef := by
  intro left
  induction left with
  | zero =>
    intro n ctx az c coef r hn h
    simp only [blockLoop, Option.some.injEq] at h
    subst h
    exact ⟨le_rfl, by simp only; omega, Decoded.refl c, CoefStep.refl T b n coef⟩
  | succ left ih =>
    intro n ctx az c coef r hn h
    have hp := probEntry_byte prob t (scanBand T n) ctx
    simp only [blockLoop, Option.bind_eq_some_iff] at h
    obtain ⟨r0, h0, h⟩ := h
    have d0 : Decoded c r0.2 := by
      split at h0
      · obtain rfl := Option.some.inj h0
        exact Decoded.refl c
      · exact decodeAt_decoded (hp 0) h0
    split at h
    · obtain rfl := Option.some.inj h
      exact ⟨le_rfl, by simp only; omega, d0, CoefStep.refl T b n coef⟩
    obtain ⟨r1, h1, h⟩ := Option.bind_eq_some_iff.1 h
    have d1 := d0.trans (decodeAt_decoded (hp 1) h1)
    split at h
    · obtain ⟨e1, e2, e3, e4⟩ := ih (by omega) h
      exact ⟨by omega, e2, d1.trans e3, e4.later⟩
    · obtain ⟨v, hv, h⟩ := Option.bind_eq_some_iff.1 h
      obtain ⟨dv, hv1⟩ := decodeMagnitude_spec hp hv
      obtain ⟨e1, e2, e3, e4⟩ := ih (by omega) h
      refine ⟨by omega, e2, ((d1.trans dv).trans (boolDecode_decoded m (by omega) v.2)).trans e3,
        e4.after_set hb (by omega) fun hT => ?_⟩
      have := hv1 hT
      split <;> omega

/-- A block is decoded whenever the probability rows of its type are written. -/
theorem blockLoop_isSome (T : Config.Tables) (m : List Host.Cell) {prob : Cells Byte} {t b : Nat}
    (hp : ∀ band ctx k, band < 8 → ctx < 3 → k < 11 → (probEntry prob t band ctx k).isSome = true) :
    ∀ {left n ctx : Nat} {az : Bool} {c : BoolCtx} {coef : Cells (BitVec 16)}, n + left = 16 → ctx < 3 →
      (blockLoop T m prob t b left n ctx az c coef).isSome = true := by
  intro left
  induction left with
  | zero =>
    intro n ctx az c coef _ _
    rfl
  | succ left ih =>
    intro n ctx az c coef hn hc
    have hband := scanBand_le T n
    have hd : ∀ k, k < 11 → ∀ c, ∃ r, decodeAt m (probEntry prob t (scanBand T n) ctx k) c = some r :=
      fun k hk c => Option.isSome_iff_exists.1 (decodeAt_isSome.trans (hp _ _ k (by omega) hc hk))
    simp only [blockLoop]
    obtain ⟨r0, h0⟩ : ∃ r0, (if az = true then some (true, c)
        else decodeAt m (probEntry prob t (scanBand T n) ctx 0) c) = some r0 := by
      split
      · exact ⟨_, rfl⟩
      · exact hd 0 (by omega) c
    rw [h0, Option.bind_some]
    split
    · rfl
    obtain ⟨r1, h1⟩ := hd 1 (by omega) r0.2
    rw [h1, Option.bind_some]
    split
    · exact ih (by omega) (by omega)
    obtain ⟨v, hv⟩ := Option.isSome_iff_exists.1 (decodeMagnitude_isSome T m
      (fun k hk => hp (scanBand T n) ctx k (by omega) hc hk) r1.2)
    rw [hv, Option.bind_some]
    refine ih (by omega) ?_
    split <;> omega

theorem decodeBlock_spec {T : Config.Tables} {m : List Host.Cell} {prob : Cells Byte} {t b first ctx0 : Nat} {c : BoolCtx}
    {coef : Cells (BitVec 16)} {r : BlockResult} (hb : b < 25) (hf : first ≤ 16)
    (h : decodeBlock T m prob t b first ctx0 c coef = some r) :
    first ≤ r.eob ∧ r.eob ≤ 16 ∧ Decoded c r.ctx ∧ CoefStep T b first coef r.coef :=
  blockLoop_spec hb (by omega) h

/-! ### The blocks of a macroblock -/

/-- What is so of every block that DETOK_MB decodes (R231, R239). -/
theorem blockJobs_facts : ∀ y2 : Bool, ∀ j ∈ blockJobs y2,
    j.block < 25 ∧ j.type < 4 ∧ j.first ≤ 1 ∧ j.aboveFlag < 9 ∧ j.leftFlag < 9 := by decide

theorem blockJobs_room : ∀ y2 : Bool, ((blockJobs y2).map fun j => 16 - j.first).sum = 384 := by decide

/-- What one block leaves (R239, R241). -/
theorem runJob_spec {T : Config.Tables} {m : List Host.Cell} {prob : Cells Byte} {j : BlockJob} {a a' : DetokAcc}
    (hb : j.block < 25) (hf : j.first ≤ 1) (h : runJob T m prob j a = some a') :
    ∃ e, j.first ≤ e ∧ e ≤ 16 ∧ a'.total = a.total + (e - j.first) ∧ a'.eob = Cells.set a.eob j.block (BitVec.ofNat 5 e) ∧
      a'.above = nzSet a.above j.aboveFlag (decide (j.first < e)) ∧
      a'.left = nzSet a.left j.leftFlag (decide (j.first < e)) ∧
      Decoded a.ctx a'.ctx ∧ CoefStep T j.block j.first a.coef a'.coef := by
  simp only [runJob, Option.bind_eq_some_iff, Option.some.injEq] at h
  obtain ⟨fa, -, fl, -, r, hr, rfl⟩ := h
  obtain ⟨h1, h2, h3, h4⟩ := decodeBlock_spec hb (by omega) hr
  exact ⟨r.eob, h1, h2, rfl, rfl, rfl, rfl, h3, h4⟩

/-- What the blocks of a list leave: the context in order, canonical RAMs, eobs of at most 16, with the default tables
coefficients in -2114..2114, and a total bounded by the room of the blocks (R244, R245). -/
structure JobsStep (T : Config.Tables) (room : Nat) (a a' : DetokAcc) : Prop where
  ctx : Decoded a.ctx a'.ctx
  total : a'.total ≤ a.total + room
  coef_wf : Cells.wf 400 a.coef = true → Cells.wf 400 a'.coef = true
  coef_value : T = romTables → ∀ j v, Cells.get a'.coef j = some v →
    Cells.get a.coef j = some v ∨ (-2114 ≤ v.toInt ∧ v.toInt ≤ 2114)
  coef_written : ∀ j, (Cells.get a.coef j).isSome = true → (Cells.get a'.coef j).isSome = true
  eob_wf : Cells.wf 25 a.eob = true → Cells.wf 25 a'.eob = true
  eob_le : (∀ e ∈ a.eob, e.2.toNat ≤ 16) → ∀ e ∈ a'.eob, e.2.toNat ≤ 16
  eob_written : ∀ j, (Cells.get a.eob j).isSome = true → (Cells.get a'.eob j).isSome = true

theorem runJobs_spec {T : Config.Tables} {m : List Host.Cell} {prob : Cells Byte} : ∀ {js : List BlockJob} {a a' : DetokAcc},
    (∀ j ∈ js, j.block < 25 ∧ j.first ≤ 1) → runJobs T m prob js a = some a' →
    JobsStep T (js.map fun j => 16 - j.first).sum a a' := by
  intro js
  induction js with
  | nil =>
    intro a a' _ h
    obtain rfl := Option.some.inj h
    exact ⟨Decoded.refl _, by simp, id, fun _ _ _ h => .inl h, fun _ h => h, id, id, fun _ h => h⟩
  | cons j js ih =>
    intro a a' hj h
    obtain ⟨a1, h1, h2⟩ := Option.bind_eq_some_iff.1 h
    have hj0 := hj j (by simp)
    obtain ⟨e, e1, e2, e3, e4, -, -, e5, e6⟩ := runJob_spec hj0.1 hj0.2 h1
    have k := ih (fun i hi => hj i (by simp [hi])) h2
    refine ⟨e5.trans k.ctx, ?_, fun hc => k.coef_wf (e6.wf hc), fun hT i v hv => ?_, fun i hi => k.coef_written i (e6.written i hi),
      fun he => k.eob_wf (e4 ▸ Cells.wf_set _ hj0.1 he), fun he => k.eob_le ?_, fun i hi => k.eob_written i ?_⟩
    · have := k.total
      simp only [List.map_cons, List.sum_cons]
      omega
    · rcases k.coef_value hT i v hv with h3 | h3
      · exact e6.value hT i v h3
      · exact .inr h3
    · intro x hx
      rw [e4] at hx
      rcases Cells.mem_set hx with rfl | hx
      · simp only [BitVec.toNat_ofNat]
        omega
      · exact he x hx
    · rw [e4]
      by_cases hjb : j.block = i
      · rw [← hjb]
        simp
      · rw [Cells.get_set_other _ _ hjb]
        exact hi

/-- The blocks of a list as a fold, each from a job that `f` gives it. -/
theorem runJobs_map_eq_foldlM {β : Type} (T : Config.Tables) (m : List Host.Cell) (prob : Cells Byte) (f : β → BlockJob)
    (bs : List β) (a : DetokAcc) :
    runJobs T m prob (bs.map f) a = bs.foldlM (fun a b => runJob T m prob (f b) a) a := by
  induction bs generalizing a with
  | nil => rfl
  | cons b bs ih =>
    simp only [List.map_cons, runJobs, List.foldlM_cons, ih]
    rfl

/-! ### The token tree as nodes (R213, R232) -/

/-- A node of the tree: one bit, and the leaf or the child it selects. -/
theorem treeWalk_node (m : List Host.Cell) (p : Nat → Option Nat) {tree : List (Token ⊕ Nat)} {fuel i : Nat}
    {x y : Token ⊕ Nat} (hx : tree[i]? = some x) (hy : tree[i + 1]? = some y) (c : BoolCtx) :
    treeWalk tree m p (fuel + 1) i c =
      (p (i / 2)).bind fun q =>
        match if (boolDecode m q c).1 then y else x with
        | .inl t => some (t, (boolDecode m q c).2)
        | .inr k => treeWalk tree m p fuel k (boolDecode m q c).2 := by
  simp only [treeWalk, decodeAt]
  cases p (i / 2) with
  | none => rfl
  | some q =>
    simp only [Option.map_some, Option.bind_some]
    cases (boolDecode m q c).1
    · simp only [flagNat, Bool.toNat_false, Nat.add_zero, hx, Bool.false_eq_true, if_false]
      cases x <;> rfl
    · simp only [flagNat, Bool.toNat_true, hy, if_true]
      cases y <;> rfl

/-! ### When every entry read is written (R247) -/

theorem nzGet_nzSet_isSome {r : NzRow} {k i : Nat} {b : Bool} (h : (nzGet r i).isSome = true) :
    (nzGet (nzSet r k b) i).isSome = true := by
  simp only [nzGet, nzSet, fileGet, fileSet] at *
  by_cases hi : i < 9
  · by_cases hk : k = i
    · subst hk
      simp [hi]
    · simp [hk, h]
  · simp [hi] at h

/-- A list of blocks is decoded whenever PROB and the flags it reads are written. -/
theorem runJobs_isSome (T : Config.Tables) (m : List Host.Cell) {prob : Cells Byte}
    (hp : ∀ t band ctx k, t < 4 → band < 8 → ctx < 3 → k < 11 → (probEntry prob t band ctx k).isSome = true) :
    ∀ {js : List BlockJob} {a : DetokAcc},
      (∀ j ∈ js, j.type < 4 ∧ j.first ≤ 1 ∧ (nzGet a.above j.aboveFlag).isSome = true ∧
        (nzGet a.left j.leftFlag).isSome = true) →
      (runJobs T m prob js a).isSome = true := by
  intro js
  induction js with
  | nil =>
    intro a _
    rfl
  | cons j js ih =>
    intro a h
    obtain ⟨ht, hf, ha, hl⟩ := h j (by simp)
    obtain ⟨fa, hfa⟩ := Option.isSome_iff_exists.1 ha
    obtain ⟨fl, hfl⟩ := Option.isSome_iff_exists.1 hl
    have h1 := flagNat_le fa
    have h2 := flagNat_le fl
    obtain ⟨r, hr⟩ := Option.isSome_iff_exists.1 (blockLoop_isSome (t := j.type) (b := j.block) T m
      (fun band ctx k hb hc hk => hp j.type band ctx k ht hb hc hk) (left := 16 - j.first) (n := j.first)
      (ctx := flagNat fa + flagNat fl) (az := false) (c := a.ctx) (coef := a.coef) (by omega) (by omega))
    simp only [runJobs, runJob, decodeBlock, hfa, hfl, hr, Option.bind_some]
    refine ih fun i hi => ?_
    obtain ⟨h3, h4, h5, h6⟩ := h i (by simp [hi])
    exact ⟨h3, h4, nzGet_nzSet_isSome h5, nzGet_nzSet_isSome h6⟩

/-! ### The RAMs as DETOK_MB starts them (R238) -/

theorem coefZero_wf : Cells.wf 400 coefZero = true := Cells.wf_fill _ _

theorem eobZero_wf : Cells.wf 25 eobZero = true := Cells.wf_fill _ _

theorem eobZero_le : ∀ e ∈ eobZero, e.2.toNat ≤ 16 := by
  intro e he
  rw [(Cells.mem_fill.1 he).2]
  decide

end Sys2Proof.Machine
end

