-- ==== Sys2Proof/Laws/Pixels.lean ====
section
/-! SUPPORT. The laws of the commands that write pixels (43_transform.md, 44_intra.md, 45_inter.md, 46_loopfilter.md): each
changes data memory only, and only at the pixels it names; and when each completes. -/

namespace Sys2Proof.Machine

/-- What a list of points' pixels may do to memory: bytes elsewhere keep their value, and the canonical form is kept. -/
structure WritesAt (c : CfgRegs) (slot : Nat) (ps : List Point) (m m' : List Host.Cell) : Prop where
  other : ∀ a, (∀ q ∈ ps, (pixelAddr c slot q.plane q.x q.y).toNat ≠ a) → readByte m' a = readByte m a
  wf : pointsOk c slot ps = true → Memory.wf m = true → Memory.wf m' = true

theorem WritesAt.refl (c : CfgRegs) (slot : Nat) (ps : List Point) (m : List Host.Cell) : WritesAt c slot ps m m :=
  ⟨fun _ _ => rfl, fun _ h => h⟩

theorem WritesAt.trans {c : CfgRegs} {slot : Nat} {ps : List Point} {m m' m'' : List Host.Cell}
    (h : WritesAt c slot ps m m') (h' : WritesAt c slot ps m' m'') : WritesAt c slot ps m m'' :=
  ⟨fun a ha => (h'.other a ha).trans (h.other a ha), fun hp hm => h'.wf hp (h.wf hp hm)⟩

theorem WritesAt.mono {c : CfgRegs} {slot : Nat} {ps qs : List Point} {m m' : List Host.Cell}
    (h : WritesAt c slot ps m m') (hs : ∀ q ∈ ps, q ∈ qs) : WritesAt c slot qs m m' :=
  ⟨fun a ha => h.other a fun q hq => ha q (hs q hq),
    fun hp hm => h.wf (pointsOk_iff.2 fun q hq => pointsOk_iff.1 hp q (hs q hq)) hm⟩

/-- A list of pixel writes whose places are among `ps`. -/
theorem writePixels_at {c : CfgRegs} {slot : Nat} {ps : List Point} {ws : List PixelWrite} (h : ∀ w ∈ ws, w.at_ ∈ ps)
    (m : List Host.Cell) : WritesAt c slot ps m (writePixels c slot ws m) :=
  ⟨fun _ ha => readByte_writePixels_other (fun w hw => ha w.at_ (h w hw)) m,
    fun hp hm => Memory.wf_writePixels (fun w hw => pixelOk_toNat_lt (pointsOk_iff.1 hp _ (h w hw))) hm⟩

theorem areaWrites_at {p : Plane} {x0 y0 : Int} {n : Nat} {b : Nat → Nat → Int} :
    ∀ w ∈ areaWrites p x0 y0 n b, w.at_ ∈ areaPoints p x0 y0 n := by
  intro w hw
  obtain ⟨r, k, hr, hk, rfl⟩ := mem_areaWrites hw
  exact areaPoints_mem p x0 y0 hr hk

/-! ### IDCT_ADD and RECON_MB (43_transform.md R306, R310) -/

@[simp] theorem addBlock_cfg (b : Nat) (s : State) : (addBlock b s).cfg = s.cfg := by
  simp only [addBlock, State.orWide_cfg, State.setMem_cfg]

@[simp] theorem addBlock_ram (b : Nat) (s : State) : (addBlock b s).ram = s.ram := by
  simp only [addBlock, State.orWide_ram, State.setMem_ram]

theorem addBlock_mem (b : Nat) (s : State) : (addBlock b s).mem =
    writePixels s.cfg s.cfg.cur (addResidual s.cfg s.mem b (idct (dqBlock s.ram b))) s.mem := by
  simp only [addBlock, State.orWide_mem, State.setMem_mem]

theorem addResidual_at {c : CfgRegs} {m : List Host.Cell} {b : Nat} {res : Nat → Int} :
    ∀ w ∈ addResidual c m b res, w.at_ ∈ blockPoints c b := by
  unfold addResidual blockPoints
  exact areaWrites_at

theorem addBlock_writesAt (b : Nat) (s : State) :
    WritesAt s.cfg s.cfg.cur (blockPoints s.cfg b) s.mem (addBlock b s).mem := by
  rw [addBlock_mem]
  exact writePixels_at addResidual_at s.mem

/-- Adding the residual of a block changes memory and WIDE16 only. -/
theorem addBlock_frame (b : Nat) (s : State) :
    addBlock b s = (s.setMem (addBlock b s).mem).orWide (idctWide (dqBlock s.ram b)) := by
  simp only [addBlock, State.orWide_mem, State.setMem_mem]

/-- What the blocks of a list leave (R306, R307, R310). -/
theorem addBlocks_next {bs : List Nat} {s t : State} (h : addBlocks bs s = .next t) :
    (∃ w, t = (s.setMem t.mem).orWide w) ∧
      WritesAt s.cfg s.cfg.cur (bs.flatMap (blockPoints s.cfg)) s.mem t.mem ∧
      pointsOk s.cfg s.cfg.cur (bs.flatMap (blockPoints s.cfg)) = true := by
  induction bs generalizing s with
  | nil =>
    obtain rfl : s = t := by simpa [addBlocks] using h
    exact ⟨⟨false, by simp⟩, WritesAt.refl _ _ _ _, rfl⟩
  | cons b bs ih =>
    simp only [addBlocks] at h
    split at h
    · simp at h
    split at h
    · simp at h
    rename_i hok
    obtain ⟨⟨w, hw⟩, ha, hp⟩ := ih h
    rw [addBlock_cfg] at ha hp
    rw [Bool.not_eq_true, Bool.not_eq_false] at hok
    refine ⟨⟨idctWide (dqBlock s.ram b) || w, ?_⟩, ?_, ?_⟩
    · rw [addBlock_frame b s] at hw
      generalize (addBlock b s).mem = m1 at hw
      rw [hw]
      simp only [State.setMem_orWide, State.setMem_setMem, State.orWide_orWide, State.orWide_mem, State.setMem_mem]
    · refine ((addBlock_writesAt b s).mono fun q hq => ?_).trans (ha.mono fun q hq => ?_)
      · exact List.mem_flatMap.2 ⟨b, by simp, hq⟩
      · obtain ⟨k, hk, hq⟩ := List.mem_flatMap.1 hq
        exact List.mem_flatMap.2 ⟨k, by simp [hk], hq⟩
    · rw [List.flatMap_cons, pointsOk_append]
      exact ⟨hok, hp⟩

/-- The blocks of a list are added whenever their DQ entries are written and their pixels are in data memory. -/
theorem addBlocks_complete {bs : List Nat} {s : State} (hd : ∀ b ∈ bs, dqWritten s.ram b = true)
    (hp : ∀ b ∈ bs, pointsOk s.cfg s.cfg.cur (blockPoints s.cfg b) = true) :
    addBlocks bs s = .next (bs.foldl (fun t b => addBlock b t) s) := by
  induction bs generalizing s with
  | nil => rfl
  | cons b bs ih =>
    simp only [addBlocks, hd b (by simp), hp b (by simp), List.foldl_cons]
    refine ih (fun k hk => ?_) fun k hk => ?_
    · rw [addBlock_ram]
      exact hd k (by simp [hk])
    · rw [addBlock_cfg]
      exact hp k (by simp [hk])

/-! ### Intra prediction (44_intra.md R334) -/

theorem predictPlanes_next {ps : List Plane} {md : IntraMode} {s t : State} (h : predictPlanes ps md s = .next t) :
    t = s.setMem t.mem ∧ WritesAt s.cfg s.cfg.cur (ps.flatMap (mbPoints s.cfg)) s.mem t.mem ∧
      pointsOk s.cfg s.cfg.cur (ps.flatMap (mbPoints s.cfg)) = true := by
  simp only [predictPlanes] at h
  split at h
  · rename_i hok
    rw [Host.Outcome.next.injEq] at h
    subst h
    simp only [State.setMem_mem, true_and]
    refine ⟨writePixels_at (fun w hw => ?_) s.mem, ?_⟩
    · obtain ⟨p, hp, hw⟩ := List.mem_flatMap.1 hw
      exact List.mem_flatMap.2 ⟨p, hp, areaWrites_at w hw⟩
    · refine pointsOk_iff.2 fun q hq => pointsOk_iff.1 hok q ?_
      obtain ⟨p, hp, hq⟩ := List.mem_flatMap.1 hq
      exact List.mem_flatMap.2 ⟨p, hp, List.mem_append.2 (.inr hq)⟩
  · simp at h

theorem predictSub_next {b : Nat} {md : SubMode} {s t : State} (h : predictSub b md s = .next t) :
    t = s.setMem t.mem ∧ WritesAt s.cfg s.cfg.cur (areaPoints .y (blockX s.cfg b) (blockY s.cfg b) 4) s.mem t.mem ∧
      pointsOk s.cfg s.cfg.cur (areaPoints .y (blockX s.cfg b) (blockY s.cfg b) 4) = true := by
  simp only [predictSub] at h
  split at h
  · rename_i hok
    rw [Host.Outcome.next.injEq] at h
    subst h
    simp only [State.setMem_mem, true_and]
    exact ⟨writePixels_at areaWrites_at s.mem, (pointsOk_append.1 hok).2⟩
  · simp at h

/-! ### Inter prediction (45_inter.md R395) -/

theorem interWrites_at {T : Config.Tables} {c : CfgRegs} {m : List Host.Cell} {sr : Nat} {split clamp : Bool} :
    ∀ w ∈ [Plane.y, .u, .v].flatMap (interWrites T c m sr split clamp), w.at_ ∈ mbAllPoints c := by
  intro w hw
  obtain ⟨p, hp, hw⟩ := List.mem_flatMap.1 hw
  exact List.mem_flatMap.2 ⟨p, hp, areaWrites_at w hw⟩

/-! ### The loop filter (46_loopfilter.md R430, R437) -/

/-- The pixels a line's filter may change: p2, p1, p0, q0, q1, q2 (R426). -/
def inkPoints (e : EdgeLine) : List Point := [1, 2, 3, 4, 5, 6].map (linePoint e)

theorem changedPixels_at {e : EdgeLine} {old new : Line8} : ∀ w ∈ changedPixels e old new, w.at_ ∈ inkPoints e := by
  intro w hw
  simp only [changedPixels, List.mem_append] at hw
  simp only [inkPoints, List.map_cons, List.map_nil, List.mem_cons, List.not_mem_nil, or_false]
  rcases hw with ((((hw | hw) | hw) | hw) | hw) | hw <;>
    (split at hw
     · simp at hw
     · obtain rfl := List.mem_singleton.1 hw
       simp)

theorem filterOne_mem (c : CfgRegs) (f : FilterParams) (m : List Host.Cell) (e : EdgeLine) :
    WritesAt c c.cur (inkPoints e) m (filterOne c f m e) := writePixels_at changedPixels_at m

/-- Filtering a list of lines changes only the six middle pixels of those lines. -/
theorem filterLines_mem (c : CfgRegs) (f : FilterParams) (es : List EdgeLine) (m : List Host.Cell) :
    WritesAt c c.cur (es.flatMap inkPoints) m (filterLines c f es m) := by
  induction es generalizing m with
  | nil => exact WritesAt.refl _ _ _ _
  | cons e es ih =>
    refine ((filterOne_mem c f m e).mono fun q hq => ?_).trans ((ih (filterOne c f m e)).mono fun q hq => ?_)
    · exact List.mem_flatMap.2 ⟨e, by simp, hq⟩
    · obtain ⟨k, hk, hq⟩ := List.mem_flatMap.1 hq
      exact List.mem_flatMap.2 ⟨k, by simp [hk], hq⟩

theorem inkPoints_sub {e : EdgeLine} {q : Point} (h : q ∈ inkPoints e) : q ∈ (List.range 8).map (linePoint e) := by
  simp only [inkPoints, List.mem_map] at h ⊢
  obtain ⟨k, hk, rfl⟩ := h
  refine ⟨k, ?_, rfl⟩
  simp only [List.mem_cons, List.not_mem_nil, or_false] at hk
  simp only [List.mem_range]
  omega

theorem linesPoints_ink {c : CfgRegs} {slot : Nat} {es : List EdgeLine} (h : pointsOk c slot (linesPoints es) = true) :
    pointsOk c slot (es.flatMap inkPoints) = true := by
  refine pointsOk_iff.2 fun q hq => pointsOk_iff.1 h q ?_
  obtain ⟨e, he, hq⟩ := List.mem_flatMap.1 hq
  exact List.mem_flatMap.2 ⟨e, he, inkPoints_sub hq⟩

end Sys2Proof.Machine
end

