-- ==== Sys2Proof/Laws/Exec.lean ====
section
/-! SUPPORT. One inversion lemma for each meaning: if it answers a next state, then it took the error entry or it had the
effect its rule gives, and this is that effect. -/

namespace Sys2Proof.Machine

/-- `raise` answers the error entry of its command. -/
theorem raise_next {e : ErrorCode} {i : Instr} {s t : State} (h : raise e i s = .next t) :
    t = errorEntry e i.word s := by
  simp only [raise, Host.Outcome.next.injEq] at h
  exact h.symm

/-- WREG (47_control.md R473). -/
theorem execWreg_next {widx : Nat} {d : Word} {s t : State} (h : execWreg widx d s = .next t) :
    (∃ e, t = errorEntry e (Instr.wreg widx d).word s) ∨ t = writeCfg s (regAtWord widx) d := by
  simp only [execWreg] at h
  split at h
  · rw [Host.Outcome.next.injEq] at h
    exact .inr h.symm
  · exact .inl ⟨_, raise_next h⟩

/-- MB_SET (47_control.md R475). -/
theorem execMbSet_next {row col : Nat} {s t : State} (h : execMbSet row col s = .next t) :
    (∃ e, t = errorEntry e (Instr.mbSet row col).word s) ∨
      t = { s with cfg := { s.cfg with mbPos := BitVec.ofNat 32 (65536 * row + col) } } := by
  simp only [execMbSet] at h
  split at h
  · rw [Host.Outcome.next.injEq] at h
    exact .inr h.symm
  · exact .inl ⟨_, raise_next h⟩

/-- BD_INIT (40_entropy.md R203). -/
theorem execBdInit_next {i : Nat} {s t : State} (h : execBdInit i s = .next t) :
    (∃ e, t = errorEntry e (Instr.bdInit i).word s) ∨
      (i < numCtx ∧ s.cfg.bdStartAt i + s.cfg.bdSizeAt i ≤ memSize ∧
        t = s.setBd i (initCtx s.mem (s.cfg.bdStartAt i) (s.cfg.bdSizeAt i))) := by
  simp only [execBdInit] at h
  split at h
  · exact .inl ⟨_, raise_next h⟩
  split at h
  · exact .inl ⟨_, raise_next h⟩
  · rw [Host.Outcome.next.injEq] at h
    exact .inr ⟨by omega, by omega, h.symm⟩

theorem ctxUsable_iff {s : State} {i : Nat} : ctxUsable s i = true ↔ i < numCtx ∧ (s.ctx i).valid = true := by
  simp [ctxUsable]

/-- BD_BOOL (40_entropy.md R207). -/
theorem execBdBool_next {i p : Nat} {s t : State} (h : execBdBool i p s = .next t) :
    (∃ e, t = errorEntry e (Instr.bdBool i p).word s) ∨
      (i < numCtx ∧ (s.ctx i).valid = true ∧
        t = (s.setBd i (boolDecode s.mem p (s.ctx i)).2).setResult (flagNat (boolDecode s.mem p (s.ctx i)).1)) := by
  simp only [execBdBool] at h
  split at h
  · rename_i hu
    rw [Host.Outcome.next.injEq] at h
    exact .inr ⟨(ctxUsable_iff.1 hu).1, (ctxUsable_iff.1 hu).2, h.symm⟩
  · exact .inl ⟨_, raise_next h⟩

/-- BD_LIT (40_entropy.md R211). -/
theorem execBdLit_next {i n : Nat} {s t : State} (h : execBdLit i n s = .next t) :
    (∃ e, t = errorEntry e (Instr.bdLit i n).word s) ∨
      (i < numCtx ∧ (s.ctx i).valid = true ∧ n ≤ 32 ∧
        t = (s.setBd i (readLiteral s.mem n 0 (s.ctx i)).2).setResult (readLiteral s.mem n 0 (s.ctx i)).1) := by
  simp only [execBdLit] at h
  split at h
  · exact .inl ⟨_, raise_next h⟩
  rename_i hu
  rw [Bool.not_eq_true, Bool.not_eq_false] at hu
  split at h
  · exact .inl ⟨_, raise_next h⟩
  · rw [Host.Outcome.next.injEq] at h
    exact .inr ⟨(ctxUsable_iff.1 hu).1, (ctxUsable_iff.1 hu).2, by omega, h.symm⟩

/-- What DETOK_MB starts its blocks with (41_detokenizer.md R238). -/
def detokStart (s : State) (i : Nat) : DetokAcc :=
  { ctx := s.ctx i, coef := coefZero, eob := eobZero, above := nzAboveGet s.ram.nzAbove s.cfg.mbCol,
    left := s.ram.nzLeft, total := 0 }

/-- DETOK_MB (41_detokenizer.md R238): an error, a skipped macroblock, or the blocks decoded. -/
theorem execDetokMb_next {i : Nat} {y2 skip : Bool} {s t : State} (h : execDetokMb i y2 skip s = .next t) :
    (∃ e, t = errorEntry e (Instr.detokMb i y2 skip).word s) ∨
      (posOk s.cfg = true ∧ skip = true ∧
        t = s.setDetok s.cfg.mbCol coefZero eobZero (skipRow y2 (nzAboveGet s.ram.nzAbove s.cfg.mbCol))
          (skipRow y2 s.ram.nzLeft) 0) ∨
      (posOk s.cfg = true ∧ skip = false ∧ i < numCtx ∧ (s.ctx i).valid = true ∧
        ∃ a, runJobs s.rom s.mem s.ram.prob (blockJobs y2) (detokStart s i) = some a ∧
          t = (s.setDetok s.cfg.mbCol a.coef a.eob a.above a.left a.total).setBd i a.ctx) := by
  simp only [execDetokMb] at h
  split at h
  · exact .inl ⟨_, raise_next h⟩
  rename_i hp
  rw [Bool.not_eq_true, Bool.not_eq_false] at hp
  split at h
  · rename_i hs
    rw [Host.Outcome.next.injEq] at h
    exact .inr (.inl ⟨hp, hs, h.symm⟩)
  rename_i hs
  split at h
  · exact .inl ⟨_, raise_next h⟩
  rename_i hu
  rw [Bool.not_eq_true, Bool.not_eq_false] at hu
  split at h
  · simp at h
  · rename_i a ha
    rw [Host.Outcome.next.injEq] at h
    exact .inr (.inr ⟨hp, by simpa using hs, (ctxUsable_iff.1 hu).1, (ctxUsable_iff.1 hu).2, a, ha, h.symm⟩)

/-- DEQ_MB (42_dequant.md R280). -/
theorem execDeqMb_next {seg : Nat} {s t : State} (h : execDeqMb seg s = .next t) :
    coefWritten s.ram = true ∧
      t = (s.setDq (Cells.fill 400 fun j => BitVec.ofInt 32 (dequantAt s seg j))).orWide
        (anyWide ((List.range 400).map (dequantAt s seg))) := by
  simp only [execDeqMb] at h
  split at h
  · rename_i hc
    rw [Host.Outcome.next.injEq] at h
    exact ⟨hc, h.symm⟩
  · simp at h

/-- IWHT (43_transform.md R302). -/
theorem execIwht_next {s t : State} (h : execIwht s = .next t) :
    dqWritten s.ram 24 = true ∧
      t = (s.setDq (writeDcs s.ram.dq (iwht (dqBlock s.ram 24)))).orWide (iwhtWide (dqBlock s.ram 24)) := by
  simp only [execIwht] at h
  split at h
  · rename_i hc
    rw [Host.Outcome.next.injEq] at h
    exact ⟨hc, h.symm⟩
  · simp at h

/-- What a pixel command's effect is: data memory changes at pixels of `ps`, all of them in data memory, and WIDE16 may be
set; nothing else changes. -/
structure PixelEffect (ps : List Point) (s t : State) : Prop where
  frame : ∃ w, t = (s.setMem t.mem).orWide w
  writes : WritesAt s.cfg s.cfg.cur ps s.mem t.mem
  inside : pointsOk s.cfg s.cfg.cur ps = true

/-- IDCT_ADD (43_transform.md R306). -/
theorem execIdctAdd_next {b : Nat} {s t : State} (h : execIdctAdd b s = .next t) :
    (∃ e, t = errorEntry e (Instr.idctAdd b).word s) ∨
      (b ≤ 23 ∧ posOk s.cfg = true ∧ PixelEffect (blockPoints s.cfg b) s t) := by
  simp only [execIdctAdd] at h
  split at h
  · exact .inl ⟨_, raise_next h⟩
  split at h
  · exact .inl ⟨_, raise_next h⟩
  · rename_i hb hp
    obtain ⟨h1, h2, h3⟩ := addBlocks_next h
    rw [Bool.not_eq_true, Bool.not_eq_false] at hp
    simp only [List.flatMap_cons, List.flatMap_nil, List.append_nil] at h2 h3
    exact .inr ⟨by omega, hp, h1, h2, h3⟩

/-- RECON_MB (43_transform.md R310). -/
theorem execReconMb_next {u : Bool} {s t : State} (h : execReconMb u s = .next t) :
    (∃ e, t = errorEntry e (Instr.reconMb u).word s) ∨
      (posOk s.cfg = true ∧ PixelEffect ((reconBlocks u).flatMap (blockPoints s.cfg)) s t) := by
  simp only [execReconMb] at h
  split at h
  · exact .inl ⟨_, raise_next h⟩
  · rename_i hp
    obtain ⟨h1, h2, h3⟩ := addBlocks_next h
    rw [Bool.not_eq_true, Bool.not_eq_false] at hp
    exact .inr ⟨hp, h1, h2, h3⟩

theorem predictPlanes_effect {ps : List Plane} {md : IntraMode} {s t : State} (h : predictPlanes ps md s = .next t) :
    PixelEffect (ps.flatMap (mbPoints s.cfg)) s t := by
  obtain ⟨h1, h2, h3⟩ := predictPlanes_next h
  exact ⟨⟨false, by rw [State.orWide_false]; exact h1⟩, h2, h3⟩

/-- IPRED16 (44_intra.md R340). -/
theorem execIpred16_next {mode : Nat} {s t : State} (h : execIpred16 mode s = .next t) :
    (∃ e, t = errorEntry e (Instr.ipred16 mode).word s) ∨
      (posOk s.cfg = true ∧ PixelEffect (mbPoints s.cfg .y) s t) := by
  simp only [execIpred16] at h
  split at h
  · exact .inl ⟨_, raise_next h⟩
  split at h
  · rename_i hp
    have k := predictPlanes_effect h
    simp only [List.flatMap_cons, List.flatMap_nil, List.append_nil] at k
    exact .inr ⟨hp, k⟩
  · exact .inl ⟨_, raise_next h⟩

/-- IPREDUV (44_intra.md R345). -/
theorem execIpredUv_next {mode : Nat} {s t : State} (h : execIpredUv mode s = .next t) :
    (∃ e, t = errorEntry e (Instr.ipredUv mode).word s) ∨
      (posOk s.cfg = true ∧ PixelEffect (mbPoints s.cfg .u ++ mbPoints s.cfg .v) s t) := by
  simp only [execIpredUv] at h
  split at h
  · exact .inl ⟨_, raise_next h⟩
  split at h
  · rename_i hp
    have k := predictPlanes_effect h
    simp only [List.flatMap_cons, List.flatMap_nil, List.append_nil] at k
    exact .inr ⟨hp, k⟩
  · exact .inl ⟨_, raise_next h⟩

/-- IPRED4 (44_intra.md R350). -/
theorem execIpred4_next {b mode : Nat} {s t : State} (h : execIpred4 b mode s = .next t) :
    (∃ e, t = errorEntry e (Instr.ipred4 b mode).word s) ∨
      (b ≤ 15 ∧ posOk s.cfg = true ∧
        PixelEffect (areaPoints .y (blockX s.cfg b) (blockY s.cfg b) 4) s t) := by
  simp only [execIpred4] at h
  split at h
  · exact .inl ⟨_, raise_next h⟩
  split at h
  · exact .inl ⟨_, raise_next h⟩
  split at h
  · rename_i hb _ _ _ hp
    obtain ⟨h1, h2, h3⟩ := predictSub_next h
    exact .inr ⟨by omega, hp, ⟨false, by rw [State.orWide_false]; exact h1⟩, h2, h3⟩
  · exact .inl ⟨_, raise_next h⟩

/-- MC_MB (45_inter.md R395). -/
theorem execMcMb_next {ref : Nat} {split clamp : Bool} {s t : State} (h : execMcMb ref split clamp s = .next t) :
    (∃ e, t = errorEntry e (Instr.mcMb ref split clamp).word s) ∨
      (posOk s.cfg = true ∧ PixelEffect (mbAllPoints s.cfg) s t) := by
  simp only [execMcMb] at h
  split at h
  · exact .inl ⟨_, raise_next h⟩
  split at h
  · exact .inl ⟨_, raise_next h⟩
  split at h
  · exact .inl ⟨_, raise_next h⟩
  split at h
  · exact .inl ⟨_, raise_next h⟩
  split at h
  · simp at h
  · rename_i hp _ _ hok
    rw [Bool.not_eq_true, Bool.not_eq_false] at hp hok
    rw [Host.Outcome.next.injEq] at h
    subst h
    refine .inr ⟨hp, ⟨false, ?_⟩, ?_, (Bool.and_eq_true_iff.1 hok).2⟩
    · simp only [State.setMem_mem, State.orWide_false]
    · rw [State.setMem_mem]
      exact writePixels_at interWrites_at s.mem

/-- LF_MB (46_loopfilter.md R430). -/
theorem execLfMb_next {seg ref mode : Nat} {nocoef : Bool} {s t : State}
    (h : execLfMb seg ref mode nocoef s = .next t) :
    (∃ e, t = errorEntry e (Instr.lfMb seg ref mode nocoef).word s) ∨ t = s ∨
      (posOk s.cfg = true ∧ PixelEffect ((mbEdgeLines s.cfg mode nocoef).flatMap inkPoints) s t) := by
  simp only [execLfMb] at h
  split at h
  · exact .inl ⟨_, raise_next h⟩
  split at h
  · exact .inl ⟨_, raise_next h⟩
  split at h
  · rw [Host.Outcome.next.injEq] at h
    exact .inr (.inl h.symm)
  split at h
  · rename_i hp _ hok
    rw [Bool.not_eq_true, Bool.not_eq_false] at hp
    rw [Host.Outcome.next.injEq] at h
    subst h
    refine .inr (.inr ⟨hp, ⟨false, ?_⟩, ?_, linesPoints_ink hok⟩)
    · simp only [State.setMem_mem, State.orWide_false]
    · rw [State.setMem_mem]
      exact filterLines_mem _ _ _ _
  · simp at h

end Sys2Proof.Machine
end

