-- ==== Sys2Proof/Laws/Invariant.lean ====
section
/-! SUPPORT. Every meaning keeps the invariant of Safety.lean: the error entry, the resets, the CFG registers, and each
command of a well-formed instruction. -/

namespace Sys2Proof.Machine

/-! ### Reset values -/

theorem BoolCtx.reset_ok : BoolCtx.reset.Ok :=
  ⟨by simp [BoolCtx.reset], le_rfl, le_rfl, by simp [BoolCtx.reset], by simp [BoolCtx.reset]⟩

theorem CfgRegs.reset_reservedZero : CfgRegs.reset.ReservedZero := by
  constructor <;> decide

theorem ctx_replicate_reset (i : Nat) : fileGet (Vector.replicate 9 BoolCtx.reset) i BoolCtx.reset = BoolCtx.reset := by
  simp only [fileGet, Vector.getElem?_replicate]
  split <;> rfl

theorem Rams.reset_ok : Rams.reset.Ok := by
  constructor <;> simp [Rams.reset, Cells.wf, Cells.risingFrom]

/-! ### The error entry and the resets -/

theorem ErrorCode.code_range (e : ErrorCode) : 1 ≤ e.code.toNat ∧ e.code.toNat ≤ 7 := by cases e <;> decide

theorem errorEntry_inv (e : ErrorCode) (w : Word) {s : State} (h : s.Inv) : (errorEntry e w s).Inv :=
  ⟨h.mem, h.ram, h.ctx, h.reserved, ⟨by simp, fun _ => ⟨rfl, rfl, e.code_range⟩⟩, h.total, by simp⟩

theorem softReset_inv {s : State} (h : s.Inv) : (softReset s).Inv :=
  ⟨h.mem, h.ram, fun i _ => by
      rw [show (softReset s).ctx i = BoolCtx.reset from ctx_replicate_reset i]
      exact BoolCtx.reset_ok,
    CfgRegs.reset_reservedZero, ⟨fun _ => ⟨rfl, rfl⟩, by simp [State.reset]⟩, by simp [State.reset], by simp [State.reset]⟩

theorem hardReset_inv {s : State} (h : s.Inv) : (hardReset s).Inv :=
  ⟨h.mem, Rams.reset_ok, fun i _ => by
      rw [show (hardReset s).ctx i = BoolCtx.reset from ctx_replicate_reset i]
      exact BoolCtx.reset_ok,
    CfgRegs.reset_reservedZero, ⟨fun _ => ⟨rfl, rfl⟩, by simp [State.reset]⟩, by simp [State.reset], by simp [State.reset]⟩

/-! ### Updates of single parts -/

theorem Inv_setMem {s : State} (h : s.Inv) {m : List Host.Cell} (hm : Memory.wf m = true) : (s.setMem m).Inv :=
  ⟨hm, h.ram, h.ctx, h.reserved, ⟨h.error.clear, h.error.held⟩, h.total, h.queue⟩

theorem Inv_orWide {s : State} (h : s.Inv) (b : Bool) : (s.orWide b).Inv :=
  ⟨h.mem, h.ram, h.ctx, h.reserved, ⟨h.error.clear, h.error.held⟩, h.total, h.queue⟩

theorem Inv_setResult {s : State} (h : s.Inv) (v : Nat) : (s.setResult v).Inv :=
  ⟨h.mem, h.ram, h.ctx, h.reserved, ⟨h.error.clear, h.error.held⟩, h.total, h.queue⟩

theorem Inv_setBd {s : State} (h : s.Inv) {i : Nat} {c : BoolCtx} (hc : c.Ok) : (s.setBd i c).Inv := by
  refine ⟨h.mem, h.ram, fun j hj => ?_, h.reserved, ⟨h.error.clear, h.error.held⟩, h.total, h.queue⟩
  by_cases hij : i = j
  · subst hij
    rw [State.ctx_setBd_same s i c hj]
    exact hc
  · rw [State.ctx_setBd_other s i j c hij]
    exact h.ctx j hj

theorem Inv_setDq {s : State} (h : s.Inv) {d : Cells (BitVec 32)} (hd : Cells.wf 400 d = true) : (s.setDq d).Inv :=
  ⟨h.mem, ⟨h.ram.eob, h.ram.eob_le, h.ram.prob, h.ram.coef, hd, h.ram.nzAbove⟩, h.ctx, h.reserved,
    ⟨h.error.clear, h.error.held⟩, h.total, h.queue⟩

theorem Inv_setDetok {s : State} (h : s.Inv) {col : Nat} (hcol : col < 4096) {co : Cells (BitVec 16)}
    (hco : Cells.wf 400 co = true) {eo : Cells (BitVec 5)} (heo : Cells.wf 25 eo = true)
    (hle : ∀ e ∈ eo, e.2.toNat ≤ 16) {ab le : NzRow} {n : Nat} (hn : n ≤ 384) :
    (s.setDetok col co eo ab le n).Inv :=
  ⟨h.mem, ⟨heo, hle, h.ram.prob, hco, h.ram.dq, Cells.wf_set _ hcol h.ram.nzAbove⟩, h.ctx, h.reserved,
    ⟨h.error.clear, h.error.held⟩, by
      simp only [State.setDetok_eobTotal, BitVec.toNat_ofNat]
      omega, h.queue⟩

theorem Inv_nzAbove {s : State} (h : s.Inv) {a : Cells NzRow} (ha : Cells.wf 4096 a = true) :
    ({ s with ram := { s.ram with nzAbove := a } } : State).Inv :=
  ⟨h.mem, ⟨h.ram.eob, h.ram.eob_le, h.ram.prob, h.ram.coef, h.ram.dq, ha⟩, h.ctx, h.reserved,
    ⟨h.error.clear, h.error.held⟩, h.total, h.queue⟩

theorem Inv_dqf {s : State} (h : s.Inv) (v : Vector (BitVec 16) 24) : ({ s with dqf := v } : State).Inv :=
  ⟨h.mem, h.ram, h.ctx, h.reserved, ⟨h.error.clear, h.error.held⟩, h.total, h.queue⟩

theorem Inv_pixels {ps : List Point} {s t : State} (h : s.Inv) (k : PixelEffect ps s t) : t.Inv := by
  obtain ⟨w, hw⟩ := k.frame
  rw [hw]
  exact Inv_orWide (Inv_setMem h (k.writes.wf k.inside h.mem)) w

/-! ### CFG registers and the PROB window (10_state.md R31, R58) -/

theorem and_mask (d m : Word) : d &&& m &&& m = d &&& m := by
  rw [BitVec.and_assoc, BitVec.and_self]

theorem writeCfg_reserved (s : State) (r : Reg) (d : Word) (h : s.cfg.ReservedZero) :
    (writeCfg s r d).cfg.ReservedZero := by
  obtain ⟨h1, h2, h3, h4, h5, h6, h7, h8⟩ := h
  cases r <;> simp only [writeCfg] <;> constructor <;> first | assumption | exact and_mask _ _

theorem writeProbWord_wf {p : Cells Byte} {j : Nat} (d : Word) (hj : j < 264) (h : Cells.wf 1056 p = true) :
    Cells.wf 1056 (writeProbWord p j d) = true := by
  simp only [writeProbWord]
  have step : ∀ {q : Cells Byte} {k : Nat} (v : Byte), k < 4 → Cells.wf 1056 q = true →
      Cells.wf 1056 (Cells.set q (4 * j + k) v) = true := fun v hk hq => Cells.wf_set v (by omega) hq
  exact step _ (by omega) (step _ (by omega) (step _ (by omega) (step _ (by omega) h)))

/-- A word of the PROB window is one of its 264 words (10_state.md R58). -/
theorem regAtWord_prob {k j : Nat} (h : regAtWord k = .prob j) : j < 264 := by
  by_cases hk : 0x200 ≤ k ∧ k < 0x308
  · have hj : regAtWord k = .prob (k - 0x200) := by
      unfold regAtWord
      repeat rw [if_neg (by omega)]
      rw [if_pos hk]
    rw [hj, Reg.prob.injEq] at h
    omega
  · exfalso
    have drop : ∀ {c : Prop} [Decidable c] {a b : Reg}, (if c then a else b) = .prob j → a ≠ .prob j → b = .prob j := by
      intro c _ a b e ha
      by_cases hc : c
      · rw [if_pos hc] at e
        exact absurd e ha
      · rwa [if_neg hc] at e
    have keep : ∀ {c : Prop} [Decidable c] {a b : Reg}, a ≠ .prob j → b ≠ .prob j → (if c then a else b) ≠ .prob j := by
      intro c _ a b ha hb
      by_cases hc : c
      · rwa [if_pos hc]
      · rwa [if_neg hc]
    unfold regAtWord at h
    rw [if_neg hk] at h
    repeat replace h := drop h (by repeat' (first | apply keep | exact Reg.noConfusion))
    exact Reg.noConfusion h

theorem writeCfg_inv {s : State} (h : s.Inv) (k : Nat) (d : Word) : (writeCfg s (regAtWord k) d).Inv := by
  refine ⟨by rw [writeCfg_mem]; exact h.mem, ?_, fun i hi => by rw [State.ctx_writeCfg]; exact h.ctx i hi,
    writeCfg_reserved s _ d h.reserved,
    ⟨by simpa only [writeCfg_err, writeCfg_errCode, writeCfg_errInfo] using h.error.clear,
      by simpa only [writeCfg_err, writeCfg_errCode, writeCfg_cmdq, writeCfg_running] using h.error.held⟩,
    by rw [writeCfg_eobTotal]; exact h.total, by rw [writeCfg_cmdq]; exact h.queue⟩
  refine ⟨by rw [writeCfg_ram_eob]; exact h.ram.eob, by rw [writeCfg_ram_eob]; exact h.ram.eob_le, ?_,
    by rw [writeCfg_ram_coef]; exact h.ram.coef, by rw [writeCfg_ram_dq]; exact h.ram.dq,
    by rw [writeCfg_ram_nzAbove]; exact h.ram.nzAbove⟩
  cases hr : regAtWord k with
  | prob j => exact writeProbWord_wf d (regAtWord_prob hr) h.ram.prob
  | _ => exact h.ram.prob

/-! ### Macroblock positions -/

theorem bits_lt (v hi lo : Nat) : bits v hi lo < 2 ^ (hi + 1 - lo) := Nat.mod_lt _ (by positivity)

theorem mbCol_lt (c : CfgRegs) : c.mbCol < 4096 := bits_lt _ 11 0

/-- MBPOS as MB_SET writes it has its RSV bits 0 (10_state.md R41). -/
theorem mbPos_reserved {row col : Nat} (hr : row < 4096) (hc : col < 4096) :
    BitVec.ofNat 32 (65536 * row + col) &&& Reg.mask .mbPos = BitVec.ofNat 32 (65536 * row + col) := by
  have h1 : (65536 * row + col) = row <<< 16 ||| col := by
    rw [← Nat.shiftLeft_add_eq_or_of_lt (by omega : col < 2 ^ 16), Nat.shiftLeft_eq]
    ring
  apply BitVec.eq_of_getLsbD_eq
  intro i hi
  simp only [BitVec.getLsbD_and, BitVec.getLsbD_ofNat, h1, Nat.testBit_or, Nat.testBit_shiftLeft]
  by_cases h12 : i < 12
  · have : (Reg.mask .mbPos).getLsbD i = true := by
      have : ∀ i, i < 12 → (Reg.mask .mbPos).getLsbD i = true := by decide
      exact this i h12
    simp [this]
  · have hcol : col.testBit i = false := Nat.testBit_lt_two_pow (lt_of_lt_of_le hc (by
      calc 4096 = 2 ^ 12 := by norm_num
        _ ≤ 2 ^ i := Nat.pow_le_pow_right (by omega) (by omega)))
    by_cases h16 : 16 ≤ i
    · by_cases h28 : i < 28
      · have : (Reg.mask .mbPos).getLsbD i = true := by
          have : ∀ i, i < 28 → 16 ≤ i → (Reg.mask .mbPos).getLsbD i = true := by decide
          exact this i h28 h16
        simp [this]
      · have hrow : row.testBit (i - 16) = false := Nat.testBit_lt_two_pow (lt_of_lt_of_le hr (by
          calc 4096 = 2 ^ 12 := by norm_num
            _ ≤ 2 ^ (i - 16) := Nat.pow_le_pow_right (by omega) (by omega)))
        simp [hcol, hrow]
    · simp [hcol, h16]

/-! ### DQ -/

theorem writeDcs_wf {d : Cells (BitVec 32)} (out : Nat → Int) (h : Cells.wf 400 d = true) :
    Cells.wf 400 (writeDcs d out) = true := by
  unfold writeDcs
  have hb : ∀ l : List Nat, (∀ b ∈ l, b < 16) → ∀ q : Cells (BitVec 32), Cells.wf 400 q = true →
      Cells.wf 400 (l.foldl (fun q b => Cells.set q (16 * b) (BitVec.ofInt 32 (out b))) q) = true := by
    intro l
    induction l with
    | nil => exact fun _ q hq => hq
    | cons b l ih =>
      intro hl q hq
      have := hl b (by simp)
      exact ih (fun x hx => hl x (by simp [hx])) _ (Cells.wf_set _ (by omega) hq)
  exact hb _ (fun b hb => List.mem_range.1 hb) d h

/-! ### Every command -/

/-- A command of a well-formed instruction keeps the invariant. -/
theorem exec_keeps_inv {i : Instr} (hi : i.wf = true) {s t : State} (h : s.Inv) (he : exec i s = .next t) : t.Inv := by
  have herr : ∀ {w : Word} {t : State}, (∃ e, t = errorEntry e w s) → t.Inv := by
    rintro w t ⟨e, rfl⟩
    exact errorEntry_inv e w h
  cases i with
  | nop =>
    simp only [exec, execNop, Host.Outcome.next.injEq] at he
    subst he
    exact h
  | sync =>
    simp only [exec, execSync, Host.Outcome.next.injEq] at he
    subst he
    exact ⟨h.mem, h.ram, h.ctx, h.reserved, ⟨h.error.clear, h.error.held⟩, h.total, h.queue⟩
  | wreg widx d =>
    rcases execWreg_next he with k | rfl
    · exact herr k
    · exact writeCfg_inv h widx d
  | mbSet row col =>
    rcases execMbSet_next he with k | rfl
    · exact herr k
    · simp only [Instr.wf, Bool.and_eq_true, decide_eq_true_eq] at hi
      exact ⟨h.mem, h.ram, h.ctx, ⟨mbPos_reserved hi.1 hi.2, h.reserved.frameDim, h.reserved.decCfg, h.reserved.roleMap,
        h.reserved.qBase, h.reserved.qDelta1, h.reserved.segCfg, h.reserved.lfCfg⟩,
        ⟨h.error.clear, h.error.held⟩, h.total, h.queue⟩
  | bdInit ctx =>
    rcases execBdInit_next he with k | ⟨-, hr, rfl⟩
    · exact herr k
    · exact Inv_setBd h (initCtx_ok s.mem hr).1
  | bdBool ctx prob =>
    rcases execBdBool_next he with k | ⟨hc, hv, rfl⟩
    · exact herr k
    · simp only [Instr.wf, Bool.and_eq_true, decide_eq_true_eq] at hi
      exact Inv_setResult (Inv_setBd h (boolDecode_ok s.mem (by omega) hv (h.ctx ctx hc))) _
  | bdLit ctx n =>
    rcases execBdLit_next he with k | ⟨hc, hv, -, rfl⟩
    · exact herr k
    · exact Inv_setResult (Inv_setBd h (readLiteral_ok s.mem n 0 hv (h.ctx ctx hc)).1) _
  | detokFrame =>
    simp only [exec, execDetokFrame, Host.Outcome.next.injEq] at he
    subst he
    exact Inv_nzAbove h (Cells.wf_fill _ _)
  | detokRow =>
    simp only [exec, execDetokRow, Host.Outcome.next.injEq] at he
    subst he
    exact ⟨h.mem, ⟨h.ram.eob, h.ram.eob_le, h.ram.prob, h.ram.coef, h.ram.dq, h.ram.nzAbove⟩, h.ctx, h.reserved,
      ⟨h.error.clear, h.error.held⟩, h.total, h.queue⟩
  | detokMb ctx y2 skip =>
    rcases execDetokMb_next he with k | ⟨-, -, rfl⟩ | ⟨-, -, hc, hv, a, ha, rfl⟩
    · exact herr k
    · exact Inv_setDetok h (mbCol_lt _) coefZero_wf eobZero_wf eobZero_le (by omega)
    · have k := runJobs_spec (fun j hj => ⟨(blockJobs_facts y2 j hj).1, (blockJobs_facts y2 j hj).2.2.1⟩) ha
      have ht : a.total ≤ 384 := by
        have := k.total
        rw [blockJobs_room] at this
        simpa [detokStart] using this
      exact Inv_setBd (Inv_setDetok h (mbCol_lt _) (k.coef_wf coefZero_wf) (k.eob_wf eobZero_wf) (k.eob_le eobZero_le) ht)
        (k.ctx.ok hv (h.ctx ctx hc)).1
  | qsetup =>
    simp only [exec, execQsetup, Host.Outcome.next.injEq] at he
    subst he
    exact Inv_dqf h _
  | deqMb seg =>
    obtain ⟨-, rfl⟩ := execDeqMb_next he
    exact Inv_orWide (Inv_setDq h (Cells.wf_fill _ _)) _
  | iwht =>
    obtain ⟨-, rfl⟩ := execIwht_next he
    exact Inv_orWide (Inv_setDq h (writeDcs_wf _ h.ram.dq)) _
  | idctAdd blk =>
    rcases execIdctAdd_next he with k | ⟨-, -, k⟩
    · exact herr k
    · exact Inv_pixels h k
  | reconMb u =>
    rcases execReconMb_next he with k | ⟨-, k⟩
    · exact herr k
    · exact Inv_pixels h k
  | ipred16 mode =>
    rcases execIpred16_next he with k | ⟨-, k⟩
    · exact herr k
    · exact Inv_pixels h k
  | ipredUv mode =>
    rcases execIpredUv_next he with k | ⟨-, k⟩
    · exact herr k
    · exact Inv_pixels h k
  | ipred4 blk bmode =>
    rcases execIpred4_next he with k | ⟨-, -, k⟩
    · exact herr k
    · exact Inv_pixels h k
  | mcMb ref split clamp =>
    rcases execMcMb_next he with k | ⟨-, k⟩
    · exact herr k
    · exact Inv_pixels h k
  | lfMb seg ref mode nocoef =>
    rcases execLfMb_next he with k | rfl | ⟨-, k⟩
    · exact herr k
    · exact h
    · exact Inv_pixels h k

end Sys2Proof.Machine
end

