-- ==== Sys2Proof/Laws/PerInstr.lean ====
section
/-! SUPPORT. The family OpcodeField, one lemma for each constructor: the operand fields of a well-formed command stay
below the opcode field, so the encoder's word is exactly opcode and fields side by side (30_encoding.md R130, R131,
R140). -/

namespace Sys2Proof.Laws.OpcodeField

/-- The fields of a well-formed command lie in bits [25:0] of its word and the opcode in bits [31:26]. -/
def Statement (i : Instr) : Prop :=
  i.wf = true → i.fields < 2 ^ 26 ∧ i.word.toNat = 2 ^ 26 * i.opcode + i.fields ∧ opcodeOf i.word = i.opcode

theorem opcode_lt (i : Instr) : i.opcode < 2 ^ 6 := by cases i <;> simp only [Instr.opcode] <;> decide

theorem word_toNat {i : Instr} (h : i.fields < 2 ^ 26) : i.word.toNat = 2 ^ 26 * i.opcode + i.fields := by
  have ho := opcode_lt i
  rw [Instr.word, BitVec.toNat_ofNat, Nat.mod_eq_of_lt (by omega)]

theorem opcodeOf_word {i : Instr} (h : i.fields < 2 ^ 26) : opcodeOf i.word = i.opcode := by
  have ho := opcode_lt i
  rw [opcodeOf, word_toNat h, bits, Nat.mul_add_div (by decide), Nat.div_eq_of_lt h, Nat.add_zero]
  exact Nat.mod_eq_of_lt ho

theorem of_fields {i : Instr} (h : i.wf = true → i.fields < 2 ^ 26) : Statement i :=
  fun hi => ⟨h hi, word_toNat (h hi), opcodeOf_word (h hi)⟩

theorem nop : Statement .nop := of_fields fun _ => by decide

theorem sync : Statement .sync := of_fields fun _ => by decide

theorem wreg (a : Nat) (d : Word) : Statement (.wreg a d) := of_fields fun h => by
  simp only [Instr.wf, decide_eq_true_eq] at h
  simp only [Instr.fields]
  omega

theorem mbSet (a : Nat) (b : Nat) : Statement (.mbSet a b) := of_fields fun h => by
  simp only [Instr.wf, Bool.and_eq_true, decide_eq_true_eq] at h
  simp only [Instr.fields]
  omega

theorem bdInit (a : Nat) : Statement (.bdInit a) := of_fields fun h => by
  simp only [Instr.wf, decide_eq_true_eq] at h
  simp only [Instr.fields]
  omega

theorem bdBool (a : Nat) (b : Nat) : Statement (.bdBool a b) := of_fields fun h => by
  simp only [Instr.wf, Bool.and_eq_true, decide_eq_true_eq] at h
  simp only [Instr.fields]
  omega

theorem bdLit (a : Nat) (b : Nat) : Statement (.bdLit a b) := of_fields fun h => by
  simp only [Instr.wf, Bool.and_eq_true, decide_eq_true_eq] at h
  simp only [Instr.fields]
  omega

theorem detokFrame : Statement .detokFrame := of_fields fun _ => by decide

theorem detokRow : Statement .detokRow := of_fields fun _ => by decide

theorem detokMb (a : Nat) (b : Bool) (c : Bool) : Statement (.detokMb a b c) := of_fields fun h => by
  simp only [Instr.wf, decide_eq_true_eq] at h
  have := Bool.toNat_le b
  have := Bool.toNat_le c
  simp only [Instr.fields]
  omega

theorem qsetup : Statement .qsetup := of_fields fun _ => by decide

theorem deqMb (a : Nat) : Statement (.deqMb a) := of_fields fun h => by
  simp only [Instr.wf, decide_eq_true_eq] at h
  simp only [Instr.fields]
  omega

theorem iwht : Statement .iwht := of_fields fun _ => by decide

theorem idctAdd (a : Nat) : Statement (.idctAdd a) := of_fields fun h => by
  simp only [Instr.wf, decide_eq_true_eq] at h
  simp only [Instr.fields]
  omega

theorem reconMb (a : Bool) : Statement (.reconMb a) := of_fields fun h => by
  have := Bool.toNat_le a
  simp only [Instr.fields]
  omega

theorem ipred16 (a : Nat) : Statement (.ipred16 a) := of_fields fun h => by
  simp only [Instr.wf, decide_eq_true_eq] at h
  simp only [Instr.fields]
  omega

theorem ipredUv (a : Nat) : Statement (.ipredUv a) := of_fields fun h => by
  simp only [Instr.wf, decide_eq_true_eq] at h
  simp only [Instr.fields]
  omega

theorem ipred4 (a : Nat) (b : Nat) : Statement (.ipred4 a b) := of_fields fun h => by
  simp only [Instr.wf, Bool.and_eq_true, decide_eq_true_eq] at h
  simp only [Instr.fields]
  omega

theorem mcMb (a : Nat) (b : Bool) (c : Bool) : Statement (.mcMb a b c) := of_fields fun h => by
  simp only [Instr.wf, decide_eq_true_eq] at h
  have := Bool.toNat_le b
  have := Bool.toNat_le c
  simp only [Instr.fields]
  omega

theorem lfMb (a : Nat) (b : Nat) (c : Nat) (d : Bool) : Statement (.lfMb a b c d) := of_fields fun h => by
  simp only [Instr.wf, Bool.and_eq_true, decide_eq_true_eq] at h
  have := Bool.toNat_le d
  simp only [Instr.fields]
  omega

end Sys2Proof.Laws.OpcodeField
end

