-- ==== Sys2Proof/Laws/Step.lean ====
section
/-! SUPPORT. The command loop and the HOST's port: what decoding a word answers, which command a turn of the CORE
takes, and that each part of a step keeps the invariant. -/

namespace Sys2Proof.Machine

/-! ### Decoding (30_encoding.md R132 to R136) -/

/-- What `decodeWord` answers with an instruction: the opcode is mapped, its fields were read and its reserved bits
are 0. -/
theorem decodeWord_ok_iff {w d : Word} {i : Instr} :
    decodeWord w d = .ok i ↔
      ∃ hi lo, reservedRange (opcodeOf w) = some (hi, lo) ∧ readFields (opcodeOf w) w.toNat d = some i ∧
        bits w.toNat hi lo = 0 := by
  simp only [decodeWord]
  cases hr : reservedRange (opcodeOf w) with
  | none => simp
  | some p =>
    cases hf : readFields (opcodeOf w) w.toNat d with
    | none => simp
    | some k =>
      obtain ⟨hi, lo⟩ := p
      by_cases hb : bits w.toNat hi lo = 0
      · simp only [hb, if_true, Except.ok.injEq, Option.some.injEq, Prod.mk.injEq]
        constructor
        · rintro rfl
          exact ⟨hi, lo, ⟨rfl, rfl⟩, rfl, hb⟩
        · rintro ⟨_, _, ⟨rfl, rfl⟩, rfl, -⟩
          rfl
      · simp only [hb, if_false, reduceCtorEq, Option.some.injEq, Prod.mk.injEq, false_iff]
        rintro ⟨_, _, ⟨rfl, rfl⟩, -, h⟩
        exact hb h

/-- Every operand field that decoding reads fits (30_encoding.md R133). -/
theorem readFields_wf {opc n : Nat} {d : Word} {i : Instr} (h : readFields opc n d = some i) : i.wf = true := by
  have hb := bits_lt n
  unfold readFields at h
  split at h <;> simp only [Option.some.injEq, reduceCtorEq] at h <;> subst h <;>
    simp only [Instr.wf, Bool.and_eq_true, decide_eq_true_eq]
  · exact hb 11 0
  · exact ⟨hb 23 12, hb 11 0⟩
  · exact hb 25 22
  · exact ⟨hb 25 22, hb 21 14⟩
  · exact ⟨hb 25 22, hb 21 16⟩
  · exact hb 25 22
  · exact hb 25 24
  · exact hb 4 0
  · exact hb 2 0
  · exact hb 2 0
  · exact ⟨hb 8 4, hb 3 0⟩
  · exact hb 25 24
  · exact ⟨⟨hb 25 24, hb 23 22⟩, hb 21 18⟩

/-- A decoded instruction is well formed. -/
theorem decodeWord_wf {w d : Word} {i : Instr} (h : decodeWord w d = .ok i) : i.wf = true := by
  obtain ⟨_, _, -, hf, -⟩ := decodeWord_ok_iff.1 h
  exact readFields_wf hf

/-! ### Taking a command (47_control.md R471, 30_encoding.md R137) -/

theorem takeCommand_one {w : Word} {rest : List Word} (h : opcodeOf w ≠ opcWreg) :
    takeCommand (w :: rest) = some ({ word := w, data := 0, resetAfter := false }, rest) := by
  simp only [takeCommand, if_neg h]

theorem takeCommand_two {w d : Word} {rest : List Word} (h : opcodeOf w = opcWreg) :
    takeCommand (w :: d :: rest) = some ({ word := w, data := d, resetAfter := false }, rest) := by
  simp only [takeCommand, if_pos h]

theorem takeCommand_wait {w : Word} (h : opcodeOf w = opcWreg) : takeCommand [w] = none := by
  simp only [takeCommand, if_pos h]

/-- A command leaves the rest of the queue behind it. -/
theorem takeCommand_length {q rest : List Word} {c : Command} (h : takeCommand q = some (c, rest)) :
    rest.length < q.length := by
  cases q with
  | nil => simp [takeCommand] at h
  | cons w t =>
    simp only [takeCommand] at h
    split at h
    · cases t with
      | nil => simp at h
      | cons d t =>
        simp only [Option.some.injEq, Prod.mk.injEq] at h
        obtain ⟨-, rfl⟩ := h
        simp only [List.length_cons]
        omega
    · simp only [Option.some.injEq, Prod.mk.injEq] at h
      obtain ⟨-, rfl⟩ := h
      simp only [List.length_cons]
      omega

/-- A command just taken has no soft reset waiting for it. -/
theorem takeCommand_resetAfter {q rest : List Word} {c : Command} (h : takeCommand q = some (c, rest)) :
    c.resetAfter = false := by
  unfold takeCommand at h
  split at h
  · cases h
  · split at h
    · split at h
      · cases h
      · cases h
        rfl
    · cases h
      rfl

/-- What starting a command can do: nothing, or the head command leaves the queue and is in execution. -/
theorem startCommand_cases (s : State) :
    startCommand s = s ∨
      (s.running = none ∧ s.err = false ∧ ∃ c rest, takeCommand s.cmdq = some (c, rest) ∧
        startCommand s = { s with cmdq := rest, running := some c }) := by
  by_cases hb : (s.running.isSome || s.err) = true
  · exact .inl (by simp only [startCommand, hb, if_true])
  · cases ht : takeCommand s.cmdq with
    | none => exact .inl (by simp only [startCommand, if_neg hb, ht])
    | some p =>
      simp only [Bool.or_eq_true, not_or, Bool.not_eq_true] at hb
      refine .inr ⟨by simpa using hb.1, hb.2, p.1, p.2, rfl, ?_⟩
      simp only [startCommand, hb.1, hb.2, Bool.or_false, Bool.false_eq_true, if_false, ht]

/-- A turn of the CORE when a complete command is queued and nothing is in execution: it is taken and performed. -/
theorem coreStep_take {s : State} {c : Command} {rest : List Word} (hr : s.running = none) (he : s.err = false)
    (ht : takeCommand s.cmdq = some (c, rest)) :
    coreStep s = completeCommand c { s with cmdq := rest, running := some c } := by
  have h1 : startCommand s = { s with cmdq := rest, running := some c } := by
    simp only [startCommand, hr, he, Option.isSome_none, Bool.or_false, Bool.false_eq_true, if_false, ht]
  simp only [coreStep, h1]

/-- A turn of the CORE when a command is in execution: it is performed. -/
theorem coreStep_running {s : State} {c : Command} (hr : s.running = some c) :
    coreStep s = completeCommand c s := by
  have h1 : startCommand s = s := by
    simp only [startCommand, hr, Option.isSome_some, Bool.true_or, if_true]
  simp only [coreStep, h1, hr]

/-- A turn of the CORE with nothing to take: it waits and keeps all state. -/
theorem coreStep_wait {s : State} (hr : s.running = none) (ht : s.err = true ∨ takeCommand s.cmdq = none) :
    coreStep s = .next s := by
  have h1 : startCommand s = s := by
    rcases ht with he | ht
    · simp only [startCommand, he, Bool.or_true, if_true]
    · simp only [startCommand, ht]
      split <;> rfl
  simp only [coreStep, h1, hr]

/-- What a step in which the CORE has the turn is. -/
theorem step_coreTurn {s : State} {later : List Input} (h : CoreTurn s later) :
    step s = coreStep { s with inputs := later } := by
  rcases h with ⟨h, rfl⟩ | h | ⟨rfl, he, hq, v, rest, h⟩
  · obtain ⟨⟩ := s
    subst h
    rfl
  · simp only [step, turn, h, inputHeld, Bool.false_eq_true, if_false, inputStep]
  · have k : step s = coreStep s := by simp [step, turn, h, inputHeld, mmioAccessOk, cmdHeld, he, hq]
    exact k

/-- An undecodable command: the error entry, whatever is done around it. -/
theorem completeCommand_illegal {c : Command} {s : State} (h : ∀ i, decodeWord c.word c.data ≠ .ok i)
    (hr : c.resetAfter = false) : completeCommand c s = .next (errorEntry .illegalCmd c.word s) := by
  cases hd : decodeWord c.word c.data with
  | ok i => exact absurd hd (h i)
  | error e => simp [completeCommand, endCommand, hd, hr, errorEntry]

/-! ### Writing a PROB word (10_state.md R58) -/

theorem writeProbWord_get (p : Cells Byte) (j : Nat) (d : Word) {k : Nat} (hk : k < 4) :
    Cells.get (writeProbWord p j d) (4 * j + k) = some (d.extractLsb' (8 * k) 8) := by
  have h : ∀ k, BitVec.ofNat 8 (byteLane d k) = d.extractLsb' (8 * k) 8 := by
    intro k
    apply BitVec.eq_of_toNat_eq
    rw [byteLane, bits_toNat, show 8 * k + 7 + 1 - 8 * k = 8 by omega, BitVec.ofNat_toNat, BitVec.setWidth_eq]
  rw [← h]
  interval_cases k <;> simp [writeProbWord, Cells.get_set_other]

theorem writeProbWord_get_other (p : Cells Byte) {j e : Nat} (d : Word) (h : e / 4 ≠ j) :
    Cells.get (writeProbWord p j d) e = Cells.get p e := by
  simp only [writeProbWord]
  repeat rw [Cells.get_set_other _ _ (by omega)]

/-! ### The invariant -/

theorem endCommand_next {c : Command} {o : Outcome} {t : State} (h : endCommand c o = .next t) :
    ∃ u, o = .next u ∧ t = if c.resetAfter then softReset u else { u with running := none } := by
  cases o with
  | next u => exact ⟨u, rfl, by simpa only [endCommand, Host.Outcome.next.injEq, eq_comm] using h⟩
  | fault f => simp [endCommand] at h
  | refused r => simp [endCommand] at h

theorem Inv_running {s : State} (h : s.Inv) : ({ s with running := none } : State).Inv :=
  ⟨h.mem, h.ram, h.ctx, h.reserved,
    ⟨h.error.clear, fun he => ⟨(h.error.held he).1, rfl, (h.error.held he).2.2⟩⟩, h.total, h.queue⟩

theorem Inv_inputs {s : State} (h : s.Inv) (l : List Input) : ({ s with inputs := l } : State).Inv :=
  ⟨h.mem, h.ram, h.ctx, h.reserved, ⟨h.error.clear, h.error.held⟩, h.total, h.queue⟩

theorem startCommand_inv {s : State} (h : s.Inv) : (startCommand s).Inv := by
  rcases startCommand_cases s with k | ⟨-, he, c, rest, ht, k⟩
  · rwa [k]
  · rw [k]
    refine ⟨h.mem, h.ram, h.ctx, h.reserved, ⟨h.error.clear, fun e => ?_⟩, h.total,
      (Nat.le_of_lt (takeCommand_length ht)).trans h.queue⟩
    simp only [he] at e
    exact absurd e (by simp)

theorem completeCommand_inv {c : Command} {s t : State} (h : s.Inv) (k : completeCommand c s = .next t) : t.Inv := by
  unfold completeCommand at k
  obtain ⟨u, hu, rfl⟩ := endCommand_next k
  have hu : u.Inv := by
    split at hu
    · rename_i i hd
      exact exec_keeps_inv (decodeWord_wf hd) h hu
    · rw [Host.Outcome.next.injEq] at hu
      subst hu
      exact errorEntry_inv _ _ h
  split
  · exact softReset_inv hu
  · exact Inv_running hu

theorem coreStep_inv {s t : State} (h : s.Inv) (k : coreStep s = .next t) : t.Inv := by
  simp only [coreStep] at k
  split at k
  · exact completeCommand_inv (startCommand_inv h) k
  · rw [Host.Outcome.next.injEq] at k
    subst k
    exact startCommand_inv h

/-! ### The soft reset (70_reset_and_hazards.md R541) -/

/-- What a CTRL write with SOFT_RESET = 1 can do: reset at once, or mark the command in execution. -/
theorem requestReset_cases (s : State) :
    (s.running = none ∧ requestReset s = softReset s) ∨
      (∃ c, s.running = some c ∧ requestReset s = { s with running := some { c with resetAfter := true } }) := by
  unfold requestReset
  split
  · exact .inl ⟨‹_›, rfl⟩
  · exact .inr ⟨_, ‹_›, rfl⟩

theorem ctrlWrite_reset {v : Word} {s : State} (h : v.getLsbD 0 = true) : ctrlWrite v s = requestReset s := by
  rw [ctrlWrite, bit_toNat, if_pos h]

theorem ctrlWrite_enables {v : Word} {s : State} (h : v.getLsbD 0 = false) :
    ctrlWrite v s = { s with ieSync := v.getLsbD 1, ieErr := v.getLsbD 2 } := by
  simp only [ctrlWrite, bit_toNat, h, Bool.false_eq_true, if_false]

theorem requestReset_inv {s : State} (h : s.Inv) : (requestReset s).Inv := by
  rcases requestReset_cases s with ⟨-, k⟩ | ⟨c, hr, k⟩
  · rw [k]
    exact softReset_inv h
  · rw [k]
    refine ⟨h.mem, h.ram, h.ctx, h.reserved, ⟨h.error.clear, fun e => ?_⟩, h.total, h.queue⟩
    exact absurd (h.error.held e).2.1 (by simp [hr])

theorem ctrlWrite_inv {s : State} (h : s.Inv) (v : Word) : (ctrlWrite v s).Inv := by
  unfold ctrlWrite
  split
  · exact requestReset_inv h
  · exact ⟨h.mem, h.ram, h.ctx, h.reserved, ⟨h.error.clear, h.error.held⟩, h.total, h.queue⟩

end Sys2Proof.Machine
end

