-- ==== Sys2Proof/Tests/Slice0.lean ====
section
/-! SUPPORT. The model's own tests: ill-formed terms, words written out from the spec's encodings, vectors of
95_test_vectors.md on one step each, and for each statement of Obligations.lean with hypotheses a witness that meets
them. -/

namespace Sys2Proof.Tests

set_option Elab.async false

open Sys2Proof.Machine

/-! ### WellFormed: each check refuses an operand one past its field (30_encoding.md R131, R133) -/

theorem test_wf_wreg : (Instr.wreg 4096 0).wf = false := by decide
theorem test_wf_mbSet_row : (Instr.mbSet 4096 0).wf = false := by decide
theorem test_wf_mbSet_col : (Instr.mbSet 0 4096).wf = false := by decide
theorem test_wf_bdInit : (Instr.bdInit 16).wf = false := by decide
theorem test_wf_bdBool_ctx : (Instr.bdBool 16 0).wf = false := by decide
theorem test_wf_bdBool_prob : (Instr.bdBool 0 256).wf = false := by decide
theorem test_wf_bdLit_ctx : (Instr.bdLit 16 0).wf = false := by decide
theorem test_wf_bdLit_n : (Instr.bdLit 0 64).wf = false := by decide
theorem test_wf_detokMb : (Instr.detokMb 16 true true).wf = false := by decide
theorem test_wf_deqMb : (Instr.deqMb 4).wf = false := by decide
theorem test_wf_idctAdd : (Instr.idctAdd 32).wf = false := by decide
theorem test_wf_ipred16 : (Instr.ipred16 8).wf = false := by decide
theorem test_wf_ipredUv : (Instr.ipredUv 8).wf = false := by decide
theorem test_wf_ipred4_blk : (Instr.ipred4 32 0).wf = false := by decide
theorem test_wf_ipred4_bmode : (Instr.ipred4 0 16).wf = false := by decide
theorem test_wf_mcMb : (Instr.mcMb 4 false false).wf = false := by decide
theorem test_wf_lfMb_seg : (Instr.lfMb 4 0 0 false).wf = false := by decide
theorem test_wf_lfMb_ref : (Instr.lfMb 0 4 0 false).wf = false := by decide
theorem test_wf_lfMb_mode : (Instr.lfMb 0 0 16 false).wf = false := by decide

/-! ### Decoding: words written out from 30_encoding.md R131 and R140, binary fields over the opcode -/

theorem test_decode_nop : decodeTableWord 32 0b000000_00000000000000000000000000 = some .nop := by decide
theorem test_decode_sync : decodeTableWord 32 0b000001_00000000000000000000000000 = some .sync := by decide
theorem test_decode_wreg :
    decodeTableWord 64 (0xDEADBEEF * 2 ^ 32 + 0b000010_00000000000000_111111111110) =
      some (.wreg 4094 0xDEADBEEF) := by decide
theorem test_decode_mbSet :
    decodeTableWord 32 0b000011_00_100000000001_010000000010 = some (.mbSet 2049 1026) := by decide
theorem test_decode_bdInit : decodeTableWord 32 0b001000_1000_0000000000000000000000 = some (.bdInit 8) := by decide
theorem test_decode_bdBool :
    decodeTableWord 32 0b001001_0001_10000001_00000000000000 = some (.bdBool 1 129) := by decide
theorem test_decode_bdLit :
    decodeTableWord 32 0b001010_0010_100000_0000000000000000 = some (.bdLit 2 32) := by decide
theorem test_decode_detokFrame : decodeTableWord 32 0x40000000 = some .detokFrame := by decide
theorem test_decode_detokRow : decodeTableWord 32 0x44000000 = some .detokRow := by decide
theorem test_decode_detokMb :
    decodeTableWord 32 0b010010_0111_1_0_00000000000000000000 = some (.detokMb 7 true false) := by decide
theorem test_decode_qsetup : decodeTableWord 32 0x60000000 = some .qsetup := by decide
theorem test_decode_deqMb : decodeTableWord 32 0b011001_10_000000000000000000000000 = some (.deqMb 2) := by decide
theorem test_decode_iwht : decodeTableWord 32 0x80000000 = some .iwht := by decide
theorem test_decode_idctAdd : decodeTableWord 32 0b100001_000000000000000000000_10111 = some (.idctAdd 23) := by decide
theorem test_decode_reconMb : decodeTableWord 32 0b100010_0000000000000000000000000_1 = some (.reconMb true) := by decide
theorem test_decode_ipred16 : decodeTableWord 32 0b101000_00000000000000000000000_011 = some (.ipred16 3) := by decide
theorem test_decode_ipredUv : decodeTableWord 32 0b101001_00000000000000000000000_010 = some (.ipredUv 2) := by decide
theorem test_decode_ipred4 :
    decodeTableWord 32 0b101010_00000000000000000_01111_1001 = some (.ipred4 15 9) := by decide
theorem test_decode_mcMb :
    decodeTableWord 32 0b110000_10_0_1_0000000000000000000000 = some (.mcMb 2 false true) := by decide
theorem test_decode_lfMb :
    decodeTableWord 32 0b111000_11_01_1001_1_00000000000000000 = some (.lfMb 3 1 9 true) := by decide

/-- R135 and R132: an opcode outside the map and a set reserved bit are refused. -/
theorem test_decode_refuses :
    decodeTableWord 32 0x10000000 = none ∧ decodeTableWord 32 0x20004000 = none := by decide

/-- 41_detokenizer.md R231, R239: block, type, first position and the two flags of every block, in decoding order. -/
theorem test_block_order :
    (blockJobs true).map (fun j => (j.block, j.type, j.first, j.aboveFlag, j.leftFlag)) =
      [(24, 1, 0, 8, 8)] ++
      [(0, 0, 1, 0, 0), (1, 0, 1, 1, 0), (2, 0, 1, 2, 0), (3, 0, 1, 3, 0),
       (4, 0, 1, 0, 1), (5, 0, 1, 1, 1), (6, 0, 1, 2, 1), (7, 0, 1, 3, 1),
       (8, 0, 1, 0, 2), (9, 0, 1, 1, 2), (10, 0, 1, 2, 2), (11, 0, 1, 3, 2),
       (12, 0, 1, 0, 3), (13, 0, 1, 1, 3), (14, 0, 1, 2, 3), (15, 0, 1, 3, 3)] ++
      [(16, 2, 0, 4, 4), (17, 2, 0, 5, 4), (18, 2, 0, 4, 5), (19, 2, 0, 5, 5)] ++
      [(20, 2, 0, 6, 6), (21, 2, 0, 7, 6), (22, 2, 0, 6, 7), (23, 2, 0, 7, 7)] ∧
    (blockJobs false).map (fun j => (j.block, j.type, j.first)) =
      (List.range 16).map (fun b => (b, 3, 0)) ++ (List.range 8).map (fun b => (16 + b, 2, 0)) := by decide

/-! ### Small states -/

/-- The outcome is a next state that meets `f`. -/
def after (o : Outcome) (f : State → Bool) : Bool :=
  match o with
  | .next s => f s
  | .fault _ | .refused _ => false

/-- The outcome is the fault `f`. -/
def faults (o : Outcome) (f : Fault) : Bool :=
  match o with
  | .fault g => g == f
  | .next _ | .refused _ => false

/-- One step on the word `w` (two words: bits 63..32 are the second). -/
def run1 (s : State) (w : Nat) (f : State → Bool) : Bool := after (step (s.withFetchWord 64 w)) f

/-- "Layout 2x2" of 95_test_vectors.md, at macroblock (0, 0), BORDER_Y 32. -/
def cfg22 : CfgRegs :=
  { CfgRegs.reset with
    frameDim := 0x00020002, decCfg := 0x2000, roleMap := 0xE4
    slotYBase := #v[0x00100C20, 0x00200C20, 0x00300C20, 0x00400C20]
    slotUBase := #v[0x00140310, 0x00240310, 0x00340310, 0x00440310]
    slotVBase := #v[0x00160310, 0x00260310, 0x00360310, 0x00460310]
    slotStride := #v[0x00300060, 0x00300060, 0x00300060, 0x00300060] }

/-- Reset with that layout. -/
def s22 : State := { State.reset with cfg := cfg22 }

/-- The bytes at the addresses from `a` on, over a state. -/
def bytesAt (s : State) (a : Nat) (bs : List Nat) : State :=
  { s with mem := bs.zipIdx.foldl (fun m b => writeByte m (a + b.2) (BitVec.ofNat 8 b.1)) s.mem }

/-- Context 1 after BD_INIT over bytes at 0x1000, as the state fields give it. -/
def bd1 (value range bitCount pos size : Nat) : BoolCtx :=
  { BoolCtx.reset with
    value := BitVec.ofNat 16 value, range := BitVec.ofNat 8 range, bitCount := BitVec.ofNat 3 bitCount,
    pos := 0x1000 + pos, stop := 0x1000 + size, valid := true, start := 0x1000 }

/-- A state whose context 1 is `c`, over bytes at 0x1000. -/
def sBd (bs : List Nat) (c : BoolCtx) : State := bytesAt (State.reset.setBd 1 c) 0x1000 bs

/-! ### One step each: control and entropy -/

/-- CT-5. -/
theorem test_nop : run1 State.reset 0x00000000 (fun s => statusWord s == 0) = true := by decide +kernel
/-- CT-5, with IE_SYNC = 1. -/
theorem test_sync :
    run1 { State.reset with ieSync := true } 0x04000000 (fun s => statusWord s == 4 && irq s) = true := by decide +kernel
/-- CT-1: DEC_CFG keeps only its fields. -/
theorem test_wreg :
    run1 State.reset 0xFFFFFFFF08000009 (fun s => readReg s 9 .decCfg == 0x0000FF07) = true := by decide +kernel
/-- ER-26: STATUS is no target of WREG. -/
theorem test_wreg_bad_param :
    run1 State.reset 0x0000000108000002 (fun s => statusWord s == 0x402 && s.errInfo == 0x08000002) = true := by
  decide +kernel
/-- CT-4. -/
theorem test_mbSet : run1 s22 0x0C001001 (fun s => s.cfg.mbRow == 1 && s.cfg.mbCol == 1) = true := by decide +kernel
/-- CT-4. -/
theorem test_mbSet_outside :
    run1 s22 0x0C000002 (fun s => statusWord s == 0x302 && s.cfg.mbPos == 0) = true := by decide +kernel
/-- BD-10. -/
theorem test_bdInit :
    run1 (bytesAt { State.reset with cfg := { CfgRegs.reset with
        bdStart := CfgRegs.reset.bdStart.set 1 0x1000, bdSize := CfgRegs.reset.bdSize.set 1 2 } } 0x1000 [0x12, 0x34])
      0x20400000 (fun s => s.ctx 1 == bd1 0x1234 255 0 2 2) = true := by decide +kernel
/-- BD-5. -/
theorem test_bdBool :
    run1 (sBd [0xFE, 0x00, 0x55] (bd1 0xFE00 255 0 2 3)) 0x247FC000
      (fun s => s.result == 1 && s.ctx 1 == bd1 0 128 7 2 3) = true := by decide +kernel
/-- BD-7, the second decision: value * 2 is taken modulo 2^16. -/
theorem test_bdBool_wraps :
    run1 (sBd [0xFF, 0xFF, 0x00] (bd1 0xFFFE 254 1 2 3)) 0x24600000
      (fun s => s.result == 1 && s.ctx 1 == bd1 0x01FC 254 2 2 3) = true := by decide +kernel
/-- BD-10. -/
theorem test_bdLit :
    run1 (sBd [0x12, 0x34] (bd1 0x1234 255 0 2 2)) 0x28480000
      (fun s => s.result == 18 && s.ctx 1 == bd1 0x1A00 128 7 2 2) = true := by decide +kernel
/-- BD-12: 32 bits. -/
theorem test_bdLit_32 :
    run1 (sBd [0x12, 0x34, 0x56, 0x78, 0x9A, 0xBC] (bd1 0x1234 255 0 2 6)) 0x28600000
      (fun s => s.result == 0x12345678 && s.ctx 1 == bd1 0x4D00 128 7 5 6) = true := by decide +kernel

/-! ### Detokenizer -/

/-- A row of flags from its nine bits. -/
def nzRow (bits9 : Nat) : NzRow := Vector.ofFn fun k => some (bit bits9 k.val)

/-- The setup of TK-1: one macroblock, PROB flat, context 1 over the five bytes, no flag set. -/
def sTok : State :=
  let s := sBd [0xBF, 0x80, 0x00, 0x00, 0x00] (bd1 0xBF80 255 0 2 5)
  { s with
    cfg := { CfgRegs.reset with frameDim := 0x00010001 }
    ram := { Rams.reset with prob := Cells.fill 1056 fun _ => 128, nzLeft := nzRow 0, nzAbove := [(0, nzRow 0)] } }

/-- TK-5. -/
theorem test_detokFrame :
    run1 State.reset 0x40000000 (fun s => nzAboveGet s.ram.nzAbove 4095 == nzRow 0 && s.ram.nzLeft == NzRow.unwritten)
      = true := by decide +kernel
/-- TK-5. -/
theorem test_detokRow :
    run1 State.reset 0x44000000 (fun s => s.ram.nzLeft == nzRow 0 && s.ram.nzAbove == []) = true := by decide +kernel
/-- TK-1: a single +1 in Y2. -/
theorem test_detokMb :
    run1 sTok 0x48600000 (fun s =>
      Cells.get s.ram.coef 384 == some 1 && s.eobTotal == 1 && Cells.get s.ram.eob 24 == some 1 &&
      Cells.get s.ram.eob 0 == some 1 && Cells.get s.ram.eob 16 == some 0 &&
      nzAboveGet s.ram.nzAbove 0 == nzRow 0x100 && s.ram.nzLeft == nzRow 0x100 &&
      (s.ctx 1).pos == 0x1005 && !(s.ctx 1).exh) = true := by decide +kernel
/-- TK-4: a skipped macroblock without a Y2 block keeps the Y2 flags. -/
theorem test_detokMb_skip :
    run1 { sTok with ram := { sTok.ram with nzLeft := nzRow 0x118, nzAbove := [(0, nzRow 0x148)] } } 0x48500000
      (fun s => nzAboveGet s.ram.nzAbove 0 == nzRow 0x100 && s.ram.nzLeft == nzRow 0x100 && s.eobTotal == 0)
      = true := by decide +kernel

/-! ### Dequantizer and transforms -/

/-- DQ-2. -/
theorem test_qsetup :
    run1 { State.reset with cfg := { CfgRegs.reset with qBase := 127 } } 0x60000000
      (fun s => (List.range 6).map (dqfAt s 3) == [157, 284, 314, 440, 132, 284]) = true := by decide +kernel
/-- DQ-4: delta segments, clamped at both ends. -/
theorem test_qsetup_segments :
    run1 { State.reset with cfg := { CfgRegs.reset with qBase := 0x64, segCfg := 1, segQ := 0xF60A807F } } 0x60000000
      (fun s => (List.range 4).map (fun g => dqfAt s g 1) == [284, 4, 205, 137]) = true := by decide +kernel

/-- 00_scope.md R10: QSETUP reads the tables it is given. -/
theorem test_qsetup_tables :
    run1 { State.reset with rom := { romTables with dcq := Vector.replicate 128 9 } } 0x60000000
      (fun s => (List.range 6).map (dqfAt s 0) == [9, 4, 18, 8, 9, 4] && s.rom.dcq == Vector.replicate 128 9)
      = true := by decide +kernel

/-- COEF all 0 but for a few entries, and DQF as DQ-2 leaves it. -/
def sCoef (es : List (Nat × Int)) : State :=
  { State.reset with
    dqf := #v[157, 284, 314, 440, 132, 284, 157, 284, 314, 440, 132, 284, 157, 284, 314, 440, 132, 284,
      157, 284, 314, 440, 132, 284]
    ram := { Rams.reset with coef := es.foldl (fun c e => Cells.set c e.1 (BitVec.ofInt 16 e.2)) coefZero } }

/-- DQ-7, first row: the products. -/
theorem test_deqMb :
    let s := sCoef [(0, 3), (1, -2), (256, 5), (261, -1), (384, 2114), (385, -2114)]
    [0, 1, 256, 261, 384, 385].map (dequantAt s 0) = [471, -568, 660, -284, 663796, -930160] := by decide +kernel
/-- DQ-7, third and fourth rows: 32560 fits the 16-bit range and 33000 does not. -/
theorem test_deqMb_fits : wide (74 * 440) = false ∧ wide (75 * 440) = true ∧ factorIndex 24 3 = 3 := by decide

/-- DQ with block `b` written, zeros after the values given, and no other block. -/
def sDq (s : State) (b : Nat) (vs : List Int) : State :=
  s.setDq ((List.range 16).map fun i => (16 * b + i, BitVec.ofInt 32 (vs[i]?.getD 0)))

/-- TR-3, the sixth row. -/
theorem test_iwht :
    run1 (sDq State.reset 24 [1000, -200, 0, 50, 0, 0, 0, 0, 0, 30, 0, 0, 0, 0, 0, -7]) 0x80000000 (fun s =>
      (List.range 16).map (fun b => dqAt s.ram b 0) ==
        [109, 98, 152, 141, 103, 89, 161, 147, 102, 91, 159, 148, 111, 97, 153, 139].map some &&
      dqAt s.ram 24 0 == some 1000 && !s.wide16) = true := by decide +kernel
/-- TR-3, the last row: the outputs leave the 16-bit range. -/
theorem test_iwht_wide :
    run1 (sDq State.reset 24 [663796, -930160]) 0x80000000
      (fun s => dqAt s.ram 0 0 == some (-33296) && dqAt s.ram 3 0 == some 199244 && s.wide16) = true := by decide +kernel

/-- The pixels of an area of slot 0, row by row. -/
def area (s : State) (p : Plane) (x y : Int) (n : Nat) : List (List Int) :=
  (List.range n).map fun r => (List.range n).map fun k => pixel s.cfg s.mem 0 p (x + (k : Int)) (y + (r : Int))

/-- Slot 0 of a state with a block of value `v` at (x, y). -/
def fillBlock (s : State) (p : Plane) (x y : Int) (n : Nat) (v : Int) : State :=
  s.setMem (writePixels s.cfg 0 (areaWrites p x y n fun _ _ => v) s.mem)

/-- TR-4 on block 2: the general row of TR-2 over pixels of 100. -/
theorem test_idctAdd :
    run1 (sDq (fillBlock s22 .y 8 0 4 100) 2 [100, -50, 20, 0, 30, 10, 0, -5, 0, 0, 7, 0, -12, 0, 0, 3]) 0x84000002
      (fun s => area s .y 8 0 4 == [[113, 112, 115, 127], [110, 113, 117, 126], [102, 102, 112, 119],
        [102, 100, 110, 122]] && !s.wide16) = true := by decide +kernel
/-- TR-4 on block 0: 250 + 13 clamps to 255. -/
theorem test_idctAdd_clamps :
    run1 (sDq (fillBlock s22 .y 0 0 4 250) 0 [104]) 0x84000000
      (fun s => area s .y 0 0 4 == List.replicate 4 (List.replicate 4 255)) = true := by decide +kernel
/-- TR-4: RECON_MB of the chroma blocks changes U block 1 from 128 to 126. -/
theorem test_reconMb :
    run1 ((fillBlock (fillBlock s22 .u 0 0 8 128) .v 0 0 8 128).setDq
        ((List.range 128).map fun k => (256 + k, if k = 16 then -20 else 0))) 0x88000001
      (fun s => [pixel s.cfg s.mem 0 .u 4 0, pixel s.cfg s.mem 0 .u 7 3, pixel s.cfg s.mem 0 .u 3 3,
        pixel s.cfg s.mem 0 .u 4 4, pixel s.cfg s.mem 0 .v 4 0] == [126, 126, 128, 128, 128]) = true := by decide +kernel

/-! ### Intra prediction -/

/-- IP-3 at (0, 0), DC_PRED: no neighbour gives 128. -/
theorem test_ipred16_dc : mbPred cfg22 [] .dc .y 15 7 = 128 := by decide +kernel
/-- IP-3 at (1, 1), V_PRED: the row above holds 7x + 13*15. -/
theorem test_ipred16_v :
    let s := bytesAt { s22 with cfg := { cfg22 with mbPos := 0x00010001 } } (0x00100C20 + 96 * 15 + 16)
      [51, 58, 65, 72, 79, 86, 93, 100, 107, 114, 121, 128, 135, 142, 149, 156]
    [mbPred s.cfg s.mem .v .y 0 0, mbPred s.cfg s.mem .v .y 8 3, mbPred s.cfg s.mem .v .y 15 15] = [51, 72, 156] := by
  decide +kernel
/-- IP-3 at (0, 0), H_PRED on both chroma planes. -/
theorem test_ipredUv :
    run1 s22 0xA4000002 (fun s => area s .u 0 0 8 == List.replicate 8 (List.replicate 8 129) &&
      area s .v 0 0 8 == List.replicate 8 (List.replicate 8 129)) = true := by decide +kernel
/-- IP-4 at (1, 1), block 7, B_LD: the samples above right come from the row above the macroblock. -/
theorem test_ipred4 :
    run1 (bytesAt (bytesAt { s22 with cfg := { cfg22 with mbPos := 0x00010001 } } (0x00100C20 + 96 * 15 + 31) [156])
        (0x00100C20 + 96 * 19 + 28) [187, 194, 201, 208]) 0xA8000074
      (fun s => area s .y 28 20 4 ==
        [[194, 201, 193, 169], [201, 193, 169, 156], [193, 169, 156, 156], [169, 156, 156, 156]]) = true := by
  decide +kernel
/-- IP-2, the modes of the last two rows: extremes of 0 and 255. -/
theorem test_ipred4_modes :
    let q : Samples := { above := [255, 0, 255, 0, 128, 128, 128, 128], left := [0, 255, 0, 255], corner := 200 }
    let g (m : SubMode) : List (List Int) := (List.range 4).map fun r => (List.range 4).map fun c => subPred m q r c
    g .hd = [[100, 164, 178, 128], [128, 114, 100, 164], [128, 128, 128, 114], [128, 128, 128, 128]] ∧
    g .vr = [[228, 128, 128, 128], [164, 178, 128, 128], [114, 228, 128, 128], [128, 164, 178, 128]] ∧
    g .vl = [[128, 128, 128, 64], [128, 128, 96, 96], [128, 128, 64, 128], [128, 96, 96, 128]] := by decide +kernel

/-! ### Inter prediction and the loop filter -/

/-- MC-1, zero vector: pixel (5, 6) of the reference slot is 178. -/
theorem test_mcMb :
    interPred State.reset.rom cfg22 (bytesAt s22 (0x00200C20 + 96 * 6 + 5) [178]).mem 1 false false .y 6 5 = 178 := by
  decide +kernel
/-- MC-1's detail: vector (0, 2), six taps at phase 4 over one row, 220. -/
theorem test_mcMb_sixtap :
    interpolate State.reset.rom false (fun x _ => [147, 174, 178, 217, 6, 57][(x - 3).toNat]?.getD 0)
      (sourceOf .y 5 6 { row := 0, col := 2 }) = 220 := by decide +kernel
/-- MC-5: the chroma vectors of a split macroblock, block 3. -/
theorem test_mcMb_chroma :
    chromaMv { cfg22 with mv := #v[0, 0, 0, 0, 0, 0, 0, 0, 0, 0, 0xFFFDFFFD, 0, 0, 0, 0x000DFFF3, 0x000DFFF3] } true false 3
      = { row := 6, col := -7 } := by decide +kernel
/-- LF-7 and R438: LEVEL 0 changes nothing; the same word at LEVEL 20 is not NOP but completes. -/
theorem test_lfMb_level0 : run1 s22 0xE0000000 (fun s => s.mem == []) = true := by decide +kernel
/-- LF-3, the smooth line at level 32 on a key frame: inner, macroblock and simple filters. -/
theorem test_lfMb_lines :
    let l : Line8 := { p3 := 100, p2 := 100, p1 := 100, p0 := 100, q0 := 110, q1 := 110, q2 := 110, q3 := 110 }
    let f := filterParams { CfgRegs.reset with decCfg := 1 } 32
    filterLine f false l = { l with p1 := 102, p0 := 104, q0 := 106, q1 := 108 } ∧
    filterLine f true l = { l with p2 := 101, p1 := 103, p0 := 104, q0 := 106, q1 := 107, q2 := 109 } ∧
    filterLine { f with simple := true } true l = { l with p0 := 102, q0 := 107 } := by decide +kernel

/-! ### Witnesses: encoding and the command loop -/

theorem witness_DecodeEncode : (Instr.lfMb 3 3 15 true).wf = true := by decide

theorem witness_EncodeDecode : decode [0x08000009, 0xFFFFFFFF, 0x00000000] = .ok (.wreg 9 0xFFFFFFFF, [0x00000000]) := by
  decide

theorem witness_CommandWords :
    (4095 < 4096 ∧ 15 < 16 ∧ 255 < 256 ∧ 63 < 64) ∧ (3 < 4 ∧ 31 < 32 ∧ 7 < 8) := by decide

/-- A set reserved bit, none set, and an unmapped opcode at the head of CMDQ. -/
theorem witness_IllegalCommands :
    (takeCommand [0x0D000000] = some (⟨0x0D000000, 0, false⟩, []) ∧ ((0x0D000000 : Word) >>> 26).toNat = 0x03 ∧
      (0x0D000000 : Word) &&& 0x03000000 ≠ 0) ∧
    (takeCommand [0x0C001001] = some (⟨0x0C001001, 0, false⟩, []) ∧ ((0x0C001001 : Word) >>> 26).toNat = 0x03 ∧
      (0x0C001001 : Word) &&& 0x03000000 = 0) ∧
    (takeCommand [0x10000000] = some (⟨0x10000000, 0, false⟩, []) ∧ ((0x10000000 : Word) >>> 26).toNat = 0x04) := by decide

/-- An undecodable word taken with no HOST action waiting and at a run entry, one in execution, and one in execution while
a write to CMD is held. -/
theorem witness_IllegalCommands_turns (v : Word) :
    (let s : State := { State.reset with cmdq := [0x0D000000] }
     CoreTurn s [] ∧ s.running = none ∧ s.err = false ∧ takeCommand s.cmdq = some (⟨0x0D000000, 0, false⟩, [])) ∧
    (let s : State := { State.reset with cmdq := [0x10000000], inputs := [.run, .hardReset] }
     CoreTurn s [.hardReset] ∧ s.running = none ∧ s.err = false ∧
      takeCommand s.cmdq = some (⟨0x10000000, 0, false⟩, [])) ∧
    (let s : State := { State.reset with running := some ⟨0x10000000, 0, false⟩, inputs := [.run] }
     CoreTurn s [] ∧ s.running = some ⟨0x10000000, 0, false⟩) ∧
    (let s : State := { State.reset with
       running := some ⟨0x10000000, 0, false⟩, cmdq := List.replicate Config.cmdqDepth 0,
       inputs := [.mmioWrite 0x000C 4 v] }
     CoreTurn s [.mmioWrite 0x000C 4 v] ∧ s.running = some ⟨0x10000000, 0, false⟩) := by
  refine ⟨⟨.inl ⟨rfl, rfl⟩, rfl, rfl, by decide⟩, ⟨.inr (.inl rfl), rfl, rfl, by decide⟩, ⟨.inr (.inl rfl), rfl⟩,
    .inr (.inr ⟨rfl, rfl, ?_, v, [], rfl⟩), rfl⟩
  show Config.cmdqDepth ≤ (List.replicate Config.cmdqDepth (0 : Word)).length
  rw [List.length_replicate]

/-- 47_control.md R471 and 60_exceptions.md R503: a word outside the map, already in execution, raises ILLEGAL_CMD at the
CORE's turn. -/
theorem test_illegal_in_execution :
    after (step { State.reset with running := some ⟨0x10000000, 0, false⟩, cmdq := [0], inputs := [.run] })
      (fun s => s.err && s.errCode == 1 && s.errInfo == 0x10000000 && s.cmdq == [] && s.running == none) = true := by
  decide +kernel

/-- A queued command, the same with a run entry, and a command in execution, with and without a reset waiting for it; a
beginCommand entry with a command to take, and with nothing to do. -/
theorem witness_StepRunsDecoded :
    (let s : State := { State.reset with cmdq := [0x04000000, 0x0C000000] }
     CoreTurn s [] ∧ s.running = none ∧ s.err = false ∧ decode s.cmdq = .ok (.sync, [0x0C000000])) ∧
    (let s : State := { State.reset with cmdq := [0x04000000], inputs := [.run, .hardReset] }
     CoreTurn s [.hardReset] ∧ s.running = none ∧ s.err = false ∧ decode s.cmdq = .ok (.sync, [])) ∧
    (let s : State := { State.reset with running := some ⟨0x04000000, 0, false⟩ }
     CoreTurn s [] ∧ s.running = some ⟨0x04000000, 0, false⟩ ∧ decodeWord 0x04000000 0 = .ok .sync) ∧
    (let s : State := { State.reset with running := some ⟨0x04000000, 0, true⟩, inputs := [.run] }
     CoreTurn s [] ∧ s.running = some ⟨0x04000000, 0, true⟩ ∧ decodeWord 0x04000000 0 = .ok .sync) ∧
    (⟨0x04000000, 0, false⟩ : Command).resetAfter = false ∧
    (let s : State := { State.reset with cmdq := [0x04000000], inputs := [.beginCommand] }
     s.inputs = .beginCommand :: [] ∧ s.running = none ∧ s.err = false ∧
      takeCommand s.cmdq = some (⟨0x04000000, 0, false⟩, [])) ∧
    (let s : State := { State.reset with inputs := [.beginCommand] }
     s.inputs = .beginCommand :: [] ∧ takeCommand s.cmdq = none) :=
  ⟨⟨.inl ⟨rfl, rfl⟩, rfl, rfl, by decide +kernel⟩, ⟨.inr (.inl rfl), rfl, rfl, by decide +kernel⟩,
    ⟨.inl ⟨rfl, rfl⟩, rfl, by decide +kernel⟩, ⟨.inr (.inl rfl), rfl, by decide +kernel⟩, rfl,
    ⟨rfl, rfl, rfl, by decide⟩, rfl, rfl⟩

theorem witness_WregWaitsForData :
    ((0x08000FFF : Word) >>> 26).toNat = 0x02 ∧ ((0x0C000FFF : Word) >>> 26).toNat ≠ 0x02 ∧
    (let s : State := { State.reset with cmdq := [0x08000FFF] }
     s.inputs = [] ∧ s.running = none ∧ s.cmdq = [0x08000FFF]) := by decide +kernel

/-! ### Witnesses: the HOST's port, the resets and the error state -/

/-- A state with one HOST action to come. -/
def sIn (s : State) (i : Input) : State := { s with inputs := [i] }

/-- Word 0x307 is the last word of the PROB window; BUSY is 1 with a command queued and 0 without. -/
theorem witness_CfgWritePaths :
    (∀ k ∈ [7, 10, 0x10, 0x31, 0x80, 0x88, 0xC0, 0xCF, 0x200, 0x307],
      (7 ≤ k ∧ k ≤ 10) ∨ (0x10 ≤ k ∧ k < 0x32) ∨ (0x80 ≤ k ∧ k < 0x89) ∨ (0xC0 ≤ k ∧ k < 0xD0) ∨
        (0x200 ≤ k ∧ k < 0x308)) ∧
    (let s := sIn { State.reset with cmdq := [0] } (.mmioWrite (4 * 0x307) 4 5)
     s.inputs = .mmioWrite (4 * 0x307) 4 5 :: [] ∧ busy s = true) ∧
    (let s := sIn State.reset (.mmioWrite (4 * 7) 4 5)
     s.inputs = .mmioWrite (4 * 7) 4 5 :: [] ∧ busy s = false) := by decide +kernel

/-- Room in an empty CMDQ and in one a word short of its depth, ERR = 1, and CMDQ full. -/
theorem witness_CmdPort (v : Word) :
    (let s := sIn State.reset (.mmioWrite 0x000C 4 v)
     s.inputs = .mmioWrite 0x000C 4 v :: [] ∧ s.err = false ∧ s.cmdq.length < Config.cmdqDepth) ∧
    (let s := sIn { State.reset with cmdq := List.replicate (Config.cmdqDepth - 1) 0 } (.mmioWrite 0x000C 4 v)
     s.inputs = .mmioWrite 0x000C 4 v :: [] ∧ s.err = false ∧ s.cmdq.length = Config.cmdqDepth - 1 ∧
      s.cmdq.length < Config.cmdqDepth) ∧
    (let s := sIn { State.reset with err := true } (.mmioWrite 0x000C 4 v)
     s.inputs = .mmioWrite 0x000C 4 v :: [] ∧ s.err = true) ∧
    (let s := sIn { State.reset with cmdq := List.replicate Config.cmdqDepth 0 } (.mmioWrite 0x000C 4 v)
     s.inputs = .mmioWrite 0x000C 4 v :: [] ∧ s.err = false ∧ Config.cmdqDepth ≤ s.cmdq.length) := by
  have hl : ∀ n, (List.replicate n (0 : Word)).length = n := fun n => List.length_replicate ..
  have hd : Config.cmdqDepth = Config.cmdqExtra + 2 := rfl
  refine ⟨⟨rfl, rfl, ?_⟩, ⟨rfl, rfl, hl _, ?_⟩, ⟨rfl, rfl⟩, rfl, rfl, ?_⟩
  · show 0 < Config.cmdqDepth
    omega
  · show (List.replicate (Config.cmdqDepth - 1) (0 : Word)).length < Config.cmdqDepth
    rw [hl]
    omega
  · show Config.cmdqDepth ≤ (List.replicate Config.cmdqDepth (0 : Word)).length
    rw [hl]

theorem witness_StatusRegister (v : Word) :
    (sIn State.reset (.mmioWrite 0x0008 4 v)).inputs = .mmioWrite 0x0008 4 v :: [] := rfl

/-- A narrow access; a write while BUSY = 1 to a covered partition; one while BUSY = 0. -/
theorem witness_HostAccesses :
    ¬ (2 = 4 ∧ 0 % 4 = 0 ∧ 0 < 0x8000) ∧
    (let s := sIn { sBd [0x12] (bd1 0 255 0 2 2) with cmdq := [0] } (.memWrite 0x1001 7)
     s.inputs = .memWrite 0x1001 7 :: [] ∧ busy s = true ∧
      (s.ctx 1).valid = true ∧ (s.ctx 1).start ≤ (0x1001 : Word).toNat ∧ (0x1001 : Word).toNat < (s.ctx 1).stop) ∧
    (let s := sIn State.reset (.memWrite 0x1001 7)
     s.inputs = .memWrite 0x1001 7 :: [] ∧ busy s = false) := by decide +kernel

/-- Writes to RESULT, to BD_ZFILL[8] and to the last RSV word; reads of RSV words at the ends of gaps; written entries. -/
theorem witness_HostAccesses_registers :
    (∀ k ∈ [0, 4, 6, 11, 0x63, 0xA7, 0x118, 0x4C7, 0xC00, 8191], k < 8192 ∧
      (∀ p ∈ [(1, 4), (7, 11), (0x10, 0x32), (0x80, 0x89), (0xC0, 0xD0), (0x200, 0x308)], ¬ (p.1 ≤ k ∧ k < p.2)) ∧
      (sIn State.reset (.mmioWrite (4 * k) 4 7)).inputs = .mmioWrite (4 * k) 4 7 :: []) ∧
    (∀ k ∈ [11, 15, 0x32, 0x64, 0x8F, 0xA8, 0xD0, 0x119, 0x308, 0x4C8, 0x990, 0xC01, 0xFFF],
      k < 8192 ∧ regAtWord k = .rsv) ∧
    (let s : State := { State.reset with ram := { Rams.reset with
      eob := [(24, 16)], prob := [(1055, 9)], coef := [(399, 5)], dq := [(399, 7)], nzLeft := nzRow 0x1FF } }
     Cells.get s.ram.eob 24 = some 16 ∧ Cells.get s.ram.prob 1055 = some 9 ∧ Cells.get s.ram.coef 399 = some 5 ∧
      Cells.get s.ram.dq 399 = some 7 ∧ ∀ k, k < 9 → nzGet s.ram.nzLeft k = some true) := by decide +kernel

/-- A write while BUSY = 1 to the corner of slot 0's luma border. -/
theorem witness_HostAccesses_pixel :
    Readable s22.cfg ⟨.y, -32, -32⟩ ∧
    Point.addr s22.cfg (s22.cfg.roleSlot 0) ⟨.y, -32, -32⟩ = ((0x00100000 : Word).toNat : Int) := by
  refine ⟨?_, by decide +kernel⟩
  unfold Readable
  decide +kernel

/-- Bit 0 set with nothing in execution and with a NOP in execution, and bit 0 clear; a NOP and an undecodable word in
execution with a reset waiting. -/
theorem witness_SoftResetRule :
    (let s := sIn State.reset (.mmioWrite 0x0004 4 1)
     s.inputs = .mmioWrite 0x0004 4 1 :: [] ∧ (1 : Word).getLsbD 0 = true ∧ s.running = none) ∧
    (let s := sIn { State.reset with running := some ⟨0, 0, false⟩ } (.mmioWrite 0x0004 4 1)
     s.inputs = .mmioWrite 0x0004 4 1 :: [] ∧ s.running = some ⟨0, 0, false⟩) ∧
    (6 : Word).getLsbD 0 = false ∧
    (let s : State := { State.reset with running := some ⟨0, 0, true⟩ }
     s.running = some ⟨0, 0, true⟩ ∧ CoreTurn s [] ∧ decodeWord 0 0 = .ok .nop ∧
      exec .nop { s with inputs := [] } = .next { s with inputs := [] }) ∧
    (let s := sIn { State.reset with running := some ⟨0x10000000, 0, true⟩ } .run
     s.running = some ⟨0x10000000, 0, true⟩ ∧ CoreTurn s [] ∧ ∀ i, decodeWord 0x10000000 0 ≠ .ok i) := by
  refine ⟨by decide +kernel, ⟨rfl, rfl⟩, by decide, ⟨rfl, .inl ⟨rfl, rfl⟩, rfl, rfl⟩, rfl, .inr (.inl rfl), fun i h => ?_⟩
  rw [show decodeWord 0x10000000 0 = .error .illegalOpcode from rfl] at h
  cases h

/-- R541: the soft reset waits, EXEC stays 1, and the turn that completes the SYNC resets. -/
theorem test_soft_reset_waits :
    after (step (sIn { State.reset with running := some ⟨0x04000000, 0, false⟩, ieSync := true } (.mmioWrite 4 4 1)))
      (fun s => busy s && s.ieSync && s.running == some ⟨0x04000000, 0, true⟩) = true ∧
    after (step { State.reset with running := some ⟨0x04000000, 0, true⟩, ieSync := true, cmdq := [0, 0] })
      (fun s => s == State.reset) = true := by decide +kernel

theorem witness_HardResetRule : (sIn s22 .hardReset).inputs = .hardReset :: [] := rfl

theorem witness_ResetValues : softReset s22 = softReset s22 ∧ 1 ≤ 7 ∧ 0x18F < 8192 := ⟨rfl, by decide, by decide⟩

theorem coefZero_written (j : Nat) (hj : j < 400) : (Cells.get coefZero j).isSome = true :=
  (congrArg Option.isSome (Cells.get_fill_lt (fun _ => (0 : BitVec 16)) hj)).trans rfl

/-- COEF all written, DQF and ROLE_MAP 0: the reset registers, and the layout with ROLE_MAP 0. -/
theorem witness_ResetConsequences :
    State.reset.cfg.frameDim = 0 ∧ (∀ i, i < 9 → (State.reset.ctx i).valid = false) ∧
    posOk s22.cfg = true ∧ (∀ i, i < 9 → (s22.ctx i).valid = false) ∧
    (State.reset.dqf = Vector.replicate 24 0 ∧ ∀ j, j < 400 → (Cells.get coefZero j).isSome = true) ∧
    (let c : CfgRegs := { cfg22 with roleMap := 0 }
     c.roleMap = 0 ∧ posOk c = true) :=
  ⟨rfl, by decide +kernel, by decide +kernel, by decide +kernel, ⟨rfl, coefZero_written⟩, by decide +kernel⟩

/-- A command that raises an error from a state without one. -/
theorem witness_ErrorEntryPrecise :
    State.reset.err = false ∧
    exec (.bdInit 9) State.reset = .next (errorEntry .bdNotInit (Instr.bdInit 9).word State.reset) ∧
    (errorEntry .bdNotInit (Instr.bdInit 9).word State.reset).err = true := ⟨rfl, rfl, rfl⟩

/-- The error state after MB_SET outside the frame. -/
def sErr : State := errorEntry .posOob (Instr.mbSet 0 0).word State.reset

theorem witness_ErrorStateHolds :
    sErr.err = true ∧ sErr.cmdq = [] ∧ sErr.running = none ∧ sErr.inputs = [] ∧
    (sIn sErr .run).inputs = .run :: [] ∧
    (sIn sErr (.mmioWrite 0x000C 4 0)).inputs = .mmioWrite 0x000C 4 0 :: [] ∧
    (7 ≤ 0x0A ∧ 0x0A ≤ 10) ∧
    (sIn sErr (.mmioWrite (4 * 0x0A) 4 0xE4)).inputs = .mmioWrite (4 * 0x0A) 4 0xE4 :: [] := by decide +kernel

theorem sErr_inv : sErr.Inv where
  mem := rfl
  ram := Rams.reset_ok
  ctx := fun i _ => by
    show (fileGet (Vector.replicate 9 BoolCtx.reset) i BoolCtx.reset).Ok
    rw [ctx_replicate_reset]
    exact BoolCtx.reset_ok
  reserved := CfgRegs.reset_reservedZero
  error := ⟨fun h => (by cases h), fun _ => ⟨rfl, rfl, by decide, by decide⟩⟩
  total := by decide
  queue := Nat.zero_le _

/-- A turn of the CORE, a hard reset and a soft reset, each out of the error state. -/
theorem witness_OnlyResetClearsError :
    (sErr.Inv ∧ sErr.err = true ∧ step sErr = .next sErr) ∧
    ((sIn sErr .hardReset).Inv ∧ (sIn sErr .hardReset).err = true ∧
      step (sIn sErr .hardReset) = .next { State.reset with epoch := 1 }) ∧
    ((sIn sErr (.mmioWrite 4 4 1)).Inv ∧ (sIn sErr (.mmioWrite 4 4 1)).err = true ∧
      step (sIn sErr (.mmioWrite 4 4 1)) = .next State.reset) :=
  ⟨⟨sErr_inv, rfl, rfl⟩, ⟨Inv_inputs sErr_inv _, rfl, rfl⟩, ⟨Inv_inputs sErr_inv _, rfl, rfl⟩⟩

/-! ### Witnesses: control and the bool decoder -/

theorem witness_NopAndSync : ({ State.reset with ieSync := true } : State).ieSync = true := rfl

/-- The ends of each range of CFG words, and words just outside. -/
theorem witness_WregRule :
    (∀ k ∈ [7, 10, 0x10, 0x1F, 0x20, 0x31, 0x80, 0x88, 0xC0, 0xCF, 0x200, 0x307],
      k < 4096 ∧ (regAtWord k).isCfg = true) ∧
    (∀ k ∈ [0, 6, 11, 0x32, 0x40, 0x89, 0x90, 0xD0, 0x1FF, 0x308, 4095],
      k < 4096 ∧ (regAtWord k).isCfg = false) ∧
    3 < 4 ∧ 8 < 9 ∧ 15 < 16 ∧ 23 < 24 ∧ 8191 < 8192 := by decide +kernel

/-- R58 and 47_control.md R473: WREG to the last PROB word, with nothing written before, writes entries 1052 to 1055. -/
theorem test_wreg_prob_lanes :
    after (exec (.wreg 0x307 0x44332211) State.reset)
      (fun s => ((List.range 4).map fun k => Cells.get s.ram.prob (1052 + k)) ==
        [some 0x11, some 0x22, some 0x33, some 0x44]) = true := by decide +kernel

theorem witness_MbSetRule :
    (0 < s22.cfg.mbCols ∧ 0 < s22.cfg.mbRows ∧ 1 < s22.cfg.mbCols ∧ 1 < s22.cfg.mbRows) ∧
    ¬ (0 < s22.cfg.mbCols ∧ 0 < s22.cfg.mbRows ∧ 2 < s22.cfg.mbCols ∧ 0 < s22.cfg.mbRows) := by decide +kernel

/-- Index 9; a partition one byte past 2^32; one that ends there. -/
theorem witness_BdInitRule :
    8 < 9 ∧
    (let c : CfgRegs := { CfgRegs.reset with
      bdStart := CfgRegs.reset.bdStart.set 8 0xFFFFFFFF, bdSize := CfgRegs.reset.bdSize.set 8 2 }
     2 ^ 32 < c.bdStartAt 8 + c.bdSizeAt 8) ∧
    (let c : CfgRegs := { CfgRegs.reset with
      bdStart := CfgRegs.reset.bdStart.set 8 0xFFFFFFFF, bdSize := CfgRegs.reset.bdSize.set 8 1 }
     c.bdStartAt 8 + c.bdSizeAt 8 ≤ 2 ^ 32) := by decide +kernel

theorem witness_BdBoolRule :
    ¬ (1 ≤ 8 ∧ (State.reset.ctx 1).valid = true) ∧
    (let s := sBd [0x12, 0x34] (bd1 0x1234 128 0 2 2)
     (s.ctx 1).valid = true ∧ 128 ≤ (s.ctx 1).range.toNat) := by decide +kernel

/-- bit_count 0 and 6, 7 with a byte left, 7 at the end; range 1. -/
theorem witness_Renormalisation :
    ((bd1 0 127 0 2 3).range.toNat < 128 ∧ (bd1 0 127 0 2 3).bitCount.toNat < 7) ∧
    ((bd1 0 1 6 2 3).range.toNat < 128 ∧ (bd1 0 1 6 2 3).bitCount.toNat < 7) ∧
    ((bd1 0 1 7 2 3).bitCount.toNat = 7 ∧ (bd1 0 1 7 2 3).pos < (bd1 0 1 7 2 3).stop) ∧
    ((bd1 0 1 7 3 3).bitCount.toNat = 7 ∧ (bd1 0 1 7 3 3).stop ≤ (bd1 0 1 7 3 3).pos) ∧
    1 ≤ (bd1 0 1 7 3 3).range.toNat := by decide +kernel

theorem witness_BdLitRule :
    ¬ (9 ≤ 8 ∧ (State.reset.ctx 9).valid = true) ∧ 32 < 33 ∧ 31 < 32 ∧
    (let s := sBd [0x12, 0x34] (bd1 0x1234 255 0 2 2)
     1 ≤ 8 ∧ (s.ctx 1).valid = true) := by decide +kernel

theorem bd1_ok : (bd1 0x1234 255 0 2 2).Ok := by
  refine ⟨?_, ?_, ?_, ?_, ?_⟩ <;> decide

theorem witness_ContextInvariant :
    0xFFFFFFFE + 2 ≤ memSize ∧ (bd1 0x1234 255 0 2 2).valid = true ∧ (bd1 0x1234 255 0 2 2).Ok ∧
    (bd1 0x1234 255 0 2 2).value.toNat < (bd1 0x1234 255 0 2 2).range.toNat * 256 :=
  ⟨by decide, rfl, bd1_ok, by decide⟩

/-- A partition that begins with 0xFF. -/
theorem witness_FirstByteFF :
    0x1000 + 2 ≤ memSize ∧
    (let c := initCtx [(0x1000, 0xFF), (0x1001, 0x00)] 0x1000 2
     ¬ c.value.toNat < c.range.toNat * 256) := by decide +kernel

/-- Two states that differ in another context and in a byte past the partition. -/
theorem witness_StreamDeterminism :
    let s := sBd [0x12, 0x34, 0x56] (bd1 0x1234 255 0 1 2)
    let u := (sBd [0x12, 0x34, 0x57] (bd1 0x1234 255 0 1 2)).setBd 2 (bd1 0 255 0 0 0)
    s.ctx 1 = u.ctx 1 ∧ s.result = u.result ∧
    (∀ a, (s.ctx 1).pos ≤ a → a < (s.ctx 1).stop → readByte s.mem a = readByte u.mem a) ∧
    after (exec (.bdLit 1 8) s) (fun _ => true) = true ∧ after (exec (.bdLit 1 8) u) (fun _ => true) = true := by
  refine ⟨by decide +kernel, by decide +kernel, ?_, by decide +kernel, by decide +kernel⟩
  intro a h1 h2
  have h1' : 0x1001 ≤ a := h1
  have h2' : a < 0x1002 := h2
  obtain rfl : a = 0x1001 := by omega
  decide +kernel

/-! ### Witnesses: the detokenizer, the dequantizer and the transforms -/

theorem witness_SkippedMacroblock : posOk sTok.cfg = true := by decide +kernel

/-- An illegal position, an unusable context, and everything written. -/
theorem witness_DetokMbCompletes :
    posOk State.reset.cfg = false ∧
    (posOk sTok.cfg = true ∧ ¬ (2 ≤ 8 ∧ (sTok.ctx 2).valid = true)) ∧
    (1 ≤ 8 ∧ (sTok.ctx 1).valid = true ∧ (∀ e, e < 1056 → (Cells.get sTok.ram.prob e).isSome = true) ∧
      ∀ k, k < 9 → (nzGet (nzAboveGet sTok.ram.nzAbove sTok.cfg.mbCol) k).isSome = true ∧
        (nzGet sTok.ram.nzLeft k).isSome = true) := by
  refine ⟨by decide +kernel, by decide +kernel, by decide, by decide +kernel, fun e he => ?_, by decide +kernel⟩
  have hp : sTok.ram.prob = Cells.fill 1056 fun _ => (128 : Byte) := by
    simp only [sTok]
  rw [hp, Cells.get_fill_lt _ he]
  rfl

/-- The fold of DetokMbCompletes, in its own words. -/
def detokFold (s : State) (i : Nat) (y2 : Bool) : Option DetokAcc :=
  let type : Nat → Nat := fun b => if b = 24 then 1 else if 16 ≤ b then 2 else if y2 then 0 else 3
  let first : Nat → Nat := fun b => if b < 16 ∧ y2 = true then 1 else 0
  let aboveBit : Nat → Nat := fun b =>
    if b = 24 then 8 else if b < 16 then b % 4 else if b < 20 then 4 + b % 2 else 6 + b % 2
  let leftBit : Nat → Nat := fun b =>
    if b = 24 then 8 else if b < 16 then b / 4 else if b < 20 then 4 + (b - 16) / 2 else 6 + (b - 20) / 2
  let block : DetokAcc → Nat → Option DetokAcc := fun a b =>
    (nzGet a.above (aboveBit b)).bind fun fa => (nzGet a.left (leftBit b)).bind fun fl =>
    (decodeBlock s.rom s.mem s.ram.prob (type b) b (first b) (fa.toNat + fl.toNat) a.ctx a.coef).map fun r =>
      { ctx := r.ctx, coef := r.coef, eob := Cells.set a.eob b (BitVec.ofNat 5 r.eob),
        above := nzSet a.above (aboveBit b) (decide (first b < r.eob)),
        left := nzSet a.left (leftBit b) (decide (first b < r.eob)), total := a.total + (r.eob - first b) }
  ((if y2 then [24] else []) ++ List.range 24).foldlM block
    { ctx := s.ctx i, coef := Cells.fill 400 fun _ => 0, eob := Cells.fill 25 fun _ => 0,
      above := nzAboveGet s.ram.nzAbove s.cfg.mbCol, left := s.ram.nzLeft, total := 0 }

/-- TK-1's total with a Y2 block, a fold without one, and one that meets an unwritten flag. -/
theorem witness_DetokMbCompletes_blocks :
    (detokFold sTok 1 true).map (fun z => z.total) = some 1 ∧ (detokFold sTok 1 false).isSome = true ∧
    (let s := { sTok with ram := Rams.reset }
     posOk s.cfg = true ∧ (s.ctx 1).valid = true ∧ detokFold s 1 true = none) := by decide +kernel

/-- A DETOK_MB that decodes, with and without a Y2 block. -/
theorem witness_DetokFlagsAndTotal :
    posOk sTok.cfg = true ∧ 1 ≤ 8 ∧ (sTok.ctx 1).valid = true ∧
    after (exec (.detokMb 1 true false) sTok) (fun _ => true) = true ∧
    after (exec (.detokMb 1 false false) sTok) (fun _ => true) = true := by decide +kernel

/-- The same hypotheses, with the default tables. -/
theorem witness_DetokCoefRange :
    sTok.rom = romTables ∧ posOk sTok.cfg = true ∧ 1 ≤ 8 ∧ (sTok.ctx 1).valid = true ∧
    after (exec (.detokMb 1 true false) sTok) (fun _ => true) = true ∧
    after (exec (.detokMb 1 false false) sTok) (fun _ => true) = true :=
  ⟨rfl, witness_DetokFlagsAndTotal⟩

/-- A token of the tree walk in TK-1's Y2 block: the ONE. -/
theorem witness_TokenByTree :
    ((treeWalk tokenTree sTok.mem (probEntry sTok.ram.prob 1 0 0) 11 0 (sTok.ctx 1)).map fun r => r.1) = some .one := by
  decide +kernel

/-- TK-1's Y2 block: a ONE and an EOB, so eob lies between; and an EOB at once. -/
theorem witness_BlockEob :
    24 < 25 ∧ 0 < 16 ∧
    ((decodeBlock romTables sTok.mem sTok.ram.prob 1 24 0 0 (sTok.ctx 1) coefZero).map fun r => r.eob) = some 1 ∧
    ((decodeAt sTok.mem (probEntry sTok.ram.prob 1 (scanBand romTables 0) 0 0) (bd1 0 255 0 2 5)).map
      fun r => r.1) = some false ∧
    ((decodeBlock romTables sTok.mem sTok.ram.prob 1 24 0 0 (bd1 0 255 0 2 5) coefZero).map fun r => r.eob) = some 0 := by
  decide +kernel

theorem witness_QsetupRule : 3 < 4 ∧ State.reset.rom = romTables ∧ 284 ≤ 284 := ⟨by decide, rfl, by decide⟩

/-- COEF all written, and none written. -/
theorem witness_DeqMbRule :
    3 < 4 ∧ (∀ j, j < 400 → (Cells.get ({ Rams.reset with coef := coefZero } : Rams).coef j).isSome = true) ∧
    (399 < 400 ∧ Cells.get State.reset.ram.coef 399 = none) := by
  refine ⟨by decide, fun j hj => ?_, by decide, rfl⟩
  show (Cells.get (Cells.fill 400 fun _ => (0 : BitVec 16)) j).isSome = true
  rw [Cells.get_fill_lt _ hj]
  rfl

theorem witness_IwhtRule :
    (∀ i, i < 16 → (Cells.get (sDq State.reset 24 [100]).ram.dq (384 + i)).isSome = true) ∧
    (15 < 16 ∧ Cells.get State.reset.ram.dq (384 + 15) = none) := by decide +kernel

theorem witness_IwhtHadamard : 3 < 4 := by decide

/-! ### The layout's planes lie in data memory -/

theorem cfg22_planes (p : Plane) :
    planeW cfg22 p = (if p = .y then 32 else 16) ∧ planeH cfg22 p = (if p = .y then 32 else 16) ∧
    planeB cfg22 p = (if p = .y then 32 else 16) := by
  cases p <;> decide +kernel

theorem cfg22_addr (slot : Nat) (hs : slot < 4) (q : Point) :
    q.addr cfg22 slot = 0x100000 * ((slot : Int) + 1) +
      (match q.plane with
       | .y => 0xC20 + 96 * q.y + q.x
       | .u => 0x40310 + 48 * q.y + q.x
       | .v => 0x60310 + 48 * q.y + q.x) := by
  obtain ⟨p, x, y⟩ := q
  have hb : planeBase cfg22 slot p = 0x100000 * (slot + 1) +
      (match p with | .y => 0xC20 | .u => 0x40310 | .v => 0x60310) := by
    interval_cases slot <;> cases p <;> decide +kernel
  have hp : planePitch cfg22 slot p = (if p = .y then 96 else 48) := by
    interval_cases slot <;> cases p <;> decide +kernel
  cases p <;> simp only [Point.addr, pixelAddr, hb, hp] <;> simp <;> omega

theorem cfg22_readable (slot : Nat) (hs : slot < 4) : ReadableInMemory cfg22 slot := by
  intro q hq
  obtain ⟨hw, hh, hb⟩ := cfg22_planes q.plane
  unfold Readable at hq
  rw [hw, hh, hb] at hq
  rw [cfg22_addr slot hs, show (memSize : Int) = 4294967296 from rfl]
  have : (slot : Int) < 4 := by exact_mod_cast hs
  have : 0 ≤ (slot : Int) := Int.natCast_nonneg _
  obtain ⟨p, x, y⟩ := q
  cases p <;> simp at hq ⊢ <;> omega

theorem visible_readable {c : CfgRegs} {q : Point} (h : Visible c q) : Readable c q := by
  have : 0 ≤ planeB c q.plane := by
    obtain ⟨p, x, y⟩ := q
    cases p <;> exact Int.natCast_nonneg _
  unfold Visible at h
  unfold Readable
  omega

theorem cfg22_visible (slot : Nat) (hs : slot < 4) : VisibleInMemory cfg22 slot :=
  fun q hq => cfg22_readable slot hs q (visible_readable hq)

/-! ### Witnesses: pixels -/

/-- An all-zero block of DQ at a legal position. -/
theorem witness_DcOnly :
    (∀ k, 0 < k → k < 16 → (fun j : Nat => if j = 0 then (8 : Int) else 0) k = 0) ∧
    23 ≤ 23 ∧ posOk (sDq s22 23 []).cfg = true ∧ VisibleInMemory (sDq s22 23 []).cfg (sDq s22 23 []).cfg.cur ∧
    (∀ i, i < 16 → Cells.get (sDq s22 23 []).ram.dq (16 * 23 + i) = some 0) :=
  ⟨fun k hk _ => by simp; omega, by decide, by decide +kernel, cfg22_visible 0 (by decide), by decide +kernel⟩

/-- Block 24; an illegal position; an unwritten block; a written one; the last row and column. -/
theorem witness_IdctAddRule :
    3 < 4 ∧ 23 < 24 ∧ (0 ≤ 23 ∧ posOk State.reset.cfg = false) ∧
    (posOk s22.cfg = true ∧ ∃ i, i < 16 ∧ Cells.get s22.ram.dq (16 * 23 + i) = none) ∧
    (VisibleInMemory (sDq s22 23 [9]).cfg (sDq s22 23 [9]).cfg.cur ∧
      ∀ i, i < 16 → (Cells.get (sDq s22 23 [9]).ram.dq (16 * 23 + i)).isSome = true) :=
  ⟨by decide, by decide, by decide +kernel, ⟨by decide +kernel, 0, by decide, rfl⟩, cfg22_visible 0 (by decide), by decide +kernel⟩

/-- A pixel with a byte of its own, among the pixels of the macroblock's blocks. -/
theorem cfg22_own (P : Point → Prop) (q : Point) (hq : Readable cfg22 q) (hP : ∀ r, P r → Readable cfg22 r)
    (hp : ∀ r, P r → r.plane = q.plane) : OwnByte cfg22 0 P q := by
  intro r hr h
  have h1 := hP r hr
  have h2 := hp r hr
  obtain ⟨p, x, y⟩ := q
  obtain ⟨p', x', y'⟩ := r
  obtain rfl : p' = p := h2
  rw [cfg22_addr 0 (by decide), cfg22_addr 0 (by decide)] at h
  unfold Readable at hq h1
  obtain ⟨hw, hh, hb⟩ := cfg22_planes p'
  simp only [hw, hh, hb] at hq h1
  cases p' <;> simp at hq h1 h ⊢ <;> omega

theorem witness_ReconMbRule :
    posOk State.reset.cfg = false ∧
    (let s := s22.setDq (Cells.fill 400 fun _ => 0)
     posOk s.cfg = true ∧ VisibleInMemory s.cfg s.cfg.cur ∧
      ∀ b ∈ List.range 24, ∀ i, i < 16 → (Cells.get s.ram.dq (16 * b + i)).isSome = true) := by
  refine ⟨by decide +kernel, by decide +kernel, cfg22_visible 0 (by decide), fun b hb i hi => ?_⟩
  have : b < 24 := List.mem_range.1 hb
  show (Cells.get (Cells.fill 400 fun _ => (0 : BitVec 32)) (16 * b + i)).isSome = true
  rw [Cells.get_fill_lt _ (by omega)]
  rfl

theorem witness_Ipred16Rule :
    3 < 4 ∧ posOk State.reset.cfg = false ∧ 3 ≤ 3 ∧ posOk s22.cfg = true ∧ VisibleInMemory s22.cfg s22.cfg.cur :=
  ⟨by decide, by decide +kernel, by decide, by decide +kernel, cfg22_visible 0 (by decide)⟩

/-- The same hypotheses. -/
theorem witness_IpredUvRule :
    3 < 4 ∧ posOk State.reset.cfg = false ∧ 3 ≤ 3 ∧ posOk s22.cfg = true ∧ VisibleInMemory s22.cfg s22.cfg.cur :=
  witness_Ipred16Rule

theorem witness_Ipred4Rule :
    (15 < 16 ∨ 9 < 0) ∧ (15 < 0 ∨ 9 < 10) ∧ (15 ≤ 15 ∧ 9 ≤ 9) ∧ posOk State.reset.cfg = false ∧ posOk s22.cfg = true ∧
    VisibleInMemory s22.cfg s22.cfg.cur :=
  ⟨by decide, by decide, by decide, by decide +kernel, by decide +kernel, cfg22_visible 0 (by decide)⟩

/-- A luma pixel of the current macroblock has a byte of its own among the macroblock's luma pixels. -/
theorem witness_OwnByte : OwnByte cfg22 0 (fun q => q.plane = .y ∧ InMb cfg22 q) ⟨.y, 15, 15⟩ := by
  have hx : mbX cfg22 .y = 0 := by decide +kernel
  have hy : mbY cfg22 .y = 0 := by decide +kernel
  obtain ⟨hw, hh, hb⟩ := cfg22_planes .y
  refine cfg22_own _ _ ?_ ?_ (fun r hr => hr.1)
  · unfold Readable
    simp [hw, hh, hb]
  · rintro ⟨p, x, y⟩ ⟨rfl, h⟩
    unfold InMb at h
    unfold Readable
    simp only [hx, hy, mbSize] at h
    simp only [hw, hh, hb]
    simp at h ⊢
    omega

theorem witness_WholeBlockPredictions : 15 < mbSize .y ∧ 7 < mbSize .u ∧ 7 < mbSize .v := by decide

theorem witness_SubblockPredictions : 15 < 16 ∧ 3 < 4 := by decide

/-- Two memories that differ at a border pixel, and commands that complete in both. -/
theorem witness_IntraReadsVisible :
    (∀ q, Visible s22.cfg q → pixelAt s22.cfg s22.mem s22.cfg.cur q =
      pixelAt s22.cfg (writeByte s22.mem 0x00100000 9) s22.cfg.cur q) ∧
    after (exec (.ipred4 0 0) s22) (fun _ => true) = true ∧
    after (exec (.ipred4 0 0) { s22 with mem := writeByte s22.mem 0x00100000 9 }) (fun _ => true) = true := by
  refine ⟨fun q hq => ?_, by decide +kernel, by decide +kernel⟩
  have ha : q.addr cfg22 0 ≠ 0x00100000 ∧ 0 ≤ q.addr cfg22 0 := by
    rw [cfg22_addr 0 (by decide)]
    obtain ⟨hw, hh, hb⟩ := cfg22_planes q.plane
    have hq' : Visible cfg22 q := hq
    unfold Visible at hq'
    rw [hw, hh] at hq'
    obtain ⟨p, x, y⟩ := q
    cases p <;> simp at hq' ⊢ <;> omega
  have hn : (0x00100000 : Nat) ≠ (q.addr cfg22 0).toNat := by omega
  show ((readByte s22.mem (q.addr cfg22 0).toNat).toNat : Int) =
    ((readByte (writeByte s22.mem 0x00100000 9) (q.addr cfg22 0).toNat).toNat : Int)
  rw [readByte_writeByte_other _ _ hn]

theorem cfg22_zero_mv (split clamp : Bool) : ∀ b, b < 16 → lumaMv cfg22 split clamp b = ⟨0, 0⟩ := by
  cases split <;> cases clamp <;> decide +kernel

theorem cfg22_zero_cmv : ∀ b, b < 4 → chromaMv cfg22 false false b = ⟨0, 0⟩ := by decide +kernel

theorem cfg22_mb0 (p : Plane) : mbX cfg22 p = 0 ∧ mbY cfg22 p = 0 := by cases p <;> decide +kernel

theorem cfg22_footprints : FootprintsReadable cfg22 false false := by
  intro q hq x y h
  obtain ⟨p, qx, qy⟩ := q
  obtain ⟨hx, hy⟩ := cfg22_mb0 p
  obtain ⟨hw, hh, hb⟩ := cfg22_planes p
  have hm : mvAt cfg22 false false ⟨p, qx, qy⟩ = ⟨0, 0⟩ := by
    unfold InMb at hq
    simp only [hx, hy] at hq
    unfold mvAt
    simp only [hx, hy]
    cases p <;> simp only [mbSize] at hq ⊢ <;> simp at hq
    · exact cfg22_zero_mv false false _ (by omega)
    · exact cfg22_zero_cmv _ (by omega)
    · exact cfg22_zero_cmv _ (by omega)
  unfold sourceAt at h
  rw [hm] at h
  have h' : x = qx ∧ y = qy := by cases p <;> simpa [InFootprint, sourceOf, asr] using h
  obtain ⟨rfl, rfl⟩ := h'
  unfold InMb at hq
  simp only [hx, hy] at hq
  unfold Readable
  simp only [hw, hh, hb]
  cases p <;> simp [mbSize] at hq ⊢ <;> omega

/-- The layout with MV[0] = (0, -126), which leaves the border (MC-6). -/
def cfgOob : CfgRegs := { cfg22 with mv := CfgRegs.reset.mv.set 0 0x0000FF82 }

theorem cfgOob_outside : ¬ FootprintsReadable cfgOob false false := by
  intro h
  have h1 := h ⟨.y, 0, 0⟩ (by unfold InMb; decide +kernel) (-34) 0 (by unfold InFootprint; decide +kernel)
  unfold Readable at h1
  revert h1
  decide +kernel

/-- The last pixel of the macroblock, whole and split; a row of pixels and the default T_BILINEAR. -/
theorem witness_McMbRule_prediction :
    15 < 16 ∧ 3 < 4 ∧ (∀ p, InMb cfg22 ⟨p, 7, 7⟩) ∧
    (∀ x y : Int, 0 ≤ (fun (_ _ : Int) => (255 : Int)) x y ∧ (fun (_ _ : Int) => (255 : Int)) x y ≤ 255) ∧
    (∀ f, f < 8 → 0 ≤ bilinearAt romTables f 0 ∧ 0 ≤ bilinearAt romTables f 1 ∧
      bilinearAt romTables f 0 + bilinearAt romTables f 1 = 128) := by
  refine ⟨by decide, by decide, fun p => ?_, fun _ _ => ⟨by simp, by simp⟩, by decide +kernel⟩
  cases p <;> unfold InMb <;> decide +kernel

/-- ref 0; an illegal position; the reference slot CUR itself; a footprint outside; and one inside. -/
theorem witness_McMbRule :
    (1 ≤ 1 ∧ posOk State.reset.cfg = false) ∧
    (let c : CfgRegs := { cfg22 with roleMap := 0xE0 }
     posOk c = true ∧ c.roleSlot 1 = c.cur) ∧
    (posOk cfgOob = true ∧ cfgOob.roleSlot 1 ≠ cfgOob.cur ∧ ¬ FootprintsReadable cfgOob false false) ∧
    (posOk cfg22 = true ∧ cfg22.roleSlot 1 ≠ cfg22.cur ∧ FootprintsReadable cfg22 false false ∧
      ReadableInMemory cfg22 (cfg22.roleSlot 1) ∧ VisibleInMemory cfg22 cfg22.cur) :=
  ⟨by decide +kernel, by decide +kernel, ⟨by decide +kernel, by decide +kernel, cfgOob_outside⟩,
    by decide +kernel, by decide +kernel, cfg22_footprints, cfg22_readable 1 (by decide), cfg22_visible 0 (by decide)⟩

theorem witness_ZeroVectorCopies :
    1 ≤ 1 ∧ posOk s22.cfg = true ∧ s22.cfg.roleSlot 1 ≠ s22.cfg.cur ∧ fileGet s22.cfg.mv 0 0 = 0 ∧
    VisibleInMemory s22.cfg (s22.cfg.roleSlot 1) ∧ VisibleInMemory s22.cfg s22.cfg.cur :=
  ⟨by decide, by decide +kernel, by decide +kernel, by decide +kernel, cfg22_visible 1 (by decide),
    cfg22_visible 0 (by decide)⟩

/-- Zero vectors, at the ends of nothing; the pixel (15, 15) of the macroblock is in its own footprint. -/
theorem witness_BorderSufficiency :
    posOk cfg22 = true ∧ (∀ b, b < 16 → lumaMv cfg22 true true b = ⟨0, 0⟩) ∧ 32 ≤ cfg22.borderY ∧
    InMb cfg22 ⟨.y, 15, 15⟩ ∧ InFootprint cfg22.mcBilinear (sourceAt cfg22 true true ⟨.y, 15, 15⟩) 15 15 := by
  refine ⟨by decide +kernel, cfg22_zero_mv true true, by decide +kernel, ?_, ?_⟩
  · unfold InMb
    decide +kernel
  · unfold InFootprint
    decide +kernel

/-- The ends of the levels and of each row of R425. -/
theorem witness_LfLevelAndLimits :
    3 < 4 ∧ (1 : Int) ≤ 63 ∧ (63 : Int) ≤ 63 ∧ 7 ≤ 7 ∧ (40 : Int) ≤ 63 ∧ (20 : Int) ≤ 39 ∧ (15 : Int) ≤ 19 ∧ (0 : Int) ≤ 14 := by
  decide

/-- A line that passes the mask, one that fails both, and a line with eight addresses. -/
theorem witness_FilteredLines :
    (let l : Line8 := { p3 := 0, p2 := 0, p1 := 0, p0 := 0, q0 := 255, q1 := 255, q2 := 255, q3 := 255 }
     (∀ v ∈ [l.p3, l.p2, l.p1, l.p0, l.q0, l.q1, l.q2, l.q3], 0 ≤ v ∧ v ≤ 255) ∧
      normalMask l 100 32 = false ∧ simpleMask l 100 = false) ∧
    (let e : EdgeLine := { plane := .y, vertical := true, mbEdge := false, x := 4, y := 0 }
     (∀ j, j < 8 → ∀ k, k < 8 → (linePoint e j).addr cfg22 0 = (linePoint e k).addr cfg22 0 → j = k) ∧
      (∀ k, k < 8 → 1 ≤ k → k ≤ 6 → (linePoint e k).addr cfg22 0 ≠ ((0x00100C20 : Nat) : Int)) ∧
      ∀ k, k < 8 → 0 ≤ (linePoint e k).addr cfg22 0) := by decide +kernel

/-- LEVEL 0, and a level of 0 from a segment value. -/
theorem witness_LfLevelZero :
    (9 ≤ 9 ∧ ((3 = 0 ∧ 9 ≤ 4) ∨ (1 ≤ 3 ∧ 5 ≤ 9))) ∧ posOk s22.cfg = true ∧ s22.cfg.lfLevel = 0 ∧
    (let c : CfgRegs := { cfg22 with lfCfg := 30, segCfg := 1, segLf := 0xC4 }
     posOk c = true ∧ c.lfLevel ≠ 0 ∧ filterLevel c 0 3 9 = 0) := by decide +kernel

/-- Illegal operands, an illegal position, and legal ones at LEVEL 20 and at LEVEL 0. -/
theorem witness_LfMbRule :
    ¬ (4 ≤ 9 ∧ ((1 = 0 ∧ 4 ≤ 4) ∨ (1 ≤ 1 ∧ 5 ≤ 4))) ∧ (4 ≤ 9 ∧ ((0 = 0 ∧ 4 ≤ 4) ∨ (1 ≤ 0 ∧ 5 ≤ 4))) ∧
    posOk State.reset.cfg = false ∧
    (let c : CfgRegs := { cfg22 with lfCfg := 20 }
     posOk c = true ∧ c.lfLevel ≠ 0 ∧ filterLevel c 0 0 4 ≠ 0) ∧
    (posOk cfg22 = true ∧ VisibleInMemory cfg22 cfg22.cur ∧ cfg22.lfLevel = 0) ∧
    VisibleInMemory { cfg22 with lfCfg := 20 } (CfgRegs.cur { cfg22 with lfCfg := 20 }) :=
  ⟨by decide, by decide, by decide +kernel, by decide +kernel,
    ⟨by decide +kernel, cfg22_visible 0 (by decide), by decide +kernel⟩, cfg22_visible 0 (by decide)⟩

/-! ### Witnesses: the whole machine -/

/-- BD_LIT changes RESULT and a context, DETOK_ROW changes NZ_LEFT. -/
theorem witness_WriteSets :
    after (exec (.bdLit 1 8) (sBd [0x12, 0x34] (bd1 0x1234 255 0 2 2))) (fun t => t.result != 0) = true ∧
    after (exec .detokRow State.reset) (fun t => t.ram.nzLeft != State.reset.ram.nzLeft) = true := by decide +kernel

/-- IPRED4 changes a byte that held 0. -/
theorem witness_WritesOnlyCurVisible :
    after (exec (.ipred4 0 0) (bytesAt s22 0x00100C20 [0])) (fun t => readByte t.mem 0x00100C20 != 0) = true ∧
    readByte (bytesAt s22 0x00100C20 [0]).mem 0x00100C20 = 0 := by decide +kernel

/-- UNINIT from IWHT at reset, ADDR_WRAP from IPRED4 on a plane at the top of data memory. -/
theorem witness_OnlySpecFaults :
    exec .iwht State.reset = .fault .uninit ∧
    faults (exec (.ipred4 5 0) { State.reset with
      cfg := { CfgRegs.reset with frameDim := 0x00010001, slotYBase := CfgRegs.reset.slotYBase.set 0 0xFFFFFFFF } })
      .addrWrap = true := ⟨rfl, by decide +kernel⟩

/-- An idle step of a state that meets the invariant. -/
theorem witness_StepKeepsInv : sErr.Inv ∧ step sErr = .next sErr := ⟨sErr_inv, rfl⟩

end Sys2Proof.Tests
end

section
/-! The HOST's port (10_state.md R31 to R37, R63): which words of the window are served, what a write to each can do, and that
every HOST action and every turn of the CORE keeps the machine's invariant. -/

namespace Sys2Proof.Machine

/-! ### The register map -/

/-- What holds of a register chosen by `c` and of the other choices holds of the choice: the map of the window is a chain of
such choices. -/
theorem Reg.ite_of {P : Reg → Prop} {c : Prop} [Decidable c] {a b : Reg} (ha : c → P a) (hb : P b) :
    P (if c then a else b) := by
  by_cases hc : c
  · rw [if_pos hc]
    exact ha hc
  · rwa [if_neg hc]

/-- The words of the CFG registers and of the PROB window (10_state.md R31, R58). -/
def CfgWord (k : Nat) : Prop :=
  (7 ≤ k ∧ k ≤ 10) ∨ (0x10 ≤ k ∧ k < 0x32) ∨ (0x80 ≤ k ∧ k < 0x89) ∨ (0xC0 ≤ k ∧ k < 0xD0) ∨ (0x200 ≤ k ∧ k < 0x308)

theorem regAtWord_prob_eq {k : Nat} (hlo : 0x200 ≤ k) (hhi : k < 0x308) : regAtWord k = .prob (k - 0x200) := by
  unfold regAtWord
  repeat rw [if_neg (by omega)]
  rw [if_pos ⟨hlo, hhi⟩]

theorem regAtWord_isCfg {k : Nat} (h : CfgWord k) : (regAtWord k).isCfg = true := by
  rcases h with ⟨hlo, hhi⟩ | ⟨hlo, hhi⟩ | ⟨hlo, hhi⟩ | ⟨hlo, hhi⟩ | ⟨hlo, hhi⟩
  iterate 4 · interval_cases k <;> rfl
  · rw [regAtWord_prob_eq hlo hhi]
    rfl

/-- Where the map puts a register that a HOST write can reach (10_state.md R31, R35 to R37). -/
theorem regAtWord_writable (k : Nat) :
    (regAtWord k = .ctrl → k = 1) ∧ (regAtWord k = .status → k = 2) ∧ (regAtWord k = .cmd → k = 3) ∧
      ((regAtWord k).isCfg = true → CfgWord k) := by
  unfold regAtWord CfgWord
  repeat' refine Reg.ite_of (P := fun r => (r = .ctrl → k = 1) ∧ (r = .status → k = 2) ∧ (r = .cmd → k = 3) ∧
    (r.isCfg = true → _)) (fun h => ?_) ?_
  all_goals
    simp only [Reg.isCfg, reduceCtorEq, Bool.false_eq_true, false_imp_iff, forall_const, true_and, and_true]
  all_goals omega

theorem mmioAccessOk_iff {offset width : Nat} :
    mmioAccessOk offset width = true ↔ width = 4 ∧ offset % 4 = 0 ∧ offset < 0x8000 := by
  simp only [mmioAccessOk, Bool.and_eq_true, decide_eq_true_eq, and_assoc]

theorem mmioAccessOk_word {k : Nat} (hk : k < 8192) : mmioAccessOk (4 * k) 4 = true :=
  mmioAccessOk_iff.2 ⟨rfl, by omega, by omega⟩

/-! ### What a HOST write can do -/

theorem hostWrite_cfg {r : Reg} (h : r.isCfg = true) (v : Word) (s : State) :
    hostWrite r v s = if busy s then .next { s with cfgDrop := true } else .next (writeCfg s r v) := by
  cases r with
  | ctrl | status | cmd => cases h
  | _ => rw [hostWrite, if_pos h] <;> exact Reg.noConfusion

/-- R31: RO and RSV words ignore writes. -/
theorem hostWrite_ignored {r : Reg} (hctrl : r ≠ .ctrl) (hstatus : r ≠ .status) (hcmd : r ≠ .cmd)
    (hcfg : ¬ r.isCfg = true) (v : Word) (s : State) : hostWrite r v s = .next s := by
  cases r with
  | ctrl | status | cmd => contradiction
  | _ => rw [hostWrite, if_neg hcfg] <;> exact Reg.noConfusion

/-- Everything a HOST write to a register can do. -/
theorem hostWrite_cases (r : Reg) (v : Word) (s : State) :
    (r = .ctrl ∧ hostWrite r v s = .next (ctrlWrite v s)) ∨
      (r = .status ∧ hostWrite r v s = .next (statusWrite v s)) ∨
      (r = .cmd ∧ hostWrite r v s = .next (cmdWrite v s)) ∨
      (r.isCfg = true ∧ busy s = true ∧ hostWrite r v s = .next { s with cfgDrop := true }) ∨
      (r.isCfg = true ∧ busy s = false ∧ hostWrite r v s = .next (writeCfg s r v)) ∨
      hostWrite r v s = .next s := by
  by_cases hctrl : r = .ctrl
  · exact .inl ⟨hctrl, hctrl ▸ rfl⟩
  by_cases hstatus : r = .status
  · exact .inr (.inl ⟨hstatus, hstatus ▸ rfl⟩)
  by_cases hcmd : r = .cmd
  · exact .inr (.inr (.inl ⟨hcmd, hcmd ▸ rfl⟩))
  by_cases hcfg : r.isCfg = true
  · rw [hostWrite_cfg hcfg]
    cases hb : busy s <;> simp [hcfg]
  · exact .inr (.inr (.inr (.inr (.inr (hostWrite_ignored hctrl hstatus hcmd hcfg v s)))))

/-! ### Steps that perform a HOST action -/

theorem step_of_input {s : State} {i : Input} {later : List Input} (h : s.inputs = i :: later)
    (hheld : inputHeld i s = false) : step s = inputStep i { s with inputs := later } := by
  simp only [step, turn, h, hheld, Bool.false_eq_true, if_false]

/-- Only a write to CMD is ever held. -/
theorem inputHeld_eq_false_of_ne_cmd {k : Nat} (hk : k ≠ 3) (width : Nat) (v : Word) (s : State) :
    inputHeld (.mmioWrite (4 * k) width v) s = false := by
  simp [inputHeld, hk]

/-- A HOST write to a word of the window that is not held is performed. -/
theorem step_mmioWrite {s : State} {k : Nat} {v : Word} {later : List Input}
    (h : s.inputs = .mmioWrite (4 * k) 4 v :: later) (hk : k < 8192)
    (hheld : inputHeld (.mmioWrite (4 * k) 4 v) s = false) :
    step s = hostWrite (regAtWord k) v { s with inputs := later } := by
  rw [step_of_input h hheld, inputStep, if_pos (mmioAccessOk_word hk), Nat.mul_div_cancel_left k (by decide)]

theorem hostRead_at (s : State) {off k : Nat} {r : Reg} (hoff : off = 4 * k) (hk : k < 8192) (hr : regAtWord k = r) :
    hostRead s off 4 = .ok (readReg s k r) := by
  rw [hoff, hostRead, if_pos (mmioAccessOk_word hk), Nat.mul_div_cancel_left k (by decide), hr]

/-! ### The invariant along a step -/

theorem statusWrite_inv {s : State} (h : s.Inv) (v : Word) : (statusWrite v s).Inv :=
  ⟨h.mem, h.ram, h.ctx, h.reserved, ⟨h.error.clear, h.error.held⟩, h.total, h.queue⟩

theorem Inv_cfgDrop {s : State} (h : s.Inv) (b : Bool) : ({ s with cfgDrop := b } : State).Inv :=
  ⟨h.mem, h.ram, h.ctx, h.reserved, ⟨h.error.clear, h.error.held⟩, h.total, h.queue⟩

/-- A CMD write that is not held finds room in CMDQ or the error state (10_state.md R37, R63). -/
theorem cmdWrite_inv {s : State} (h : s.Inv) (hroom : cmdHeld s = false) (v : Word) : (cmdWrite v s).Inv := by
  cases he : s.err with
  | true =>
    have hsame : cmdWrite v s = s := by simp only [cmdWrite, he, if_true]
    rwa [hsame]
  | false =>
    have happend : cmdWrite v s = { s with cmdq := s.cmdq ++ [v] } := by
      simp only [cmdWrite, he, Bool.false_eq_true, if_false]
    have hlen : s.cmdq.length < Config.cmdqDepth := by simpa [cmdHeld, he] using hroom
    rw [happend]
    refine ⟨h.mem, h.ram, h.ctx, h.reserved, ⟨h.error.clear, fun e => ?_⟩, h.total, ?_⟩
    · exact absurd (he.symm.trans e) Bool.false_ne_true
    · simpa using hlen

theorem hostWrite_inv {s t : State} (h : s.Inv) {k : Nat} {v : Word} (hroom : k = 3 → cmdHeld s = false)
    (ht : hostWrite (regAtWord k) v s = .next t) : t.Inv := by
  rcases hostWrite_cases (regAtWord k) v s with ⟨-, e⟩ | ⟨-, e⟩ | ⟨hcmd, e⟩ | ⟨-, -, e⟩ | ⟨-, -, e⟩ | e <;>
    obtain rfl := Host.Outcome.next.inj (e.symm.trans ht)
  · exact ctrlWrite_inv h v
  · exact statusWrite_inv h v
  · exact cmdWrite_inv h (hroom ((regAtWord_writable k).2.2.1 hcmd)) v
  · exact Inv_cfgDrop h true
  · exact writeCfg_inv h k v
  · exact h

theorem hostMemWrite_inv {s t : State} (h : s.Inv) {a : Word} {v : Byte} (ht : hostMemWrite a v s = .next t) :
    t.Inv := by
  simp only [hostMemWrite] at ht
  split at ht
  · cases ht
  · obtain rfl := Host.Outcome.next.inj ht
    exact Inv_setMem h (Memory.wf_writeByte v a.isLt h.mem)

/-- A HOST action that is not held keeps the invariant. -/
theorem inputStep_inv {i : Input} {s t : State} (h : s.Inv) (hheld : inputHeld i s = false)
    (ht : inputStep i s = .next t) : t.Inv := by
  cases i with
  | mmioWrite offset width v =>
    simp only [inputStep] at ht
    split at ht
    · rename_i hok
      exact hostWrite_inv h (fun hk => by simpa [inputHeld, hok, hk] using hheld) ht
    · cases ht
  | memWrite a v => exact hostMemWrite_inv h ht
  | hardReset =>
    obtain rfl := Host.Outcome.next.inj ht
    exact hardReset_inv h
  | beginCommand =>
    obtain rfl := Host.Outcome.next.inj ht
    exact startCommand_inv h
  | run => exact coreStep_inv h ht

/-- Settles O60: a step is a turn of the CORE or a HOST action that is not held, and each keeps the invariant. -/
theorem stepKeepsInv : Obligations.StepKeepsInv := by
  unfold Obligations.StepKeepsInv
  intro s t h ht
  simp only [step, turn] at ht
  split at ht
  · exact coreStep_inv h ht
  · rename_i i later _
    split at ht
    · exact coreStep_inv h ht
    · rename_i hheld
      have hheld : inputHeld i { s with inputs := later } = false := Bool.eq_false_iff.2 hheld
      exact inputStep_inv (Inv_inputs h later) hheld ht

end Sys2Proof.Machine
end

section
/-! Write sets (10_state.md R38, R55, R58 to R62; 41_detokenizer.md R246): which opcodes may change which part of the state. One
lemma for each shared update says what it adds to a write set; a command's write set is the composition of its updates. -/

namespace Sys2Proof.Machine

/-- Whatever of `s` differs in `t` is something that a command of opcode `op` may write. -/
structure WriteSet (op : Nat) (s t : State) : Prop where
  never : t.rom = s.rom ∧ t.ieSync = s.ieSync ∧ t.ieErr = s.ieErr ∧ t.cfgDrop = s.cfgDrop ∧ t.inputs = s.inputs ∧
    t.epoch = s.epoch
  result : t.result ≠ s.result → op = 0x09 ∨ op = 0x0A
  tokens : t.eobTotal ≠ s.eobTotal ∨ t.ram.coef ≠ s.ram.coef ∨ t.ram.eob ≠ s.ram.eob → op = 0x12
  nzAbove : t.ram.nzAbove ≠ s.ram.nzAbove → op = 0x10 ∨ op = 0x12
  nzLeft : t.ram.nzLeft ≠ s.ram.nzLeft → op = 0x11 ∨ op = 0x12
  dqf : t.dqf ≠ s.dqf → op = 0x18
  dq : t.ram.dq ≠ s.ram.dq → op = 0x19 ∨ op = 0x20
  prob : t.ram.prob ≠ s.ram.prob → op = 0x02
  cfg : t.cfg ≠ s.cfg → op = 0x02 ∨ op = 0x03
  bd : t.bd ≠ s.bd → op = 0x08 ∨ op = 0x09 ∨ op = 0x0A ∨ op = 0x12
  syncDone : t.syncDone ≠ s.syncDone → op = 0x01
  wide16 : t.wide16 ≠ s.wide16 → s.wide16 = false ∧ (op = 0x19 ∨ op = 0x20 ∨ op = 0x21 ∨ op = 0x22)
  mem : t.mem ≠ s.mem → op = 0x21 ∨ op = 0x22 ∨ op = 0x28 ∨ op = 0x29 ∨ op = 0x2A ∨ op = 0x30 ∨ op = 0x38

namespace WriteSet

theorem refl (op : Nat) (s : State) : WriteSet op s s := by
  constructor <;> simp

variable {op : Nat} {s t : State}

theorem errorEntry (h : WriteSet op s t) (e : ErrorCode) (w : Word) : WriteSet op s (errorEntry e w t) :=
  { h with }

theorem setMem (h : WriteSet op s t) (m : List Host.Cell)
    (hop : op = 0x21 ∨ op = 0x22 ∨ op = 0x28 ∨ op = 0x29 ∨ op = 0x2A ∨ op = 0x30 ∨ op = 0x38) :
    WriteSet op s (t.setMem m) :=
  { h with mem := fun _ => hop }

theorem setBd (h : WriteSet op s t) (i : Nat) (c : BoolCtx)
    (hop : op = 0x08 ∨ op = 0x09 ∨ op = 0x0A ∨ op = 0x12) : WriteSet op s (t.setBd i c) :=
  { h with bd := fun _ => hop }

theorem setResult (h : WriteSet op s t) (v : Nat) (hop : op = 0x09 ∨ op = 0x0A) : WriteSet op s (t.setResult v) :=
  { h with result := fun _ => hop }

theorem setDq (h : WriteSet op s t) (d : Cells (BitVec 32)) (hop : op = 0x19 ∨ op = 0x20) : WriteSet op s (t.setDq d) :=
  { h with dq := fun _ => hop }

/-- WIDE16 is sticky: setting it changes it from 0 only. -/
theorem orWide (h : WriteSet op s t) (b : Bool) (hop : op = 0x19 ∨ op = 0x20 ∨ op = 0x21 ∨ op = 0x22) :
    WriteSet op s (t.orWide b) := by
  refine { h with wide16 := fun hne => ⟨?_, hop⟩ }
  by_contra hs
  have ht : t.wide16 = s.wide16 := not_ne_iff.1 fun hne' => hs (h.wide16 hne').1
  exact hne (by rw [State.orWide_wide16, ht, Bool.eq_true_of_not_eq_false hs, Bool.true_or])

theorem setDetok (h : WriteSet op s t) (col : Nat) (co : Cells (BitVec 16)) (eo : Cells (BitVec 5)) (ab le : NzRow) (n : Nat)
    (hop : op = 0x12) : WriteSet op s (t.setDetok col co eo ab le n) :=
  { h with tokens := fun _ => hop, nzAbove := fun _ => .inr hop, nzLeft := fun _ => .inr hop }

theorem withNzAbove (h : WriteSet op s t) (a : Cells NzRow) (hop : op = 0x10) :
    WriteSet op s { t with ram := { t.ram with nzAbove := a } } :=
  { h with nzAbove := fun _ => .inl hop }

theorem withDqf (h : WriteSet op s t) (v : Vector (BitVec 16) 24) (hop : op = 0x18) : WriteSet op s { t with dqf := v } :=
  { h with dqf := fun _ => hop }

theorem writeCfg (h : WriteSet op s t) (r : Reg) (d : Word) (hop : op = 0x02) : WriteSet op s (writeCfg t r d) where
  never := by simpa using h.never
  result := by simpa using h.result
  tokens := by simpa using h.tokens
  nzAbove := by simpa using h.nzAbove
  nzLeft := by simpa using h.nzLeft
  dqf := by simpa using h.dqf
  dq := by simpa using h.dq
  prob := fun _ => hop
  cfg := fun _ => .inl hop
  bd := by simpa using h.bd
  syncDone := by simpa using h.syncDone
  wide16 := by simpa using h.wide16
  mem := by simpa using h.mem

end WriteSet

/-! ### The prediction and loop-filter commands leave WIDE16 alone -/

theorem execIpred16_setMem {mode : Nat} {s t : State} (h : execIpred16 mode s = .next t) :
    (∃ e, t = errorEntry e (Instr.ipred16 mode).word s) ∨ t = s.setMem t.mem := by
  simp only [execIpred16] at h
  split at h
  · exact .inl ⟨_, raise_next h⟩
  split at h
  · exact .inr (predictPlanes_next h).1
  · exact .inl ⟨_, raise_next h⟩

theorem execIpredUv_setMem {mode : Nat} {s t : State} (h : execIpredUv mode s = .next t) :
    (∃ e, t = errorEntry e (Instr.ipredUv mode).word s) ∨ t = s.setMem t.mem := by
  simp only [execIpredUv] at h
  split at h
  · exact .inl ⟨_, raise_next h⟩
  split at h
  · exact .inr (predictPlanes_next h).1
  · exact .inl ⟨_, raise_next h⟩

theorem execIpred4_setMem {b mode : Nat} {s t : State} (h : execIpred4 b mode s = .next t) :
    (∃ e, t = errorEntry e (Instr.ipred4 b mode).word s) ∨ t = s.setMem t.mem := by
  simp only [execIpred4] at h
  split at h
  · exact .inl ⟨_, raise_next h⟩
  split at h
  · exact .inl ⟨_, raise_next h⟩
  split at h
  · exact .inr (predictSub_next h).1
  · exact .inl ⟨_, raise_next h⟩

theorem execMcMb_setMem {ref : Nat} {split clamp : Bool} {s t : State} (h : execMcMb ref split clamp s = .next t) :
    (∃ e, t = errorEntry e (Instr.mcMb ref split clamp).word s) ∨ t = s.setMem t.mem := by
  simp only [execMcMb] at h
  iterate 4
    split at h
    · exact .inl ⟨_, raise_next h⟩
  split at h
  · cases h
  · rw [Host.Outcome.next.injEq] at h
    subst h
    exact .inr (by rw [State.setMem_mem])

theorem execLfMb_setMem {seg ref mode : Nat} {nocoef : Bool} {s t : State}
    (h : execLfMb seg ref mode nocoef s = .next t) :
    (∃ e, t = errorEntry e (Instr.lfMb seg ref mode nocoef).word s) ∨ t = s.setMem t.mem := by
  simp only [execLfMb] at h
  iterate 2
    split at h
    · exact .inl ⟨_, raise_next h⟩
  split at h
  · rw [Host.Outcome.next.injEq] at h
    subst h
    exact .inr s.setMem_self.symm
  split at h
  · rw [Host.Outcome.next.injEq] at h
    subst h
    exact .inr (by rw [State.setMem_mem])
  · cases h

/-! ### Every command -/

/-- A command that raised an error or only replaced data memory. -/
theorem WriteSet.of_setMem {op : Nat} {s t : State} {w : Word}
    (h : (∃ e, t = Machine.errorEntry e w s) ∨ t = s.setMem t.mem)
    (hop : op = 0x21 ∨ op = 0x22 ∨ op = 0x28 ∨ op = 0x29 ∨ op = 0x2A ∨ op = 0x30 ∨ op = 0x38) : WriteSet op s t := by
  rcases h with ⟨e, rfl⟩ | h
  · exact (refl op s).errorEntry e w
  · rw [h]
    exact (refl op s).setMem _ hop

/-- The residual commands replace data memory and may set WIDE16 (43_transform.md R306, R307). -/
theorem WriteSet.of_pixelEffect {op : Nat} {ps : List Point} {s t : State} (h : PixelEffect ps s t)
    (hop : op = 0x21 ∨ op = 0x22) : WriteSet op s t := by
  obtain ⟨b, hb⟩ := h.frame
  rw [hb]
  exact ((refl op s).setMem _ (by omega)).orWide b (by omega)

theorem exec_writeSet {i : Instr} {s t : State} (h : exec i s = .next t) : WriteSet i.opcode s t := by
  have same := WriteSet.refl i.opcode s
  have herr : ∀ {w : Word} {t : State}, (∃ e, t = errorEntry e w s) → WriteSet i.opcode s t := by
    rintro w t ⟨e, rfl⟩
    exact same.errorEntry e w
  cases i with
  | nop =>
    simp only [exec, execNop, Host.Outcome.next.injEq] at h
    subst h
    exact same
  | sync =>
    simp only [exec, execSync, Host.Outcome.next.injEq] at h
    subst h
    exact { same with syncDone := fun _ => rfl }
  | wreg widx d =>
    rcases execWreg_next h with k | rfl
    · exact herr k
    · exact same.writeCfg _ d rfl
  | mbSet row col =>
    rcases execMbSet_next h with k | rfl
    · exact herr k
    · exact { same with cfg := fun _ => .inr rfl }
  | bdInit ctx =>
    rcases execBdInit_next h with k | ⟨-, -, rfl⟩
    · exact herr k
    · exact same.setBd ctx _ (by simp [Instr.opcode])
  | bdBool ctx prob =>
    rcases execBdBool_next h with k | ⟨-, -, rfl⟩
    · exact herr k
    · exact (same.setBd ctx _ (by simp [Instr.opcode])).setResult _ (by simp [Instr.opcode])
  | bdLit ctx n =>
    rcases execBdLit_next h with k | ⟨-, -, -, rfl⟩
    · exact herr k
    · exact (same.setBd ctx _ (by simp [Instr.opcode])).setResult _ (by simp [Instr.opcode])
  | detokFrame =>
    simp only [exec, execDetokFrame, Host.Outcome.next.injEq] at h
    subst h
    exact same.withNzAbove _ rfl
  | detokRow =>
    simp only [exec, execDetokRow, Host.Outcome.next.injEq] at h
    subst h
    exact { same with nzLeft := fun _ => .inl rfl }
  | detokMb ctx y2 skip =>
    rcases execDetokMb_next h with k | ⟨-, -, rfl⟩ | ⟨-, -, -, -, a, -, rfl⟩
    · exact herr k
    · exact same.setDetok _ _ _ _ _ _ rfl
    · exact (same.setDetok _ _ _ _ _ _ rfl).setBd ctx _ (by simp [Instr.opcode])
  | qsetup =>
    simp only [exec, execQsetup, Host.Outcome.next.injEq] at h
    subst h
    exact same.withDqf _ rfl
  | deqMb seg =>
    obtain ⟨-, rfl⟩ := execDeqMb_next h
    exact (same.setDq _ (by simp [Instr.opcode])).orWide _ (by simp [Instr.opcode])
  | iwht =>
    obtain ⟨-, rfl⟩ := execIwht_next h
    exact (same.setDq _ (by simp [Instr.opcode])).orWide _ (by simp [Instr.opcode])
  | idctAdd blk =>
    rcases execIdctAdd_next h with k | ⟨-, -, k⟩
    · exact herr k
    · exact .of_pixelEffect k (by simp [Instr.opcode])
  | reconMb u =>
    rcases execReconMb_next h with k | ⟨-, k⟩
    · exact herr k
    · exact .of_pixelEffect k (by simp [Instr.opcode])
  | ipred16 mode => exact .of_setMem (execIpred16_setMem h) (by simp [Instr.opcode])
  | ipredUv mode => exact .of_setMem (execIpredUv_setMem h) (by simp [Instr.opcode])
  | ipred4 blk bmode => exact .of_setMem (execIpred4_setMem h) (by simp [Instr.opcode])
  | mcMb ref split clamp => exact .of_setMem (execMcMb_setMem h) (by simp [Instr.opcode])
  | lfMb seg ref mode nocoef => exact .of_setMem (execLfMb_setMem h) (by simp [Instr.opcode])

/-- Settles O56: the write set of every command's opcode. -/
theorem writeSets : Obligations.WriteSets := by
  unfold Obligations.WriteSets
  intro i s t h
  have k := exec_writeSet h
  exact ⟨k.never, k.result, k.tokens, k.nzAbove, k.nzLeft, k.dqf, k.dq, k.prob, k.cfg, k.bd, k.syncDone, k.wide16, k.mem⟩

end Sys2Proof.Machine
end

section
/-! The HOST's reads and writes, register by register (10_state.md R31 to R40, R48, R55 to R61; 20_memory.md R116, R117). -/

namespace Sys2Proof.Machine

/-! ### Fields of a word given as a number -/

theorem extractLsb'_ofNat_eq {x lo n : Nat} {v : BitVec n} (h : lo + n ≤ 32) (hx : x / 2 ^ lo % 2 ^ n = v.toNat) :
    (BitVec.ofNat 32 x).extractLsb' lo n = v := by
  apply BitVec.eq_of_toNat_eq
  have hsplit : (2 : Nat) ^ 32 = 2 ^ lo * 2 ^ (32 - lo) := by rw [← Nat.pow_add]; congr 1; omega
  rw [BitVec.extractLsb'_toNat, BitVec.toNat_ofNat, Nat.shiftRight_eq_div_pow, hsplit, Nat.mod_mul_right_div_self,
    Nat.mod_mod_of_dvd _ (Nat.pow_dvd_pow 2 (by omega)), hx]

theorem getLsbD_ofNat_eq {x i : Nat} {b : Bool} (h : i < 32) (hx : x / 2 ^ i % 2 = b.toNat) :
    (BitVec.ofNat 32 x).getLsbD i = b := by
  rw [BitVec.getLsbD_ofNat, Nat.testBit_eq_decide_div_mod_eq, hx]
  cases b <;> simp [h]

/-! ### Words made of lanes -/

/-- The value of a lane as a HOST read shows it: the written value, or the free word's bits (log entry 20). -/
def laneValue (x : Option Nat) (free : Word) (width k : Nat) : Nat :=
  x.getD (bits free.toNat (width * k + width - 1) (width * k))

theorem laneOr_eq (x : Option Nat) (free : Word) (width k : Nat) :
    laneOr x free width k = 2 ^ (width * k) * laneValue x free width k := rfl

theorem laneValue_lt {x : Option Nat} {width : Nat} (hw : 0 < width) (hx : ∀ a ∈ x, a < 2 ^ width) (free : Word) (k : Nat) :
    laneValue x free width k < 2 ^ width := by
  cases x with
  | none =>
    have h := bits_lt free.toNat (width * k + width - 1) (width * k)
    rwa [show width * k + width - 1 + 1 - width * k = width by omega] at h
  | some a => exact hx a rfl

theorem lane_toNat_lt {n : Nat} (x : Option (BitVec n)) : ∀ a ∈ x.map BitVec.toNat, a < 2 ^ n := by
  intro a ha
  obtain ⟨b, -, rfl⟩ := Option.mem_map.1 ha
  exact b.isLt

/-- Lanes 0..n-1 of `w` bits each, lane `k` holding `f k`. -/
def laneSum (w n : Nat) (f : Nat → Nat) : Nat := ∑ k ∈ Finset.range n, 2 ^ (w * k) * f k

section

variable {w : Nat} {f : Nat → Nat}

theorem laneSum_succ (n : Nat) : laneSum w (n + 1) f = laneSum w n f + 2 ^ (w * n) * f n := Finset.sum_range_succ _ n

theorem laneSum_lt (hf : ∀ k, f k < 2 ^ w) (n : Nat) : laneSum w n f < 2 ^ (w * n) := by
  induction n with
  | zero => simp [laneSum]
  | succ n ih =>
    rw [laneSum_succ, Nat.mul_succ, Nat.pow_add]
    have h : 2 ^ (w * n) * (f n + 1) ≤ 2 ^ (w * n) * 2 ^ w := Nat.mul_le_mul_left _ (hf n)
    rw [Nat.mul_succ] at h
    omega

/-- What stands above the lanes. -/
theorem laneSum_div (hf : ∀ k, f k < 2 ^ w) (n high : Nat) :
    (laneSum w n f + 2 ^ (w * n) * high) / 2 ^ (w * n) = high := by
  rw [Nat.add_mul_div_left _ _ (by positivity), Nat.div_eq_of_lt (laneSum_lt hf n), Nat.zero_add]

/-- Each lane reads as what it holds. -/
theorem laneSum_lane (hf : ∀ k, f k < 2 ^ w) {n k : Nat} (hk : k < n) (high : Nat) :
    (laneSum w n f + 2 ^ (w * n) * high) / 2 ^ (w * k) % 2 ^ w = f k := by
  induction n generalizing high with
  | zero => omega
  | succ n ih =>
    have hregroup : laneSum w (n + 1) f + 2 ^ (w * (n + 1)) * high =
        laneSum w n f + 2 ^ (w * n) * (f n + 2 ^ w * high) := by
      rw [laneSum_succ]
      ring
    rw [hregroup]
    rcases Nat.lt_succ_iff_lt_or_eq.1 hk with h | rfl
    · exact ih h _
    · rw [laneSum_div hf, Nat.add_mul_mod_self_left, Nat.mod_eq_of_lt (hf k)]

end

/-! ### The RAM windows -/

/-- The bytes of PROB word `j` as its lanes. -/
def probLane (s : State) (j k : Nat) : Nat :=
  laneValue ((Cells.get s.ram.prob (4 * j + k)).map BitVec.toNat) (freeWord s (0x200 + j)) 8 k

theorem probLane_lt (s : State) (j k : Nat) : probLane s j k < 2 ^ 8 :=
  laneValue_lt (by decide) (lane_toNat_lt _) _ k

theorem probWord_eq (s : State) (j : Nat) :
    probWord s j = BitVec.ofNat 32 (laneSum 8 4 (probLane s j) + 2 ^ (8 * 4) * 0) := by
  simp [probWord, laneOr_eq, laneSum, Finset.sum_range_succ, probLane]

/-- A written PROB entry reads in its byte lane (10_state.md R58). -/
theorem probWord_lane {s : State} {e : Nat} {v : Byte} (h : Cells.get s.ram.prob e = some v) :
    (probWord s (e / 4)).extractLsb' (8 * (e % 4)) 8 = v := by
  have hv : probLane s (e / 4) (e % 4) = v.toNat := by
    simp only [probLane, Nat.div_add_mod, h]
    rfl
  rw [probWord_eq]
  exact extractLsb'_ofNat_eq (by omega) ((laneSum_lane (probLane_lt s _) (Nat.mod_lt e (by decide)) 0).trans hv)

/-- The halfwords of COEF word `j` as its lanes. -/
def coefLane (s : State) (j k : Nat) : Nat :=
  laneValue ((Cells.get s.ram.coef (2 * j + k)).map BitVec.toNat) (freeWord s (0x400 + j)) 16 k

theorem coefLane_lt (s : State) (j k : Nat) : coefLane s j k < 2 ^ 16 :=
  laneValue_lt (by decide) (lane_toNat_lt _) _ k

theorem coefWord_eq (s : State) (j : Nat) :
    coefWord s j = BitVec.ofNat 32 (laneSum 16 2 (coefLane s j) + 2 ^ (16 * 2) * 0) := by
  simp [coefWord, laneOr_eq, laneSum, Finset.sum_range_succ, coefLane]

/-- A written COEF entry reads in its halfword lane (10_state.md R59). -/
theorem coefWord_lane {s : State} {e : Nat} {v : BitVec 16} (h : Cells.get s.ram.coef e = some v) :
    (coefWord s (e / 2)).extractLsb' (16 * (e % 2)) 16 = v := by
  have hv : coefLane s (e / 2) (e % 2) = v.toNat := by
    simp only [coefLane, Nat.div_add_mod, h]
    rfl
  rw [coefWord_eq]
  exact extractLsb'_ofNat_eq (by omega) ((laneSum_lane (coefLane_lt s _) (Nat.mod_lt e (by decide)) 0).trans hv)

/-- The flags of a row as its lanes. -/
def nzLane (r : NzRow) (free : Word) (k : Nat) : Nat := laneValue ((nzGet r k).map flagNat) free 1 k

theorem nzLane_lt (r : NzRow) (free : Word) (k : Nat) : nzLane r free k < 2 ^ 1 :=
  laneValue_lt (by decide) (fun a ha => by
    obtain ⟨b, -, rfl⟩ := Option.mem_map.1 ha
    exact Bool.toNat_lt b) _ k

theorem nzWord_eq (r : NzRow) (free : Word) :
    nzWord r free = BitVec.ofNat 32 (laneSum 1 9 (nzLane r free) +
      2 ^ (1 * 9) * if r.toList.all fun f => f.isSome then 0 else bits free.toNat 31 9) := by
  simp [nzWord, laneOr_eq, laneSum, Finset.sum_range_succ, nzLane, List.range_succ]

/-- A written flag reads in its bit (10_state.md R61). -/
theorem nzWord_flag {r : NzRow} {k : Nat} {b : Bool} (hk : k < 9) (h : nzGet r k = some b) (free : Word) :
    (nzWord r free).getLsbD k = b := by
  have hv : nzLane r free k = b.toNat := by
    simp only [nzLane, h]
    rfl
  rw [nzWord_eq]
  refine getLsbD_ofNat_eq (by omega) ?_
  have hlane := laneSum_lane (nzLane_lt r free) hk (if r.toList.all fun f => f.isSome then 0 else bits free.toNat 31 9)
  rw [hv, Nat.one_mul k] at hlane
  exact hlane

/-- A row of nine written flags reads 0 above them (log entry 20). -/
theorem nzWord_high {r : NzRow} (h : ∀ k, k < 9 → (nzGet r k).isSome = true) (free : Word) :
    (nzWord r free).extractLsb' 9 23 = 0 := by
  have hall : (r.toList.all fun f => f.isSome) = true := by
    refine List.all_eq_true.2 fun x hx => ?_
    obtain ⟨k, hk, rfl⟩ := List.getElem_of_mem hx
    rw [Vector.length_toList] at hk
    simpa [nzGet, fileGet, hk] using h k hk
  rw [nzWord_eq, if_pos hall]
  refine extractLsb'_ofNat_eq (by decide) ?_
  rw [show 2 ^ 9 = 2 ^ (1 * 9) from rfl, laneSum_div (nzLane_lt r free)]
  rfl

/-! ### Contexts -/

theorem any_ctx {s : State} {p : BoolCtx → Bool} : s.bd.toList.any p = true ↔ ∃ i, i < 9 ∧ p (s.ctx i) = true := by
  have hget : ∀ i (hi : i < 9), s.ctx i = s.bd[i] := fun i hi => by simp [State.ctx, fileGet, hi]
  rw [List.any_eq_true]
  constructor
  · rintro ⟨c, hc, hp⟩
    obtain ⟨i, hi, rfl⟩ := List.getElem_of_mem hc
    rw [Vector.length_toList] at hi
    exact ⟨i, hi, by simpa [hget i hi] using hp⟩
  · rintro ⟨i, hi, hp⟩
    exact ⟨s.bd[i], by simp, by rwa [hget i hi] at hp⟩

/-! ### CFG registers -/

/-- Settles O8: a CFG word is no CTRL, STATUS or CMD, so its write is performed or dropped by BUSY; WREG accepts it. -/
theorem cfgWritePaths : Obligations.CfgWritePaths := by
  unfold Obligations.CfgWritePaths
  intro s k v later hk
  have hcfg : (regAtWord k).isCfg = true := regAtWord_isCfg hk
  refine ⟨fun h => ?_, if_pos hcfg⟩
  rw [step_mmioWrite h (by omega) (inputHeld_eq_false_of_ne_cmd (by omega) 4 v s), hostWrite_cfg hcfg]
  exact ⟨fun hb => if_pos hb, fun hb => if_neg (Bool.eq_false_iff.1 hb)⟩

/-! ### CMD -/

/-- Settles O9: the write is held exactly while ERR = 0 and CMDQ is full; otherwise it is cmdWrite. -/
theorem cmdPort : Obligations.CmdPort := by
  unfold Obligations.CmdPort
  refine ⟨Nat.le_add_left 2 _, fun s v later h => ?_⟩
  have hperform : cmdHeld s = false → step s = .next (cmdWrite v { s with inputs := later }) := fun hroom =>
    step_mmioWrite (k := 3) h (by decide) (by simp [inputHeld, hroom])
  refine ⟨fun he hlen => ?_, fun he => ?_, fun he hfull => ?_, hostRead_at s (k := 3) rfl (by decide) rfl⟩
  · rw [hperform (by simp [cmdHeld, hlen]), cmdWrite, if_neg (Bool.eq_false_iff.1 he)]
  · rw [hperform (by simp [cmdHeld, he]), cmdWrite, if_pos he]
  · exact step_coreTurn (later := s.inputs) (.inr (.inr ⟨rfl, he, hfull, v, later, h⟩))

/-! ### STATUS -/

theorem statusWord_bits (s : State) :
    (statusWord s).getLsbD 0 = busy s ∧ (statusWord s).getLsbD 1 = s.err ∧ (statusWord s).getLsbD 2 = s.syncDone ∧
      (statusWord s).getLsbD 3 = s.cfgDrop ∧ (statusWord s).getLsbD 4 = s.wide16 ∧ (statusWord s).getLsbD 5 = bdExh s ∧
      (statusWord s).getLsbD 6 = false ∧ (statusWord s).getLsbD 7 = false ∧
      (statusWord s).extractLsb' 8 4 = s.errCode ∧ (statusWord s).extractLsb' 12 20 = 0 := by
  have h0 := Bool.toNat_le (busy s)
  have h1 := Bool.toNat_le s.err
  have h2 := Bool.toNat_le s.syncDone
  have h3 := Bool.toNat_le s.cfgDrop
  have h4 := Bool.toNat_le s.wide16
  have h5 := Bool.toNat_le (bdExh s)
  have h8 := s.errCode.isLt
  have hfalse : false.toNat = 0 := rfl
  have hzero : (0 : BitVec 20).toNat = 0 := rfl
  simp only [statusWord, flagNat]
  refine ⟨?_, ?_, ?_, ?_, ?_, ?_, ?_, ?_, ?_, ?_⟩
  iterate 8 · exact getLsbD_ofNat_eq (by decide) (by omega)
  iterate 2 · exact extractLsb'_ofNat_eq (by decide) (by omega)

/-- Settles O10: STATUS is a sum of fields that do not overlap, and a write to it is statusWrite. -/
theorem statusRegister : Obligations.StatusRegister := by
  unfold Obligations.StatusRegister
  refine ⟨fun s => ?_, fun s v later h => ?_⟩
  · obtain ⟨b0, b1, b2, b3, b4, b5, b6, b7, code, high⟩ := statusWord_bits s
    refine ⟨statusWord s, hostRead_at s (k := 2) rfl (by decide) rfl, b0, b1, b2, b3, b4, ?_, b6, b7, code, high,
      b0.symm, rfl⟩
    rw [b5]
    exact any_ctx
  · rw [step_mmioWrite (k := 2) h (by decide) rfl]
    simp only [← bit_toNat]
    rfl

end Sys2Proof.Machine
end

section
/-! The HOST's other accesses (10_state.md R31, R32; 20_memory.md R101, R116, R117): the map outside the CFG registers, what is
refused, and HostAccesses assembled from them. -/

namespace Sys2Proof.Machine

/-! ### The map outside the CFG registers -/

/-- The ranges of words that a HOST write can change: CTRL to CMD, the CFG registers and PROB. -/
def writableWords : List (Nat × Nat) := [(1, 4), (7, 11), (0x10, 0x32), (0x80, 0x89), (0xC0, 0xD0), (0x200, 0x308)]

/-- The ranges of words that are some register or window word. -/
def mappedWords : List (Nat × Nat) :=
  [(0, 11), (0x10, 0x32), (0x40, 0x64), (0x80, 0x89), (0x90, 0xA8), (0xC0, 0xD0), (0x100, 0x119), (0x200, 0x308),
   (0x400, 0x4C8), (0x800, 0x990), (0xC00, 0xC01), (0x1000, 0x2000)]

theorem hostWrite_readOnly {k : Nat} (h : ∀ p ∈ writableWords, ¬ (p.1 ≤ k ∧ k < p.2)) (v : Word) (s : State) :
    hostWrite (regAtWord k) v s = .next s := by
  obtain ⟨hctrl, hstatus, hcmd, hcfg⟩ := regAtWord_writable k
  simp only [writableWords, List.forall_mem_cons] at h
  obtain ⟨hport, h1, h2, h3, h4, h5, -⟩ := h
  refine hostWrite_ignored (fun e => ?_) (fun e => ?_) (fun e => ?_) (fun e => ?_) v s
  · exact hport (by rw [hctrl e]; decide)
  · exact hport (by rw [hstatus e]; decide)
  · exact hport (by rw [hcmd e]; decide)
  · rcases hcfg e with k1 | k2 | k3 | k4 | k5
    · exact h1 ⟨k1.1, Nat.lt_succ_of_le k1.2⟩
    · exact h2 k2
    · exact h3 k3
    · exact h4 k4
    · exact h5 k5

theorem regAtWord_rsv {k : Nat} (h : ∀ p ∈ mappedWords, ¬ (p.1 ≤ k ∧ k < p.2)) : regAtWord k = .rsv := by
  simp only [mappedWords, List.forall_mem_cons] at h
  obtain ⟨h1, h2, h3, h4, h5, h6, h7, h8, h9, h10, h11, h12, -⟩ := h
  unfold regAtWord
  iterate 11 rw [if_neg fun e => h1 (by omega)]
  iterate 2 rw [if_neg fun e => h2 (by omega)]
  rw [if_neg h3]
  iterate 9 rw [if_neg fun e => h4 (by omega)]
  rw [if_neg h5, if_neg h6, if_neg h7, if_neg h8, if_neg h9, if_neg h10, if_neg fun e => h11 (by omega), if_neg h12]

/-- Where the map puts the entries of DQF and of the RAM windows (10_state.md R55 to R61). -/
theorem regAtWord_entry (j : Nat) :
    (j < 24 → regAtWord (0x90 + j) = .dqf j) ∧ (j < 25 → regAtWord (0x100 + j) = .eob j) ∧
      (j < 264 → regAtWord (0x200 + j) = .prob j) ∧ (j < 200 → regAtWord (0x400 + j) = .coef j) ∧
      (j < 400 → regAtWord (0x800 + j) = .dq j) ∧ (j < 4096 → regAtWord (0x1000 + j) = .nzAbove j) := by
  unfold regAtWord
  refine ⟨fun h => ?_, fun h => ?_, fun h => ?_, fun h => ?_, fun h => ?_, fun h => ?_⟩
  all_goals
    repeat rw [if_neg (by omega)]
    rw [if_pos (by omega), Nat.add_sub_cancel_left]

/-- The four words of each context (10_state.md R48). -/
theorem regAtWord_bd : ∀ i, i < 9 →
    regAtWord (0x40 + 4 * i) = .bdValue i ∧ regAtWord (0x41 + 4 * i) = .bdState i ∧
      regAtWord (0x42 + 4 * i) = .bdPos i ∧ regAtWord (0x43 + 4 * i) = .bdZfill i := by
  decide

/-! ### CTRL and BD_STATE -/

theorem ctrlWord_bits (s : State) :
    (ctrlWord s).getLsbD 0 = false ∧ (ctrlWord s).getLsbD 1 = s.ieSync ∧ (ctrlWord s).getLsbD 2 = s.ieErr ∧
      (ctrlWord s).extractLsb' 3 29 = 0 := by
  have h1 := Bool.toNat_le s.ieSync
  have h2 := Bool.toNat_le s.ieErr
  have hfalse : false.toNat = 0 := rfl
  have hzero : (0 : BitVec 29).toNat = 0 := rfl
  simp only [ctrlWord, flagNat]
  refine ⟨?_, ?_, ?_, ?_⟩
  iterate 3 · exact getLsbD_ofNat_eq (by decide) (by omega)
  · exact extractLsb'_ofNat_eq (by decide) (by omega)

theorem bdStateWord_bits (c : BoolCtx) :
    (bdStateWord c).extractLsb' 0 8 = c.range ∧ (bdStateWord c).extractLsb' 8 3 = c.bitCount ∧
      (bdStateWord c).extractLsb' 11 5 = 0 ∧ (bdStateWord c).getLsbD 16 = c.valid ∧
      (bdStateWord c).getLsbD 17 = c.exh ∧ (bdStateWord c).extractLsb' 18 14 = 0 := by
  have h0 := c.range.isLt
  have h8 := c.bitCount.isLt
  have h16 := Bool.toNat_le c.valid
  have h17 := Bool.toNat_le c.exh
  have hzero5 : (0 : BitVec 5).toNat = 0 := rfl
  have hzero14 : (0 : BitVec 14).toNat = 0 := rfl
  simp only [bdStateWord, flagNat]
  refine ⟨?_, ?_, ?_, ?_, ?_, ?_⟩
  iterate 3 · exact extractLsb'_ofNat_eq (by decide) (by omega)
  iterate 2 · exact getLsbD_ofNat_eq (by decide) (by omega)
  · exact extractLsb'_ofNat_eq (by decide) (by omega)

/-! ### Data memory -/

theorem readable_iff {c : CfgRegs} {p : Plane} {x y : Int} :
    readable c p x y = true ↔ Readable c { plane := p, x := x, y := y } := by
  simp only [readable, Readable, Bool.and_eq_true, decide_eq_true_eq, and_assoc]

theorem pixelAddr_eq_add (c : CfgRegs) (slot : Nat) (p : Plane) (x y : Int) :
    pixelAddr c slot p x y = pixelAddr c slot p 0 y + x := by
  simp only [pixelAddr, Int.add_zero]

theorem inPlane_iff {c : CfgRegs} {slot : Nat} {p : Plane} {a : Nat} :
    inPlane c slot p a = true ↔
      ∃ x y, Readable c { plane := p, x := x, y := y } ∧ pixelAddr c slot p x y = (a : Int) := by
  simp only [inPlane, List.any_eq_true, List.mem_range, readable_iff]
  constructor
  · rintro ⟨k, -, hr⟩
    exact ⟨_, _, hr, by rw [pixelAddr_eq_add]; omega⟩
  · rintro ⟨x, y, hr, ha⟩
    obtain ⟨-, -, hlo, hhi⟩ := id hr
    simp only at hlo hhi
    rw [pixelAddr_eq_add] at ha
    refine ⟨(y + planeB c p).toNat, by omega, ?_⟩
    rwa [show (((y + planeB c p).toNat : Nat) : Int) - planeB c p = y by omega,
      show (a : Int) - pixelAddr c slot p 0 y = x by omega]

theorem inFrameSlot_iff {s : State} {a : Nat} :
    inFrameSlot s a = true ↔
      ∃ r, r < 4 ∧ ∃ q, Readable s.cfg q ∧ q.addr s.cfg (s.cfg.roleSlot r) = (a : Int) := by
  simp only [inFrameSlot, List.any_eq_true, List.mem_range, inPlane_iff]
  constructor
  · rintro ⟨r, hr, p, -, x, y, hq, ha⟩
    exact ⟨r, hr, _, hq, ha⟩
  · rintro ⟨r, hr, ⟨p, x, y⟩, hq, ha⟩
    exact ⟨r, hr, p, by cases p <;> simp, x, y, hq, ha⟩

theorem inPartition_iff {s : State} {a : Nat} :
    inPartition s a = true ↔ ∃ i, i < 9 ∧ (s.ctx i).valid = true ∧ (s.ctx i).start ≤ a ∧ a < (s.ctx i).stop := by
  simp only [inPartition, any_ctx, Bool.and_eq_true, decide_eq_true_eq, and_assoc]

/-- A HOST byte write is refused exactly at a byte that a busy CORE may be using (R117, log entry 11). -/
theorem hostRace_iff {s : State} {a : Nat} :
    (busy s && (inPartition s a || inFrameSlot s a)) = true ↔
      busy s = true ∧
        ((∃ i, i < 9 ∧ (s.ctx i).valid = true ∧ (s.ctx i).start ≤ a ∧ a < (s.ctx i).stop) ∨
         (∃ r, r < 4 ∧ ∃ q, Readable s.cfg q ∧ q.addr s.cfg (s.cfg.roleSlot r) = (a : Int))) := by
  rw [Bool.and_eq_true, Bool.or_eq_true, inPartition_iff, inFrameSlot_iff]

/-! ### Refusals -/

theorem mmioAccess_refused {off width : Nat} (h : ¬ (width = 4 ∧ off % 4 = 0 ∧ off < 0x8000)) (s : State) :
    hostRead s off width = .error .mmioAccess ∧
      ∀ (v : Word) (later : List Input), s.inputs = .mmioWrite off width v :: later → step s = .refused .mmioAccess := by
  have hno : ¬ mmioAccessOk off width = true := mmioAccessOk_iff.not.2 h
  refine ⟨if_neg hno, fun v later hin => ?_⟩
  rw [step_of_input hin (by simp [inputHeld, hno]), inputStep, if_neg hno]

/-! ### The reads -/

theorem hostRead_bd (s : State) {i : Nat} (hi : i < 9) :
    hostRead s (0x0100 + 16 * i) 4 = .ok ((s.ctx i).value.setWidth 32) ∧
      hostRead s (0x0104 + 16 * i) 4 = .ok (bdStateWord (s.ctx i)) ∧
      hostRead s (0x0108 + 16 * i) 4 = .ok (BitVec.ofNat 32 (s.ctx i).pos) ∧
      hostRead s (0x010C + 16 * i) 4 = .ok (s.ctx i).zfill := by
  obtain ⟨hvalue, hstate, hpos, hzfill⟩ := regAtWord_bd i hi
  exact ⟨hostRead_at s (by omega) (by omega) hvalue, hostRead_at s (by omega) (by omega) hstate,
    hostRead_at s (by omega) (by omega) hpos, hostRead_at s (by omega) (by omega) hzfill⟩

theorem hostRead_dqf (s : State) {j : Nat} (hj : j < 24) :
    hostRead s (0x0240 + 4 * j) 4 = .ok ((fileGet s.dqf j 0).setWidth 32) := by
  obtain ⟨hr, -⟩ := regAtWord_entry j
  exact hostRead_at s (by omega) (by omega) (hr hj)

theorem hostRead_eob {s : State} {b : Nat} {v : BitVec 5} (hb : b < 25) (h : Cells.get s.ram.eob b = some v) :
    hostRead s (0x0400 + 4 * b) 4 = .ok (v.setWidth 32) := by
  obtain ⟨-, hr, -⟩ := regAtWord_entry b
  rw [hostRead_at s (k := 0x100 + b) (by omega) (by omega) (hr hb), readReg, h]
  rfl

theorem hostRead_prob (s : State) {j : Nat} (hj : j < 264) : hostRead s (0x0800 + 4 * j) 4 = .ok (probWord s j) := by
  obtain ⟨-, -, hr, -⟩ := regAtWord_entry j
  exact hostRead_at s (by omega) (by omega) (hr hj)

theorem hostRead_coef (s : State) {j : Nat} (hj : j < 200) : hostRead s (0x1000 + 4 * j) 4 = .ok (coefWord s j) := by
  obtain ⟨-, -, -, hr, -⟩ := regAtWord_entry j
  exact hostRead_at s (by omega) (by omega) (hr hj)

theorem hostRead_dq {s : State} {j : Nat} {v : BitVec 32} (hj : j < 400) (h : Cells.get s.ram.dq j = some v) :
    hostRead s (0x2000 + 4 * j) 4 = .ok v := by
  obtain ⟨-, -, -, -, hr, -⟩ := regAtWord_entry j
  rw [hostRead_at s (k := 0x800 + j) (by omega) (by omega) (hr hj), readReg, h]
  rfl

theorem hostRead_nzAbove (s : State) {c : Nat} (hc : c < 4096) : hostRead s (0x4000 + 4 * c) 4 =
    .ok (nzWord (nzAboveGet s.ram.nzAbove c) (freeWord s (0x1000 + c))) := by
  obtain ⟨-, -, -, -, -, hr⟩ := regAtWord_entry c
  exact hostRead_at s (by omega) (by omega) (hr hc)

/-- Settles O11: the refusals, the memory write, the words that ignore writes, and each register's read, from the lemmas
about each. -/
theorem hostAccesses : Obligations.HostAccesses := by
  unfold Obligations.HostAccesses
  refine ⟨fun s off width v later h => ?_, fun s a v later h => ?_, fun m a v => ?_, ?_, ?_, fun s => ?_⟩
  · obtain ⟨hread, hwrite⟩ := mmioAccess_refused h s
    exact ⟨hread, hwrite v later⟩
  · have hstep : step s = hostMemWrite a v { s with inputs := later } := step_of_input h rfl
    rw [hstep, ← hostRace_iff]
    exact ⟨fun hrace => if_pos hrace, fun hrace => if_neg hrace⟩
  · exact ⟨readByte_writeByte_same m a v, fun b hb => readByte_writeByte_other m v (Ne.symm hb)⟩
  · intro writable s k v later hk hro hin
    have hne : k ≠ 3 := fun e => hro (1, 4) (by decide) (by rw [e]; decide)
    rw [step_mmioWrite hin hk (inputHeld_eq_false_of_ne_cmd hne 4 v s)]
    exact hostWrite_readOnly hro v _
  · exact fun s k hk hrsv => hostRead_at s rfl hk (regAtWord_rsv hrsv)
  · refine ⟨hostRead_at s (k := 0) rfl (by decide) rfl, hostRead_at s (k := 4) rfl (by decide) rfl,
      hostRead_at s (k := 5) rfl (by decide) rfl, hostRead_at s (k := 6) rfl (by decide) rfl,
      ⟨ctrlWord s, hostRead_at s (k := 1) rfl (by decide) rfl, ctrlWord_bits s⟩, fun i hi => ?_, fun g k hg hk => ?_,
      fun b v hb h => hostRead_eob hb h, fun e v he h => ⟨_, hostRead_prob s (by omega), probWord_lane h⟩,
      fun j v hj h => ⟨_, hostRead_coef s (by omega), coefWord_lane h⟩, fun j v hj h => hostRead_dq hj h,
      ⟨_, hostRead_at s (k := 0xC00) rfl (by decide) rfl, fun k b hk h => nzWord_flag hk h _, fun h => nzWord_high h _⟩,
      fun c hc => ⟨_, hostRead_nzAbove s hc, fun k b hk h => nzWord_flag hk h _, fun h => nzWord_high h _⟩⟩
    · obtain ⟨hvalue, hstate, hpos, hzfill⟩ := hostRead_bd s hi
      exact ⟨hvalue, ⟨_, hstate, bdStateWord_bits _⟩, hpos, hzfill⟩
    · exact hostRead_dqf s (by omega)

end Sys2Proof.Machine
end

section
/-! Where a command may change data memory (20_memory.md R109): the bytes a pixel command changes are addresses of its
pixels, the areas of prediction and reconstruction lie in the current macroblock, and the loop filter's lines reach at most
three pixels over a macroblock edge that is not a frame edge. -/

namespace Sys2Proof.Machine

/-- A byte that a pixel command changed is the address of one of its pixels. -/
theorem PixelEffect.changed {ps : List Point} {s t : State} (h : PixelEffect ps s t) {a : Nat}
    (ha : readByte t.mem a ≠ readByte s.mem a) : ∃ q ∈ ps, q.addr s.cfg s.cfg.cur = (a : Int) := by
  by_contra hno
  refine ha (h.writes.other a fun q hq haddr => hno ⟨q, hq, ?_⟩)
  have hpos := (pixelOk_iff.1 (pointsOk_iff.1 h.inside q hq)).1
  rw [Point.addr, ← haddr, Int.toNat_of_nonneg hpos]

/-! ### The current macroblock (20_memory.md R107, R108) -/

theorem posOk_iff {c : CfgRegs} : posOk c = true ↔ c.mbCol < c.mbCols ∧ c.mbRow < c.mbRows := by
  simp only [posOk, Bool.and_eq_true, decide_eq_true_eq]
  omega

theorem planeW_eq (c : CfgRegs) (p : Plane) : planeW c p = (mbSize p : Int) * c.mbCols := by cases p <;> rfl

theorem planeH_eq (c : CfgRegs) (p : Plane) : planeH c p = (mbSize p : Int) * c.mbRows := by cases p <;> rfl

theorem mbX_nonneg (c : CfgRegs) (p : Plane) : 0 ≤ mbX c p := by unfold mbX; positivity

theorem mbY_nonneg (c : CfgRegs) (p : Plane) : 0 ≤ mbY c p := by unfold mbY; positivity

/-- At a legal position the whole macroblock is inside the plane's right edge. -/
theorem mbX_add_size_le {c : CfgRegs} (h : posOk c = true) (p : Plane) : mbX c p + (mbSize p : Int) ≤ planeW c p := by
  have hcol : (c.mbCol : Int) + 1 ≤ c.mbCols := by exact_mod_cast (posOk_iff.1 h).1
  calc mbX c p + (mbSize p : Int) = (mbSize p : Int) * ((c.mbCol : Int) + 1) := by rw [mbX]; ring
    _ ≤ (mbSize p : Int) * c.mbCols := mul_le_mul_of_nonneg_left hcol (by positivity)
    _ = planeW c p := (planeW_eq c p).symm

/-- At a legal position the whole macroblock is inside the plane's lower edge. -/
theorem mbY_add_size_le {c : CfgRegs} (h : posOk c = true) (p : Plane) : mbY c p + (mbSize p : Int) ≤ planeH c p := by
  have hrow : (c.mbRow : Int) + 1 ≤ c.mbRows := by exact_mod_cast (posOk_iff.1 h).2
  calc mbY c p + (mbSize p : Int) = (mbSize p : Int) * ((c.mbRow : Int) + 1) := by rw [mbY]; ring
    _ ≤ (mbSize p : Int) * c.mbRows := mul_le_mul_of_nonneg_left hrow (by positivity)
    _ = planeH c p := (planeH_eq c p).symm

theorem eight_le_mbSize (p : Plane) : 8 ≤ mbSize p := by cases p <;> decide

/-- A macroblock that is not in the first column has a whole macroblock left of it. -/
theorem mbSize_le_mbX {c : CfgRegs} (h : 0 < c.mbCol) (p : Plane) : (mbSize p : Int) ≤ mbX c p :=
  le_mul_of_one_le_right (by positivity) (by exact_mod_cast h)

/-- A macroblock that is not in the first row has a whole macroblock above it. -/
theorem mbSize_le_mbY {c : CfgRegs} (h : 0 < c.mbRow) (p : Plane) : (mbSize p : Int) ≤ mbY c p :=
  le_mul_of_one_le_right (by positivity) (by exact_mod_cast h)

/-- At a legal position the current macroblock is visible. -/
theorem InMb.visible {c : CfgRegs} (h : posOk c = true) {q : Point} (hq : InMb c q) : Visible c q := by
  obtain ⟨hx, hx', hy, hy'⟩ := hq
  exact ⟨(mbX_nonneg c _).trans hx, hx'.trans_le (mbX_add_size_le h _), (mbY_nonneg c _).trans hy,
    hy'.trans_le (mbY_add_size_le h _)⟩

theorem inMb_of_mem_mbPoints {c : CfgRegs} {p : Plane} {q : Point} (h : q ∈ mbPoints c p) : InMb c q := by
  obtain ⟨r, k, hr, hk, rfl⟩ := mem_areaPoints h
  simp only [InMb]
  omega

theorem inMb_of_mem_mbAllPoints {c : CfgRegs} {q : Point} (h : q ∈ mbAllPoints c) : InMb c q := by
  obtain ⟨p, -, hq⟩ := List.mem_flatMap.1 h
  exact inMb_of_mem_mbPoints hq

/-- The four columns of a block are columns of the macroblock. -/
theorem blockX_in_mb (c : CfgRegs) (b : Nat) :
    mbX c (blockPlane b) ≤ blockX c b ∧ blockX c b + 4 ≤ mbX c (blockPlane b) + (mbSize (blockPlane b) : Int) := by
  have hsize : (if b < 16 then b % 4 else b % 2) * 4 + 4 ≤ mbSize (blockPlane b) := by
    unfold blockPlane
    split
    · simp only [mbSize]
      omega
    · split <;> simp only [mbSize] <;> omega
  simp only [blockX]
  omega

/-- The four rows of a block are rows of the macroblock. -/
theorem blockY_in_mb (c : CfgRegs) (b : Nat) :
    mbY c (blockPlane b) ≤ blockY c b ∧ blockY c b + 4 ≤ mbY c (blockPlane b) + (mbSize (blockPlane b) : Int) := by
  have hsize : (if b < 16 then b / 4 else b % 4 / 2) * 4 + 4 ≤ mbSize (blockPlane b) := by
    unfold blockPlane
    split
    · simp only [mbSize]
      omega
    · split <;> simp only [mbSize] <;> omega
  simp only [blockY]
  omega

theorem inMb_of_mem_blockPoints {c : CfgRegs} {b : Nat} {q : Point} (h : q ∈ blockPoints c b) : InMb c q := by
  obtain ⟨r, k, hr, hk, rfl⟩ := mem_areaPoints h
  have hx := blockX_in_mb c b
  have hy := blockY_in_mb c b
  simp only [InMb]
  omega

theorem blockPoints_luma (c : CfgRegs) {b : Nat} (h : b ≤ 15) :
    blockPoints c b = areaPoints .y (blockX c b) (blockY c b) 4 := by
  rw [blockPoints, blockPlane, if_pos (by omega)]

/-! ### The edges of the loop filter (46_loopfilter.md R434) -/

theorem mem_edgeLines {c : CfgRegs} {p : Plane} {vertical mbEdge : Bool} {off : Int} {e : EdgeLine}
    (h : e ∈ edgeLines c p vertical mbEdge off) : ∃ j : Nat, j < mbSize p ∧
      e = if vertical then ⟨p, true, mbEdge, mbX c p + off, mbY c p + j⟩
        else ⟨p, false, mbEdge, mbX c p + j, mbY c p + off⟩ := by
  simp only [edgeLines, List.mem_map, List.bind_eq_flatMap, List.pure_def, List.mem_flatMap, List.mem_range,
    List.mem_singleton] at h
  obtain ⟨_, ⟨j, hj, rfl⟩, rfl⟩ := h
  exact ⟨j, hj, rfl⟩

/-- A line of an edge that R434 filters. -/
def FilteredLine (c : CfgRegs) (inner : Bool) (e : EdgeLine) : Prop :=
  ∃ p vertical mbEdge off, FilteredEdge c inner vertical p off ∧ e ∈ edgeLines c p vertical mbEdge off

theorem filteredLine_of_mem_mbEdgeGroup {c : CfgRegs} {vertical : Bool} {e : EdgeLine} (inner : Bool)
    (hpos : if vertical then 0 < c.mbCol else 0 < c.mbRow) (h : e ∈ mbEdgeGroup c c.lfSimple vertical) :
    FilteredLine c inner e := by
  have edge : ∀ {p}, (p = .y ∨ c.lfSimple = false) → e ∈ edgeLines c p vertical true 0 → FilteredLine c inner e :=
    fun hp he => ⟨_, vertical, true, 0, ⟨hp, .inl ⟨rfl, hpos⟩⟩, he⟩
  simp only [mbEdgeGroup, List.mem_append, List.mem_ite_nil_left, Bool.not_eq_true] at h
  rcases h with h | ⟨hs, h | h⟩
  · exact edge (.inl rfl) h
  · exact edge (.inr hs) h
  · exact edge (.inr hs) h

theorem filteredLine_of_mem_innerEdgeGroup {c : CfgRegs} {vertical : Bool} {e : EdgeLine}
    (h : e ∈ innerEdgeGroup c c.lfSimple vertical) : FilteredLine c true e := by
  have edge : ∀ {p off}, (p = .y ∨ c.lfSimple = false) → (off = 4 ∨ (p = .y ∧ (off = 8 ∨ off = 12))) →
      e ∈ edgeLines c p vertical false off → FilteredLine c true e :=
    fun hp hoff he => ⟨_, vertical, false, _, ⟨hp, .inr ⟨rfl, hoff⟩⟩, he⟩
  simp only [innerEdgeGroup, List.mem_append, List.mem_ite_nil_left, Bool.not_eq_true] at h
  rcases h with ((h | h) | h) | ⟨hs, h | h⟩
  · exact edge (.inl rfl) (.inl rfl) h
  · exact edge (.inl rfl) (.inr ⟨rfl, .inl rfl⟩) h
  · exact edge (.inl rfl) (.inr ⟨rfl, .inr rfl⟩) h
  · exact edge (.inr hs) (.inl rfl) h
  · exact edge (.inr hs) (.inl rfl) h

theorem filteredLine_of_mem_mbEdgeLines {c : CfgRegs} {mode : Nat} {nocoef : Bool} {e : EdgeLine}
    (h : e ∈ mbEdgeLines c mode nocoef) : FilteredLine c (!skipInner mode nocoef) e := by
  simp only [mbEdgeLines, List.mem_append, List.mem_ite_nil_right] at h
  rcases h with ((⟨hcol, he⟩ | ⟨hin, he⟩) | ⟨hrow, he⟩) | ⟨hin, he⟩
  · exact filteredLine_of_mem_mbEdgeGroup (vertical := true) _ hcol he
  · rw [hin]
    exact filteredLine_of_mem_innerEdgeGroup he
  · exact filteredLine_of_mem_mbEdgeGroup (vertical := false) _ hrow he
  · rw [hin]
    exact filteredLine_of_mem_innerEdgeGroup he

/-- The pixels that a filtered line may write are within three of its edge (R426). -/
theorem FilteredLine.nearFilteredEdge {c : CfgRegs} {inner : Bool} {e : EdgeLine} (h : FilteredLine c inner e) {q : Point}
    (hq : q ∈ inkPoints e) : NearFilteredEdge c inner q := by
  obtain ⟨p, vertical, mbEdge, off, hf, he⟩ := h
  obtain ⟨j, hj, rfl⟩ := mem_edgeLines he
  obtain ⟨k, hk, rfl⟩ := List.mem_map.1 hq
  have hk' : 1 ≤ k ∧ k ≤ 6 := (by decide : ∀ k ∈ [1, 2, 3, 4, 5, 6], 1 ≤ k ∧ k ≤ 6) k hk
  cases vertical
  · refine ⟨false, off, hf, ?_⟩
    simp only [linePoint, Bool.false_eq_true, if_false]
    omega
  · refine ⟨true, off, hf, ?_⟩
    simp only [linePoint, if_true]
    omega

theorem nearFilteredEdge_of_mem {c : CfgRegs} {mode : Nat} {nocoef : Bool} {q : Point}
    (h : q ∈ (mbEdgeLines c mode nocoef).flatMap inkPoints) : NearFilteredEdge c (!skipInner mode nocoef) q := by
  obtain ⟨e, he, hq⟩ := List.mem_flatMap.1 h
  exact (filteredLine_of_mem_mbEdgeLines he).nearFilteredEdge hq

/-- An inner edge with the three pixels beyond it on either side is inside the macroblock. -/
theorem inner_offset_bounds {p : Plane} {off : Int} (h : off = 4 ∨ (p = .y ∧ (off = 8 ∨ off = 12))) :
    4 ≤ off ∧ off + 4 ≤ (mbSize p : Int) := by
  have hsize := eight_le_mbSize p
  rcases h with rfl | ⟨rfl, rfl | rfl⟩
  · omega
  · decide
  · decide

/-- The pixels beside a filtered edge are in the macroblock, or in the three columns or rows before it when it is not at the
frame's edge. -/
theorem NearFilteredEdge.cases {c : CfgRegs} {inner : Bool} {q : Point} (h : NearFilteredEdge c inner q) :
    InMb c q ∨
    (0 < c.mbCol ∧ mbX c q.plane - 3 ≤ q.x ∧ q.x < mbX c q.plane ∧
      mbY c q.plane ≤ q.y ∧ q.y < mbY c q.plane + (mbSize q.plane : Int)) ∨
    (0 < c.mbRow ∧ mbX c q.plane ≤ q.x ∧ q.x < mbX c q.plane + (mbSize q.plane : Int) ∧
      mbY c q.plane - 3 ≤ q.y ∧ q.y < mbY c q.plane) := by
  have hsize := eight_le_mbSize q.plane
  obtain ⟨vertical, off, ⟨-, hoff⟩, hq⟩ := h
  unfold InMb
  cases vertical
  · simp only [Bool.false_eq_true, if_false] at hoff hq
    rcases hoff with ⟨rfl, hrow⟩ | ⟨-, hoff⟩
    · omega
    · have := inner_offset_bounds hoff
      omega
  · simp only [if_true] at hoff hq
    rcases hoff with ⟨rfl, hcol⟩ | ⟨-, hoff⟩
    · omega
    · have := inner_offset_bounds hoff
      omega

theorem NearFilteredEdge.nearMb {c : CfgRegs} {inner : Bool} {q : Point} (h : NearFilteredEdge c inner q) : NearMb c q := by
  rcases h.cases with h | ⟨-, h⟩ | ⟨-, h⟩
  · exact .inl h
  · exact .inr (.inl h)
  · exact .inr (.inr h)

/-- At a legal position the loop filter writes visible pixels only. -/
theorem NearFilteredEdge.visible {c : CfgRegs} (hp : posOk c = true) {inner : Bool} {q : Point}
    (h : NearFilteredEdge c inner q) : Visible c q := by
  have hsize := eight_le_mbSize q.plane
  have hw := mbX_add_size_le hp q.plane
  have hh := mbY_add_size_le hp q.plane
  have hx0 := mbX_nonneg c q.plane
  have hy0 := mbY_nonneg c q.plane
  unfold Visible
  rcases h.cases with h | ⟨hcol, h⟩ | ⟨hrow, h⟩
  · exact h.visible hp
  · have := mbSize_le_mbX hcol q.plane
    omega
  · have := mbSize_le_mbY hrow q.plane
    omega

/-! ### Every command -/

/-- Settles O57: by its write set a command that changes data memory is one of the seven pixel commands; six have their
pixels in the macroblock, and those of LF_MB are beside filtered edges. -/
theorem writesOnlyCurVisible : Obligations.WritesOnlyCurVisible := by
  unfold Obligations.WritesOnlyCurVisible
  intro i s t h a ha
  have hop := (exec_writeSet h).mem fun e => ha (by rw [e])
  have herr : ∀ {w : Word}, ¬ ∃ e, t = errorEntry e w s := by
    rintro w ⟨e, rfl⟩
    exact ha rfl
  have inside : ∀ {ps : List Point}, posOk s.cfg = true → PixelEffect ps s t → (∀ q ∈ ps, InMb s.cfg q) →
      ∃ q, q.addr s.cfg s.cfg.cur = (a : Int) ∧ Visible s.cfg q ∧
        (InMb s.cfg q ∨ ((∃ seg ref mode nocoef, i = .lfMb seg ref mode nocoef) ∧ NearMb s.cfg q)) := by
    intro ps hp k hin
    obtain ⟨q, hq, haddr⟩ := k.changed ha
    exact ⟨q, haddr, (hin q hq).visible hp, .inl (hin q hq)⟩
  cases i with
  | idctAdd blk =>
    obtain ⟨-, hp, k⟩ := (execIdctAdd_next h).resolve_left herr
    exact inside hp k fun q hq => inMb_of_mem_blockPoints hq
  | reconMb uvonly =>
    obtain ⟨hp, k⟩ := (execReconMb_next h).resolve_left herr
    refine inside hp k fun q hq => ?_
    obtain ⟨b, -, hq⟩ := List.mem_flatMap.1 hq
    exact inMb_of_mem_blockPoints hq
  | ipred16 mode =>
    obtain ⟨hp, k⟩ := (execIpred16_next h).resolve_left herr
    exact inside hp k fun q hq => inMb_of_mem_mbPoints hq
  | ipredUv mode =>
    obtain ⟨hp, k⟩ := (execIpredUv_next h).resolve_left herr
    exact inside hp k fun q hq => (List.mem_append.1 hq).elim inMb_of_mem_mbPoints inMb_of_mem_mbPoints
  | ipred4 blk bmode =>
    obtain ⟨hb, hp, k⟩ := (execIpred4_next h).resolve_left herr
    rw [← blockPoints_luma s.cfg hb] at k
    exact inside hp k fun q hq => inMb_of_mem_blockPoints hq
  | mcMb ref split clamp =>
    obtain ⟨hp, k⟩ := (execMcMb_next h).resolve_left herr
    exact inside hp k fun q hq => inMb_of_mem_mbAllPoints hq
  | lfMb seg ref mode nocoef =>
    rcases (execLfMb_next h).resolve_left herr with rfl | ⟨hp, k⟩
    · exact absurd rfl ha
    · obtain ⟨q, hq, haddr⟩ := k.changed ha
      have hnear := nearFilteredEdge_of_mem hq
      exact ⟨q, haddr, hnear.visible hp, .inr ⟨⟨seg, ref, mode, nocoef, rfl⟩, hnear.nearMb⟩⟩
  | _ => exact absurd hop (by simp [Instr.opcode])

end Sys2Proof.Machine
end

section
/-! Encoding (30_encoding.md R130 to R136): decoding undoes the encoder, and the encoder undoes decoding. `readFields_fields`
says that reading the operand fields undoes writing them, `fields_readFields` that writing undoes reading. -/

namespace Sys2Proof

open Machine Laws

/-! ### Opcodes and data words -/

/-- The data word of WREG; 0 for the other commands, as decoding and taking them have it. -/
def Instr.dataWord : Instr → Word
  | .wreg _ data => data
  | _ => 0

/-- The family OpcodeField for every command. -/
theorem opcodeField : ∀ i, OpcodeField.Statement i
  | .nop => OpcodeField.nop
  | .sync => OpcodeField.sync
  | .wreg widx data => OpcodeField.wreg widx data
  | .mbSet row col => OpcodeField.mbSet row col
  | .bdInit ctx => OpcodeField.bdInit ctx
  | .bdBool ctx prob => OpcodeField.bdBool ctx prob
  | .bdLit ctx n => OpcodeField.bdLit ctx n
  | .detokFrame => OpcodeField.detokFrame
  | .detokRow => OpcodeField.detokRow
  | .detokMb ctx y2 skip => OpcodeField.detokMb ctx y2 skip
  | .qsetup => OpcodeField.qsetup
  | .deqMb seg => OpcodeField.deqMb seg
  | .iwht => OpcodeField.iwht
  | .idctAdd blk => OpcodeField.idctAdd blk
  | .reconMb uvonly => OpcodeField.reconMb uvonly
  | .ipred16 mode => OpcodeField.ipred16 mode
  | .ipredUv mode => OpcodeField.ipredUv mode
  | .ipred4 blk bmode => OpcodeField.ipred4 blk bmode
  | .mcMb ref split clamp => OpcodeField.mcMb ref split clamp
  | .lfMb seg ref mode nocoef => OpcodeField.lfMb seg ref mode nocoef

theorem fields_lt {i : Instr} (h : i.wf = true) : i.fields < 2 ^ 26 := (opcodeField i h).1

theorem opcode_eq_opcWreg {i : Instr} (h : i.opcode = opcWreg) : i = .wreg i.fields i.dataWord := by
  cases i with
  | wreg widx data => rfl
  | _ => cases h

theorem dataWord_of_opcode_ne {i : Instr} (h : i.opcode ≠ opcWreg) : i.dataWord = 0 := by
  cases i with
  | wreg widx data => exact absurd rfl h
  | _ => rfl

theorem encode_of_opcode_ne {i : Instr} (h : i.opcode ≠ opcWreg) : encode i = [i.word] := by
  cases i with
  | wreg widx data => exact absurd rfl h
  | _ => rfl

theorem encode_of_opcode_eq {i : Instr} (h : i.opcode = opcWreg) : encode i = [i.word, i.dataWord] := by
  rw [opcode_eq_opcWreg h]
  rfl

theorem map_rest_eq_ok {x : Except DecodeError Instr} {rest rest' : List Word} {i : Instr} :
    (x.map fun j => (j, rest')) = .ok (i, rest) ↔ x = .ok i ∧ rest' = rest := by
  cases x <;> simp [Except.map]

/-- The two ways in which words decode: a command word alone, and WREG's with its data word (R130). -/
theorem decode_ok_iff {ws rest : List Word} {i : Instr} :
    decode ws = .ok (i, rest) ↔
      (∃ w, opcodeOf w ≠ opcWreg ∧ decodeWord w 0 = .ok i ∧ ws = w :: rest) ∨
      (∃ w d, opcodeOf w = opcWreg ∧ decodeWord w d = .ok i ∧ ws = w :: d :: rest) := by
  constructor
  · intro h
    unfold decode at h
    split at h
    · cases h
    · split at h
      · rename_i w _ hw
        split at h
        · cases h
        · rename_i d _
          obtain ⟨hd, rfl⟩ := map_rest_eq_ok.1 h
          exact .inr ⟨w, d, hw, hd, rfl⟩
      · rename_i w _ hw
        obtain ⟨hd, rfl⟩ := map_rest_eq_ok.1 h
        exact .inl ⟨w, hw, hd, rfl⟩
  · rintro (⟨w, hw, hd, rfl⟩ | ⟨w, d, hw, hd, rfl⟩)
    · simp only [decode, if_neg hw, map_rest_eq_ok, hd, and_self]
    · simp only [decode, if_pos hw, map_rest_eq_ok, hd, and_self]

theorem readFields_opcode {opc n : Nat} {d : Word} {i : Instr} (h : readFields opc n d = some i) : i.opcode = opc := by
  unfold readFields at h
  split at h <;> cases h <;> rfl

theorem readFields_dataWord {n : Nat} {d : Word} {i : Instr} (h : readFields opcWreg n d = some i) : i.dataWord = d := by
  cases h
  rfl

/-! ### Operand fields -/

theorem toNat_bit (n k : Nat) : (bit n k).toNat = bits n k k := by
  have h : bits n k k < 2 := by simpa using bits_lt n k k
  rw [bit]
  interval_cases bits n k k <;> rfl

theorem bit_eq_iff {n k : Nat} {b : Bool} : bit n k = b ↔ bits n k k = b.toNat := by
  rw [← toNat_bit]
  cases bit n k <;> cases b <;> decide

/-- R131, R132: of a word whose bits [25:0] are the fields of a well-formed command, reading gives the command, and the
reserved bits are 0. -/
theorem readFields_fields {i : Instr} (h : i.wf = true) {n : Nat} (hn : n % 2 ^ 26 = i.fields) :
    ∃ hi lo, reservedRange i.opcode = some (hi, lo) ∧ readFields i.opcode n i.dataWord = some i ∧ bits n hi lo = 0 := by
  cases i with
  | nop | sync | detokFrame | detokRow | qsetup | iwht =>
    simp only [Instr.fields] at hn
    exact ⟨_, _, rfl, rfl, by simp only [bits]; omega⟩
  | detokMb _ a b | mcMb _ a b =>
    simp only [Instr.wf, decide_eq_true_eq, Instr.fields] at h hn
    have ha := Bool.toNat_le a
    have hb := Bool.toNat_le b
    refine ⟨_, _, rfl, ?_, by simp only [bits]; omega⟩
    simp only [Instr.opcode, readFields]
    congr <;> simp only [bit_eq_iff, bits] <;> omega
  | reconMb a | lfMb _ _ _ a =>
    simp only [Instr.wf, Bool.and_eq_true, decide_eq_true_eq, Instr.fields] at h hn
    have ha := Bool.toNat_le a
    refine ⟨_, _, rfl, ?_, by simp only [bits]; omega⟩
    simp only [Instr.opcode, readFields]
    congr <;> simp only [bit_eq_iff, bits] <;> omega
  | _ =>
    simp only [Instr.wf, Bool.and_eq_true, decide_eq_true_eq, Instr.fields] at h hn
    refine ⟨_, _, rfl, ?_, by simp only [bits]; omega⟩
    simp only [Instr.opcode, readFields, Instr.dataWord]
    congr <;> simp only [bits] <;> omega

/-- R131, R132: a word whose reserved bits are 0 holds in bits [25:0] just the fields that are read from it. -/
theorem fields_readFields {opc n hi lo : Nat} {d : Word} {i : Instr} (hf : readFields opc n d = some i)
    (hr : reservedRange opc = some (hi, lo)) (hz : bits n hi lo = 0) : i.fields = n % 2 ^ 26 := by
  unfold readFields at hf
  split at hf
  case h_21 => cases hf
  all_goals
    cases hf
    cases hr
    simp only [bits] at hz
    simp only [Instr.fields, toNat_bit, bits]
    omega

/-! ### Decoding the encoder's words, and encoding what was decoded -/

theorem decodeWord_word {i : Instr} (h : i.wf = true) : decodeWord i.word i.dataWord = .ok i := by
  have hlt := fields_lt h
  rw [decodeWord_ok_iff, OpcodeField.opcodeOf_word hlt]
  refine readFields_fields h ?_
  rw [OpcodeField.word_toNat hlt, Nat.mul_add_mod, Nat.mod_eq_of_lt hlt]

/-- The command word of a decoded command is the word that was decoded: its opcode and its fields are. -/
theorem word_of_decodeWord {w d : Word} {i : Instr} (h : decodeWord w d = .ok i) : i.word = w := by
  obtain ⟨hi, lo, hr, hf, hz⟩ := decodeWord_ok_iff.1 h
  have hfields := fields_readFields hf hr hz
  have hopc : i.opcode = w.toNat / 2 ^ 26 % 2 ^ 6 := readFields_opcode hf
  apply BitVec.eq_of_toNat_eq
  rw [OpcodeField.word_toNat (by omega)]
  omega

theorem opcode_of_decodeWord {w d : Word} {i : Instr} (h : decodeWord w d = .ok i) : i.opcode = opcodeOf w := by
  obtain ⟨_, _, -, hf, -⟩ := decodeWord_ok_iff.1 h
  exact readFields_opcode hf

theorem dataWord_of_decodeWord {w d : Word} {i : Instr} (hw : opcodeOf w = opcWreg) (h : decodeWord w d = .ok i) :
    i.dataWord = d := by
  obtain ⟨_, _, -, hf, -⟩ := decodeWord_ok_iff.1 h
  exact readFields_dataWord (hw ▸ hf)

/-- Settles O1: WREG decodes with the data word that the encoder puts after its command word, every other command alone. -/
theorem decodeEncode : Obligations.DecodeEncode := by
  unfold Obligations.DecodeEncode
  intro i rest h
  have hopc : opcodeOf i.word = i.opcode := OpcodeField.opcodeOf_word (fields_lt h)
  have hdec := decodeWord_word h
  rw [decode_ok_iff]
  by_cases hw : i.opcode = opcWreg
  · exact .inr ⟨i.word, i.dataWord, hopc.trans hw, hdec, by rw [encode_of_opcode_eq hw]; rfl⟩
  · rw [dataWord_of_opcode_ne hw] at hdec
    exact .inl ⟨i.word, hopc.trans_ne hw, hdec, by rw [encode_of_opcode_ne hw]; rfl⟩

/-- Settles O2: the head word, and for WREG the word after it, are those of the decoded command. -/
theorem encodeDecode : Obligations.EncodeDecode := by
  unfold Obligations.EncodeDecode
  intro ws rest i h
  rcases decode_ok_iff.1 h with ⟨w, hw, hd, rfl⟩ | ⟨w, d, hw, hd, rfl⟩
  · refine ⟨decodeWord_wf hd, ?_⟩
    rw [encode_of_opcode_ne ((opcode_of_decodeWord hd).trans_ne hw), word_of_decodeWord hd]
    rfl
  · refine ⟨decodeWord_wf hd, ?_⟩
    rw [encode_of_opcode_eq ((opcode_of_decodeWord hd).trans hw), word_of_decodeWord hd, dataWord_of_decodeWord hw hd]
    rfl

/-- Settles O5: each of the five words is the encoder's, word for word, so `decodeEncode` gives the command. -/
theorem writtenWordsDecode : Obligations.WrittenWordsDecode := by
  unfold Obligations.WrittenWordsDecode
  exact ⟨decodeEncode (.bdBool 1 255) [] (by decide), decodeEncode (.mbSet 1 1) [] (by decide),
    decodeEncode (.mcMb 1 false false) [] (by decide), decodeEncode (.lfMb 0 0 4 false) [] (by decide),
    decodeEncode (.wreg 9 0xFFFFFFFF) [0x00000000] (by decide)⟩

end Sys2Proof
end

section
/-! The encoder's words in bits (30_encoding.md R140): a number put together from fields that do not overlap is those fields
or-ed in at their shifts. -/

namespace Sys2Proof

open Machine Laws

theorem ofNat_field (n k x : Nat) : BitVec.ofNat n (2 ^ k * x) = BitVec.ofNat n x <<< k := by
  apply BitVec.eq_of_toNat_eq
  simp [Nat.shiftLeft_eq, Nat.mul_comm]

/-- A field above a number that stays below it is or-ed in. -/
theorem ofNat_field_add {n : Nat} (k x : Nat) {b : Nat} (h : b < 2 ^ k) :
    BitVec.ofNat n (2 ^ k * x + b) = BitVec.ofNat n x <<< k ||| BitVec.ofNat n b := by
  rw [Nat.two_pow_add_eq_or_of_lt h, BitVec.ofNat_or, ofNat_field]

theorem word_eq_or {i : Instr} {c f : Word} (h : i.wf = true) (hc : BitVec.ofNat 32 (2 ^ 26 * i.opcode) = c)
    (hf : BitVec.ofNat 32 i.fields = f) : i.word = c ||| f := by
  rw [Instr.word, Nat.two_pow_add_eq_or_of_lt (fields_lt h), BitVec.ofNat_or, hc, hf]

theorem encode_eq_or {i : Instr} {c f : Word} (h : i.wf = true) (hw : encode i = [i.word])
    (hc : BitVec.ofNat 32 (2 ^ 26 * i.opcode) = c) (hf : BitVec.ofNat 32 i.fields = f) : encode i = [c ||| f] := by
  rw [hw, word_eq_or h hc hf]

/-- Settles O3: the opcode's constant above the fields, and the fields above each other. -/
theorem commandWords : Obligations.CommandWords := by
  unfold Obligations.CommandWords
  refine ⟨rfl, rfl, ?wreg, ?mbSet, ?bdInit, ?bdBool, ?bdLit, rfl, rfl, ?detokMb, rfl, ?deqMb, rfl, ?idctAdd, ?reconMb,
    ?ipred16, ?ipredUv, ?ipred4, ?mcMb, ?lfMb⟩
  case wreg =>
    intro widx d h
    rw [encode, word_eq_or (by simpa [Instr.wf] using h) rfl rfl]
    rfl
  case reconMb =>
    intro uvonly
    exact encode_eq_or rfl rfl rfl rfl
  case idctAdd | ipred16 | ipredUv =>
    intro x h
    exact encode_eq_or (by simpa [Instr.wf] using h) rfl rfl rfl
  case bdInit | deqMb =>
    intro x h
    exact encode_eq_or (by simpa [Instr.wf] using h) rfl rfl (ofNat_field 32 _ x)
  case mbSet =>
    intro row col hrow hcol
    rw [BitVec.or_assoc]
    exact encode_eq_or (by simp [Instr.wf, hrow, hcol]) rfl rfl (ofNat_field_add 12 row hcol)
  case ipred4 =>
    intro blk bmode hblk hbmode
    rw [BitVec.or_assoc]
    exact encode_eq_or (by simp [Instr.wf, hblk, hbmode]) rfl rfl (ofNat_field_add 4 blk hbmode)
  case bdBool =>
    intro ctx prob hctx hprob
    rw [BitVec.or_assoc, ← ofNat_field 32 14, ← ofNat_field_add 22 _ (by omega)]
    exact encode_eq_or (by simp [Instr.wf, hctx, hprob]) rfl rfl rfl
  case bdLit =>
    intro ctx n hctx hn
    rw [BitVec.or_assoc, ← ofNat_field 32 16, ← ofNat_field_add 22 _ (by omega)]
    exact encode_eq_or (by simp [Instr.wf, hctx, hn]) rfl rfl rfl
  case detokMb =>
    intro ctx y2 skip hctx
    have hy2 := Bool.toNat_le y2
    have hskip := Bool.toNat_le skip
    rw [BitVec.or_assoc, BitVec.or_assoc, ← ofNat_field 32 20, ← ofNat_field_add 21 _ (by omega),
      ← ofNat_field_add 22 _ (by omega), ← Nat.add_assoc]
    exact encode_eq_or (by simpa [Instr.wf] using hctx) rfl rfl rfl
  case mcMb =>
    intro ref split clamp href
    have hsplit := Bool.toNat_le split
    have hclamp := Bool.toNat_le clamp
    rw [BitVec.or_assoc, BitVec.or_assoc, ← ofNat_field 32 22, ← ofNat_field_add 23 _ (by omega),
      ← ofNat_field_add 24 _ (by omega), ← Nat.add_assoc]
    exact encode_eq_or (by simpa [Instr.wf] using href) rfl rfl rfl
  case lfMb =>
    intro seg ref mode nocoef hseg href hmode
    have hnocoef := Bool.toNat_le nocoef
    rw [BitVec.or_assoc, BitVec.or_assoc, BitVec.or_assoc, ← ofNat_field 32 17, ← ofNat_field_add 18 _ (by omega),
      ← ofNat_field_add 22 _ (by omega), ← ofNat_field_add 24 _ (by omega), ← Nat.add_assoc, ← Nat.add_assoc]
    exact encode_eq_or (by simp [Instr.wf, hseg, href, hmode]) rfl rfl rfl

end Sys2Proof
end

section
/-! The words that are commands (30_encoding.md R130, R132, R134, R135, R137): the reserved bits as masks, what a turn of the
CORE does with a word that is none, and how WREG waits for its data word. -/

namespace Sys2Proof.Machine

theorem opcodeOf_eq (w : Word) : opcodeOf w = (w >>> 26).toNat := by
  rw [opcodeOf, bits, BitVec.toNat_ushiftRight, Nat.shiftRight_eq_div_pow]
  omega

theorem opcodeOf_lt (w : Word) : opcodeOf w < 64 := bits_lt w.toNat 31 26

/-! ### Reserved bits as masks (R132) -/

/-- The word with bits [hi:lo] set. -/
def maskOf (hi lo : Nat) : Word := BitVec.ofNat 32 ((2 ^ (hi + 1 - lo) - 1) <<< lo)

/-- Masking keeps a bit field at its place. -/
theorem and_mask_eq_bits (n hi lo : Nat) : n &&& (2 ^ (hi + 1 - lo) - 1) <<< lo = bits n hi lo <<< lo := by
  apply Nat.eq_of_testBit_eq
  intro k
  rw [bits, ← Nat.shiftRight_eq_div_pow]
  by_cases hk : lo ≤ k
  · simp [hk, Nat.testBit_shiftLeft, Nat.testBit_two_pow_sub_one, Nat.testBit_mod_two_pow, Bool.and_comm]
  · simp [hk, Nat.testBit_shiftLeft]

theorem and_maskOf_toNat (w : Word) (hi lo : Nat) : (w &&& maskOf hi lo).toNat = bits w.toNat hi lo <<< lo := by
  have hle : w.toNat &&& (2 ^ (hi + 1 - lo) - 1) <<< lo ≤ w.toNat := Nat.and_le_left
  have hand : w &&& maskOf hi lo = BitVec.ofNat 32 (w.toNat &&& (2 ^ (hi + 1 - lo) - 1) <<< lo) := by
    rw [BitVec.ofNat_and, BitVec.ofNat_toNat, BitVec.setWidth_eq, maskOf]
  rw [hand, BitVec.toNat_ofNat, Nat.mod_eq_of_lt (hle.trans_lt w.isLt), and_mask_eq_bits]

/-- A bit field is 0 exactly where its mask meets no set bit. -/
theorem bits_eq_zero_iff {w : Word} {hi lo : Nat} : bits w.toNat hi lo = 0 ↔ w &&& maskOf hi lo = 0 := by
  rw [BitVec.toNat_eq, and_maskOf_toNat]
  exact Nat.shiftLeft_eq_zero_iff.symm

/-- The reserved bits of an opcode as a mask; `none` for an opcode outside the map. -/
def reservedMask (opc : Nat) : Option Word := (reservedRange opc).map fun r => maskOf r.1 r.2

theorem readFields_of_reservedRange {opc : Nat} (h : reservedRange opc ≠ none) (n : Nat) (d : Word) :
    ∃ i, readFields opc n d = some i := by
  unfold reservedRange at h
  split at h
  case h_21 => exact absurd rfl h
  all_goals exact ⟨_, rfl⟩

/-- A word decodes exactly where its opcode is mapped and no reserved bit is set, whatever the data word is. -/
theorem decodeWord_ok_iff_mask {w d : Word} :
    (∃ i, decodeWord w d = .ok i) ↔ ∃ m, reservedMask (opcodeOf w) = some m ∧ w &&& m = 0 := by
  simp only [decodeWord_ok_iff, reservedMask, Option.map_eq_some_iff, bits_eq_zero_iff]
  constructor
  · rintro ⟨i, hi, lo, hr, -, hz⟩
    exact ⟨_, ⟨(hi, lo), hr, rfl⟩, hz⟩
  · rintro ⟨_, ⟨⟨hi, lo⟩, hr, rfl⟩, hz⟩
    obtain ⟨i, hf⟩ := readFields_of_reservedRange (by rw [hr]; simp) w.toNat d
    exact ⟨i, hi, lo, hr, hf, hz⟩

/-! ### Undecodable words (R135; 60_exceptions.md R503) -/

/-- A command that the CORE takes, or has in execution, raises ILLEGAL_CMD where it does not decode. -/
theorem coreStep_illegal {s : State} {c : Command}
    (hc : (s.running = none ∧ s.err = false ∧ ∃ rest, takeCommand s.cmdq = some (c, rest)) ∨
      (s.running = some c ∧ c.resetAfter = false))
    (h : ∀ i, decodeWord c.word c.data ≠ .ok i) : coreStep s = .next (errorEntry .illegalCmd c.word s) := by
  rcases hc with ⟨hr, he, rest, ht⟩ | ⟨hr, ha⟩
  · rw [coreStep_take hr he ht, completeCommand_illegal h (takeCommand_resetAfter ht)]
    rfl
  · rw [coreStep_running hr, completeCommand_illegal h ha]

/-- Settles O4: the masks of the statement are those of the map, so a word decodes exactly where its opcode has a mask that
meets it in no bit; in a turn of the CORE any other raises ILLEGAL_CMD. -/
theorem illegalCommands : Obligations.IllegalCommands := by
  unfold Obligations.IllegalCommands
  intro masks s c later hturn hc raised
  simp only [← opcodeOf_eq]
  have hmask : ∀ p ∈ masks, reservedMask p.1 = some p.2 := by decide
  have hunmapped : ∀ k < 64, (∀ p ∈ masks, k ≠ p.1) → reservedMask k = none := by decide
  have hraised (h : ∀ m, reservedMask (opcodeOf c.word) = some m → c.word &&& m ≠ 0) : step s = raised :=
    (step_coreTurn hturn).trans <| coreStep_illegal (s := { s with inputs := later }) hc fun i hi =>
      let ⟨m, hm, hz⟩ := decodeWord_ok_iff_mask.1 ⟨i, hi⟩
      h m hm hz
  refine ⟨fun p hp hopc => ⟨fun hset => hraised fun m hm => ?_, fun hz => ?_⟩, fun hno => hraised fun m hm => ?_⟩
  · rw [hopc, hmask p hp] at hm
    exact Option.some.inj hm ▸ hset
  · exact decodeWord_ok_iff_mask.2 ⟨p.2, hopc ▸ hmask p hp, hz⟩
  · exact absurd hm (by simp [hunmapped _ (opcodeOf_lt _) hno])

/-! ### WREG and its data word (R137) -/

theorem commandLength_iff {w : Word} :
    (commandLength w = 2 ↔ opcodeOf w = opcWreg) ∧ (commandLength w = 1 ↔ opcodeOf w ≠ opcWreg) := by
  by_cases h : opcodeOf w = opcWreg <;> simp [commandLength, h]

/-- Settles O7: what is taken from CMDQ turns on the opcode of the head word alone. -/
theorem wregWaitsForData : Obligations.WregWaitsForData := by
  unfold Obligations.WregWaitsForData
  simp only [← opcodeOf_eq]
  refine ⟨fun w => ⟨trivial, commandLength_iff⟩, fun w d rest => takeCommand_two,
    fun w rest => takeCommand_one, rfl, fun s w hw hin hr hq => ?_⟩
  have hwait := takeCommand_wait hw
  refine ⟨hwait, ?_, ?_⟩
  · have hcore : step s = coreStep s := by simp only [step, turn, hin]
    rw [hcore, coreStep_wait hr (.inr (hq ▸ hwait))]
  · simp [busy, hq]

end Sys2Proof.Machine
end

section
/-! The bool decoder in numbers (40_entropy.md R200 to R211): what `next_byte`, the decision and a turn of the
renormalisation loop leave in a context, and what BD_INIT, BD_BOOL and BD_LIT answer in each of their cases. -/

namespace Sys2Proof.Machine

/-! ### `next_byte` (R201) -/

theorem nextByte_inside {c : BoolCtx} (h : c.pos < c.stop) (m : List Host.Cell) :
    nextByte m c = (readByte m c.pos, { c with pos := c.pos + 1 }) := if_pos h

theorem nextByte_past {c : BoolCtx} (h : c.stop ≤ c.pos) (m : List Host.Cell) :
    nextByte m c = (0, { c with
      exh := true, zfill := if c.zfill = 0xFFFFFFFF then c.zfill else c.zfill + 1 }) := if_neg h.not_gt

/-- The count of zero bytes saturates at 2^32 - 1. -/
theorem saturatingSucc_toNat (z : Word) :
    (if z = 0xFFFFFFFF then z else z + 1).toNat = min (z.toNat + 1) (2 ^ 32 - 1) := by
  split
  · subst z
    rfl
  · rename_i hne
    have hz : z.toNat ≠ 2 ^ 32 - 1 := fun e => hne (BitVec.eq_of_toNat_eq e)
    have hlt := z.isLt
    rw [BitVec.toNat_add_of_lt] <;> simp <;> omega

/-! ### BD_INIT: the context it leaves (R203) -/

/-- Byte `k` of the partition, a zero byte past its end. -/
def partitionByte (m : List Host.Cell) (start size k : Nat) : Nat :=
  if k < size then (readByte m (start + k)).toNat else 0

theorem partitionByte_lt (m : List Host.Cell) (start size k : Nat) : partitionByte m start size k < 256 := by
  unfold partitionByte
  split
  · exact (readByte m (start + k)).isLt
  · decide

/-- The context that BD_INIT leaves, with `taken` bytes of the partition read and `missing` zero bytes supplied. -/
def freshCtx (m : List Host.Cell) (start size taken missing : Nat) : BoolCtx :=
  { value := BitVec.ofNat 16 (256 * partitionByte m start size 0 + partitionByte m start size 1)
    range := 255, bitCount := 0, pos := start + taken, stop := start + size, valid := true
    exh := decide (0 < missing), zfill := BitVec.ofNat 32 missing, start := start }

theorem initCtx_eq (m : List Host.Cell) (start size : Nat) :
    initCtx m start size = freshCtx m start size (min size 2) (2 - size) := by
  obtain rfl | rfl | h : size = 0 ∨ size = 1 ∨ 2 ≤ size := by omega
  · simp [initCtx, nextByte, freshCtx, partitionByte, BoolCtx.reset]
  · simp [initCtx, nextByte, freshCtx, partitionByte, BoolCtx.reset]
  · have h0 : 0 < size := by omega
    have h1 : 1 < size := by omega
    have hmiss : 2 - size = 0 := by omega
    simp [initCtx, nextByte, freshCtx, partitionByte, BoolCtx.reset, h, h0, h1, hmiss]

theorem initCtx_value (m : List Host.Cell) (start size : Nat) : (initCtx m start size).value.toNat =
    256 * partitionByte m start size 0 + partitionByte m start size 1 := by
  have h0 := partitionByte_lt m start size 0
  have h1 := partitionByte_lt m start size 1
  rw [initCtx_eq]
  exact Nat.mod_eq_of_lt (by omega)

theorem initCtx_zfill (m : List Host.Cell) (start size : Nat) : (initCtx m start size).zfill.toNat = 2 - size := by
  rw [initCtx_eq]
  exact Nat.mod_eq_of_lt (by omega)

/-! ### The decision (R204) -/

theorem boolDecide_one {p : Nat} {c : BoolCtx} (h : split c.range.toNat p * 256 ≤ c.value.toNat) :
    boolDecide p c = (true, { c with
      range := BitVec.ofNat 8 (c.range.toNat - split c.range.toNat p)
      value := BitVec.ofNat 16 (c.value.toNat - split c.range.toNat p * 256) }) := by
  rw [Nat.mul_comm] at h ⊢
  exact if_pos h

theorem boolDecide_zero {p : Nat} {c : BoolCtx} (h : c.value.toNat < split c.range.toNat p * 256) :
    boolDecide p c = (false, { c with range := BitVec.ofNat 8 (split c.range.toNat p) }) := by
  rw [Nat.mul_comm] at h
  exact if_neg h.not_ge

/-- The decision and its two outcomes in one equation. -/
theorem boolDecide_eq (p : Nat) (c : BoolCtx) :
    let sp := split c.range.toNat p
    let one := decide (sp * 256 ≤ c.value.toNat)
    boolDecide p c = (one, if one then { c with
      range := BitVec.ofNat 8 (c.range.toNat - sp), value := BitVec.ofNat 16 (c.value.toNat - sp * 256) }
      else { c with range := BitVec.ofNat 8 sp }) := by
  by_cases h : split c.range.toNat p * 256 ≤ c.value.toNat
  · simp only [h, decide_true, if_true]
    exact boolDecide_one h
  · simp only [h, decide_false, Bool.false_eq_true, if_false]
    exact boolDecide_zero (not_le.1 h)

/-- The decision keeps the window below range * 256: the part of it that the split leaves is below that part of range. -/
theorem boolDecide_value_lt {p : Nat} (hp : p ≤ 255) {c : BoolCtx} (hr : 128 ≤ c.range.toNat)
    (hv : c.value.toNat < c.range.toNat * 256) :
    (boolDecide p c).2.value.toNat < (boolDecide p c).2.range.toNat * 256 := by
  obtain ⟨hsp, hspr⟩ := split_bounds (r := c.range.toNat) (by omega) hp
  have hrange := c.range.isLt
  have hvalue := c.value.isLt
  by_cases h : split c.range.toNat p * 256 ≤ c.value.toNat
  · simp only [boolDecide_one h, BitVec.toNat_ofNat]
    rw [Nat.mod_eq_of_lt (by omega), Nat.mod_eq_of_lt (by omega)]
    omega
  · rw [not_le] at h
    simp only [boolDecide_zero h, BitVec.toNat_ofNat]
    rw [Nat.mod_eq_of_lt (by omega)]
    exact h

/-- A window of range * 256 or more is over every split. -/
theorem boolDecide_of_window_ge {p : Nat} (hp : p ≤ 255) {c : BoolCtx} (hr : 128 ≤ c.range.toNat)
    (hv : c.range.toNat * 256 ≤ c.value.toNat) : (boolDecide p c).1 = true := by
  obtain ⟨-, hspr⟩ := split_bounds (r := c.range.toNat) (by omega) hp
  rw [boolDecide_one ((Nat.mul_le_mul_right 256 (hspr.trans (Nat.sub_le _ 1))).trans hv)]

/-! ### One turn of the renormalisation loop (R205) -/

/-- The context with range and value doubled and the shift counted. -/
def shiftedCtx (c : BoolCtx) : BoolCtx :=
  { c with value := c.value <<< 1, range := c.range <<< 1, bitCount := c.bitCount + 1 }

theorem shiftOnce_of_lt {c : BoolCtx} (h : c.bitCount.toNat < 7) (m : List Host.Cell) :
    shiftOnce m c = shiftedCtx c := by
  have hne : c.bitCount + 1 ≠ 0 := by bv_omega
  exact if_neg hne

/-- The eighth shift loads a byte. -/
theorem shiftOnce_of_seven {c : BoolCtx} (h : c.bitCount.toNat = 7) (m : List Host.Cell) :
    shiftOnce m c = { (nextByte m (shiftedCtx c)).2 with
      value := c.value <<< 1 ||| (nextByte m (shiftedCtx c)).1.setWidth 16 } := by
  have hz : c.bitCount + 1 = 0 := by bv_omega
  obtain ⟨-, hvalue, -⟩ := nextByte_fields m (shiftedCtx c)
  have hload : shiftOnce m c = { (nextByte m (shiftedCtx c)).2 with
      value := (nextByte m (shiftedCtx c)).2.value ||| (nextByte m (shiftedCtx c)).1.setWidth 16 } := if_pos hz
  rw [hload, hvalue]
  rfl

theorem shiftLeft_one_toNat (v : BitVec 16) : (v <<< 1).toNat = v.toNat * 2 % 65536 := by
  rw [BitVec.toNat_shiftLeft, Nat.shiftLeft_eq]

theorem loadByte_toNat (v : BitVec 16) (b : Byte) :
    (v <<< 1 ||| b.setWidth 16).toNat = (v.toNat * 2 % 65536) ||| b.toNat := by
  rw [BitVec.toNat_or, shiftLeft_one_toNat, BitVec.toNat_setWidth_of_le (by decide)]

/-- Or-ing a byte into a number leaves the number's multiple of 256 as it is. -/
theorem or_byte_lt {x b r : Nat} (hx : x < r * 256) (hb : b < 256) : x ||| b < r * 256 := by
  have hdiv : (x ||| b) / 2 ^ 8 = x / 2 ^ 8 := by
    rw [Nat.or_div_two_pow, Nat.div_eq_of_lt (a := b) hb, Nat.or_zero]
  omega

/-- The window shifted left lies below the doubled range, and a byte loaded does not change that. -/
theorem shiftOnce_value_lt (m : List Host.Cell) {c : BoolCtx} (hr : c.range.toNat < 128)
    (hv : c.value.toNat < c.range.toNat * 256) :
    (shiftOnce m c).value.toNat < (shiftOnce m c).range.toNat * 256 := by
  have hshift : c.value.toNat * 2 % 65536 < 2 * c.range.toNat * 256 := by omega
  rw [shiftOnce_range, shl_range hr]
  obtain h | h : c.bitCount.toNat < 7 ∨ c.bitCount.toNat = 7 := by have := c.bitCount.isLt; omega
  · rw [shiftOnce_of_lt h]
    exact (shiftLeft_one_toNat c.value).trans_lt hshift
  · rw [shiftOnce_of_seven h, loadByte_toNat]
    exact or_byte_lt hshift (nextByte m (shiftedCtx c)).1.isLt

theorem renorm_value_lt (m : List Host.Cell) (k : Nat) {c : BoolCtx} (hv : c.value.toNat < c.range.toNat * 256) :
    (renorm m k c).value.toNat < (renorm m k c).range.toNat * 256 := by
  induction k generalizing c with
  | zero => exact hv
  | succ k ih =>
    simp only [renorm]
    split
    · rename_i hr
      exact ih (shiftOnce_value_lt m hr hv)
    · exact hv

/-- The loop takes as many turns as it needs, and `k` turns are enough for a range of 128 / 2^k or more. -/
theorem renorm_eq_iterate (m : List Host.Cell) (k : Nat) (c : BoolCtx) (h : 128 ≤ c.range.toNat * 2 ^ k) :
    ∃ n, n ≤ k ∧ renorm m k c = (shiftOnce m)^[n] c ∧ ∀ j, j < n → ((shiftOnce m)^[j] c).range.toNat < 128 := by
  induction k generalizing c with
  | zero => exact ⟨0, le_rfl, rfl, fun j hj => absurd hj j.not_lt_zero⟩
  | succ k ih =>
    by_cases hr : c.range.toNat < 128
    · have hdouble : 128 ≤ (shiftOnce m c).range.toNat * 2 ^ k := by
        rw [shiftOnce_range, shl_range hr]
        rw [pow_succ] at h
        linarith
      obtain ⟨n, hn, heq, hbefore⟩ := ih (shiftOnce m c) hdouble
      refine ⟨n + 1, Nat.succ_le_succ hn, ?_, fun j hj => ?_⟩
      · rw [renorm, if_pos hr, heq, Function.iterate_succ_apply]
      · cases j with
        | zero => exact hr
        | succ j => exact hbefore j (Nat.lt_of_succ_lt_succ hj)
    · exact ⟨0, Nat.zero_le _, by rw [renorm, if_neg hr]; rfl, fun j hj => absurd hj j.not_lt_zero⟩

theorem renorm_renormalised (m : List Host.Cell) {c : BoolCtx} (h : 1 ≤ c.range.toNat) :
    Renormalised m c (renorm m 7 c) := by
  have hturns : 128 ≤ c.range.toNat * 2 ^ 7 := by omega
  obtain ⟨n, hn, heq, hbefore⟩ := renorm_eq_iterate m 7 c hturns
  exact ⟨n, hn, heq, renorm_range m hturns, hbefore⟩

/-- Settles O24: a turn is `shiftedCtx`, with the byte of `next_byte` or-ed in at the eighth shift, and seven turns are
enough for the loop. -/
theorem renormalisation : Obligations.Renormalisation := by
  unfold Obligations.Renormalisation
  refine ⟨fun m c hr => ?_, fun m c => renorm_renormalised m⟩
  have hk := shiftOnce_keeps m c
  refine ⟨?range, hk.stop, hk.start, hk.valid, fun h => ?shift, fun h => ⟨?count, fun hin => ?load, fun hpast => ?zero⟩⟩
  case range => rw [shiftOnce_range, shl_range hr, Nat.mul_comm]
  case shift =>
    rw [shiftOnce_of_lt h]
    exact ⟨BitVec.toNat_add_of_lt (by simp; omega), shiftLeft_one_toNat c.value, rfl, rfl, rfl⟩
  case count =>
    rw [shiftOnce_of_seven h]
    obtain ⟨-, -, hcount⟩ := nextByte_fields m (shiftedCtx c)
    have hz : c.bitCount + 1 = 0 := by bv_omega
    exact congrArg BitVec.toNat (hcount.trans hz)
  case load =>
    rw [shiftOnce_of_seven h, nextByte_inside (c := shiftedCtx c) hin]
    exact ⟨rfl, rfl, rfl, loadByte_toNat c.value _⟩
  case zero =>
    rw [shiftOnce_of_seven h, nextByte_past (c := shiftedCtx c) hpast]
    exact ⟨rfl, rfl, saturatingSucc_toNat c.zfill, (loadByte_toNat c.value 0).trans (Nat.or_zero _)⟩

/-! ### The invariants of a context (R208, R209) -/

/-- Settles O26: `initCtx` and `bool_decode` keep a context in order; the decision and each turn of the loop keep the window
below range * 256. -/
theorem contextInvariant : Obligations.ContextInvariant := by
  unfold Obligations.ContextInvariant
  refine ⟨fun m start size h => ⟨(initCtx_ok m h).1, by rw [initCtx_eq]; rfl⟩, fun m p c hp hvalid hok => ?_⟩
  have hp : p ≤ 255 := by omega
  have hk := boolDecode_keeps m p c
  exact ⟨boolDecode_ok m hp hvalid hok, hk.valid.trans hvalid, hk.start, fun hv =>
    renorm_value_lt m 7 (boolDecide_value_lt hp (hok.range hvalid) hv)⟩

theorem initCtx_window_ge_iff (m : List Host.Cell) (start size : Nat) :
    ¬ (initCtx m start size).value.toNat < (initCtx m start size).range.toNat * 256 ↔
      0 < size ∧ readByte m start = 0xFF := by
  have h0 := partitionByte_lt m start size 0
  have h1 := partitionByte_lt m start size 1
  have hrange : (initCtx m start size).range.toNat = 255 := rfl
  have hfirst : partitionByte m start size 0 = 255 ↔ 0 < size ∧ readByte m start = 0xFF := by
    rw [partitionByte, Nat.add_zero, BitVec.toNat_eq]
    by_cases hsize : 0 < size <;> simp [hsize]
  rw [initCtx_value, hrange, ← hfirst]
  omega

/-- Settles O27: the window is at least 255 * 256 exactly when its high byte, the first of the partition, is 0xFF. -/
theorem firstByteFF : Obligations.FirstByteFF := by
  unfold Obligations.FirstByteFF
  refine fun m start size _ => ⟨initCtx_window_ge_iff m start size, fun h p hp => ?_⟩
  exact boolDecide_of_window_ge (by omega) (by decide : 128 ≤ (255 : BitVec 8).toNat) (not_lt.1 h)

/-! ### What the commands answer -/

theorem ctxUsable_iff_le {s : State} {i : Nat} : ctxUsable s i = true ↔ i ≤ 8 ∧ (s.ctx i).valid = true :=
  ctxUsable_iff.trans (and_congr_left fun _ => Nat.lt_succ_iff)

theorem exec_bdBool_unusable {s : State} {i p : Nat} (h : ¬ ctxUsable s i = true) :
    exec (.bdBool i p) s = .next (errorEntry .bdNotInit (Instr.bdBool i p).word s) := if_neg h

theorem exec_bdBool_usable {s : State} {i p : Nat} (h : ctxUsable s i = true) : exec (.bdBool i p) s =
    .next ((s.setBd i (boolDecode s.mem p (s.ctx i)).2).setResult (flagNat (boolDecode s.mem p (s.ctx i)).1)) := if_pos h

theorem exec_bdLit_unusable {s : State} {i n : Nat} (h : ¬ ctxUsable s i = true) :
    exec (.bdLit i n) s = .next (errorEntry .bdNotInit (Instr.bdLit i n).word s) := if_pos h

theorem exec_bdLit_too_long {s : State} {i n : Nat} (h : ctxUsable s i = true) (hn : 32 < n) :
    exec (.bdLit i n) s = .next (errorEntry .badParam (Instr.bdLit i n).word s) :=
  (if_neg (not_not.2 h)).trans (if_pos hn)

theorem exec_bdLit_usable {s : State} {i n : Nat} (h : ctxUsable s i = true) (hn : n ≤ 32) : exec (.bdLit i n) s =
    .next ((s.setBd i (readLiteral s.mem n 0 (s.ctx i)).2).setResult (readLiteral s.mem n 0 (s.ctx i)).1) :=
  (if_neg (not_not.2 h)).trans (if_neg hn.not_gt)

/-- Settles O22: the checks in order, and the fields of `freshCtx`. -/
theorem bdInitRule : Obligations.BdInitRule := by
  unfold Obligations.BdInitRule
  refine fun s i => ⟨fun hi => if_pos (not_lt.2 (Nat.succ_le_of_lt hi)), fun hi hsum => ?_, fun hi hsum => ?_⟩
  all_goals have hctx : ¬ ¬ i < numCtx := not_not.2 (Nat.lt_succ_of_le hi)
  · exact (if_neg hctx).trans (if_pos hsum)
  · refine ⟨initCtx s.mem (s.cfg.bdStartAt i) (s.cfg.bdSizeAt i), (if_neg hctx).trans (if_neg hsum.not_gt), rfl, ?_⟩
    refine ⟨?pos, ?stop, ?valid, ?exh, initCtx_zfill _ _ _, initCtx_value _ _ _, rfl, rfl⟩
    all_goals rw [initCtx_eq]
    case pos | stop | valid => rfl
    case exh => exact decide_eq_true_iff.trans (by omega)

/-- Settles O23: the decision by the split, then the renormalisation of what it leaves. -/
theorem bdBoolRule : Obligations.BdBoolRule := by
  unfold Obligations.BdBoolRule
  refine fun s i p hp => ⟨fun h => exec_bdBool_unusable (mt ctxUsable_iff_le.1 h), fun hi hvalid hr => ?_⟩
  have hp : p ≤ 255 := by omega
  intro c sp one
  have hsp : sp = split c.range.toNat p := by
    rw [split, ← Nat.shiftRight_eq_div_pow _ 8]
  obtain ⟨hlo, hhi⟩ : 1 ≤ sp ∧ sp ≤ c.range.toNat - 1 := hsp ▸ split_bounds ((by decide : 2 ≤ 128).trans hr) hp
  have hdecide := boolDecide_eq p c
  rw [← hsp] at hdecide
  have hbit : (boolDecode s.mem p c).1 = one := congrArg Prod.fst hdecide
  refine ⟨hlo, hhi, (boolDecode s.mem p c).2, ?_, Prod.ext hbit rfl, ?_⟩
  · rw [exec_bdBool_usable (ctxUsable_iff_le.2 ⟨hi, hvalid⟩), hbit]
    cases one <;> rfl
  · have hloop : Renormalised s.mem (boolDecide p c).2 (boolDecode s.mem p c).2 :=
      renorm_renormalised s.mem (boolDecide_range hp hr)
    rwa [hdecide] at hloop

/-! ### Literals (R206, R211) -/

/-- A literal of n + 1 bits is one of n bits, then one decision at 128. -/
theorem readLiteral_succ (m : List Host.Cell) (n v : Nat) (c : BoolCtx) : readLiteral m (n + 1) v c =
    (2 * (readLiteral m n v c).1 + flagNat (boolDecode m 128 (readLiteral m n v c).2).1,
      (boolDecode m 128 (readLiteral m n v c).2).2) := by
  induction n generalizing v c with
  | zero => rfl
  | succ n ih => exact ih _ _

theorem readLiteral_keeps (m : List Host.Cell) (n v : Nat) (c : BoolCtx) : SamePartition c (readLiteral m n v c).2 := by
  induction n generalizing v c with
  | zero => exact SamePartition.refl c
  | succ n ih => exact (boolDecode_keeps m 128 c).trans (ih _ _)

theorem State.setBd_ctx_self (s : State) (i : Nat) : s.setBd i (s.ctx i) = s := by
  have hbd : fileSet s.bd i (s.ctx i) = s.bd := by
    ext j hj
    by_cases h : i = j
    · subst h
      simp [fileSet, State.ctx, fileGet, hj]
    · simp [fileSet, h]
  rw [State.setBd, hbd]

/-- What an earlier command on context `i` left there and in RESULT is overwritten. -/
theorem State.setBd_setResult_setBd (s : State) (i v : Nat) (c d : BoolCtx) :
    ((s.setBd i c).setResult v).setBd i d = (s.setBd i d).setResult v := by
  have hbd : fileSet (fileSet s.bd i c) i d = fileSet s.bd i d := by
    ext j hj
    by_cases h : i = j <;> simp [fileSet, h]
  simp only [State.setBd, State.setResult, hbd]

/-- Settles O25: the checks in order; the last bit of a literal is a decision of its own on what the bits before it left. -/
theorem bdLitRule : Obligations.BdLitRule := by
  unfold Obligations.BdLitRule
  refine fun s i n => ⟨fun h => exec_bdLit_unusable (mt ctxUsable_iff_le.1 h),
    fun hi hvalid hn => exec_bdLit_too_long (ctxUsable_iff_le.2 ⟨hi, hvalid⟩) hn, fun hi hvalid => ⟨?none, fun hn => ?more⟩⟩
  all_goals have husable := ctxUsable_iff_le.2 ⟨hi, hvalid⟩
  case none =>
    rw [exec_bdLit_usable husable (Nat.zero_le _)]
    exact congrArg (fun t => Host.Outcome.next (State.setResult t 0)) (s.setBd_ctx_self i)
  case more =>
    have hlit := exec_bdLit_usable husable hn.le
    have hlong := exec_bdLit_usable husable (Nat.succ_le_of_lt hn)
    have hlt := readLiteral_lt s.mem n 0 (s.ctx i)
    have hstill := (readLiteral_keeps s.mem n 0 (s.ctx i)).valid.trans hvalid
    rw [readLiteral_succ] at hlong
    generalize readLiteral s.mem n 0 (s.ctx i) = r at hlit hlong hlt hstill
    have hctx : ((s.setBd i r.2).setResult r.1).ctx i = r.2 := s.ctx_setBd_same i r.2 (Nat.lt_succ_of_le hi)
    have hbool := exec_bdBool_usable (p := 128) (ctxUsable_iff_le.2 ⟨hi, hctx.symm ▸ hstill⟩)
    rw [hctx, State.setBd_setResult_setBd, State.setResult_mem, State.setBd_mem] at hbool
    have hbit := flagNat_le (boolDecode s.mem 128 r.2).1
    have hpow : 2 ^ n ≤ 2 ^ 31 := Nat.pow_le_pow_right (by decide) (Nat.le_of_lt_succ hn)
    have hfirst : (BitVec.ofNat 32 r.1).toNat = r.1 := Nat.mod_eq_of_lt (by omega)
    have hsecond (v : Nat) (hv : v ≤ 1) : (BitVec.ofNat 32 v).toNat = v := Nat.mod_eq_of_lt (by omega)
    refine ⟨_, _, hlit, hbool, ?_⟩
    simp only [State.setResult_result, hfirst, hsecond _ hbit]
    exact ⟨hbit, hlong, by rw [pow_succ]; omega⟩

/-! ### What a command depends on (R200, R215) -/

/-- On two states with the same context `i` and the same bytes left in its partition, BD_BOOL or BD_LIT raises the same error
or leaves the same context and the same result. -/
theorem stream_lockstep {s u : State} {i : Nat} {cmd : Instr} (hcmd : (∃ p, cmd = .bdBool i p) ∨ ∃ n, cmd = .bdLit i n)
    (hctx : s.ctx i = u.ctx i) (hbytes : SameBytes s.mem u.mem (s.ctx i).pos (s.ctx i).stop) :
    (∃ e w, exec cmd s = .next (errorEntry e w s) ∧ exec cmd u = .next (errorEntry e w u)) ∨
      (i < 9 ∧ ∃ d v, exec cmd s = .next ((s.setBd i d).setResult v) ∧ exec cmd u = .next ((u.setBd i d).setResult v)) := by
  have hsame : ctxUsable s i = ctxUsable u i := by rw [ctxUsable, ctxUsable, hctx]
  by_cases hs : ctxUsable s i = true
  · have hu := hsame ▸ hs
    have hi : i < 9 := (ctxUsable_iff.1 hs).1
    obtain ⟨p, rfl⟩ | ⟨n, rfl⟩ := hcmd
    · refine .inr ⟨hi, _, _, exec_bdBool_usable hs, ?_⟩
      rw [boolDecode_congr hbytes, hctx]
      exact exec_bdBool_usable hu
    · by_cases hn : n ≤ 32
      · refine .inr ⟨hi, _, _, exec_bdLit_usable hs hn, ?_⟩
        rw [readLiteral_congr hbytes, hctx]
        exact exec_bdLit_usable hu hn
      · exact .inl ⟨_, _, exec_bdLit_too_long hs (not_le.1 hn), exec_bdLit_too_long hu (not_le.1 hn)⟩
  · have hu := hsame ▸ hs
    obtain ⟨p, rfl⟩ | ⟨n, rfl⟩ := hcmd
    · exact .inl ⟨_, _, exec_bdBool_unusable hs, exec_bdBool_unusable hu⟩
    · exact .inl ⟨_, _, exec_bdLit_unusable hs, exec_bdLit_unusable hu⟩

/-- Settles O28: both states take the same error entry, which touches no context and no RESULT, or the same update. -/
theorem streamDeterminism : Obligations.StreamDeterminism := by
  unfold Obligations.StreamDeterminism
  intro s u i cmd hcmd hctx hresult hbytes s' u' hs hu
  obtain ⟨e, w, es, eu⟩ | ⟨hi, d, v, es, eu⟩ := stream_lockstep hcmd hctx hbytes
  all_goals
    obtain rfl := Host.Outcome.next.inj (es.symm.trans hs)
    obtain rfl := Host.Outcome.next.inj (eu.symm.trans hu)
  · exact ⟨hctx, hresult, fun _ _ => rfl⟩
  · exact ⟨(s.ctx_setBd_same i d hi).trans (u.ctx_setBd_same i d hi).symm, rfl,
      fun j hj => s.ctx_setBd_other i j d hj.symm⟩

end Sys2Proof.Machine
end

section
/-! The nonzero flags and the detokenizer's commands (41_detokenizer.md R236 to R243): what reading a flag returns after a
write, and what DETOK_FRAME, DETOK_ROW and DETOK_MB answer in each of their cases. -/

namespace Sys2Proof.Machine

/-! ### Rows of flags (10_state.md R61) -/

@[simp] theorem nzGet_nzSet_same {r : NzRow} {k : Nat} {b : Bool} (h : k < 9) : nzGet (nzSet r k b) k = some b := by
  simp [nzGet, nzSet, fileGet, fileSet, h]

theorem nzGet_nzSet_other {r : NzRow} {k i : Nat} {b : Bool} (h : k ≠ i) : nzGet (nzSet r k b) i = nzGet r i := by
  simp [nzGet, nzSet, fileGet, fileSet, h]

theorem nzGet_zero {k : Nat} (h : k < 9) : nzGet NzRow.zero k = some false := by
  simp [nzGet, fileGet, NzRow.zero, h]

@[simp] theorem nzAboveGet_set_same (a : Cells NzRow) (c : Nat) (r : NzRow) : nzAboveGet (Cells.set a c r) c = r := by
  simp [nzAboveGet]

theorem nzAboveGet_set_other (a : Cells NzRow) {c d : Nat} (r : NzRow) (h : d ≠ c) :
    nzAboveGet (Cells.set a c r) d = nzAboveGet a d := by
  rw [nzAboveGet, Cells.get_set_other a r h.symm, nzAboveGet]

theorem nzAboveGet_fill {n c : Nat} (r : NzRow) (h : c < n) : nzAboveGet (Cells.fill n fun _ => r) c = r := by
  rw [nzAboveGet, Cells.get_fill_lt _ h, Option.getD_some]

/-- Clearing the first `n` flags of a row. -/
theorem nzGet_clear (r : NzRow) {n : Nat} (hn : n ≤ 9) (k : Nat) :
    nzGet ((List.range n).foldl (fun q i => nzSet q i false) r) k = if k < n then some false else nzGet r k := by
  induction n with
  | zero => rfl
  | succ n ih =>
    rw [List.range_succ, List.foldl_append, List.foldl_cons, List.foldl_nil]
    by_cases hk : n = k
    · subst hk
      rw [nzGet_nzSet_same hn, if_pos n.lt_succ_self]
    · rw [nzGet_nzSet_other hk, ih (by omega)]
      exact if_congr (by omega) rfl rfl

theorem nzGet_skipRow_lt (y2 : Bool) (r : NzRow) {k : Nat} (hk : k < 8) : nzGet (skipRow y2 r) k = some false := by
  rw [skipRow, nzGet_clear r (by split <;> decide), if_pos (by split <;> omega)]

theorem nzGet_skipRow_y2 (y2 : Bool) (r : NzRow) : nzGet (skipRow y2 r) 8 = if y2 then some false else nzGet r 8 := by
  rw [skipRow, nzGet_clear r (by split <;> decide)]
  cases y2 <;> rfl

/-! ### What the commands answer -/

theorem exec_detokFrame (s : State) : ∃ a, exec .detokFrame s = .next { s with ram := { s.ram with nzAbove := a } } ∧
    ∀ c, c < 4096 → nzAboveGet a c = NzRow.zero :=
  ⟨_, rfl, fun _ => nzAboveGet_fill _⟩

theorem exec_detokMb_badPos {s : State} (h : posOk s.cfg = false) (i : Nat) (y2 skip : Bool) :
    exec (.detokMb i y2 skip) s = .next (errorEntry .posOob (Instr.detokMb i y2 skip).word s) := by
  simp only [exec, execDetokMb, h, raise]
  rfl

theorem exec_detokMb_skip {s : State} (h : posOk s.cfg = true) (i : Nat) (y2 : Bool) :
    exec (.detokMb i y2 true) s = .next (s.setDetok s.cfg.mbCol coefZero eobZero
      (skipRow y2 (nzAboveGet s.ram.nzAbove s.cfg.mbCol)) (skipRow y2 s.ram.nzLeft) 0) := by
  simp only [exec, execDetokMb, h]
  rfl

theorem exec_detokMb_unusable {s : State} {i : Nat} (h : posOk s.cfg = true) (hi : ¬ ctxUsable s i = true) (y2 : Bool) :
    exec (.detokMb i y2 false) s = .next (errorEntry .bdNotInit (Instr.detokMb i y2 false).word s) := by
  simp only [exec, execDetokMb, h, hi, raise]
  rfl

/-- The state that DETOK_MB leaves where its blocks leave `a` (R238, R246). -/
def State.detokDone (s : State) (i : Nat) (a : DetokAcc) : State :=
  (s.setDetok s.cfg.mbCol a.coef a.eob a.above a.left a.total).setBd i a.ctx

theorem exec_detokMb_decode {s : State} {i : Nat} (h : posOk s.cfg = true) (hi : ctxUsable s i = true) (y2 : Bool) :
    exec (.detokMb i y2 false) s = match runJobs s.rom s.mem s.ram.prob (blockJobs y2) (detokStart s i) with
      | none => .fault .uninit
      | some a => .next (s.detokDone i a) := by
  simp only [exec, execDetokMb, h, hi]
  rfl

/-- Where DETOK_MB decodes, it answers what its blocks leave. -/
theorem exec_detokMb_next {s t : State} {i : Nat} {y2 : Bool} (hp : posOk s.cfg = true)
    (hi : ctxUsable s i = true) (h : exec (.detokMb i y2 false) s = .next t) :
    ∃ a, runJobs s.rom s.mem s.ram.prob (blockJobs y2) (detokStart s i) = some a ∧ t = s.detokDone i a := by
  rw [exec_detokMb_decode hp hi] at h
  split at h
  · cases h
  · rename_i a ha
    exact ⟨a, ha, (Host.Outcome.next.inj h).symm⟩

/-! ### The frame, the row and a skipped macroblock (R236, R237, R243) -/

/-- Settles O29: every column is filled with the row of nine 0 flags, and so is NZ_LEFT. -/
theorem detokFrameAndRow : Obligations.DetokFrameAndRow := by
  unfold Obligations.DetokFrameAndRow
  intro s
  obtain ⟨a, ha, hzero⟩ := exec_detokFrame s
  exact ⟨⟨_, ha, rfl, fun c k hc hk => (congrArg (nzGet · k) (hzero c hc)).trans (nzGet_zero hk)⟩,
    ⟨_, rfl, rfl, fun k hk => nzGet_zero hk⟩⟩

/-- Settles O30: both rows become `skipRow` of what they were, the column's row by a write that other columns do not see. -/
theorem skippedMacroblock : Obligations.SkippedMacroblock := by
  unfold Obligations.SkippedMacroblock
  refine fun s i y2 hp => ⟨_, exec_detokMb_skip hp i y2, rfl, fun j hj => Cells.get_fill_lt _ hj,
    fun b hb => Cells.get_fill_lt _ hb, fun k hk => ⟨?_, nzGet_skipRow_lt y2 _ hk⟩, ?_, nzGet_skipRow_y2 y2 _,
    fun c hc => nzAboveGet_set_other _ _ hc⟩
  · simp [nzGet_skipRow_lt y2 _ hk]
  · simp [nzGet_skipRow_y2]

end Sys2Proof.Machine
end

section
/-! The blocks of a macroblock (41_detokenizer.md R231, R238 to R245): their order, and what decoding them leaves in EOB,
EOBTOTAL, the flags and COEF. -/

namespace Sys2Proof.Machine

/-! ### The order of the blocks (R231, R239, R242) -/

/-- The numbers of the blocks that DETOK_MB decodes, in order (R239). -/
def blockOrder (y2 : Bool) : List Nat := (if y2 then [24] else []) ++ List.range 24

/-- Block `b` with its type and first position (R231) and its two flags (R242). -/
def blockJob (y2 : Bool) (b : Nat) : BlockJob :=
  { block := b
    type := if b = 24 then 1 else if 16 ≤ b then 2 else if y2 then 0 else 3
    first := if b < 16 ∧ y2 = true then 1 else 0
    aboveFlag := if b = 24 then 8 else if b < 16 then b % 4 else if b < 20 then 4 + b % 2 else 6 + b % 2
    leftFlag :=
      if b = 24 then 8 else if b < 16 then b / 4 else if b < 20 then 4 + (b - 16) / 2 else 6 + (b - 20) / 2 }

theorem blockJobs_eq_map : ∀ y2 : Bool, blockJobs y2 = (blockOrder y2).map (blockJob y2) := by decide

theorem blockJobs_bounds (y2 : Bool) : ∀ j ∈ blockJobs y2, j.block < 25 ∧ j.first ≤ 1 := fun j hj =>
  have ⟨hblock, _, hfirst, _⟩ := blockJobs_facts y2 j hj
  ⟨hblock, hfirst⟩

theorem blockJobs_nodup : ∀ y2 : Bool, ((blockJobs y2).map BlockJob.block).Nodup := by decide

/-- Only the Y2 block has the Y2 flags. -/
theorem blockJobs_flags_lt : ∀ y2 : Bool, ∀ j ∈ blockJobs y2,
    j.aboveFlag < (if y2 then 9 else 8) ∧ j.leftFlag < (if y2 then 9 else 8) := by decide

/-- What DETOK_MB's blocks keep and bound, as one step. -/
theorem blockJobs_step {T : Config.Tables} {m : List Host.Cell} {prob : Cells Byte} {y2 : Bool} {a a' : DetokAcc}
    (h : runJobs T m prob (blockJobs y2) a = some a') : JobsStep T 384 a a' :=
  blockJobs_room y2 ▸ runJobs_spec (blockJobs_bounds y2) h

/-- The decode of a macroblock, as the fold over its blocks that R239 and R241 tell. -/
theorem runJobs_blockJobs_eq (T : Config.Tables) (m : List Host.Cell) (prob : Cells Byte) (y2 : Bool) (a : DetokAcc) :
    runJobs T m prob (blockJobs y2) a = (blockOrder y2).foldlM (fun a b => runJob T m prob (blockJob y2 b) a) a := by
  rw [blockJobs_eq_map, runJobs_map_eq_foldlM]

/-! ### What DETOK_MB completes with (R238, R246, R247) -/

theorem State.detokDone_ctx (s : State) {i : Nat} (hi : i < 9) (a : DetokAcc) : (s.detokDone i a).ctx i = a.ctx :=
  State.ctx_setBd_same _ i a.ctx hi

theorem State.detokDone_eq (s : State) {i : Nat} (hi : i < 9) (a : DetokAcc) :
    let t := s.detokDone i a
    t = { s with
      eobTotal := t.eobTotal, bd := fileSet s.bd i (t.ctx i)
      ram := { s.ram with coef := t.ram.coef, eob := t.ram.eob, nzAbove := t.ram.nzAbove, nzLeft := t.ram.nzLeft } } := by
  simp only [s.detokDone_ctx hi]
  rfl

theorem State.detokDone_above (s : State) (i : Nat) (a : DetokAcc) :
    nzAboveGet (s.detokDone i a).ram.nzAbove s.cfg.mbCol = a.above := nzAboveGet_set_same _ _ _

theorem State.detokDone_eobTotal (s : State) (i : Nat) {a : DetokAcc} (h : a.total ≤ 384) :
    (s.detokDone i a).eobTotal.toNat = a.total := Nat.mod_eq_of_lt (by omega)

/-- The total that a macroblock's blocks leave (R245). -/
theorem detokStart_total_le {T : Config.Tables} {m : List Host.Cell} {prob : Cells Byte} {y2 : Bool} {s : State} {i : Nat}
    {a : DetokAcc} (h : runJobs T m prob (blockJobs y2) (detokStart s i) = some a) : a.total ≤ 384 :=
  (blockJobs_step h).total.trans_eq (Nat.zero_add 384)

theorem probEntry_isSome {prob : Cells Byte} (h : ∀ e, e < 1056 → (Cells.get prob e).isSome = true) {t band ctx k : Nat}
    (ht : t < 4) (hb : band < 8) (hc : ctx < 3) (hk : k < 11) : (probEntry prob t band ctx k).isSome = true := by
  rw [probEntry, Option.isSome_map, h _ (by omega)]

/-- Settles O31: the checks are the branches of `execDetokMb`; the blocks it decodes are `blockOrder`, each `runJob` of its
`blockJob`, so the fold of the statement is `runJobs`. -/
theorem detokMbCompletes : Obligations.DetokMbCompletes := by
  unfold Obligations.DetokMbCompletes
  refine fun s i y2 => ⟨fun hp skip => exec_detokMb_badPos hp i y2 skip,
    fun hp hu => exec_detokMb_unusable hp (mt ctxUsable_iff_le.1 hu) y2, fun hp hi hv hprob hflag => ?completes,
    fun hp hi hv => ?fold⟩
  all_goals have hexec := exec_detokMb_decode hp (ctxUsable_iff_le.2 ⟨hi, hv⟩) y2
  all_goals have hi9 : i < 9 := Nat.lt_succ_of_le hi
  case completes =>
    have hsome : (runJobs s.rom s.mem s.ram.prob (blockJobs y2) (detokStart s i)).isSome = true := by
      refine runJobs_isSome s.rom s.mem (fun t band ctx k => probEntry_isSome hprob) fun j hj => ?_
      obtain ⟨-, htype, hfirst, -⟩ := blockJobs_facts y2 j hj
      obtain ⟨habove, hleft⟩ := blockJobs_flags_lt y2 j hj
      exact ⟨htype, hfirst, (hflag _ habove).1, (hflag _ hleft).2⟩
    obtain ⟨a, ha⟩ := Option.isSome_iff_exists.1 hsome
    rw [ha] at hexec
    exact ⟨s.detokDone i a, hexec, s.detokDone_eq hi9 a, fun c hc => nzAboveGet_set_other _ _ hc⟩
  case fold =>
    intro order type first aboveBit leftBit block start
    have hblock : block = fun a b => runJob s.rom s.mem s.ram.prob (blockJob y2 b) a := by
      funext a b
      simp only [block, runJob, Option.map_eq_bind]
      rfl
    have hfold : order.foldlM block start = runJobs s.rom s.mem s.ram.prob (blockJobs y2) (detokStart s i) := by
      rw [runJobs_blockJobs_eq, hblock]
      rfl
    rw [hfold]
    refine ⟨fun z hz => ?_, fun hnone => ?_⟩
    · rw [hz] at hexec
      exact ⟨s.detokDone i z, hexec, s.detokDone_ctx hi9 z, rfl, rfl, s.detokDone_above i z, rfl,
        s.detokDone_eobTotal i (detokStart_total_le hz)⟩
    · rw [hexec, hnone]

/-! ### EOB, EOBTOTAL and the flags (R241, R245) -/

/-- EOB[b] as a number, 0 where nothing is written. -/
def DetokAcc.eobAt (a : DetokAcc) (b : Nat) : Nat := ((Cells.get a.eob b).getD 0).toNat

/-- Whether block `j` ended past its first position (R241). -/
def DetokAcc.nonzero (a : DetokAcc) (j : BlockJob) : Bool := decide (j.first < a.eobAt j.block)

/-- What the blocks of a list leave in EOB, in the total and in the flags, told by the EOB entries at the end (R241). -/
structure EobsLeft (js : List BlockJob) (a a' : DetokAcc) : Prop where
  bounds : ∀ j ∈ js, j.first ≤ a'.eobAt j.block ∧ a'.eobAt j.block ≤ 16
  other : ∀ b, b ∉ js.map BlockJob.block → Cells.get a'.eob b = Cells.get a.eob b
  total : a'.total = a.total + (js.map fun j => a'.eobAt j.block - j.first).sum
  above : a'.above = js.foldl (fun r j => nzSet r j.aboveFlag (a'.nonzero j)) a.above
  left : a'.left = js.foldl (fun r j => nzSet r j.leftFlag (a'.nonzero j)) a.left

theorem runJobs_eobsLeft {T : Config.Tables} {m : List Host.Cell} {prob : Cells Byte} {js : List BlockJob}
    {a a' : DetokAcc} (hj : ∀ j ∈ js, j.block < 25 ∧ j.first ≤ 1) (hd : (js.map BlockJob.block).Nodup)
    (h : runJobs T m prob js a = some a') : EobsLeft js a a' := by
  induction js generalizing a with
  | nil =>
    obtain rfl := Option.some.inj h
    exact ⟨by simp, fun _ _ => rfl, rfl, rfl, rfl⟩
  | cons j js ih =>
    obtain ⟨a1, h1, h2⟩ := Option.bind_eq_some_iff.1 h
    obtain ⟨hblock, hfirst⟩ := hj j List.mem_cons_self
    obtain ⟨e, hlo, hhi, htotal, heob, habove, hleft, -, -⟩ := runJob_spec hblock hfirst h1
    obtain ⟨hnew, hd⟩ := List.nodup_cons.1 hd
    have k := ih (fun i hi => hj i (List.mem_cons_of_mem j hi)) hd h2
    have hat : a'.eobAt j.block = e := by
      rw [DetokAcc.eobAt, k.other _ hnew, heob, Cells.get_set_same]
      exact Nat.mod_eq_of_lt (by omega)
    have hnz : decide (j.first < e) = a'.nonzero j := by rw [DetokAcc.nonzero, hat]
    rw [hnz] at habove hleft
    refine ⟨List.forall_mem_cons.2 ⟨hat ▸ ⟨hlo, hhi⟩, k.bounds⟩, fun b hb => ?_, ?_, ?_, ?_⟩
    · rw [k.other b (List.not_mem_of_not_mem_cons hb), heob,
        Cells.get_set_other _ _ (List.ne_of_not_mem_cons hb).symm]
    · rw [k.total, htotal, List.map_cons, List.sum_cons, hat, Nat.add_assoc]
    · rw [k.above, habove, List.foldl_cons]
    · rw [k.left, hleft, List.foldl_cons]

/-- A flag holds what the last write to it gave; a flag not written keeps its value. -/
theorem nzGet_foldl_nzSet {α : Type} (flag : α → Nat) (v : α → Bool) (l : List α) (r : NzRow) {k : Nat} (hk : k < 9) :
    nzGet (l.foldl (fun r x => nzSet r (flag x) (v x)) r) k =
      (l.reverse.find? fun x => flag x == k).elim (nzGet r k) fun x => some (v x) := by
  induction l using List.reverseRecOn with
  | nil => rfl
  | append_singleton l x ih =>
    rw [List.foldl_append, List.foldl_cons, List.foldl_nil, List.reverse_append, List.reverse_singleton,
      List.singleton_append]
    by_cases hx : flag x = k
    · rw [List.find?_cons_of_pos (by simp [hx]), hx, nzGet_nzSet_same hk]
      rfl
    · rw [List.find?_cons_of_neg (by simp [hx]), nzGet_nzSet_other hx, ih]

/-- The block of the bottom row that flag `k` of NZ_ABOVE is left by (R241, R242). -/
def bottomBlock (k : Nat) : Nat := if k < 4 then 12 + k else if k < 6 then 14 + k else 16 + k

/-- The block of the right column that flag `k` of NZ_LEFT is left by (R241, R242). -/
def rightBlock (k : Nat) : Nat := if k < 4 then 4 * k + 3 else 9 + 2 * k

theorem last_aboveFlag : ∀ y2 : Bool, ∀ k < 8,
    ((blockJobs y2).reverse.find? fun j => j.aboveFlag == k) = some (blockJob y2 (bottomBlock k)) := by decide

theorem last_leftFlag : ∀ y2 : Bool, ∀ k < 8,
    ((blockJobs y2).reverse.find? fun j => j.leftFlag == k) = some (blockJob y2 (rightBlock k)) := by decide

theorem last_y2Flag : ∀ y2 : Bool,
    ((blockJobs y2).reverse.find? fun j => j.aboveFlag == 8) = (if y2 then some (blockJob y2 24) else none) ∧
    ((blockJobs y2).reverse.find? fun j => j.leftFlag == 8) = (if y2 then some (blockJob y2 24) else none) := by decide

section
variable {y2 : Bool} {a a' : DetokAcc}

theorem blockJobs_above (h : EobsLeft (blockJobs y2) a a') {k : Nat} (hk : k < 8) :
    nzGet a'.above k = some (a'.nonzero (blockJob y2 (bottomBlock k))) := by
  rw [h.above, nzGet_foldl_nzSet _ _ _ _ (by omega), last_aboveFlag y2 k hk]
  rfl

theorem blockJobs_left (h : EobsLeft (blockJobs y2) a a') {k : Nat} (hk : k < 8) :
    nzGet a'.left k = some (a'.nonzero (blockJob y2 (rightBlock k))) := by
  rw [h.left, nzGet_foldl_nzSet _ _ _ _ (by omega), last_leftFlag y2 k hk]
  rfl

theorem blockJobs_y2Flags (h : EobsLeft (blockJobs y2) a a') :
    nzGet a'.above 8 = (if y2 then some (a'.nonzero (blockJob y2 24)) else nzGet a.above 8) ∧
    nzGet a'.left 8 = (if y2 then some (a'.nonzero (blockJob y2 24)) else nzGet a.left 8) := by
  obtain ⟨habove, hleft⟩ := last_y2Flag y2
  rw [h.above, h.left, nzGet_foldl_nzSet _ _ _ _ (by decide), nzGet_foldl_nzSet _ _ _ _ (by decide), habove, hleft]
  cases y2 <;> exact ⟨rfl, rfl⟩

theorem blockJob_mem {b : Nat} (hb : b < 24 ∨ b = 24 ∧ y2 = true) : blockJob y2 b ∈ blockJobs y2 := by
  rw [blockJobs_eq_map]
  refine List.mem_map_of_mem (List.mem_append.2 ?_)
  obtain hb | ⟨rfl, rfl⟩ := hb
  · exact .inr (List.mem_range.2 hb)
  · exact .inl List.mem_cons_self

theorem blockJobs_sum (y2 : Bool) (f : BlockJob → Nat) (h : y2 = false → f (blockJob y2 24) = 0) :
    ((blockJobs y2).map f).sum = ((List.range 25).map fun b => f (blockJob y2 b)).sum := by
  rw [blockJobs_eq_map, List.map_map, List.range_succ, List.map_append, List.sum_append, blockOrder]
  cases y2
  · simp [h rfl, Function.comp_def]
  · simp [Nat.add_comm, Function.comp_def]

end

theorem blockJob_first (y2 : Bool) (b : Nat) : (blockJob y2 b).first = if y2 ∧ b < 16 then 1 else 0 :=
  if_congr and_comm rfl rfl

theorem DetokAcc.eob_get_eq {a : DetokAcc} {b : Nat} (h : (Cells.get a.eob b).isSome = true) :
    Cells.get a.eob b = some (BitVec.ofNat 5 (a.eobAt b)) := by
  obtain ⟨e, he⟩ := Option.isSome_iff_exists.1 h
  rw [DetokAcc.eobAt, he, Option.getD_some, BitVec.ofNat_toNat, BitVec.setWidth_eq]

theorem eobZero_isSome {b : Nat} (h : b < 25) : (Cells.get eobZero b).isSome = true := by
  rw [eobZero, Cells.get_fill_lt _ h, Option.isSome_some]

section
variable {s : State} {i : Nat} {y2 : Bool} {a : DetokAcc}

/-- Without a Y2 block nothing writes EOB[24] (R240). -/
theorem EobsLeft.eobAt_24 (h : EobsLeft (blockJobs false) (detokStart s i) a) : a.eobAt 24 = 0 := by
  rw [DetokAcc.eobAt, h.other 24 (by decide)]
  rfl

theorem EobsLeft.eobAt_bounds (h : EobsLeft (blockJobs y2) (detokStart s i) a) {b : Nat} (hb : b < 25) :
    (blockJob y2 b).first ≤ a.eobAt b ∧ a.eobAt b ≤ 16 := by
  by_cases hj : b < 24 ∨ b = 24 ∧ y2 = true
  · exact h.bounds _ (blockJob_mem hj)
  · obtain rfl : b = 24 := by omega
    obtain rfl : y2 = false := by simpa using hj
    rw [h.eobAt_24]
    decide

theorem EobsLeft.total_eq (h : EobsLeft (blockJobs y2) (detokStart s i) a) :
    a.total = ((List.range 25).map fun b => a.eobAt b - (blockJob y2 b).first).sum := by
  have hzero : y2 = false → a.eobAt 24 - (blockJob y2 24).first = 0 := by
    rintro rfl
    rw [h.eobAt_24, Nat.zero_sub]
  rw [h.total, blockJobs_sum y2 _ hzero]
  exact Nat.zero_add _

end

/-- Settles O32: the EOB entries at the end tell the total and, by the last block that writes each flag, the flags. -/
theorem detokFlagsAndTotal : Obligations.DetokFlagsAndTotal := by
  unfold Obligations.DetokFlagsAndTotal
  intro s t i y2 hp hi hv ht first
  obtain ⟨a, ha, rfl⟩ := exec_detokMb_next hp (ctxUsable_iff_le.2 ⟨hi, hv⟩) ht
  have heobs := runJobs_eobsLeft (blockJobs_bounds y2) (blockJobs_nodup y2) ha
  have hfirst : ∀ b, (blockJob y2 b).first = first b := blockJob_first y2
  have heob : ∀ b < 25, Cells.get a.eob b = some (BitVec.ofNat 5 (a.eobAt b)) := fun b hb =>
    DetokAcc.eob_get_eq ((blockJobs_step ha).eob_written b (eobZero_isSome hb))
  have htotal := s.detokDone_eobTotal i (detokStart_total_le ha)
  have hsum := htotal.trans heobs.total_eq
  simp only [hfirst] at hsum
  refine ⟨a.eobAt, fun b hb => ⟨heob b hb, (heobs.eobAt_bounds hb).2, hfirst b ▸ (heobs.eobAt_bounds hb).1⟩,
    fun hy => EobsLeft.eobAt_24 (hy ▸ heobs), hsum, htotal.trans_le (detokStart_total_le ha), ?_⟩
  intro above left nz
  have hrow : above = a.above := s.detokDone_above i a
  have hnz : ∀ b, some (a.nonzero (blockJob y2 b)) = nz b := fun b => by
    rw [DetokAcc.nonzero, hfirst]
    rfl
  have hflag : ∀ k < 8, nzGet a.above k = nz (bottomBlock k) ∧ nzGet left k = nz (rightBlock k) := fun k hk =>
    ⟨(blockJobs_above heobs hk).trans (hnz _), (blockJobs_left heobs hk).trans (hnz _)⟩
  obtain ⟨habove8, hleft8⟩ := blockJobs_y2Flags heobs
  rw [hnz] at habove8 hleft8
  rw [hrow]
  refine ⟨fun k hk => ?_, fun k hk => ?_, fun k hk => ?_, habove8, hleft8⟩
  all_goals
    interval_cases k
    all_goals exact hflag _ (by decide)

/-! ### COEF (R240, R244) -/

/-- The blocks of a list leave a COEF entry that is at none of their scan positions. -/
theorem runJobs_coef_other {T : Config.Tables} {m : List Host.Cell} {prob : Cells Byte} {p : Nat} {js : List BlockJob}
    {a a' : DetokAcc} (hj : ∀ j ∈ js, j.block < 25 ∧ j.first ≤ 1)
    (hp : ∀ j ∈ js, ∀ n, j.first ≤ n → n < 16 → p ≠ 16 * j.block + scanIndex T n)
    (h : runJobs T m prob js a = some a') : Cells.get a'.coef p = Cells.get a.coef p := by
  induction js generalizing a with
  | nil =>
    obtain rfl := Option.some.inj h
    rfl
  | cons j js ih =>
    obtain ⟨a1, h1, h2⟩ := Option.bind_eq_some_iff.1 h
    obtain ⟨hblock, hfirst⟩ := hj j List.mem_cons_self
    obtain ⟨-, -, -, -, -, -, -, -, hcoef⟩ := runJob_spec hblock hfirst h1
    rw [ih (fun i hi => hj i (List.mem_cons_of_mem j hi)) (fun i hi => hp i (List.mem_cons_of_mem j hi)) h2]
    exact hcoef.other p (hp j List.mem_cons_self)

theorem blockJobs_true_luma_first : ∀ j ∈ blockJobs true, j.block < 16 → j.first = 1 := by decide

theorem blockJobs_false_block_lt : ∀ j ∈ blockJobs false, j.block < 24 := by decide

theorem coefZero_get {p : Nat} (h : p < 400) : Cells.get coefZero p = some 0 := Cells.get_fill_lt _ h

/-- Settles O33: every entry starts at 0 and is rewritten within R244's range; the DC of a luma block with a Y2 block, and
COEF[24] without one, are at no scan position of a decoded block. -/
theorem detokCoefRange : Obligations.DetokCoefRange := by
  unfold Obligations.DetokCoefRange
  intro s t i y2 hrom hp hi hv ht
  obtain ⟨a, ha, rfl⟩ := exec_detokMb_next hp (ctxUsable_iff_le.2 ⟨hi, hv⟩) ht
  have hstep := blockJobs_step ha
  refine ⟨fun b k hb hk => ?range, fun hy b hb => ?dc, fun hy k hk => ?y2⟩
  case range =>
    have hstart := coefZero_get (p := 16 * b + k) (by omega)
    obtain ⟨v, hget⟩ := Option.isSome_iff_exists.1 (hstep.coef_written _ (Option.isSome_of_eq_some hstart))
    refine ⟨v, hget, ?_⟩
    rcases hstep.coef_value hrom _ v hget with hold | hnew
    · obtain rfl := Option.some.inj (hstart.symm.trans hold)
      decide
    · exact hnew
  case dc =>
    subst hy
    refine (runJobs_coef_other (blockJobs_bounds true) (fun j hj n hn hn16 => ?_) ha).trans (coefZero_get (by omega))
    have hscan := scanIndex_le s.rom n
    intro heq
    have hfirst := blockJobs_true_luma_first j hj (by omega)
    have hpos := scanIndex_pos n hn16 (hfirst ▸ hn)
    rw [← hrom] at hpos
    omega
  case y2 =>
    subst hy
    refine (runJobs_coef_other (blockJobs_bounds false) (fun j hj n hn hn16 => ?_) ha).trans (coefZero_get (by omega))
    have hscan := scanIndex_le s.rom n
    have hblock := blockJobs_false_block_lt j hj
    omega

end Sys2Proof.Machine
end

section
/-! The token tree and the block loop (41_detokenizer.md R232 to R235; 40_entropy.md R213): a turn of the loop is one walk of
the tree, a walk gives a token exactly where the bits decoded are its code, and where a block ends. -/

namespace Sys2Proof.Machine

/-! ### Walks and codes (R213, R232) -/

section
variable {tree : List (Token ⊕ Nat)} {m : List Host.Cell} {p : Nat → Option Nat}

/-- The walk from a node: a leaf is reached, a child pair is walked on from. -/
def walkNode (tree : List (Token ⊕ Nat)) (m : List Host.Cell) (p : Nat → Option Nat) (fuel : Nat) :
    Option (Token ⊕ Nat) → BoolCtx → Option (Token × BoolCtx)
  | none, _ => none
  | some (.inl token), c => some (token, c)
  | some (.inr i), c => treeWalk tree m p fuel i c

theorem treeWalk_succ (fuel i : Nat) (c : BoolCtx) : treeWalk tree m p (fuel + 1) i c =
    (decodeAt m (p (i / 2)) c).bind fun r => walkNode tree m p fuel tree[i + flagNat r.1]? r.2 := by
  simp only [treeWalk]
  congr
  funext r
  rcases tree[i + flagNat r.1]? with _ | _ | _ <;> rfl

/-- The codes below a node: the leaf each reaches, with the probability index and the bit of every node on the way. -/
def codesBelow (tree : List (Token ⊕ Nat)) : Nat → Option (Token ⊕ Nat) → List (Token × List (Nat × Bool))
  | _, none => []
  | _, some (.inl token) => [(token, [])]
  | 0, some (.inr _) => []
  | fuel + 1, some (.inr i) => [false, true].flatMap fun bit =>
    (codesBelow tree fuel tree[i + flagNat bit]?).map fun e => (e.1, (i / 2, bit) :: e.2)

theorem mem_codesBelow_pair {fuel i : Nat} {token : Token} {code : List (Nat × Bool)} :
    (token, code) ∈ codesBelow tree (fuel + 1) (some (.inr i)) ↔
      ∃ bit rest, code = (i / 2, bit) :: rest ∧ (token, rest) ∈ codesBelow tree fuel tree[i + flagNat bit]? := by
  simp only [codesBelow, List.mem_flatMap, List.mem_map]
  constructor
  · rintro ⟨bit, -, e, he, heq⟩
    obtain ⟨rfl, rfl⟩ := Prod.mk.inj heq
    exact ⟨bit, e.2, rfl, he⟩
  · rintro ⟨bit, rest, rfl, he⟩
    exact ⟨bit, by cases bit <;> simp, _, he, rfl⟩

/-- Decoding one bit of a code: the context after it, where the bit is the code's. -/
def codeBit (m : List Host.Cell) (p : Nat → Option Nat) (c : BoolCtx) (k : Nat × Bool) : Option BoolCtx :=
  (p k.1).bind fun q => if (boolDecode m q c).1 = k.2 then some (boolDecode m q c).2 else none

theorem codeBit_eq_some_iff {c d : BoolCtx} {k : Nat} {bit : Bool} :
    codeBit m p c (k, bit) = some d ↔ decodeAt m (p k) c = some (bit, d) := by
  cases h : p k <;> simp [codeBit, decodeAt, h, Prod.ext_iff]

/-- A walk gives a token exactly where the bits decoded are one of the token's codes. -/
theorem walkNode_iff_code {fuel : Nat} {node : Option (Token ⊕ Nat)} {c d : BoolCtx} {token : Token} :
    walkNode tree m p fuel node c = some (token, d) ↔
      ∃ code, (token, code) ∈ codesBelow tree fuel node ∧ code.foldlM (codeBit m p) c = some d := by
  induction fuel generalizing node c with
  | zero => rcases node with _ | token' | i <;> simp [walkNode, treeWalk, codesBelow, eq_comm]
  | succ fuel ih =>
    rcases node with _ | token' | i
    · simp [walkNode, codesBelow]
    · simp [walkNode, codesBelow, eq_comm]
    · rw [walkNode, treeWalk_succ, Option.bind_eq_some_iff]
      simp only [mem_codesBelow_pair]
      constructor
      · rintro ⟨⟨bit, c'⟩, hbit, hrest⟩
        obtain ⟨rest, hmem, hfold⟩ := ih.1 hrest
        exact ⟨_, ⟨bit, rest, rfl, hmem⟩, Option.bind_eq_some_iff.2 ⟨c', codeBit_eq_some_iff.2 hbit, hfold⟩⟩
      · rintro ⟨_, ⟨bit, rest, rfl, hmem⟩, hfold⟩
        obtain ⟨c', hbit, hfold⟩ := Option.bind_eq_some_iff.1 hfold
        exact ⟨(bit, c'), codeBit_eq_some_iff.1 hbit, ih.2 ⟨rest, hmem, hfold⟩⟩

/-- Where no token has two codes, a walk gives a token exactly where the bits decoded are the token's code. -/
theorem treeWalk_iff_code {fuel i : Nat} {codes : List (Token × List (Nat × Bool))}
    (hcodes : codesBelow tree fuel (some (.inr i)) = codes) (hone : (codes.map Prod.fst).Nodup)
    {token : Token} {code : List (Nat × Bool)} (h : (token, code) ∈ codes) (c d : BoolCtx) :
    treeWalk tree m p fuel i c = some (token, d) ↔ code.foldlM (codeBit m p) c = some d := by
  subst hcodes
  refine walkNode_iff_code.trans ⟨?_, fun hfold => ⟨code, h, hfold⟩⟩
  rintro ⟨code', hmem, hfold⟩
  rwa [(Prod.mk.inj (List.inj_on_of_nodup_map hone hmem h rfl)).2] at hfold

end

/-- The codes of R232: at each bit, the index of its probability in the row. -/
def tokenCodes : List (Token × List (Nat × Bool)) :=
  [(.eob, [(0, false)]),
   (.zero, [(0, true), (1, false)]),
   (.one, [(0, true), (1, true), (2, false)]),
   (.two, [(0, true), (1, true), (2, true), (3, false), (4, false)]),
   (.three, [(0, true), (1, true), (2, true), (3, false), (4, true), (5, false)]),
   (.four, [(0, true), (1, true), (2, true), (3, false), (4, true), (5, true)]),
   (.cat1, [(0, true), (1, true), (2, true), (3, true), (6, false), (7, false)]),
   (.cat2, [(0, true), (1, true), (2, true), (3, true), (6, false), (7, true)]),
   (.cat3, [(0, true), (1, true), (2, true), (3, true), (6, true), (8, false), (9, false)]),
   (.cat4, [(0, true), (1, true), (2, true), (3, true), (6, true), (8, false), (9, true)]),
   (.cat5, [(0, true), (1, true), (2, true), (3, true), (6, true), (8, true), (10, false)]),
   (.cat6, [(0, true), (1, true), (2, true), (3, true), (6, true), (8, true), (10, true)])]

/-- The codes that a token after a ZERO can have: those of R232 behind the EOB bit. -/
def tokenCodesAfterZero : List (Token × List (Nat × Bool)) := tokenCodes.tail.map fun e => (e.1, e.2.drop 1)

theorem codesBelow_root : codesBelow tokenTree 11 (some (.inr 0)) = tokenCodes := by decide

theorem codesBelow_afterZero : codesBelow tokenTree 11 (some (.inr 2)) = tokenCodesAfterZero := by decide

theorem tokenCodes_nodup : (tokenCodes.map Prod.fst).Nodup ∧ (tokenCodesAfterZero.map Prod.fst).Nodup := by decide

theorem mem_tokenCodesAfterZero :
    ∀ e ∈ tokenCodes, e.1 ≠ .eob → (e.1, e.2.drop 1) ∈ tokenCodesAfterZero := by decide

theorem tokenCodesAfterZero_ne_eob : ∀ e ∈ tokenCodesAfterZero, e.1 ≠ .eob := by decide

/-- Past the EOB bit there is no EOB (R234). -/
theorem treeWalk_afterZero_ne_eob {m : List Host.Cell} {p : Nat → Option Nat} {c d : BoolCtx} :
    treeWalk tokenTree m p 11 2 c ≠ some (.eob, d) := fun h => by
  obtain ⟨code, hmem, -⟩ := walkNode_iff_code.1 (show walkNode tokenTree m p 11 (some (.inr 2)) c = _ from h)
  rw [codesBelow_afterZero] at hmem
  exact tokenCodesAfterZero_ne_eob _ hmem rfl

/-! ### Magnitudes (R233) -/

section
variable {α β : Type} {tree : List (Token ⊕ Nat)} {m : List Host.Cell} {p : Nat → Option Nat} {fuel i : Nat} {c : BoolCtx}
  {f : Token × BoolCtx → Option α}

/-- A node of the tree beside a decode of its bit: alike where both go on alike with each bit. -/
theorem treeWalk_bind_eq {h : Bool × BoolCtx → Option α}
    (hfalse : ∀ d, (walkNode tree m p fuel tree[i]? d).bind f = h (false, d))
    (htrue : ∀ d, (walkNode tree m p fuel tree[i + 1]? d).bind f = h (true, d)) :
    (treeWalk tree m p (fuel + 1) i c).bind f = (decodeAt m (p (i / 2)) c).bind h := by
  rw [treeWalk_succ, Option.bind_assoc]
  congr
  funext ⟨bit, d⟩
  cases bit
  · exact hfalse d
  · exact htrue d

theorem treeWalk_bind_eq_bind {h : Bool × BoolCtx → Option β} {g : β → Option α}
    (hfalse : ∀ d, (walkNode tree m p fuel tree[i]? d).bind f = (h (false, d)).bind g)
    (htrue : ∀ d, (walkNode tree m p fuel tree[i + 1]? d).bind f = (h (true, d)).bind g) :
    (treeWalk tree m p (fuel + 1) i c).bind f = ((decodeAt m (p (i / 2)) c).bind h).bind g :=
  (treeWalk_bind_eq hfalse htrue).trans (Option.bind_assoc _ _ _).symm

end

/-- `decode_magnitude` is the walk of the tree below the ZERO bit, its token turned into a magnitude. -/
theorem treeWalk_bind_magnitude {α : Type} (T : Config.Tables) (m : List Host.Cell) (p : Nat → Option Nat) (fuel : Nat)
    (c : BoolCtx) {f : Token × BoolCtx → Option α} {g : Nat × BoolCtx → Option α}
    (h : ∀ token d, token ≠ .eob → token ≠ .zero → f (token, d) = g (tokenValue T m token d)) :
    (treeWalk tokenTree m p (fuel + 5) 4 c).bind f = (decodeMagnitude T m p c).bind g := by
  refine treeWalk_bind_eq_bind (fun d => h .one d (by decide) (by decide)) fun d => ?_
  refine treeWalk_bind_eq_bind (fun d => ?_) fun d => ?_
  · refine treeWalk_bind_eq_bind (fun d => h .two d (by decide) (by decide)) fun d => ?_
    exact treeWalk_bind_eq_bind (fun d => h .three d (by decide) (by decide)) fun d => h .four d (by decide) (by decide)
  · refine treeWalk_bind_eq_bind (fun d => ?_) fun d => ?_
    · exact treeWalk_bind_eq_bind (fun d => h .cat1 d (by decide) (by decide)) fun d => h .cat2 d (by decide) (by decide)
    · refine treeWalk_bind_eq_bind (fun d => ?_) fun d => ?_
      · exact treeWalk_bind_eq_bind (fun d => h .cat3 d (by decide) (by decide)) fun d => h .cat4 d (by decide) (by decide)
      · exact treeWalk_bind_eq_bind (fun d => h .cat5 d (by decide) (by decide)) fun d => h .cat6 d (by decide) (by decide)

/-! ### A turn of the loop (R234) -/

section
variable (T : Config.Tables) (m : List Host.Cell) (prob : Cells Byte) (t b left n : Nat) (coef : Cells (BitVec 16))

/-- How the loop goes on at scan position `n` after a magnitude `v.1`: the sign, the coefficient written, the next
position in context 1 or 2. -/
def afterMagnitude (v : Nat × BoolCtx) : Option BlockResult :=
  let sg := boolDecode m 128 v.2
  blockLoop T m prob t b left (n + 1) (if v.1 = 1 then 1 else 2) false sg.2
    (Cells.set coef (16 * b + scanIndex T n) (BitVec.ofInt 16 (if sg.1 then -(v.1 : Int) else (v.1 : Int))))

/-- How the loop goes on at scan position `n` after a token. -/
def afterToken (r : Token × BoolCtx) : Option BlockResult :=
  match r.1 with
  | .eob => some { eob := n, ctx := r.2, coef := coef }
  | .zero => blockLoop T m prob t b left (n + 1) 0 true r.2 coef
  | token => afterMagnitude T m prob t b left n coef (tokenValue T m token r.2)

theorem afterToken_of_ne {token : Token} (heob : token ≠ .eob) (hzero : token ≠ .zero) (d : BoolCtx) :
    afterToken T m prob t b left n coef (token, d) =
      afterMagnitude T m prob t b left n coef (tokenValue T m token d) := by
  cases token with
  | eob => exact absurd rfl heob
  | zero => exact absurd rfl hzero
  | _ => rfl

/-- A turn of the loop is one walk of the tree, from its root or, after a ZERO, from behind the EOB bit. -/
theorem blockLoop_succ (ctx : Nat) (afterZero : Bool) (c : BoolCtx) :
    blockLoop T m prob t b (left + 1) n ctx afterZero c coef =
      (treeWalk tokenTree m (probEntry prob t (scanBand T n) ctx) 11 (if afterZero then 2 else 0) c).bind
        (afterToken T m prob t b left n coef) := by
  have hmagnitude (fuel : Nat) (d : BoolCtx) := treeWalk_bind_magnitude T m (probEntry prob t (scanBand T n) ctx) fuel d
    (fun token d heob hzero => afterToken_of_ne T m prob t b left n coef heob hzero d)
  symm
  cases afterZero with
  | false => exact treeWalk_bind_eq (fun d => rfl) fun d => treeWalk_bind_eq (fun d => rfl) (hmagnitude 4)
  | true => exact treeWalk_bind_eq (fun d => rfl) (hmagnitude 5)

end

/-- The value of a category as R233 tells it: its base and a fold over the probabilities of its extra bits. -/
theorem categoryValue_eq_foldl (T : Config.Tables) (m : List Host.Cell) (k : Nat) (c : BoolCtx) :
    categoryValue T m k c =
      let e := (fileGet T.catProb k []).foldl
        (fun (a : Nat × BoolCtx) q =>
          let d := boolDecode m q.toNat a.2
          (2 * a.1 + (if d.1 then 1 else 0), d.2)) (0, c)
      (fileGet T.catBase k 0 + e.1, e.2) := by
  simp only [categoryValue, catProbs, extraBits_eq_foldl, catBaseOf]

/-- Settles O34: a turn of the loop is the walk (`blockLoop_succ`), and the codes that reach the leaves of the tree are those
of R232 (`treeWalk_iff_code`). -/
theorem tokenByTree : Obligations.TokenByTree := by
  unfold Obligations.TokenByTree
  refine ⟨?turn, fun _ _ _ _ _ _ _ _ _ _ _ => ⟨rfl, rfl⟩, ?codes, fun _ _ _ _ _ => rfl, ?tables⟩
  case turn =>
    intro T m prob t b left n ctx afterZero c coef category value
    have hvalue : value = tokenValue T m := by
      funext token d
      cases token
      case cat1 | cat2 | cat3 | cat4 | cat5 | cat6 => exact (categoryValue_eq_foldl T m _ d).symm
      all_goals rfl
    rw [hvalue, blockLoop_succ]
    refine congrArg (Option.bind _) (funext fun ⟨token, d⟩ => ?_)
    cases token <;> rfl
  case codes =>
    rintro codes m p c bit ⟨token, code⟩ hcode d
    exact ⟨treeWalk_iff_code codesBelow_root tokenCodes_nodup.1 hcode c d, fun hne =>
      treeWalk_iff_code codesBelow_afterZero tokenCodes_nodup.2 (mem_tokenCodesAfterZero _ hcode hne) c d⟩
  case tables => decide

/-! ### Where a block ends (R235) -/

/-- With the default tables a token other than EOB and ZERO has a magnitude of 1..2114 (R232, R244). -/
theorem tokenValue_bounds {token : Token} (heob : token ≠ .eob) (hzero : token ≠ .zero) (m : List Host.Cell) (c : BoolCtx) :
    1 ≤ (tokenValue romTables m token c).1 ∧ (tokenValue romTables m token c).1 ≤ 2114 := by
  have hcategory {k : Nat} (hk : k < 6) := (categoryValue_spec romTables m hk c).2 rfl
  cases token with
  | eob => exact absurd rfl heob
  | zero => exact absurd rfl hzero
  | one | two | three | four => simp [tokenValue]
  | _ => exact hcategory (by decide)

theorem ofInt_signed_ne_zero {v : Nat} (hlo : 1 ≤ v) (hhi : v ≤ 2114) (sign : Bool) :
    BitVec.ofInt 16 (if sign then -(v : Int) else (v : Int)) ≠ 0 := by
  intro h
  have hself := BitVec.toInt_ofInt_eq_self (w := 16) (n := if sign then -(v : Int) else v) (by decide)
    (by split <;> omega) (by split <;> omega)
  rw [h, BitVec.ofNat_eq_ofNat, BitVec.toInt_zero] at hself
  split at hself <;> omega

section
variable {m : List Host.Cell} {prob : Cells Byte} {t b : Nat}

/-- What a turn of the loop does with the default tables: the block ends, a ZERO is passed, or a coefficient that is not 0 is
written. -/
theorem blockLoop_cases {left n ctx : Nat} {afterZero : Bool} {c : BoolCtx} {coef : Cells (BitVec 16)} {r : BlockResult}
    (h : blockLoop romTables m prob t b (left + 1) n ctx afterZero c coef = some r) :
    (afterZero = false ∧ r.eob = n ∧ r.coef = coef) ∨
    (∃ d, blockLoop romTables m prob t b left (n + 1) 0 true d coef = some r) ∨
    (∃ ctx' d x, x ≠ 0 ∧ blockLoop romTables m prob t b left (n + 1) ctx' false d
      (Cells.set coef (16 * b + scanIndex romTables n) x) = some r) := by
  rw [blockLoop_succ] at h
  obtain ⟨⟨token, d⟩, hwalk, h⟩ := Option.bind_eq_some_iff.1 h
  by_cases heob : token = .eob
  · subst heob
    obtain rfl := Option.some.inj h
    refine .inl ⟨?_, rfl, rfl⟩
    cases afterZero with
    | false => rfl
    | true => exact absurd hwalk treeWalk_afterZero_ne_eob
  by_cases hzero : token = .zero
  · subst hzero
    exact .inr (.inl ⟨d, h⟩)
  · rw [afterToken_of_ne _ _ _ _ _ _ _ _ heob hzero] at h
    obtain ⟨hlo, hhi⟩ := tokenValue_bounds heob hzero m d
    exact .inr (.inr ⟨_, _, _, ofInt_signed_ne_zero hlo hhi _, h⟩)

/-- The first token is EOB (R234). -/
theorem blockLoop_first_eob {T : Config.Tables} {left n ctx : Nat} {c d : BoolCtx} {coef : Cells (BitVec 16)}
    (h : decodeAt m (probEntry prob t (scanBand T n) ctx 0) c = some (false, d)) :
    blockLoop T m prob t b (left + 1) n ctx false c coef = some { eob := n, ctx := d, coef := coef } := by
  simp only [blockLoop, h]
  rfl

theorem scanIndex_injective : ∀ n < 16, ∀ k < 16, scanIndex romTables n = scanIndex romTables k → n = k := by decide

/-- The loop leaves every coefficient at a scan position from eob on. -/
theorem blockLoop_get_from_eob {left n ctx : Nat} {afterZero : Bool} {c : BoolCtx} {coef : Cells (BitVec 16)}
    {r : BlockResult} (hb : b < 25) (hn : n + left = 16)
    (h : blockLoop romTables m prob t b left n ctx afterZero c coef = some r) {k : Nat} (hk : r.eob ≤ k) (hk16 : k < 16) :
    Cells.get r.coef (16 * b + scanIndex romTables k) = Cells.get coef (16 * b + scanIndex romTables k) := by
  induction left generalizing n ctx afterZero c coef with
  | zero =>
    obtain rfl := Option.some.inj h
    rfl
  | succ left ih =>
    obtain ⟨-, -, hcoef⟩ | ⟨d, hnext⟩ | ⟨ctx', d, x, -, hnext⟩ := blockLoop_cases h
    · rw [hcoef]
    · exact ih (by omega) hnext
    · obtain ⟨hlt, -⟩ := blockLoop_spec hb (by omega) hnext
      rw [ih (by omega) hnext]
      refine Cells.get_set_other _ _ fun heq => ?_
      have := scanIndex_injective n (by omega) k hk16 (by omega)
      omega

/-- A block that EOB ends ends at once, and not after a ZERO, or right after a coefficient that is not 0. -/
theorem blockLoop_last_nonzero {left n ctx : Nat} {afterZero : Bool} {c : BoolCtx} {coef : Cells (BitVec 16)}
    {r : BlockResult} (hn : n + left = 16)
    (h : blockLoop romTables m prob t b left n ctx afterZero c coef = some r) (hend : r.eob < 16) :
    (r.eob = n ∧ afterZero = false ∧ r.coef = coef) ∨
    (n < r.eob ∧ ∃ v, Cells.get r.coef (16 * b + scanIndex romTables (r.eob - 1)) = some v ∧ v ≠ 0) := by
  induction left generalizing n ctx afterZero c coef with
  | zero =>
    obtain rfl := Option.some.inj h
    exact absurd hend (by simp only; omega)
  | succ left ih =>
    obtain ⟨haz, heob, hcoef⟩ | ⟨d, hnext⟩ | ⟨ctx', d, x, hx, hnext⟩ := blockLoop_cases h
    · exact .inl ⟨heob, haz, hcoef⟩
    · obtain ⟨-, haz, -⟩ | ⟨hlt, hlast⟩ := ih (by omega) hnext
      · cases haz
      · exact .inr ⟨by omega, hlast⟩
    · obtain ⟨heob, -, hcoef⟩ | ⟨hlt, hlast⟩ := ih (by omega) hnext
      · refine .inr ⟨by omega, x, ?_, hx⟩
        rw [heob, hcoef, Nat.add_sub_cancel, Cells.get_set_same]
      · exact .inr ⟨by omega, hlast⟩

end

/-- Settles O35: the bounds are `blockLoop_spec`'s; the last coefficient and those from eob on go by the turns of the loop. -/
theorem blockEob : Obligations.BlockEob := by
  unfold Obligations.BlockEob
  intro m prob t b first ctx0 c coef r hb hfirst h
  have hroom : first + (16 - first) = 16 := by omega
  obtain ⟨hlo, hhi, -⟩ := decodeBlock_spec hb hfirst.le h
  refine ⟨hlo, hhi, fun d hd => ?_, fun hgt hlt => ?_, fun n hn hn16 => blockLoop_get_from_eob hb hroom h hn hn16⟩
  · obtain ⟨left, hleft⟩ : ∃ left, 16 - first = left + 1 := ⟨15 - first, by omega⟩
    rw [decodeBlock, hleft, blockLoop_first_eob hd] at h
    obtain rfl := Option.some.inj h
    exact ⟨rfl, rfl, rfl⟩
  · obtain ⟨heob, -⟩ | ⟨-, hlast⟩ := blockLoop_last_nonzero hroom h hlt
    · omega
    · exact hlast

end Sys2Proof.Machine
end

section
/-! The dequantizer (42_dequant.md R270 to R280): what QSETUP leaves in each entry of DQF, the default tables' ranges, and the
400 products of DEQ_MB with the WIDE16 they set. -/

namespace Sys2Proof.Machine

/-! ### The indices (R271, R272) -/

theorem clamp_eq_max_min {lo hi : Int} (h : lo ≤ hi) (v : Int) : clamp v lo hi = max lo (min hi v) := by
  simp only [clamp]
  omega

theorem baseQ_eq (c : CfgRegs) : c.baseQ = ((c.qBase.extractLsb' 0 7).toNat : Int) := by
  rw [CfgRegs.baseQ, bits_toNat]

theorem segQuant_eq (c : CfgRegs) (seg : Nat) :
    segQuant c seg =
      if c.segCfg.getLsbD 0 = false then ((c.qBase.extractLsb' 0 7).toNat : Int)
      else if c.segCfg.getLsbD 1 then max 0 (min 127 (c.segQ.extractLsb' (8 * seg) 8).toInt)
      else max 0 (min 127 ((c.qBase.extractLsb' 0 7).toNat + (c.segQ.extractLsb' (8 * seg) 8).toInt)) := by
  simp only [segQuant, CfgRegs.segEnabled, CfgRegs.segAbs, bit_toNat, baseQ_eq, signedLane_eq, Bool.not_eq_true',
    clamp_eq_max_min (show (0 : Int) ≤ 127 by decide)]

theorem qidx_eq (c : CfgRegs) (seg : Nat) (d : Int) : qidx c seg d = (max 0 (min 127 (segQuant c seg + d))).toNat := by
  rw [qidx, clamp_eq_max_min (by decide)]

theorem qidx_lt (c : CfgRegs) (seg : Nat) (d : Int) : qidx c seg d < 128 := by
  rw [qidx_eq]
  omega

/-! ### The factor table (R273, R275) -/

/-- A register file written entry by entry in rising order. -/
theorem fileGet_foldl_fileSet {α : Type} {n : Nat} (f : Nat → α) (v : Vector α n) (d : α) {m i : Nat} (hm : i < m)
    (hn : i < n) : fileGet ((List.range m).foldl (fun v j => fileSet v j (f j)) v) i d = f i := by
  induction m with
  | zero => omega
  | succ m ih =>
    rw [List.range_succ, List.foldl_append, List.foldl_cons, List.foldl_nil]
    by_cases heq : m = i
    · subst heq
      simp [fileGet, fileSet, hn]
    · rw [← ih (by omega)]
      simp [fileGet, fileSet, heq]

/-- An entry of the table is the factor as its 16-bit field holds it. -/
theorem quantTable_get (T : Config.Tables) (c : CfgRegs) {seg k : Nat} (hseg : seg < 4) (hk : k < 6) :
    (fileGet (quantTable T c) (6 * seg + k) 0).toNat = quantFactor T c seg k % 65536 := by
  have hdiv : (6 * seg + k) / 6 = seg := by omega
  have hmod : (6 * seg + k) % 6 = k := by omega
  rw [quantTable, fileGet_foldl_fileSet _ _ _ (by omega) (by omega), hdiv, hmod, BitVec.toNat_ofNat]

/-! ### The default tables (R270, R274) -/

theorem dcStep_romTables : ∀ q < 128, 4 ≤ dcStep romTables q ∧ dcStep romTables q ≤ 157 := by decide +kernel

theorem acStep_romTables : ∀ q < 128, 4 ≤ acStep romTables q ∧ acStep romTables q ≤ 284 := by decide +kernel

/-- With the default tables a factor lies in the range of R274. -/
theorem quantFactor_romTables (c : CfgRegs) (seg : Nat) :
    let F := quantFactor romTables c seg
    (4 ≤ F 0 ∧ F 0 ≤ 157) ∧ (4 ≤ F 1 ∧ F 1 ≤ 284) ∧ (8 ≤ F 2 ∧ F 2 ≤ 314) ∧ (8 ≤ F 3 ∧ F 3 ≤ 440) ∧
      (4 ≤ F 4 ∧ F 4 ≤ 132) ∧ (4 ≤ F 5 ∧ F 5 ≤ 284) := by
  have hdc (d : Int) := dcStep_romTables _ (qidx_lt c seg d)
  have hac (d : Int) := acStep_romTables _ (qidx_lt c seg d)
  refine ⟨hdc _, hac _, ?y2dc, ?y2ac, ?uvdc, hac _⟩ <;> simp only [quantFactor]
  case y2dc =>
    have := hdc (signedLane c.qDelta0 1)
    omega
  case y2ac =>
    have := hac (signedLane c.qDelta0 2)
    omega
  case uvdc =>
    have := hdc (signedLane c.qDelta0 3)
    omega

/-- The scale of R273 as the reference decoder computes it. -/
theorem mul_155_div_100 : ∀ x < 285, x * 155 / 100 = (x * 101581) >>> 16 := by decide +kernel

/-! ### The products (R276, R278) -/

theorem coefWritten_iff {r : Rams} : coefWritten r = true ↔ ∀ j, j < 400 → (Cells.get r.coef j).isSome = true := by
  simp only [coefWritten, List.all_eq_true, List.mem_range]

theorem wide_iff {v : Int} : wide v = true ↔ v < -32768 ∨ 32767 < v := by
  simp only [wide, Bool.or_eq_true, decide_eq_true_eq]

theorem dqfAt_factorIndex (s : State) (seg b i : Nat) :
    dqfAt s seg (factorIndex b i) =
      (fileGet s.dqf (6 * seg + (if b < 16 then 0 else if b < 24 then 4 else 2) + (if i = 0 then 0 else 1)) 0).toNat := by
  have hsplit : factorIndex b i = (if b < 16 then 0 else if b < 24 then 4 else 2) + if i = 0 then 0 else 1 := by
    simp only [factorIndex]
    split <;> rfl
  rw [dqfAt, hsplit, Nat.add_assoc]

theorem dequantValue_eq (s : State) (seg b i : Nat) :
    dequantValue s seg b i =
      ((Cells.get s.ram.coef (16 * b + i)).getD 0).toInt * (dqfAt s seg (factorIndex b i) : Int) := by
  rw [dequantValue, coefAt]
  cases Cells.get s.ram.coef (16 * b + i) <;> rfl

/-- A signed 16-bit coefficient times an unsigned 16-bit factor is a signed 32-bit number (R278). -/
theorem toInt_ofInt_dequantValue (s : State) (seg b i : Nat) :
    (BitVec.ofInt 32 (dequantValue s seg b i)).toInt = dequantValue s seg b i := by
  have hcoef : -32768 ≤ ((Cells.get s.ram.coef (16 * b + i)).getD 0).toInt ∧
      ((Cells.get s.ram.coef (16 * b + i)).getD 0).toInt < 32768 := ⟨BitVec.le_toInt _, BitVec.toInt_lt⟩
  have hfactor : dqfAt s seg (factorIndex b i) < 65536 := BitVec.isLt _
  rw [dequantValue_eq]
  generalize ((Cells.get s.ram.coef (16 * b + i)).getD 0).toInt = x at hcoef
  generalize dqfAt s seg (factorIndex b i) = y at hfactor
  have hlo : -2147483648 ≤ x * (y : Int) := by nlinarith
  have hhi : x * (y : Int) < 2147483648 := by nlinarith
  exact BitVec.toInt_ofInt_eq_self (by decide) hlo hhi

theorem dequantAt_block (s : State) (seg b : Nat) {i : Nat} (hi : i < 16) :
    dequantAt s seg (16 * b + i) = dequantValue s seg b i := by
  have hdiv : (16 * b + i) / 16 = b := by omega
  have hmod : (16 * b + i) % 16 = i := by omega
  rw [dequantAt, hdiv, hmod]

theorem anyWide_dequantAt_iff (s : State) (seg : Nat) :
    anyWide ((List.range 400).map (dequantAt s seg)) = true ↔
      ∃ b i, b < 25 ∧ i < 16 ∧ (dequantValue s seg b i < -32768 ∨ 32767 < dequantValue s seg b i) := by
  simp only [anyWide, List.any_map, List.any_eq_true, List.mem_range, Function.comp_apply, wide_iff]
  constructor
  · rintro ⟨j, hj, hwide⟩
    exact ⟨j / 16, j % 16, by omega, by omega, hwide⟩
  · rintro ⟨b, i, hb, hi, hwide⟩
    exact ⟨16 * b + i, by omega, by rwa [dequantAt_block s seg b hi]⟩

/-! ### The commands -/

theorem execDeqMb_of_written {s : State} (seg : Nat) (h : coefWritten s.ram = true) :
    execDeqMb seg s = .next ((s.setDq (Cells.fill 400 fun j => BitVec.ofInt 32 (dequantAt s seg j))).orWide
      (anyWide ((List.range 400).map (dequantAt s seg)))) := if_pos h

theorem execDeqMb_of_not_written {s : State} (seg : Nat) (h : ¬coefWritten s.ram = true) :
    execDeqMb seg s = .fault .uninit := if_neg h

/-- Settles O36: each entry of DQF is `quantFactor` modulo 2^16 (`quantTable_get`), its index at most 127 (`qidx_lt`). -/
theorem qsetupRule : Obligations.QsetupRule := by
  unfold Obligations.QsetupRule
  refine ⟨fun s => ⟨quantTable s.rom s.cfg, rfl, fun seg hseg => ?factors⟩,
    fun x hx => mul_155_div_100 x (by omega), ?dc, ?ac⟩
  case dc => decide +kernel
  case ac => decide +kernel
  case factors =>
    intro c cl segq q dc ac f
    have hf {k : Nat} (hk : k < 6) : f k = quantFactor s.rom c seg k % 65536 := quantTable_get s.rom c hseg hk
    have hq (d : Int) : q d = qidx c seg d := by rw [qidx_eq, segQuant_eq]
    have hdc (d : Int) : dc d = dcStep s.rom (qidx c seg d) := congrArg (dcStep s.rom) (hq d)
    have hac (d : Int) : ac d = acStep s.rom (qidx c seg d) := congrArg (acStep s.rom) (hq d)
    simp only [hdc, hac, hf (show 0 < 6 by decide), hf (show 1 < 6 by decide), hf (show 2 < 6 by decide),
      hf (show 3 < 6 by decide), hf (show 4 < 6 by decide), hf (show 5 < 6 by decide)]
    refine ⟨?y1dc, rfl, ?y2dc, ?y2ac, ?uvdc, ?uvac, fun hrom => ⟨fun d => ?steps, ?ranges⟩⟩
    case steps =>
      have h1 := dcStep_romTables _ (qidx_lt c seg d)
      have h2 := acStep_romTables _ (qidx_lt c seg d)
      rw [hrom]
      omega
    case ranges =>
      have := quantFactor_romTables c seg
      rw [hrom]
      omega
    case y1dc | y2dc | y2ac | uvac => simp only [quantFactor, signedLane_eq]
    case uvdc =>
      rw [quantFactor, signedLane_eq]
      exact Nat.mod_eq_of_lt (by omega)

/-- Settles O37: DQ holds the products of `dequantValue`, which fit 32 bits (`toInt_ofInt_dequantValue`). -/
theorem deqMbRule : Obligations.DeqMbRule := by
  unfold Obligations.DeqMbRule
  intro s seg _
  refine ⟨fun hwritten => ?complete, fun j hj hnone => ?uninit⟩
  case uninit =>
    refine execDeqMb_of_not_written seg fun hwritten => ?_
    simpa [hnone] using coefWritten_iff.1 hwritten j hj
  case complete =>
    intro factor product
    have hproduct (b i : Nat) : dequantValue s seg b i = product b i := by
      rw [dequantValue_eq, dqfAt_factorIndex]
    refine ⟨_, execDeqMb_of_written seg (coefWritten_iff.2 hwritten), rfl, fun b i hb hi => ?entry, ?wide⟩
    case entry =>
      refine ⟨_, Cells.get_fill_lt _ (by omega), ?_⟩
      rw [dequantAt_block s seg b hi, toInt_ofInt_dequantValue, hproduct]
    case wide =>
      rw [State.orWide_wide16, State.setDq_wide16, Bool.or_eq_true, anyWide_dequantAt_iff]
      simp only [hproduct]

end Sys2Proof.Machine
end

section
/-! Memory after a list of pixel writes (20_memory.md R106): what a byte holds where several writes may reach it, the writes
of an area as a condition on each write, and `PixelsWritten` from such a condition. -/

namespace Sys2Proof.Machine

/-- A byte that is written holds the value that every write to its address gives it. -/
theorem readByte_writePixels_of_agree {c : CfgRegs} {slot a : Nat} {ws : List PixelWrite} {v : Byte}
    (hex : ∃ w ∈ ws, w.addr c slot = a) (hv : ∀ w ∈ ws, w.addr c slot = a → BitVec.ofInt 8 w.value = v)
    (m : List Host.Cell) : readByte (writePixels c slot ws m) a = v := by
  induction ws generalizing m with
  | nil => simp at hex
  | cons w ws ih =>
    rw [writePixels_cons]
    by_cases hlater : ∃ u ∈ ws, u.addr c slot = a
    · exact ih hlater (fun u hu => hv u (List.mem_cons_of_mem w hu)) _
    · have hw : w.addr c slot = a := ((List.exists_mem_cons_iff _ w ws).1 hex).resolve_right hlater
      rw [readByte_writePixels_other fun u hu hua => hlater ⟨u, hu, hua⟩, ← hv w List.mem_cons_self hw, ← hw]
      exact readByte_writeByte_same _ _ _

/-- The writes of an area: one for each of its points, with the block's value there. -/
theorem mem_areaWrites_iff {p : Plane} {x0 y0 : Int} {n : Nat} {f : Nat → Nat → Int} {w : PixelWrite} :
    w ∈ areaWrites p x0 y0 n f ↔
      (w.at_.plane = p ∧ x0 ≤ w.at_.x ∧ w.at_.x < x0 + (n : Int) ∧ y0 ≤ w.at_.y ∧ w.at_.y < y0 + (n : Int)) ∧
        w.value = f (w.at_.y - y0).toNat (w.at_.x - x0).toNat := by
  constructor
  · intro h
    obtain ⟨r, k, hr, hk, rfl⟩ := mem_areaWrites h
    simp only [add_sub_cancel_left, Int.toNat_natCast, true_and, and_true]
    omega
  · obtain ⟨⟨p', x, y⟩, v⟩ := w
    rintro ⟨⟨hp, hx, hx', hy, hy'⟩, hv⟩
    simp only at hp hx hx' hy hy' hv
    subst hp hv
    have hmem := areaWrites_mem p' x0 y0 f (show (y - y0).toNat < n by omega) (show (x - x0).toNat < n by omega)
    rwa [show x0 + ((x - x0).toNat : Int) = x by omega, show y0 + ((y - y0).toNat : Int) = y by omega] at hmem

/-- Writing the points `P`, each with its value `v`, and no others. -/
theorem pixelsWritten_writePixels {c : CfgRegs} {slot : Nat} {P : Point → Prop} {v : Point → Int}
    {ws : List PixelWrite} (hws : ∀ w, w ∈ ws ↔ P w.at_ ∧ w.value = v w.at_)
    (haddr : ∀ q, P q → 0 ≤ q.addr c slot) (hv : ∀ q, P q → 0 ≤ v q ∧ v q ≤ 255) (m : List Host.Cell) :
    PixelsWritten c slot P v m (writePixels c slot ws m) where
  value q hq hown := by
    have hbyte : readByte (writePixels c slot ws m) (q.addr c slot).toNat = BitVec.ofInt 8 (v q) := by
      refine readByte_writePixels_of_agree ⟨⟨q, v q⟩, (hws _).2 ⟨hq, rfl⟩, rfl⟩ (fun w hw ha => ?_) m
      obtain ⟨hP, hval⟩ := (hws w).1 hw
      have hsame : w.at_.addr c slot = q.addr c slot := by
        rw [← Int.toNat_of_nonneg (haddr _ hP), ← Int.toNat_of_nonneg (haddr _ hq)]
        exact congrArg Int.ofNat ha
      rw [hval, hown _ hP hsame]
    have hrange := hv q hq
    rw [pixelAt, pixel, ← Point.addr, hbyte, BitVec.toNat_ofInt]
    omega
  frame a ha := by
    refine readByte_writePixels_other (fun w hw hwa => ?_) m
    have hP := ((hws w).1 hw).1
    exact ha _ hP (by rw [← hwa, PixelWrite.addr, ← Point.addr, Int.toNat_of_nonneg (haddr _ hP)])

/-- Where only bytes of the pixels `P` may change, a pixel whose byte is none of theirs is unchanged. -/
theorem pixelAt_eq_of_frame {c : CfgRegs} {slot : Nat} {P : Point → Prop} {m m' : List Host.Cell}
    (hframe : ∀ a : Nat, (∀ r, P r → r.addr c slot ≠ (a : Int)) → readByte m' a = readByte m a) {q : Point}
    (hq : 0 ≤ q.addr c slot) (hother : ∀ r, P r → r.addr c slot ≠ q.addr c slot) :
    pixelAt c m' slot q = pixelAt c m slot q := by
  have hbyte := hframe (q.addr c slot).toNat fun r hr => by
    rw [Int.toNat_of_nonneg hq]
    exact hother r hr
  exact congrArg (fun v : Byte => (v.toNat : Int)) hbyte

end Sys2Proof.Machine
end

section
/-! The inverse transforms in numbers (43_transform.md R301, R304, R305, R308): each pass as its butterfly on a row or a
column, the butterfly of the inverse WHT as a sign matrix, and a block with only a DC. -/

namespace Sys2Proof.Machine

theorem asr_three (a : Int) : asr a 3 = a / 8 := rfl

theorem asr_sixteen (a : Int) : asr a 16 = a / 65536 := rfl

/-! ### The inverse WHT (R301) -/

/-- The first pass is vertical: row r of column c is output r of the column's butterfly. -/
theorem iwhtFirst_eq (x : Nat → Int) (r : Nat) {c : Nat} (hc : c < 4) :
    iwhtFirst x (4 * r + c) = whtLine (x c) (x (4 + c)) (x (8 + c)) (x (12 + c)) r := by
  have hdiv : (4 * r + c) / 4 = r := by omega
  have hmod : (4 * r + c) % 4 = c := by omega
  rw [iwhtFirst, hdiv, hmod]

/-- The second pass is horizontal, and rounds. -/
theorem iwht_eq (x : Nat → Int) (r : Nat) {c : Nat} (hc : c < 4) :
    iwht x (4 * r + c) = (whtLine (iwhtFirst x (4 * r)) (iwhtFirst x (4 * r + 1)) (iwhtFirst x (4 * r + 2))
      (iwhtFirst x (4 * r + 3)) c + 3) / 8 := by
  have hdiv : (4 * r + c) / 4 = r := by omega
  have hmod : (4 * r + c) % 4 = c := by omega
  rw [iwht, hdiv, hmod, asr_three]

/-- The sign matrix of the butterfly. -/
def whtSign (r c : Nat) : Int :=
  ((([[1, 1, 1, 1], [1, 1, -1, -1], [1, -1, -1, 1], [1, -1, 1, -1]] : List (List Int))[r]?.getD [])[c]?).getD 0

theorem whtLine_eq_whtSign (x0 x1 x2 x3 : Int) {k : Nat} (hk : k < 4) :
    whtLine x0 x1 x2 x3 k = whtSign k 0 * x0 + whtSign k 1 * x1 + whtSign k 2 * x2 + whtSign k 3 * x3 := by
  interval_cases k <;> simp [whtLine, whtSign] <;> ring

theorem sum_map_range_four (f : Nat → Int) : ((List.range 4).map f).sum = f 0 + f 1 + f 2 + f 3 := by
  simp only [List.sum_range_succ, List.range_zero, List.map_nil, List.sum_nil, zero_add]

/-- Settles O39: both passes multiply by the sign matrix (`whtLine_eq_whtSign`), and the products are summed in one order. -/
theorem iwhtHadamard : Obligations.IwhtHadamard := by
  unfold Obligations.IwhtHadamard
  intro h x r c hr hc
  have hh (i j : Nat) : h i j = whtSign i j := rfl
  have hfirst {j : Nat} (hj : j < 4) : iwhtFirst x (4 * r + j) =
      whtSign r 0 * x j + whtSign r 1 * x (4 + j) + whtSign r 2 * x (8 + j) + whtSign r 3 * x (12 + j) := by
    rw [iwhtFirst_eq x r hj, whtLine_eq_whtSign _ _ _ _ hr]
  have hfirst0 : iwhtFirst x (4 * r) = _ := hfirst (j := 0) (by decide)
  rw [iwht_eq x r hc, whtLine_eq_whtSign _ _ _ _ hc, hfirst hc, hfirst0, hfirst (show 1 < 4 by decide),
    hfirst (show 2 < 4 by decide), hfirst (show 3 < 4 by decide)]
  simp only [hh, sum_map_range_four, Nat.mul_zero, Nat.zero_add, Nat.mul_one, Nat.reduceMul, true_and]
  congr 2
  ring

/-! ### The inverse DCT (R305) -/

theorem idctFirst_eq (x : Nat → Int) (r : Nat) {c : Nat} (hc : c < 4) :
    idctFirst x (4 * r + c) = dctLine (x c) (x (4 + c)) (x (8 + c)) (x (12 + c)) r := by
  have hdiv : (4 * r + c) / 4 = r := by omega
  have hmod : (4 * r + c) % 4 = c := by omega
  rw [idctFirst, hdiv, hmod]

theorem idct_eq (x : Nat → Int) (r : Nat) {c : Nat} (hc : c < 4) :
    idct x (4 * r + c) = (dctLine (idctFirst x (4 * r)) (idctFirst x (4 * r + 1)) (idctFirst x (4 * r + 2))
      (idctFirst x (4 * r + 3)) c + 4) / 8 := by
  have hdiv : (4 * r + c) / 4 = r := by omega
  have hmod : (4 * r + c) % 4 = c := by omega
  rw [idct, hdiv, hmod, asr_three]

/-- The butterfly's outputs as the list of R305. -/
theorem dctLine_eq_getD (x0 x1 x2 x3 : Int) {k : Nat} (hk : k < 4) :
    dctLine x0 x1 x2 x3 k =
      (([x0 + x2 + (mulC x1 + mulS x3), x0 - x2 + (mulS x1 - mulC x3), x0 - x2 - (mulS x1 - mulC x3),
        x0 + x2 - (mulC x1 + mulS x3)] : List Int)[k]?).getD 0 := by
  interval_cases k <;> rfl

/-! ### A block with only a DC (R304, R308) -/

@[simp] theorem whtLine_dc (x : Int) (k : Nat) : whtLine x 0 0 0 k = x := by
  simp [whtLine]

@[simp] theorem dctLine_dc (x : Int) (k : Nat) : dctLine x 0 0 0 k = x := by
  simp [dctLine, mulC, mulS, asr]

section
variable {x : Nat → Int} (hdc : ∀ k, 0 < k → k < 16 → x k = 0)
include hdc

/-- The top row of a DC-only block, which is all that its columns' butterflies see. -/
theorem topRow_dc (k : Nat) : x (k % 4) = if k % 4 = 0 then x 0 else 0 := by
  split
  · rename_i hk
    rw [hk]
  · exact hdc _ (by omega) (by omega)

theorem iwhtFirst_dc (k : Nat) : iwhtFirst x k = if k % 4 = 0 then x 0 else 0 := by
  rw [iwhtFirst, hdc (4 + k % 4) (by omega) (by omega), hdc (8 + k % 4) (by omega) (by omega),
    hdc (12 + k % 4) (by omega) (by omega), whtLine_dc, topRow_dc hdc]

theorem iwht_dc (k : Nat) : iwht x k = (x 0 + 3) / 8 := by
  simp [iwht, iwhtFirst_dc hdc, asr_three]

theorem idctFirst_dc (k : Nat) : idctFirst x k = if k % 4 = 0 then x 0 else 0 := by
  rw [idctFirst, hdc (4 + k % 4) (by omega) (by omega), hdc (8 + k % 4) (by omega) (by omega),
    hdc (12 + k % 4) (by omega) (by omega), dctLine_dc, topRow_dc hdc]

theorem idct_dc (k : Nat) : idct x k = (x 0 + 4) / 8 := by
  simp [idct, idctFirst_dc hdc, asr_three]

end

end Sys2Proof.Machine
end

section
/-! The commands of the transforms (43_transform.md R302, R303, R306 to R310): what the DQ entries a command reads are, the DCs
that IWHT writes, the pixels of one block with its residual added, and the blocks of a macroblock added one after another. -/

namespace Sys2Proof.Machine

/-! ### The block a command reads, and WIDE16 (R65, R303, R307) -/

theorem dqWritten_iff {r : Rams} {b : Nat} :
    dqWritten r b = true ↔ ∀ i, i < 16 → (Cells.get r.dq (16 * b + i)).isSome = true := by
  simp only [dqWritten, dqAt, List.all_eq_true, List.mem_range, Option.isSome_map]

theorem not_dqWritten_of_none {r : Rams} {b i : Nat} (hi : i < 16) (h : Cells.get r.dq (16 * b + i) = none) :
    ¬dqWritten r b = true := fun hd => by
  simpa [h] using dqWritten_iff.1 hd i hi

theorem dqBlock_eq (r : Rams) (b : Nat) : dqBlock r b = fun i => ((Cells.get r.dq (16 * b + i)).getD 0).toInt := by
  funext i
  rw [dqBlock, dqAt]
  cases Cells.get r.dq (16 * b + i) <;> rfl

theorem anyWide_blockList_iff {x : Nat → Int} :
    anyWide (blockList x) = true ↔ ∃ k, k < 16 ∧ (x k < -32768 ∨ 32767 < x k) := by
  simp only [anyWide, blockList, List.any_map, List.any_eq_true, List.mem_range, Function.comp_apply, wide_iff]

theorem iwhtWide_iff {x : Nat → Int} : iwhtWide x = true ↔ ∃ k, k < 16 ∧
    (iwhtFirst x k < -32768 ∨ 32767 < iwhtFirst x k ∨ iwht x k < -32768 ∨ 32767 < iwht x k) := by
  simp only [iwhtWide, Bool.or_eq_true, anyWide_blockList_iff, ← exists_or, ← and_or_left, or_assoc]

theorem idctWide_iff {x : Nat → Int} : idctWide x = true ↔
    ∃ k, k < 16 ∧ ∃ v ∈ [x k, idctFirst x k, idct x k], v < -32768 ∨ 32767 < v := by
  simp only [idctWide, Bool.or_eq_true, anyWide_blockList_iff, ← exists_or, ← and_or_left, List.exists_mem_cons_iff,
    List.not_mem_nil, false_and, exists_false, or_false, or_assoc]

/-! ### IWHT (R302, R303) -/

/-- The first n DCs written in rising order: each holds its own value. -/
theorem get_writeDcs_range (d : Cells (BitVec 32)) (v : Nat → BitVec 32) {n b : Nat} (hb : b < n) :
    Cells.get ((List.range n).foldl (fun q b => Cells.set q (16 * b) (v b)) d) (16 * b) = some (v b) := by
  induction n with
  | zero => omega
  | succ n ih =>
    rw [List.range_succ, List.foldl_append, List.foldl_cons, List.foldl_nil]
    by_cases heq : b = n
    · rw [heq, Cells.get_set_same]
    · rw [Cells.get_set_other _ _ (by omega), ih (by omega)]

theorem writeDcs_get (d : Cells (BitVec 32)) (out : Nat → Int) {b : Nat} (hb : b < 16) :
    Cells.get (writeDcs d out) (16 * b) = some (BitVec.ofInt 32 (out b)) :=
  get_writeDcs_range d (fun b => BitVec.ofInt 32 (out b)) hb

theorem writeDcs_get_other (d : Cells (BitVec 32)) (out : Nat → Int) {j : Nat} (hj : ∀ b, b < 16 → j ≠ 16 * b) :
    Cells.get (writeDcs d out) j = Cells.get d j := by
  refine List.foldlRecOn (motive := fun q => Cells.get q j = Cells.get d j) _ _ rfl fun q hq b hb => ?_
  rw [Cells.get_set_other _ _ (hj b (List.mem_range.1 hb)).symm, hq]

theorem State.setDq_orWide_eq (s : State) (d : Cells (BitVec 32)) (w : Bool) :
    (s.setDq d).orWide w = { s with wide16 := s.wide16 || w, ram := { s.ram with dq := d } } := rfl

theorem exec_iwht_complete {s : State} (h : dqWritten s.ram 24 = true) :
    exec .iwht s = .next { s with
      wide16 := s.wide16 || iwhtWide (dqBlock s.ram 24)
      ram := { s.ram with dq := writeDcs s.ram.dq (iwht (dqBlock s.ram 24)) } } := by
  rw [exec, execIwht, if_pos h]
  exact congrArg Host.Outcome.next (State.setDq_orWide_eq _ _ _)

theorem exec_iwht_uninit {s : State} (h : ¬dqWritten s.ram 24 = true) : exec .iwht s = .fault .uninit := by
  rw [exec, execIwht, if_neg h]

/-- Settles O38: IWHT writes the 16 DCs (`writeDcs_get`, `writeDcs_get_other`), and WIDE16 is `iwhtWide`. -/
theorem iwhtRule : Obligations.IwhtRule := by
  unfold Obligations.IwhtRule
  intro s
  refine ⟨fun hwritten => ?complete, fun i hi hnone => exec_iwht_uninit (not_dqWritten_of_none hi hnone)⟩
  intro x
  have hx : dqBlock s.ram 24 = x := dqBlock_eq s.ram 24
  have hexec := exec_iwht_complete (dqWritten_iff.2 hwritten)
  have hdc (b : Nat) (hb : b < 16) := writeDcs_get s.ram.dq (iwht x) hb
  have hother (j : Nat) (hj : ∀ b, b < 16 → j ≠ 16 * b) := writeDcs_get_other s.ram.dq (iwht x) hj
  rw [hx] at hexec
  generalize writeDcs s.ram.dq (iwht x) = d at hexec hdc hother
  exact ⟨_, hexec, rfl, hdc, hother, by rw [Bool.or_eq_true, iwhtWide_iff]⟩

/-! ### The pixels of a block (R306; 20_memory.md R107, R108) -/

theorem InBlock.inMb {c : CfgRegs} {b : Nat} {q : Point} (h : InBlock c b q) : InMb c q := by
  obtain ⟨hp, hx, hx', hy, hy'⟩ := h
  have hcol := blockX_in_mb c b
  have hrow := blockY_in_mb c b
  rw [InMb, hp]
  omega

/-- The number of the block of the current macroblock that holds a point. -/
def blockAt (c : CfgRegs) (q : Point) : Int :=
  let col := (q.x - mbX c q.plane) / 4
  let row := (q.y - mbY c q.plane) / 4
  match q.plane with
  | .y => 4 * row + col
  | .u => 16 + 2 * row + col
  | .v => 20 + 2 * row + col

theorem InBlock.blockAt_eq {c : CfgRegs} {b : Nat} (hb : b ≤ 23) {q : Point} (h : InBlock c b q) :
    blockAt c q = (b : Int) := by
  obtain ⟨p, x, y⟩ := q
  obtain ⟨hp, hx, hx', hy, hy'⟩ := h
  simp only at hp hx hx' hy hy'
  subst hp
  simp only [blockX, blockY, blockPlane] at hx hx' hy hy'
  unfold blockAt blockPlane
  by_cases hluma : b < 16
  · simp only [hluma, if_true] at hx hx' hy hy' ⊢
    omega
  · by_cases hu : b < 20 <;> simp only [hluma, hu, if_true, if_false] at hx hx' hy hy' ⊢ <;> omega

/-- A point lies in one block only. -/
theorem InBlock.unique {c : CfgRegs} {b b' : Nat} (hb : b ≤ 23) (hb' : b' ≤ 23) {q : Point} (h : InBlock c b q)
    (h' : InBlock c b' q) : b = b' := by
  exact_mod_cast (h.blockAt_eq hb).symm.trans (h'.blockAt_eq hb')

section
variable {c : CfgRegs} (hp : posOk c = true) (hv : VisibleInMemory c c.cur)
include hp hv

/-- At a legal position of a slot in memory every pixel of a block has an address. -/
theorem InBlock.addr_nonneg {b : Nat} {q : Point} (h : InBlock c b q) : 0 ≤ q.addr c c.cur :=
  (hv q (h.inMb.visible hp)).1

theorem pointsOk_blockPoints (b : Nat) : pointsOk c c.cur (blockPoints c b) = true :=
  pointsOk_iff.2 fun q hq => pixelOk_iff.2 (hv q ((inMb_of_mem_blockPoints hq).visible hp))

end

theorem mem_addResidual_iff {c : CfgRegs} {m : List Host.Cell} {b : Nat} {res : Nat → Int} {w : PixelWrite} :
    w ∈ addResidual c m b res ↔ InBlock c b w.at_ ∧
      w.value = max 0 (min 255 (pixelAt c m c.cur w.at_ + res (blockIndex c b w.at_))) := by
  obtain ⟨⟨p, x, y⟩, v⟩ := w
  rw [addResidual, mem_areaWrites_iff]
  refine and_congr_right fun h => ?_
  obtain ⟨hp, hx, hx', hy, hy'⟩ := h
  simp only at hp hx hx' hy hy'
  subst hp
  have hidx : 4 * (y - blockY c b).toNat + (x - blockX c b).toNat = blockIndex c b ⟨blockPlane b, x, y⟩ := by
    simp only [blockIndex]
    omega
  rw [clamp255, clamp_eq_max_min (by decide)]
  simp only [pixelAt, hidx]
  rw [show blockX c b + ((x - blockX c b).toNat : Int) = x by omega,
    show blockY c b + ((y - blockY c b).toNat : Int) = y by omega]

theorem State.setMem_orWide_eq (s : State) (m : List Host.Cell) (w : Bool) :
    (s.setMem m).orWide w = { s with mem := m, wide16 := s.wide16 || w } := rfl

/-- The memory after one block's residual is added (R306). -/
theorem addBlock_pixelsWritten {s : State} (hp : posOk s.cfg = true) (hv : VisibleInMemory s.cfg s.cfg.cur) (b : Nat) :
    PixelsWritten s.cfg s.cfg.cur (InBlock s.cfg b)
      (fun q => max 0 (min 255 (pixelAt s.cfg s.mem s.cfg.cur q + idct (dqBlock s.ram b) (blockIndex s.cfg b q))))
      s.mem (addBlock b s).mem := by
  rw [addBlock_mem]
  exact pixelsWritten_writePixels (fun w => mem_addResidual_iff) (fun q hq => hq.addr_nonneg hp hv)
    (fun q _ => by omega) s.mem

/-! ### IDCT_ADD (R306 to R308) -/

theorem exec_idctAdd_badParam {b : Nat} (hb : 23 < b) (s : State) :
    exec (.idctAdd b) s = .next (errorEntry .badParam (Instr.idctAdd b).word s) := if_pos hb

theorem exec_idctAdd_posOob {b : Nat} (hb : b ≤ 23) {s : State} (hp : posOk s.cfg = false) :
    exec (.idctAdd b) s = .next (errorEntry .posOob (Instr.idctAdd b).word s) := by
  rw [exec, execIdctAdd, if_neg (by omega), if_pos (by simp [hp]), raise]

/-- With both checks passed, IDCT_ADD adds its block. -/
theorem exec_idctAdd_legal {b : Nat} (hb : b ≤ 23) {s : State} (hp : posOk s.cfg = true) :
    exec (.idctAdd b) s = addBlocks [b] s := by
  rw [exec, execIdctAdd, if_neg (by omega), if_neg (by simp [hp])]

theorem exec_idctAdd_uninit {b : Nat} (hb : b ≤ 23) {s : State} (hp : posOk s.cfg = true)
    (hd : ¬dqWritten s.ram b = true) : exec (.idctAdd b) s = .fault .uninit := by
  rw [exec_idctAdd_legal hb hp, addBlocks, if_pos hd]

theorem exec_idctAdd_complete {b : Nat} (hb : b ≤ 23) {s : State} (hp : posOk s.cfg = true)
    (hv : VisibleInMemory s.cfg s.cfg.cur) (hd : dqWritten s.ram b = true) :
    exec (.idctAdd b) s =
      .next { s with mem := (addBlock b s).mem, wide16 := s.wide16 || idctWide (dqBlock s.ram b) } := by
  rw [exec_idctAdd_legal hb hp, ← State.setMem_orWide_eq, ← addBlock_frame]
  exact addBlocks_complete (by simpa using hd) (by simpa using pointsOk_blockPoints hp hv b)

/-- Settles O41: the numbers are `dctLine`'s, and the one block IDCT_ADD adds is `addBlock_pixelsWritten`. -/
theorem idctAddRule : Obligations.IdctAddRule := by
  unfold Obligations.IdctAddRule
  refine ⟨?numbers, fun s b => ⟨fun hb => exec_idctAdd_badParam hb s, fun hb hp => exec_idctAdd_posOob hb hp,
    fun hb hp ⟨i, hi, hnone⟩ => exec_idctAdd_uninit hb hp (not_dqWritten_of_none hi hnone),
    fun hb hp hv hwritten => ?complete⟩⟩
  case numbers =>
    intro x r c hr hc mC mS line t
    have hline (x0 x1 x2 x3 : Int) {k : Nat} (hk : k < 4) : dctLine x0 x1 x2 x3 k = line x0 x1 x2 x3 k :=
      dctLine_eq_getD x0 x1 x2 x3 hk
    have hfirst {j : Nat} (hj : j < 4) : idctFirst x (4 * r + j) = t r j := by
      rw [idctFirst_eq x r hj, hline _ _ _ _ hr]
    have hfirst0 : idctFirst x (4 * r) = t r 0 := hfirst (j := 0) (by decide)
    refine ⟨hfirst hc, ?_⟩
    rw [idct_eq x r hc, hline _ _ _ _ hc, hfirst0, hfirst (show 1 < 4 by decide), hfirst (show 2 < 4 by decide),
      hfirst (show 3 < 4 by decide)]
  case complete =>
    intro x
    have hx : dqBlock s.ram b = x := dqBlock_eq s.ram b
    have hexec := exec_idctAdd_complete hb hp hv (dqWritten_iff.2 hwritten)
    have hpixels := addBlock_pixelsWritten hp hv b
    rw [hx] at hexec hpixels
    exact ⟨_, _, hexec, hpixels, by rw [Bool.or_eq_true, idctWide_iff]⟩

/-! ### A block with only a DC, and an all-zero block (R304, R308) -/

/-- An all-zero block writes to each of its pixels the byte that is there. -/
theorem addBlock_zero_mem {s : State} {b : Nat} (hzero : ∀ k, idct (dqBlock s.ram b) k = 0) (a : Nat) :
    readByte (addBlock b s).mem a = readByte s.mem a := by
  rw [addBlock_mem]
  by_cases hex : ∃ w ∈ addResidual s.cfg s.mem b (idct (dqBlock s.ram b)), w.addr s.cfg s.cfg.cur = a
  · refine readByte_writePixels_of_agree hex (fun w hw ha => ?_) s.mem
    have hbyte : pixelAt s.cfg s.mem s.cfg.cur w.at_ = ((readByte s.mem a).toNat : Int) := by
      rw [← ha]
      rfl
    have hlt := (readByte s.mem a).isLt
    rw [(mem_addResidual_iff.1 hw).2, hzero, hbyte,
      show max 0 (min 255 (((readByte s.mem a).toNat : Int) + 0)) = ((readByte s.mem a).toNat : Int) by omega,
      BitVec.ofInt_natCast, BitVec.ofNat_toNat, BitVec.setWidth_eq]
  · exact readByte_writePixels_other (fun w hw ha => hex ⟨w, hw, ha⟩) s.mem

/-- Settles O40: a DC-only block's columns see only the top row (`iwht_dc`, `idct_dc`), and an all-zero block adds 0. -/
theorem dcOnly : Obligations.DcOnly := by
  unfold Obligations.DcOnly
  refine ⟨fun x hdc k _ => ⟨iwht_dc hdc k, idct_dc hdc k⟩, fun s b hb hp hv hzero => ?_⟩
  have hblock (i : Nat) (hi : i < 16) : dqBlock s.ram b i = 0 := by
    simp [dqBlock_eq, hzero i hi]
  have hdc (k : Nat) (_ : 0 < k) (hk : k < 16) := hblock k hk
  have hfirst (k : Nat) : idctFirst (dqBlock s.ram b) k = 0 := by
    rw [idctFirst_dc hdc, hblock 0 (by decide), ite_self]
  have hidct (k : Nat) : idct (dqBlock s.ram b) k = 0 := by
    rw [idct_dc hdc, hblock 0 (by decide)]
    rfl
  have hwide : idctWide (dqBlock s.ram b) = false := by
    rw [← Bool.not_eq_true, idctWide_iff]
    rintro ⟨k, hk, v, hmem, hrange⟩
    simp only [hblock k hk, hfirst, hidct, List.mem_cons, List.not_mem_nil, or_false, or_self] at hmem
    omega
  have hexec := exec_idctAdd_complete hb hp hv (dqWritten_iff.2 fun i hi => by simp [hzero i hi])
  rw [hwide, Bool.or_false] at hexec
  exact ⟨_, hexec, addBlock_zero_mem hidct⟩

/-! ### RECON_MB (R310) -/

theorem reconBlocks_le {u : Bool} {b : Nat} (h : b ∈ reconBlocks u) : b ≤ 23 := by
  cases u
  · exact Nat.le_of_lt_succ (List.mem_range.1 h)
  · obtain ⟨k, hk, rfl⟩ := List.mem_map.1 h
    have := List.mem_range.1 hk
    omega

theorem reconBlocks_nodup (u : Bool) : (reconBlocks u).Nodup := by
  cases u <;> decide

theorem exec_reconMb_posOob {s : State} (hp : posOk s.cfg = false) (u : Bool) :
    exec (.reconMb u) s = .next (errorEntry .posOob (Instr.reconMb u).word s) := by
  rw [exec, execReconMb, if_pos (by simp [hp]), raise]

theorem exec_reconMb_legal {s : State} (hp : posOk s.cfg = true) (u : Bool) :
    exec (.reconMb u) s = addBlocks (reconBlocks u) s := by
  rw [exec, execReconMb, if_neg (by simp [hp])]

/-- At a legal position the IDCT_ADD commands of a list of blocks are that list of blocks added. -/
theorem execAll_idctAdd {bs : List Nat} (hbs : ∀ b ∈ bs, b ≤ 23) {s : State} (hp : posOk s.cfg = true) :
    execAll (bs.map Instr.idctAdd) s = addBlocks bs s := by
  induction bs generalizing s with
  | nil => rfl
  | cons b bs ih =>
    have ih' := ih (fun k hk => hbs k (List.mem_cons_of_mem b hk)) (s := addBlock b s) (by rwa [addBlock_cfg])
    rw [List.map_cons, execAll, exec_idctAdd_legal (hbs b List.mem_cons_self) hp]
    simp only [addBlocks]
    split_ifs
    · exact ih'
    all_goals rfl

/-- Memory `m'` is `m` with the residuals `res b` of the blocks `bs` added: each pixel with a byte of its own among the
blocks' pixels is the clamped sum, and every other byte is unchanged. -/
structure ResidualsAdded (c : CfgRegs) (res : Nat → Nat → Int) (bs : List Nat) (m m' : List Host.Cell) : Prop where
  value : ∀ b ∈ bs, ∀ q, InBlock c b q → OwnByte c c.cur (fun r => ∃ b' ∈ bs, InBlock c b' r) q →
    pixelAt c m' c.cur q = max 0 (min 255 (pixelAt c m c.cur q + res b (blockIndex c b q)))
  frame : ∀ a : Nat, (∀ q, (∃ b ∈ bs, InBlock c b q) → q.addr c c.cur ≠ (a : Int)) → readByte m' a = readByte m a

/-- A pixel with a byte of its own shares its address with no pixel of another block. -/
theorem OwnByte.addr_ne {c : CfgRegs} {bs : List Nat} (hbs : ∀ b ∈ bs, b ≤ 23) {q r : Point} {b b' : Nat} (hb : b ∈ bs)
    (hb' : b' ∈ bs) (hne : b ≠ b') (hq : InBlock c b q) (hr : InBlock c b' r)
    (hown : OwnByte c c.cur (fun r => ∃ b' ∈ bs, InBlock c b' r) q) : r.addr c c.cur ≠ q.addr c c.cur := fun haddr => by
  obtain rfl := hown r ⟨b', hb', hr⟩ haddr
  exact hne (hq.unique (hbs b hb) (hbs b' hb') hr)

theorem foldl_addBlock_residualsAdded {bs : List Nat} (hbs : ∀ b ∈ bs, b ≤ 23) (hnodup : bs.Nodup) {s : State}
    (hp : posOk s.cfg = true) (hv : VisibleInMemory s.cfg s.cfg.cur) :
    ResidualsAdded s.cfg (fun b => idct (dqBlock s.ram b)) bs s.mem (bs.foldl (fun t b => addBlock b t) s).mem := by
  induction bs generalizing s with
  | nil => exact ⟨fun b hb => absurd hb List.not_mem_nil, fun a _ => rfl⟩
  | cons b0 bs ih =>
    obtain ⟨hnew, hnodup⟩ := List.nodup_cons.1 hnodup
    have hfirst := addBlock_pixelsWritten hp hv b0
    have hrest := ih (fun b hb => hbs b (List.mem_cons_of_mem b0 hb)) hnodup (s := addBlock b0 s)
      (by rwa [addBlock_cfg]) (by rwa [addBlock_cfg])
    rw [addBlock_cfg, addBlock_ram] at hrest
    rw [List.foldl_cons]
    refine ⟨fun b hb q hq hown => ?value, fun a ha => ?frame⟩
    case frame =>
      rw [hrest.frame a fun q ⟨b, hb, hq⟩ => ha q ⟨b, List.mem_cons_of_mem b0 hb, hq⟩,
        hfirst.frame a fun q hq => ha q ⟨b0, List.mem_cons_self, hq⟩]
    case value =>
      have hother {b' : Nat} (hb' : b' ∈ b0 :: bs) (hne : b ≠ b') (r : Point) (hr : InBlock s.cfg b' r) :=
        hown.addr_ne hbs hb hb' hne hq hr
      rcases List.mem_cons.1 hb with rfl | hb
      · rw [pixelAt_eq_of_frame hrest.frame (hq.addr_nonneg hp hv) fun r ⟨b', hb', hr⟩ =>
          hother (List.mem_cons_of_mem b hb') (fun heq => hnew (heq ▸ hb')) r hr]
        exact hfirst.value q hq fun r hr => hown r ⟨b, List.mem_cons_self, hr⟩
      · rw [hrest.value b hb q hq fun r ⟨b', hb', hr⟩ => hown r ⟨b', List.mem_cons_of_mem b0 hb', hr⟩,
          pixelAt_eq_of_frame hfirst.frame (hq.addr_nonneg hp hv)
            (hother List.mem_cons_self fun heq => hnew (heq ▸ hb))]

/-- Settles O42: RECON_MB and the IDCT_ADD commands are one list of blocks added (`execAll_idctAdd`), and a pixel with a byte
of its own is written by its own block only (`foldl_addBlock_residualsAdded`). -/
theorem reconMbRule : Obligations.ReconMbRule := by
  unfold Obligations.ReconMbRule
  intro s u blocks
  refine ⟨fun hp => exec_reconMb_posOob hp u, fun hp => ?sequence, fun hp hv hwritten => ?complete⟩
  case sequence => exact (exec_reconMb_legal hp u).trans (execAll_idctAdd (fun b hb => reconBlocks_le hb) hp).symm
  case complete =>
    have hexec : exec (.reconMb u) s = .next ((reconBlocks u).foldl (fun t b => addBlock b t) s) := by
      rw [exec_reconMb_legal hp]
      exact addBlocks_complete (fun b hb => dqWritten_iff.2 (hwritten b hb)) fun b _ => pointsOk_blockPoints hp hv b
    have hadded := foldl_addBlock_residualsAdded (fun b hb => reconBlocks_le hb) (reconBlocks_nodup u) hp hv
    obtain ⟨⟨w, hw⟩, -⟩ := addBlocks_next ((exec_reconMb_legal hp u).symm.trans hexec)
    generalize (reconBlocks u).foldl (fun t b => addBlock b t) s = t at hexec hadded hw
    rw [hw, State.setMem_orWide_eq] at hexec
    simp only [dqBlock_eq] at hadded
    exact ⟨_, _, hexec, hadded.value, hadded.frame⟩

end Sys2Proof.Machine
end

section
/-! The samples around a predicted area (44_intra.md R331, R332, R346): at a legal position each lies in the visible region of
its plane, so equal visible pixels make equal samples. -/

namespace Sys2Proof.Machine

/-! ### Memories with the same visible pixels -/

/-- Two memories hold the same visible pixels of slot CUR. -/
def SameVisible (c : CfgRegs) (m m' : List Host.Cell) : Prop :=
  ∀ q, Visible c q → pixelAt c m c.cur q = pixelAt c m' c.cur q

theorem pixelAt_eq_iff {c : CfgRegs} {slot : Nat} {m m' : List Host.Cell} {q : Point} :
    pixelAt c m slot q = pixelAt c m' slot q ↔
      readByte m (q.addr c slot).toNat = readByte m' (q.addr c slot).toNat := by
  rw [pixelAt, pixelAt, pixel, pixel, Int.natCast_inj, BitVec.toNat_inj, Point.addr]

/-- One list of writes makes two memories agree wherever they agreed before. -/
theorem readByte_writePixels_congr {c : CfgRegs} {slot a : Nat} (ws : List PixelWrite) {m m' : List Host.Cell}
    (h : readByte m a = readByte m' a) :
    readByte (writePixels c slot ws m) a = readByte (writePixels c slot ws m') a := by
  induction ws generalizing m m' with
  | nil => exact h
  | cons w ws ih =>
    refine ih ?_
    by_cases ha : w.addr c slot = a
    · rw [← ha]
      exact (readByte_writeByte_same _ _ _).trans (readByte_writeByte_same _ _ _).symm
    · exact (readByte_writeByte_other m _ ha).trans (h.trans (readByte_writeByte_other m' _ ha).symm)

theorem SameVisible.writePixels {c : CfgRegs} {m m' : List Host.Cell} (h : SameVisible c m m') (ws : List PixelWrite) :
    SameVisible c (writePixels c c.cur ws m) (writePixels c c.cur ws m') := fun q hq =>
  pixelAt_eq_iff.2 (readByte_writePixels_congr ws (pixelAt_eq_iff.1 (h q hq)))

/-! ### The samples and the pixels they read (R331, R335, R346) -/

/-- Numbers read as integers one by one. -/
theorem range_bind_natCast (n : Nat) :
    (List.range n >>= fun k => pure (k : Int) : List Int) = (List.range n).map Nat.cast := by
  simp only [List.bind_eq_flatMap, List.pure_def, List.map_eq_flatMap]

theorem mbSamples_eq (c : CfgRegs) (m : List Host.Cell) (p : Plane) : mbSamples c m p =
    { above := (List.range (mbSize p)).map fun k : Nat => edge c m p (mbX c p + (k : Int)) (mbY c p - 1)
      left := (List.range (mbSize p)).map fun k : Nat => edge c m p (mbX c p - 1) (mbY c p + (k : Int))
      corner := edge c m p (mbX c p - 1) (mbY c p - 1) } := by
  simp only [mbSamples, range_bind_natCast, List.map_map, Function.comp_def]

theorem subSamples_eq (c : CfgRegs) (m : List Host.Cell) (b : Nat) : subSamples c m b =
    { above := (List.range 8).map fun k => edge c m .y (subAbovePlace c b k).1 (subAbovePlace c b k).2
      left := (List.range 4).map fun k : Nat => edge c m .y (blockX c b - 1) (blockY c b + (k : Int))
      corner := edge c m .y (blockX c b - 1) (blockY c b - 1) } := by
  simp only [subSamples, range_bind_natCast, List.map_map, Function.comp_def]

theorem mem_abovePoints {c : CfgRegs} {p : Plane} {q : Point} : q ∈ abovePoints c p ↔
    ∃ k : Nat, k < mbSize p ∧ q ∈ edgePoints c p (mbX c p + (k : Int)) (mbY c p - 1) := by
  simp only [abovePoints, range_bind_natCast, List.flatMap_map, List.mem_flatMap, List.mem_range]

theorem mem_leftPoints {c : CfgRegs} {p : Plane} {q : Point} : q ∈ leftPoints c p ↔
    ∃ k : Nat, k < mbSize p ∧ q ∈ edgePoints c p (mbX c p - 1) (mbY c p + (k : Int)) := by
  simp only [leftPoints, range_bind_natCast, List.flatMap_map, List.mem_flatMap, List.mem_range]

theorem mem_subReads {c : CfgRegs} {b : Nat} {q : Point} : q ∈ subReads c b ↔
    (∃ k, k < 8 ∧ q ∈ edgePoints c .y (subAbovePlace c b k).1 (subAbovePlace c b k).2) ∨
    (∃ k : Nat, k < 4 ∧ q ∈ edgePoints c .y (blockX c b - 1) (blockY c b + (k : Int))) ∨
    q ∈ edgePoints c .y (blockX c b - 1) (blockY c b - 1) := by
  simp only [subReads, range_bind_natCast, List.flatMap_map, List.mem_append, List.mem_flatMap, List.mem_range, or_assoc]

/-- A sample depends on the pixels of `edgePoints` only. -/
theorem edge_congr {c : CfgRegs} {m m' : List Host.Cell} {p : Plane} {x y : Int}
    (h : ∀ q ∈ edgePoints c p x y, pixelAt c m c.cur q = pixelAt c m' c.cur q) :
    edge c m p x y = edge c m' p x y := by
  by_cases hy : y < 0
  · rw [edge, edge, if_pos hy, if_pos hy]
  by_cases hx : x < 0
  · rw [edge, edge, if_neg hy, if_neg hy, if_pos hx, if_pos hx]
  rw [edgePoints, if_neg (by omega)] at h
  have hpixel := h _ List.mem_cons_self
  rw [edge, edge, if_neg hy, if_neg hy, if_neg hx, if_neg hx]
  by_cases hw : planeW c p ≤ x
  · rw [if_pos hw] at hpixel
    rw [if_pos hw, if_pos hw]
    exact hpixel
  · rw [if_neg hw] at hpixel
    rw [if_neg hw, if_neg hw]
    exact hpixel

theorem visible_of_mem_edgePoints {c : CfgRegs} {p : Plane} {x y : Int} (hw : 0 < planeW c p) (hy : y < planeH c p)
    {q : Point} (hq : q ∈ edgePoints c p x y) : Visible c q := by
  unfold edgePoints at hq
  split at hq
  · exact absurd hq List.not_mem_nil
  · obtain rfl := List.mem_singleton.1 hq
    simp only [Visible]
    split <;> omega

/-- The four rows of a luma block are rows of the macroblock. -/
theorem luma_block_row_le (c : CfgRegs) {b : Nat} (hb : b ≤ 15) : blockY c b + 4 ≤ mbY c .y + (mbSize .y : Int) := by
  have hrow := (blockY_in_mb c b).2
  rwa [blockPlane, if_pos (by omega)] at hrow

/-- The samples above a luma block lie above the macroblock's last row. -/
theorem subAbovePlace_row_lt (c : CfgRegs) {b : Nat} (hb : b ≤ 15) (k : Nat) :
    (subAbovePlace c b k).2 < mbY c .y + (mbSize .y : Int) := by
  have hrow := luma_block_row_le c hb
  unfold subAbovePlace
  split_ifs <;> simp only <;> omega

section
variable {c : CfgRegs} (hp : posOk c = true)
include hp

theorem planeW_pos (p : Plane) : 0 < planeW c p := by
  have hleft := mbX_nonneg c p
  have hright := mbX_add_size_le hp p
  have hsize := eight_le_mbSize p
  omega

/-- The pixels read for a sample left of a row of the macroblock, or above it. -/
theorem visible_of_mem_edgePoints_mb {p : Plane} {x y : Int} (hy : y < mbY c p + (mbSize p : Int)) {q : Point}
    (hq : q ∈ edgePoints c p x y) : Visible c q :=
  visible_of_mem_edgePoints (planeW_pos hp p) (hy.trans_le (mbY_add_size_le hp p)) hq

theorem SameVisible.edge_congr {m m' : List Host.Cell} (h : SameVisible c m m') {p : Plane} {x y : Int}
    (hy : y < mbY c p + (mbSize p : Int)) : edge c m p x y = edge c m' p x y :=
  Machine.edge_congr fun q hq => h q (visible_of_mem_edgePoints_mb hp hy hq)

/-! ### The samples of the macroblock's areas (R335 to R338) -/

theorem visible_of_mem_wholeReads {md : IntraMode} {p : Plane} {q : Point} (hq : q ∈ wholeReads c md p) :
    Visible c q := by
  have habove (h : q ∈ abovePoints c p) : Visible c q := by
    obtain ⟨k, -, h⟩ := mem_abovePoints.1 h
    exact visible_of_mem_edgePoints_mb hp (by omega) h
  have hleft (h : q ∈ leftPoints c p) : Visible c q := by
    obtain ⟨k, hk, h⟩ := mem_leftPoints.1 h
    exact visible_of_mem_edgePoints_mb hp (by omega) h
  cases md with
  | dc =>
    simp only [wholeReads, List.mem_append, List.mem_ite_nil_right] at hq
    exact hq.elim (fun h => habove h.2) fun h => hleft h.2
  | v => exact habove hq
  | h => exact hleft hq
  | tm =>
    simp only [wholeReads, List.mem_append] at hq
    rcases hq with (hq | hq) | hq
    · exact habove hq
    · exact hleft hq
    · exact visible_of_mem_edgePoints_mb hp (by omega) hq

theorem SameVisible.mbSamples_congr {m m' : List Host.Cell} (h : SameVisible c m m') (p : Plane) :
    mbSamples c m p = mbSamples c m' p := by
  rw [mbSamples_eq, mbSamples_eq, Samples.mk.injEq]
  refine ⟨List.map_congr_left fun k _ => h.edge_congr hp (by omega), List.map_congr_left fun k hk => ?_,
    h.edge_congr hp (by omega)⟩
  have := List.mem_range.1 hk
  exact h.edge_congr hp (by omega)

theorem SameVisible.wholeWrites_congr {m m' : List Host.Cell} (h : SameVisible c m m') (md : IntraMode) :
    wholeWrites c m md = wholeWrites c m' md := by
  funext p
  simp only [wholeWrites, mbPred, h.mbSamples_congr hp p]

/-! ### The samples of a luma block (R346) -/

theorem visible_of_mem_subReads {b : Nat} (hb : b ≤ 15) {q : Point} (hq : q ∈ subReads c b) : Visible c q := by
  have hrow := luma_block_row_le c hb
  rcases mem_subReads.1 hq with ⟨k, -, hq⟩ | ⟨k, hk, hq⟩ | hq
  · exact visible_of_mem_edgePoints_mb hp (subAbovePlace_row_lt c hb k) hq
  · exact visible_of_mem_edgePoints_mb hp (by omega) hq
  · exact visible_of_mem_edgePoints_mb hp (by omega) hq

theorem SameVisible.subSamples_congr {m m' : List Host.Cell} (h : SameVisible c m m') {b : Nat} (hb : b ≤ 15) :
    subSamples c m b = subSamples c m' b := by
  have hrow := luma_block_row_le c hb
  rw [subSamples_eq, subSamples_eq, Samples.mk.injEq]
  refine ⟨List.map_congr_left fun k _ => h.edge_congr hp (subAbovePlace_row_lt c hb k),
    List.map_congr_left fun k hk => ?_, h.edge_congr hp (by omega)⟩
  have := List.mem_range.1 hk
  exact h.edge_congr hp (by omega)

end

end Sys2Proof.Machine
end

section
/-! The intra commands (44_intra.md R331, R332, R340, R345, R350): their checks in order, and what they make of two memories
with the same visible pixels. -/

namespace Sys2Proof.Machine

/-! ### The checks (R340, R345, R350; 00_scope.md R19) -/

/-- A whole-block command: its checks in order, then the predictions of the planes `ps`. -/
def execWhole (i : Instr) (ps : List Plane) (mode : Nat) (s : State) : Outcome :=
  match intraModeOf mode with
  | none => raise .badParam i s
  | some md => if posOk s.cfg then predictPlanes ps md s else raise .posOob i s

theorem exec_ipred16 (mode : Nat) (s : State) :
    exec (.ipred16 mode) s = execWhole (.ipred16 mode) [.y] mode s := rfl

theorem exec_ipredUv (mode : Nat) (s : State) :
    exec (.ipredUv mode) s = execWhole (.ipredUv mode) [.u, .v] mode s := rfl

/-- The modes in the order of their numbers (R339). -/
theorem intraModeOf_eq_getElem? (mode : Nat) :
    intraModeOf mode = ([.dc, .v, .h, .tm] : List IntraMode)[mode]? :=
  match mode with
  | 0 | 1 | 2 | 3 | _ + 4 => rfl

/-- The subblock modes in the order of their numbers (00_scope.md R19). -/
theorem subModeOf_eq_getElem? (mode : Nat) :
    subModeOf mode = ([.dc, .tm, .ve, .he, .ld, .rd, .vr, .vl, .hd, .hu] : List SubMode)[mode]? :=
  match mode with
  | 0 | 1 | 2 | 3 | 4 | 5 | 6 | 7 | 8 | 9 | _ + 10 => rfl

theorem exists_intraModeOf {mode : Nat} (h : mode ≤ 3) : ∃ md, intraModeOf mode = some md := by
  rw [intraModeOf_eq_getElem?]
  exact ⟨_, List.getElem?_eq_getElem (Nat.lt_succ_of_le h)⟩

theorem exists_subModeOf {mode : Nat} (h : mode ≤ 9) : ∃ md, subModeOf mode = some md := by
  rw [subModeOf_eq_getElem?]
  exact ⟨_, List.getElem?_eq_getElem (Nat.lt_succ_of_le h)⟩

theorem execWhole_badParam {mode : Nat} (h : 3 < mode) (i : Instr) (ps : List Plane) (s : State) :
    execWhole i ps mode s = .next (errorEntry .badParam i.word s) := by
  have hmd : intraModeOf mode = none := by
    rw [intraModeOf_eq_getElem?]
    exact List.getElem?_eq_none h
  simp only [execWhole, hmd, raise]

theorem execWhole_posOob {mode : Nat} (hm : mode ≤ 3) {s : State} (hp : posOk s.cfg = false) (i : Instr)
    (ps : List Plane) : execWhole i ps mode s = .next (errorEntry .posOob i.word s) := by
  obtain ⟨md, hmd⟩ := exists_intraModeOf hm
  simp only [execWhole, hmd, hp, raise, Bool.false_eq_true, if_false]

theorem execWhole_legal {mode : Nat} {md : IntraMode} (hmd : intraModeOf mode = some md) {s : State}
    (hp : posOk s.cfg = true) (i : Instr) (ps : List Plane) : execWhole i ps mode s = predictPlanes ps md s := by
  simp only [execWhole, hmd, hp, if_true]

theorem exec_ipred4_badParam {b mode : Nat} (h : 15 < b ∨ 9 < mode) (s : State) :
    exec (.ipred4 b mode) s = .next (errorEntry .badParam (Instr.ipred4 b mode).word s) := by
  by_cases hb : 15 < b
  · exact if_pos hb
  have hmd : subModeOf mode = none := by
    rw [subModeOf_eq_getElem?]
    exact List.getElem?_eq_none (h.resolve_left hb)
  simp only [exec, execIpred4, if_neg hb, hmd, raise]

theorem exec_ipred4_posOob {b mode : Nat} (hb : b ≤ 15) (hm : mode ≤ 9) {s : State} (hp : posOk s.cfg = false) :
    exec (.ipred4 b mode) s = .next (errorEntry .posOob (Instr.ipred4 b mode).word s) := by
  obtain ⟨md, hmd⟩ := exists_subModeOf hm
  simp only [exec, execIpred4, if_neg (Nat.not_lt.2 hb), hmd, hp, raise, Bool.false_eq_true, if_false]

theorem exec_ipred4_legal {b mode : Nat} {md : SubMode} (hb : b ≤ 15) (hmd : subModeOf mode = some md) {s : State}
    (hp : posOk s.cfg = true) : exec (.ipred4 b mode) s = predictSub b md s := by
  simp only [exec, execIpred4, if_neg (Nat.not_lt.2 hb), hmd, hp, if_true]

/-! ### The memory a prediction leaves (R334) -/

theorem predictPlanes_mem {ps : List Plane} {md : IntraMode} {s t : State} (h : predictPlanes ps md s = .next t) :
    t.mem = writePixels s.cfg s.cfg.cur (ps.flatMap (wholeWrites s.cfg s.mem md)) s.mem := by
  simp only [predictPlanes] at h
  split at h
  · rw [← Host.Outcome.next.inj h, State.setMem_mem]
  · exact absurd h (by simp)

/-- The pixels written by the prediction of luma block b (R334, R350). -/
def subWrites (c : CfgRegs) (m : List Host.Cell) (b : Nat) (md : SubMode) : List PixelWrite :=
  areaWrites .y (blockX c b) (blockY c b) 4 (subPred md (subSamples c m b))

theorem predictSub_mem {b : Nat} {md : SubMode} {s t : State} (h : predictSub b md s = .next t) :
    t.mem = writePixels s.cfg s.cfg.cur (subWrites s.cfg s.mem b md) s.mem := by
  simp only [predictSub] at h
  split at h
  · rw [← Host.Outcome.next.inj h, State.setMem_mem, subWrites]
  · exact absurd h (by simp)

/-! ### Two memories with the same visible pixels (R331, R332) -/

section
variable {s s' t t' : State} (hcfg : s'.cfg = s.cfg) (h : SameVisible s.cfg s.mem s'.mem)
include h

/-- A command that raises an error leaves both memories alone. -/
theorem SameVisible.of_errorEntry {e e' : ErrorCode} {w w' : Word} {o o' : Outcome}
    (ho : o = .next (errorEntry e w s)) (ho' : o' = .next (errorEntry e' w' s')) (ht : o = .next t)
    (ht' : o' = .next t') : SameVisible s.cfg t.mem t'.mem := by
  rw [← Host.Outcome.next.inj (ho.symm.trans ht), ← Host.Outcome.next.inj (ho'.symm.trans ht'), errorEntry_mem,
    errorEntry_mem]
  exact h

include hcfg

theorem SameVisible.of_predictPlanes (hp : posOk s.cfg = true) {ps : List Plane} {md : IntraMode}
    (ht : predictPlanes ps md s = .next t) (ht' : predictPlanes ps md s' = .next t') :
    SameVisible s.cfg t.mem t'.mem := by
  rw [predictPlanes_mem ht, predictPlanes_mem ht', hcfg, h.wholeWrites_congr hp]
  exact h.writePixels _

theorem SameVisible.of_predictSub (hp : posOk s.cfg = true) {b : Nat} (hb : b ≤ 15) {md : SubMode}
    (ht : predictSub b md s = .next t) (ht' : predictSub b md s' = .next t') : SameVisible s.cfg t.mem t'.mem := by
  rw [predictSub_mem ht, predictSub_mem ht', hcfg, subWrites, subWrites, h.subSamples_congr hp hb]
  exact h.writePixels _

theorem SameVisible.of_execWhole {i : Instr} {ps : List Plane} {mode : Nat} (ht : execWhole i ps mode s = .next t)
    (ht' : execWhole i ps mode s' = .next t') : SameVisible s.cfg t.mem t'.mem := by
  by_cases hbad : 3 < mode
  · exact h.of_errorEntry (execWhole_badParam hbad i ps s) (execWhole_badParam hbad i ps s') ht ht'
  have hm := Nat.not_lt.1 hbad
  cases hp : posOk s.cfg with
  | false =>
    have hp' := (congrArg posOk hcfg).trans hp
    exact h.of_errorEntry (execWhole_posOob hm hp i ps) (execWhole_posOob hm hp' i ps) ht ht'
  | true =>
    obtain ⟨md, hmd⟩ := exists_intraModeOf hm
    rw [execWhole_legal hmd hp] at ht
    rw [execWhole_legal hmd ((congrArg posOk hcfg).trans hp)] at ht'
    exact h.of_predictPlanes hcfg hp ht ht'

theorem SameVisible.of_ipred4 {b mode : Nat} (ht : exec (.ipred4 b mode) s = .next t)
    (ht' : exec (.ipred4 b mode) s' = .next t') : SameVisible s.cfg t.mem t'.mem := by
  by_cases hbad : 15 < b ∨ 9 < mode
  · exact h.of_errorEntry (exec_ipred4_badParam hbad s) (exec_ipred4_badParam hbad s') ht ht'
  obtain ⟨hb, hm⟩ := not_or.1 hbad
  rw [Nat.not_lt] at hb hm
  cases hp : posOk s.cfg with
  | false =>
    have hp' := (congrArg posOk hcfg).trans hp
    exact h.of_errorEntry (exec_ipred4_posOob hb hm hp) (exec_ipred4_posOob hb hm hp') ht ht'
  | true =>
    obtain ⟨md, hmd⟩ := exists_subModeOf hm
    rw [exec_ipred4_legal hb hmd hp] at ht
    rw [exec_ipred4_legal hb hmd ((congrArg posOk hcfg).trans hp)] at ht'
    exact h.of_predictSub hcfg hp hb ht ht'

end

/-- Settles O48: equal visible pixels make equal samples, so both states write one list of pixels (`of_predictPlanes`,
`of_predictSub`). -/
theorem intraReadsVisible : Obligations.IntraReadsVisible := by
  unfold Obligations.IntraReadsVisible
  rintro s m i hi (h : SameVisible s.cfg s.mem m) t t' ht ht'
  rcases hi with ⟨mode, rfl⟩ | ⟨mode, rfl⟩ | ⟨b, mode, rfl⟩
  · rw [exec_ipred16] at ht ht'
    exact SameVisible.of_execWhole (s' := { s with mem := m }) rfl h ht ht'
  · rw [exec_ipredUv] at ht ht'
    exact SameVisible.of_execWhole (s' := { s with mem := m }) rfl h ht ht'
  · exact SameVisible.of_ipred4 (s' := { s with mem := m }) rfl h ht ht'

end Sys2Proof.Machine
end

section
/-! The predicted values (44_intra.md R330, R335 to R338, R346 to R358): the whole-block predictions and the subblock grids in
the samples, and that each value is a pixel's. -/

namespace Sys2Proof.Machine

/-! ### Averages and rounded sums (R330, R335) -/

theorem avg2_eq (a b : Int) : avg2 a b = (a + b + 1) / 2 := rfl

theorem avg3_eq (a b c : Int) : avg3 a b c = (a + 2 * b + c + 2) / 4 := rfl

theorem two_pow_log2_mbSize (p : Plane) : 2 ^ (mbSize p).log2 = mbSize p := by cases p <;> decide

/-- A shift by log2 of the area's size is a division by the size. -/
theorem asr_log2_mbSize (a : Int) (p : Plane) : asr a (mbSize p).log2 = a / (mbSize p : Int) := by
  rw [asr, two_pow_log2_mbSize]

theorem asr_log2_mbSize_succ (a : Int) (p : Plane) : asr a ((mbSize p).log2 + 1) = a / (2 * (mbSize p : Int)) := by
  rw [asr, pow_succ, two_pow_log2_mbSize, Nat.cast_mul, mul_comm, Nat.cast_two]

/-- DC_PRED's value by which sides are available (R333, R335). -/
theorem dcValue_mbSize (p : Plane) (up left : Bool) (q : Samples) : dcValue (mbSize p) up left q =
    if up = true ∧ left = true then (q.above.sum + q.left.sum + (mbSize p : Int)) / (2 * (mbSize p : Int))
    else if up = true then (q.above.sum + ((mbSize p / 2 : Nat) : Int)) / (mbSize p : Int)
    else if left = true then (q.left.sum + ((mbSize p / 2 : Nat) : Int)) / (mbSize p : Int)
    else 128 := by
  cases up <;> cases left <;> simp [dcValue, asr_log2_mbSize, asr_log2_mbSize_succ]

/-! ### The whole-block predictions (R335 to R338) -/

theorem getD_map_range {n k : Nat} (f : Nat → Int) (h : k < n) : ((List.range n).map f)[k]?.getD 0 = f k := by
  rw [List.getElem?_map, List.getElem?_range h, Option.map_some, Option.getD_some]

theorem mbSamples_a (c : CfgRegs) (m : List Host.Cell) {p : Plane} {k : Nat} (h : k < mbSize p) :
    (mbSamples c m p).a k = edge c m p (mbX c p + (k : Int)) (mbY c p - 1) := by
  rw [mbSamples_eq, Samples.a, getD_map_range _ h]

theorem mbSamples_l (c : CfgRegs) (m : List Host.Cell) {p : Plane} {k : Nat} (h : k < mbSize p) :
    (mbSamples c m p).l k = edge c m p (mbX c p - 1) (mbY c p + (k : Int)) := by
  rw [mbSamples_eq, Samples.l, getD_map_range _ h]

/-- Settles O46: DC_PRED is `dcValue_mbSize`, and the other modes are their formulas over `mbSamples_a` and `mbSamples_l`. -/
theorem wholeBlockPredictions : Obligations.WholeBlockPredictions := by
  unfold Obligations.WholeBlockPredictions
  intro c m p row col hrow hcol n sample above left corner sumAbove sumLeft
  have habove : (mbSamples c m p).a col = above col := mbSamples_a c m hcol
  have hleft : (mbSamples c m p).l row = left row := mbSamples_l c m hrow
  have hcorner : (mbSamples c m p).corner = corner := rfl
  have hsumAbove : (mbSamples c m p).above.sum = sumAbove := by
    rw [mbSamples_eq]
    rfl
  have hsumLeft : (mbSamples c m p).left.sum = sumLeft := by
    rw [mbSamples_eq]
    rfl
  refine ⟨?dc, habove, hleft, ?tm⟩
  case dc =>
    rw [mbPred, wholePred, dcValue_mbSize, hsumAbove, hsumLeft]
    simp only [upAvail, leftAvail, decide_eq_true_eq]
    rfl
  case tm =>
    rw [mbPred, wholePred, habove, hleft, hcorner, clamp255, clamp_eq_max_min (by decide)]

/-! ### The samples of a luma block (R346) -/

theorem blockX_luma (c : CfgRegs) {b : Nat} (hb : b < 16) : blockX c b = mbX c .y + 4 * ((b % 4 : Nat) : Int) := by
  rw [blockX, blockPlane, if_pos hb, if_pos hb]

theorem blockY_luma (c : CfgRegs) {b : Nat} (hb : b < 16) : blockY c b = mbY c .y + 4 * ((b / 4 : Nat) : Int) := by
  rw [blockY, blockPlane, if_pos hb, if_pos hb]

theorem subSamples_a (c : CfgRegs) (m : List Host.Cell) (b : Nat) {k : Nat} (h : k < 8) :
    (subSamples c m b).a k = edge c m .y (subAbovePlace c b k).1 (subAbovePlace c b k).2 := by
  rw [subSamples_eq, Samples.a, getD_map_range _ h]

theorem subSamples_l (c : CfgRegs) (m : List Host.Cell) (b : Nat) {k : Nat} (h : k < 4) :
    (subSamples c m b).l k = edge c m .y (blockX c b - 1) (blockY c b + (k : Int)) := by
  rw [subSamples_eq, Samples.l, getD_map_range _ h]

theorem subAbovePlace_above (c : CfgRegs) (b : Nat) {k : Nat} (h : k < 4) :
    subAbovePlace c b k = (blockX c b + (k : Int), blockY c b - 1) := if_pos h

theorem subAbovePlace_right (c : CfgRegs) (b k : Nat) : subAbovePlace c b (4 + k) =
    if b % 4 = 3 then (mbX c .y + 16 + (k : Int), mbY c .y - 1) else (blockX c b + 4 + (k : Int), blockY c b - 1) := by
  rw [subAbovePlace, if_neg (by omega), Nat.add_sub_cancel_left]

/-! ### The subblock predictions as grids (R347 to R357) -/

/-- Entry (r, c) of a grid given row by row. -/
def gridAt (g : List (List Int)) (r c : Nat) : Int := ((g[r]?.getD [])[c]?).getD 0

section
variable (q : Samples) {r c : Nat} (hr : r < 4) (hc : c < 4)
include hr

theorem subHe_eq : subHe q r = avg3 (if r = 0 then q.corner else q.l (r - 1)) (q.l r) (q.l (min 3 (r + 1))) := by
  interval_cases r <;> rfl

include hc

theorem subLd_eq : subLd q r c = avg3 (q.a (r + c)) (q.a (r + c + 1)) (q.a (min 7 (r + c + 2))) := by
  unfold subLd
  split
  · rw [min_eq_right (by omega)]
  · obtain ⟨rfl, rfl⟩ : r = 3 ∧ c = 3 := by omega
    rfl

theorem subRd_eq : subRd q r c = q.avg3e (4 + c - r) := by
  rw [subRd, Samples.avg3e, show 4 + c - r - 1 = 3 + c - r by omega, show 4 + c - r + 1 = 5 + c - r by omega]

theorem subVr_eq : subVr q r c = gridAt [
    [q.avg2e 4, q.avg2e 5, q.avg2e 6, q.avg2e 7],
    [q.avg3e 4, q.avg3e 5, q.avg3e 6, q.avg3e 7],
    [q.avg3e 3, q.avg2e 4, q.avg2e 5, q.avg2e 6],
    [q.avg3e 2, q.avg3e 4, q.avg3e 5, q.avg3e 6]] r c := by
  interval_cases r <;> interval_cases c <;> rfl

theorem subVl_eq : subVl q r c = gridAt [
    [q.avg2a 0, q.avg2a 1, q.avg2a 2, q.avg2a 3],
    [q.avg3a 1, q.avg3a 2, q.avg3a 3, q.avg3a 4],
    [q.avg2a 1, q.avg2a 2, q.avg2a 3, q.avg3a 5],
    [q.avg3a 2, q.avg3a 3, q.avg3a 4, q.avg3a 6]] r c := by
  interval_cases r <;> interval_cases c <;> rfl

theorem subHd_eq : subHd q r c = gridAt [
    [q.avg2e 3, q.avg3e 4, q.avg3e 5, q.avg3e 6],
    [q.avg2e 2, q.avg3e 3, q.avg2e 3, q.avg3e 4],
    [q.avg2e 1, q.avg3e 2, q.avg2e 2, q.avg3e 3],
    [q.avg2e 0, q.avg3e 1, q.avg2e 1, q.avg3e 2]] r c := by
  interval_cases r <;> interval_cases c <;> rfl

theorem subHu_eq : subHu q r c = gridAt [
    [avg2 (q.l 0) (q.l 1), avg3 (q.l 0) (q.l 1) (q.l 2), avg2 (q.l 1) (q.l 2), avg3 (q.l 1) (q.l 2) (q.l 3)],
    [avg2 (q.l 1) (q.l 2), avg3 (q.l 1) (q.l 2) (q.l 3), avg2 (q.l 2) (q.l 3), avg3 (q.l 2) (q.l 3) (q.l 3)],
    [avg2 (q.l 2) (q.l 3), avg3 (q.l 2) (q.l 3) (q.l 3), q.l 3, q.l 3],
    [q.l 3, q.l 3, q.l 3, q.l 3]] r c := by
  interval_cases r <;> interval_cases c <;> rfl

end

/-- The samples A[0..7], L[0..3] and P given as numbers. -/
def listedSamples (a l : Nat → Int) (p : Int) : Samples :=
  { above := (List.range 8).map a, left := (List.range 4).map l, corner := p }

theorem listedSamples_a (a l : Nat → Int) (p : Int) {k : Nat} (h : k < 8) : (listedSamples a l p).a k = a k :=
  getD_map_range a h

theorem listedSamples_l (a l : Nat → Int) (p : Int) {k : Nat} (h : k < 4) : (listedSamples a l p).l k = l k :=
  getD_map_range l h

theorem listedSamples_e (a l : Nat → Int) (p : Int) {k : Nat} (h : k < 9) :
    (listedSamples a l p).e k = if k < 4 then l (3 - k) else if k = 4 then p else a (k - 5) := by
  rw [Samples.e, listedSamples_l a l p (by omega), listedSamples_a a l p (by omega)]
  rfl

/-- Settles O47: the samples stand where R346 puts them (`subSamples_a`, `subSamples_l`), and each mode's grid is read off in
the samples (`subVr_eq` and the others), which are the numbers given. -/
theorem subblockPredictions : Obligations.SubblockPredictions := by
  unfold Obligations.SubblockPredictions
  refine ⟨?samples, ?modes⟩
  case samples =>
    intro c m b hb sample x y q
    have hx : blockX c b = x := blockX_luma c hb
    have hy : blockY c b = y := blockY_luma c hb
    refine ⟨fun k hk => ⟨?above, ?left, ?right⟩, ?corner⟩
    case above =>
      rw [show q.a k = _ from subSamples_a c m b (by omega), subAbovePlace_above c b hk, hx, hy]
      rfl
    case left =>
      rw [show q.l k = _ from subSamples_l c m b hk, hx, hy]
      rfl
    case right =>
      rw [show q.a (4 + k) = _ from subSamples_a c m b (by omega), subAbovePlace_right, hx, hy]
      split <;> rfl
    case corner =>
      rw [show q.corner = _ from congrArg Samples.corner (subSamples_eq c m b), hx, hy]
      rfl
  case modes =>
    intro a l p r c hr hc q e m2 m3 e2 e3 a2 a3 grid
    have ha {k : Nat} (h : k < 8) : q.a k = a k := listedSamples_a a l p h
    have hl {k : Nat} (h : k < 4) : q.l k = l k := listedSamples_l a l p h
    have he {k : Nat} (h : k < 9) : q.e k = e k := listedSamples_e a l p h
    have he2 {k : Nat} (h : k < 8) : q.avg2e k = e2 k := by
      rw [Samples.avg2e, he (by omega), he (by omega)]
      rfl
    have he3 {k : Nat} (h : k < 8) : q.avg3e k = e3 k := by
      rw [Samples.avg3e, he (by omega), he (by omega), he (by omega)]
      rfl
    have ha2 {k : Nat} (h : k < 7) : q.avg2a k = a2 k := by
      rw [Samples.avg2a, ha (by omega), ha (by omega)]
      rfl
    have ha3 {k : Nat} (h : k < 7) : q.avg3a k = a3 k := by
      rw [Samples.avg3a, ha (by omega), ha (by omega), ha (by omega)]
      rfl
    refine ⟨?dc, ?tm, ?ve, ?he, ?ld, ?rd, ?vr, ?vl, ?hd, ?hu⟩
    case dc =>
      simp only [subPred, subDc, ha, hl, Nat.reduceLT]
      rfl
    case tm => rw [subPred, hl hr, ha (by omega), clamp255, clamp_eq_max_min (by decide)]
    case ve =>
      rw [subPred, subVe, ha (by omega), ha (by omega), ha (by omega)]
      rfl
    case he =>
      rw [subPred, subHe_eq q hr, hl (by omega), hl hr, hl (by omega)]
      rfl
    case ld =>
      rw [subPred, subLd_eq q hr hc, ha (by omega), ha (by omega), ha (by omega)]
      rfl
    case rd => rw [subPred, subRd_eq q hr hc, he3 (by omega)]
    case vr =>
      rw [subPred, subVr_eq q hr hc]
      simp only [he2, he3, Nat.reduceLT]
      rfl
    case vl =>
      rw [subPred, subVl_eq q hr hc]
      simp only [ha2, ha3, Nat.reduceLT]
      rfl
    case hd =>
      rw [subPred, subHd_eq q hr hc]
      simp only [he2, he3, Nat.reduceLT]
      rfl
    case hu =>
      rw [subPred, subHu_eq q hr hc]
      simp only [hl, Nat.reduceLT]
      rfl

end Sys2Proof.Machine
end

section
/-! The pixels the intra commands write (44_intra.md R334, R340, R341, R345, R350, R358): every predicted value is a pixel's, and
a completing command writes the predictions of its areas and nothing else. -/

namespace Sys2Proof.Machine

/-! ### Values of a pixel (R334, R358) -/

/-- The value fits a pixel: 0..255. -/
def IsPixel (v : Int) : Prop := 0 ≤ v ∧ v ≤ 255

/-- Every sample is a pixel's value. -/
structure Samples.ArePixels (q : Samples) : Prop where
  above : ∀ v ∈ q.above, IsPixel v
  left : ∀ v ∈ q.left, IsPixel v
  corner : IsPixel q.corner

theorem isPixel_clamp255 (v : Int) : IsPixel (clamp255 v) := by
  rw [IsPixel, clamp255_eq]
  omega

theorem IsPixel.avg2 {a b : Int} (ha : IsPixel a) (hb : IsPixel b) : IsPixel (avg2 a b) := by
  rw [avg2_eq]
  unfold IsPixel at *
  omega

theorem IsPixel.avg3 {a b c : Int} (ha : IsPixel a) (hb : IsPixel b) (hc : IsPixel c) : IsPixel (avg3 a b c) := by
  rw [avg3_eq]
  unfold IsPixel at *
  omega

theorem isPixel_pixel (c : CfgRegs) (m : List Host.Cell) (slot : Nat) (p : Plane) (x y : Int) :
    IsPixel (pixel c m slot p x y) := by
  have := (readByte m (pixelAddr c slot p x y).toNat).isLt
  unfold IsPixel pixel
  omega

theorem isPixel_edge (c : CfgRegs) (m : List Host.Cell) (p : Plane) (x y : Int) : IsPixel (edge c m p x y) := by
  unfold edge
  split_ifs
  · exact ⟨by decide, by decide⟩
  · exact ⟨by decide, by decide⟩
  · exact isPixel_pixel ..
  · exact isPixel_pixel ..

theorem isPixel_getD {l : List Int} (h : ∀ v ∈ l, IsPixel v) (k : Nat) : IsPixel (l[k]?.getD 0) := by
  by_cases hk : k < l.length
  · rw [List.getElem?_eq_getElem hk]
    exact h _ (List.getElem_mem hk)
  · rw [List.getElem?_eq_none (Nat.not_lt.1 hk)]
    exact ⟨le_refl 0, by decide⟩

/-- The sum of pixels' values. -/
theorem isPixel_sum_bounds {l : List Int} (h : ∀ v ∈ l, IsPixel v) : 0 ≤ l.sum ∧ l.sum ≤ 255 * (l.length : Int) := by
  refine ⟨List.sum_nonneg fun v hv => (h v hv).1, ?_⟩
  have hle := List.sum_le_card_nsmul l 255 fun v hv => (h v hv).2
  rwa [nsmul_eq_mul, mul_comm] at hle

theorem mbSamples_arePixels (c : CfgRegs) (m : List Host.Cell) (p : Plane) : (mbSamples c m p).ArePixels := by
  rw [mbSamples_eq]
  exact ⟨List.forall_mem_map.2 fun k _ => isPixel_edge .., List.forall_mem_map.2 fun k _ => isPixel_edge ..,
    isPixel_edge ..⟩

theorem subSamples_arePixels (c : CfgRegs) (m : List Host.Cell) (b : Nat) : (subSamples c m b).ArePixels := by
  rw [subSamples_eq]
  exact ⟨List.forall_mem_map.2 fun k _ => isPixel_edge .., List.forall_mem_map.2 fun k _ => isPixel_edge ..,
    isPixel_edge ..⟩

/-! ### The predictions are pixels -/

/-- A rounded mean of pixels: `s` is the sum of `n` of them, and `k` less than `n` rounds. -/
theorem isPixel_mean {s k n : Int} (hs : 0 ≤ s) (hs' : s ≤ 255 * n) (hk : 0 ≤ k) (hk' : k < n) : IsPixel ((s + k) / n) :=
  ⟨Int.ediv_nonneg (by omega) (by omega), Int.lt_add_one_iff.1 (Int.ediv_lt_of_lt_mul (by omega) (by omega))⟩

section
variable {q : Samples} (hq : q.ArePixels)
include hq

theorem Samples.ArePixels.a (k : Nat) : IsPixel (q.a k) := isPixel_getD hq.above k

theorem Samples.ArePixels.l (k : Nat) : IsPixel (q.l k) := isPixel_getD hq.left k

theorem Samples.ArePixels.e (k : Nat) : IsPixel (q.e k) := by
  unfold Samples.e
  split_ifs
  · exact hq.l _
  · exact hq.corner
  · exact hq.a _

theorem Samples.ArePixels.avg2e (k : Nat) : IsPixel (q.avg2e k) := (hq.e _).avg2 (hq.e _)

theorem Samples.ArePixels.avg3e (k : Nat) : IsPixel (q.avg3e k) := (hq.e _).avg3 (hq.e _) (hq.e _)

theorem Samples.ArePixels.avg2a (k : Nat) : IsPixel (q.avg2a k) := (hq.a _).avg2 (hq.a _)

theorem Samples.ArePixels.avg3a (k : Nat) : IsPixel (q.avg3a k) := (hq.a _).avg3 (hq.a _) (hq.a _)

theorem isPixel_dcValue {p : Plane} (ha : q.above.length = mbSize p) (hl : q.left.length = mbSize p) (up left : Bool) :
    IsPixel (dcValue (mbSize p) up left q) := by
  obtain ⟨habove, habove'⟩ := isPixel_sum_bounds hq.above
  obtain ⟨hleft, hleft'⟩ := isPixel_sum_bounds hq.left
  have hsize := eight_le_mbSize p
  rw [ha] at habove'
  rw [hl] at hleft'
  rw [dcValue_mbSize]
  split_ifs
  · exact isPixel_mean (by omega) (by omega) (by omega) (by omega)
  · exact isPixel_mean (by omega) (by omega) (by omega) (by omega)
  · exact isPixel_mean (by omega) (by omega) (by omega) (by omega)
  · exact ⟨by decide, by decide⟩

theorem isPixel_subDc : IsPixel (subDc q) := by
  have ha := isPixel_sum_bounds (List.forall_mem_map.2 fun k (_ : k ∈ List.range 4) => hq.a k)
  have hl := isPixel_sum_bounds (List.forall_mem_map.2 fun k (_ : k ∈ List.range 4) => hq.l k)
  rw [sum_map_range_four, List.length_map, List.length_range] at ha hl
  exact isPixel_mean (n := 8) (by omega) (by omega) (by omega) (by omega)

/-- Every value of a subblock prediction is a pixel's (R358). -/
theorem isPixel_subPred (md : SubMode) (r c : Nat) : IsPixel (subPred md q r c) := by
  cases md with
  | dc => exact isPixel_subDc hq
  | tm => exact isPixel_clamp255 _
  | ve =>
    refine IsPixel.avg3 ?_ (hq.a _) (hq.a _)
    split
    · exact hq.corner
    · exact hq.a _
  | he =>
    simp only [subPred]
    unfold subHe
    split
    · exact hq.corner.avg3 (hq.l _) (hq.l _)
    all_goals exact (hq.l _).avg3 (hq.l _) (hq.l _)
  | ld =>
    simp only [subPred, subLd]
    split <;> exact (hq.a _).avg3 (hq.a _) (hq.a _)
  | rd => exact (hq.e _).avg3 (hq.e _) (hq.e _)
  | vr =>
    simp only [subPred]
    unfold subVr
    split <;> simp only [hq.avg2e, hq.avg3e]
  | vl =>
    simp only [subPred]
    unfold subVl
    split <;> simp only [hq.avg2a, hq.avg3a]
  | hd =>
    simp only [subPred]
    unfold subHd
    split <;> simp only [hq.avg2e, hq.avg3e]
  | hu =>
    simp only [subPred]
    unfold subHu
    split <;> simp only [hq.l, IsPixel.avg2, IsPixel.avg3]

end

theorem isPixel_mbPred (c : CfgRegs) (m : List Host.Cell) (md : IntraMode) (p : Plane) (row col : Nat) :
    IsPixel (mbPred c m md p row col) := by
  have hq := mbSamples_arePixels c m p
  cases md with
  | dc =>
    refine isPixel_dcValue hq ?_ ?_ _ _
    · rw [mbSamples_eq, List.length_map, List.length_range]
    · rw [mbSamples_eq, List.length_map, List.length_range]
  | v => exact hq.a _
  | h => exact hq.l _
  | tm => exact isPixel_clamp255 _

/-! ### The pixels written (R334) -/

theorem PixelsWritten.congr {c : CfgRegs} {slot : Nat} {P P' : Point → Prop} {v v' : Point → Int} {m m' : List Host.Cell}
    (h : PixelsWritten c slot P v m m') (hP : ∀ q, P q ↔ P' q) (hv : ∀ q, P q → v q = v' q) :
    PixelsWritten c slot P' v' m m' := by
  obtain rfl : P = P' := funext fun q => propext (hP q)
  exact ⟨fun q hq hown => (h.value q hq hown).trans (hv q hq), h.frame⟩

/-- The writes of the planes' predictions: one for each of the macroblock's pixels in those planes. -/
theorem mem_wholeWrites_iff {c : CfgRegs} {m : List Host.Cell} {ps : List Plane} {md : IntraMode} {w : PixelWrite} :
    w ∈ ps.flatMap (wholeWrites c m md) ↔ (w.at_.plane ∈ ps ∧ InMb c w.at_) ∧
      w.value = mbPred c m md w.at_.plane (w.at_.y - mbY c w.at_.plane).toNat (w.at_.x - mbX c w.at_.plane).toNat := by
  simp only [List.mem_flatMap, wholeWrites, mem_areaWrites_iff]
  constructor
  · rintro ⟨p, hp, ⟨rfl, hin⟩, hval⟩
    exact ⟨⟨hp, hin⟩, hval⟩
  · rintro ⟨⟨hp, hin⟩, hval⟩
    exact ⟨_, hp, ⟨rfl, hin⟩, hval⟩

section
variable {s : State} (hp : posOk s.cfg = true) (hv : VisibleInMemory s.cfg s.cfg.cur)
include hp hv

/-- At a legal position of a slot in memory, predicting planes completes (R334). -/
theorem predictPlanes_complete (ps : List Plane) (md : IntraMode) : predictPlanes ps md s =
    .next { s with mem := writePixels s.cfg s.cfg.cur (ps.flatMap (wholeWrites s.cfg s.mem md)) s.mem } := by
  refine if_pos (pointsOk_iff.2 fun q hq => pixelOk_iff.2 (hv q ?_))
  obtain ⟨p, -, hq⟩ := List.mem_flatMap.1 hq
  rcases List.mem_append.1 hq with hread | harea
  · exact visible_of_mem_wholeReads hp hread
  · exact (inMb_of_mem_mbPoints harea).visible hp

theorem predictPlanes_pixelsWritten (ps : List Plane) (md : IntraMode) :
    PixelsWritten s.cfg s.cfg.cur (fun q => q.plane ∈ ps ∧ InMb s.cfg q)
      (fun q => mbPred s.cfg s.mem md q.plane (q.y - mbY s.cfg q.plane).toNat (q.x - mbX s.cfg q.plane).toNat) s.mem
      (writePixels s.cfg s.cfg.cur (ps.flatMap (wholeWrites s.cfg s.mem md)) s.mem) :=
  pixelsWritten_writePixels (fun _ => mem_wholeWrites_iff) (fun q hq => (hv q (hq.2.visible hp)).1)
    (fun _ _ => isPixel_mbPred ..) s.mem

/-- A whole-block command that passes its checks writes the predictions of its planes and nothing else. -/
theorem execWhole_complete {mode : Nat} (hm : mode ≤ 3) (i : Instr) (ps : List Plane) :
    ∃ md m, ([.dc, .v, .h, .tm] : List IntraMode)[mode]? = some md ∧ execWhole i ps mode s = .next { s with mem := m } ∧
      PixelsWritten s.cfg s.cfg.cur (fun q => q.plane ∈ ps ∧ InMb s.cfg q)
        (fun q => mbPred s.cfg s.mem md q.plane (q.y - mbY s.cfg q.plane).toNat (q.x - mbX s.cfg q.plane).toNat)
        s.mem m := by
  obtain ⟨md, hmd⟩ := exists_intraModeOf hm
  exact ⟨md, _, (intraModeOf_eq_getElem? mode).symm.trans hmd,
    (execWhole_legal hmd hp i ps).trans (predictPlanes_complete hp hv ps md), predictPlanes_pixelsWritten hp hv ps md⟩

variable {b : Nat} (hb : b ≤ 15)
include hb

/-- At a legal position of a slot in memory, predicting a luma block completes (R334, R350). -/
theorem predictSub_complete (md : SubMode) : predictSub b md s =
    .next { s with mem := writePixels s.cfg s.cfg.cur (subWrites s.cfg s.mem b md) s.mem } := by
  refine if_pos (pointsOk_append.2 ⟨pointsOk_iff.2 fun q hq => ?reads, ?area⟩)
  case reads => exact pixelOk_iff.2 (hv q (visible_of_mem_subReads hp hb hq))
  case area =>
    rw [← blockPoints_luma s.cfg hb]
    exact pointsOk_blockPoints hp hv b

theorem predictSub_pixelsWritten (md : SubMode) :
    PixelsWritten s.cfg s.cfg.cur (InBlock s.cfg b)
      (fun q => subPred md (subSamples s.cfg s.mem b) (q.y - blockY s.cfg b).toNat (q.x - blockX s.cfg b).toNat) s.mem
      (writePixels s.cfg s.cfg.cur (subWrites s.cfg s.mem b md) s.mem) := by
  have hplane : blockPlane b = .y := if_pos (Nat.lt_succ_of_le hb)
  refine pixelsWritten_writePixels (fun w => ?_) (fun q hq => hq.addr_nonneg hp hv)
    (fun _ _ => isPixel_subPred (subSamples_arePixels ..) ..) s.mem
  rw [subWrites, mem_areaWrites_iff, InBlock, hplane]
  rfl

end

/-! ### The commands (R340, R345, R350) -/

/-- Settles O43: the one plane of IPRED16 (`execWhole_complete`). -/
theorem ipred16Rule : Obligations.Ipred16Rule := by
  unfold Obligations.Ipred16Rule
  intro s mode
  rw [exec_ipred16]
  refine ⟨fun hm => execWhole_badParam hm _ _ s, fun hm hp => execWhole_posOob hm hp _ _, fun hm hp hv => ?_⟩
  obtain ⟨md, m, hmd, hexec, hpixels⟩ := execWhole_complete hp hv hm (.ipred16 mode) [.y]
  refine ⟨md, m, hmd, hexec, hpixels.congr (fun q => by rw [List.mem_singleton]) fun q hq => ?_⟩
  rw [List.mem_singleton.1 hq.1]

/-- Settles O44: the two planes of IPREDUV (`execWhole_complete`). -/
theorem ipredUvRule : Obligations.IpredUvRule := by
  unfold Obligations.IpredUvRule
  intro s mode
  rw [exec_ipredUv]
  have hchroma (p : Plane) : p ∈ [Plane.u, .v] ↔ p ≠ .y := by cases p <;> decide
  refine ⟨fun hm => execWhole_badParam hm _ _ s, fun hm hp => execWhole_posOob hm hp _ _, fun hm hp hv => ?_⟩
  obtain ⟨md, m, hmd, hexec, hpixels⟩ := execWhole_complete hp hv hm (.ipredUv mode) [.u, .v]
  exact ⟨md, m, hmd, hexec, hpixels.congr (fun q => by rw [hchroma]) fun _ _ => rfl⟩

/-- Settles O45: the one block of IPRED4 (`predictSub_complete`, `predictSub_pixelsWritten`). -/
theorem ipred4Rule : Obligations.Ipred4Rule := by
  unfold Obligations.Ipred4Rule
  intro s b mode
  refine ⟨fun hbad => exec_ipred4_badParam hbad s, fun hb hm hp => exec_ipred4_posOob hb hm hp, fun hb hm hp hv => ?_⟩
  obtain ⟨md, hmd⟩ := exists_subModeOf hm
  exact ⟨md, _, (subModeOf_eq_getElem? mode).symm.trans hmd,
    (exec_ipred4_legal hb hmd hp).trans (predictSub_complete hp hv hb md), predictSub_pixelsWritten hp hv hb md⟩

end Sys2Proof.Machine
end

section
/-! The vectors, sources and footprints of inter prediction (45_inter.md R383 to R387, R390, R392, R400): the arithmetic in
numbers, and the model's lists of pixels and corners of footprints as conditions on every point. -/

namespace Sys2Proof.Machine

/-! ### Vectors (R383 to R386) -/

/-- At a legal position the macroblock lies between the frame's edges (R383). -/
theorem edges_of_posOk {c : CfgRegs} (h : posOk c = true) :
    (edgeLeft c ≤ 0 ∧ 0 ≤ edgeRight c) ∧ edgeTop c ≤ 0 ∧ 0 ≤ edgeBottom c := by
  have hx := mbX_nonneg c .y
  have hy := mbY_nonneg c .y
  have hw : mbX c .y + 16 ≤ planeW c .y := mbX_add_size_le h .y
  have hh : mbY c .y + 16 ≤ planeH c .y := mbY_add_size_le h .y
  unfold edgeLeft edgeRight edgeTop edgeBottom
  omega

/-- A clamped component is at most 76 before the one edge and at most 72 beyond the other (R384). -/
theorem uclamp_bounds {lo hi : Int} (hlo : lo ≤ 0) (hhi : 0 ≤ hi) (v : Int) :
    lo - 76 ≤ uclamp v lo hi ∧ uclamp v lo hi ≤ hi + 72 := by
  unfold uclamp
  split_ifs <;> omega

theorem uclamp_zero {lo hi : Int} (hlo : lo ≤ 0) (hhi : 0 ≤ hi) : uclamp 0 lo hi = 0 := by
  rw [uclamp, if_neg (by omega), if_neg (by omega)]

theorem uclampMv_zero {c : CfgRegs} (h : posOk c = true) : uclampMv c ⟨0, 0⟩ = ⟨0, 0⟩ := by
  obtain ⟨⟨hl, hr⟩, ht, hb⟩ := edges_of_posOk h
  rw [uclampMv, uclamp_zero ht hb, uclamp_zero hl hr]

/-- The clamp of a vector with R383's edges written out. -/
theorem uclampMv_eq (c : CfgRegs) (v : Mv) : uclampMv c v =
    { row := uclamp v.row (-4 * (16 * c.mbRow)) (4 * (16 * c.mbRows - 16 - 16 * c.mbRow))
      col := uclamp v.col (-4 * (16 * c.mbCol)) (4 * (16 * c.mbCols - 16 - 16 * c.mbCol)) } := by
  simp only [uclampMv, edgeTop, edgeBottom, edgeLeft, edgeRight, mbX, mbY, mbSize, planeW, planeH, Int.neg_mul,
    Nat.cast_ofNat]

/-- The rounded average rounds half away from zero (R386). -/
theorem chromaAvg_eq (n : Int) : chromaAvg n = if 0 ≤ 2 * n then (2 * n + 4) / 8 else -((4 - 2 * n) / 8) := by
  simp only [chromaAvg]
  split_ifs with h
  · exact Int.tdiv_eq_ediv_of_nonneg (by omega)
  · rw [← Int.neg_sub 4 (2 * n), Int.neg_tdiv, Int.tdiv_eq_ediv_of_nonneg (by omega)]

theorem chromaFullpixel_eq (c : CfgRegs) : c.chromaFullpixel = c.decCfg.getLsbD 2 := bit_toNat _ _

section
variable {c : CfgRegs} (hp : posOk c = true) (hmv : fileGet c.mv 0 0 = 0)
include hp hmv

/-- With MV[0] zero and SPLIT = 0 every luma vector is zero, clamped or not. -/
theorem lumaMv_zero (clamp : Bool) (b : Nat) : lumaMv c false clamp b = ⟨0, 0⟩ := by
  have hreg : mvReg c 0 = ⟨0, 0⟩ := by
    rw [mvReg, mvRow_eq, mvCol_eq, hmv]
    rfl
  cases clamp
  · exact hreg
  · exact (congrArg (uclampMv c) hreg).trans (uclampMv_zero hp)

/-- With MV[0] zero and SPLIT = 0 every chroma vector is zero, in whole pixels or not. -/
theorem chromaMv_zero (clamp : Bool) (j : Nat) : chromaMv c false clamp j = ⟨0, 0⟩ := by
  simp only [chromaMv, Bool.false_and, Bool.false_eq_true, if_false, lumaMv_zero hp hmv]
  split_ifs <;> rfl

end

/-! ### Position and phase (R387) -/

theorem mvAt_luma {c : CfgRegs} {q : Point} (h : q.plane = .y) (split clamp : Bool) : mvAt c split clamp q =
    lumaMv c split clamp (4 * ((q.y - mbY c .y) / 4) + (q.x - mbX c .y) / 4).toNat := by
  simp only [mvAt, h]

theorem mvAt_chroma {c : CfgRegs} {q : Point} (h : q.plane ≠ .y) (split clamp : Bool) : mvAt c split clamp q =
    chromaMv c split clamp (2 * ((q.y - 8 * c.mbRow) / 4) + (q.x - 8 * c.mbCol) / 4).toNat := by
  obtain ⟨p, x, y⟩ := q
  cases p with
  | y => exact absurd rfl h
  | u => rfl
  | v => rfl

/-- Luma positions and phases, in quarters of a pixel. -/
theorem sourceOf_luma (x y : Int) (v : Mv) : (sourceOf .y x y v).ix = x + v.col / 4 ∧
    ((sourceOf .y x y v).fx : Int) = 2 * (v.col % 4) ∧ (sourceOf .y x y v).iy = y + v.row / 4 ∧
    ((sourceOf .y x y v).fy : Int) = 2 * (v.row % 4) := by
  refine ⟨rfl, ?_, rfl, ?_⟩ <;> simp only [sourceOf] <;> omega

/-- Chroma positions and phases, in eighths of a pixel. -/
theorem sourceOf_chroma {p : Plane} (h : p ≠ .y) (x y : Int) (v : Mv) : (sourceOf p x y v).ix = x + v.col / 8 ∧
    ((sourceOf p x y v).fx : Int) = v.col % 8 ∧ (sourceOf p x y v).iy = y + v.row / 8 ∧
    ((sourceOf p x y v).fy : Int) = v.row % 8 := by
  cases p with
  | y => exact absurd rfl h
  | u | v => refine ⟨rfl, ?_, rfl, ?_⟩ <;> simp only [sourceOf] <;> omega

theorem sourceOf_zero (p : Plane) (x y : Int) : sourceOf p x y ⟨0, 0⟩ = { ix := x, iy := y, fx := 0, fy := 0 } := by
  cases p <;> simp [sourceOf, asr]

/-- The zero vector predicts a point from its own place (R397). -/
theorem sourceAt_zero {c : CfgRegs} (hp : posOk c = true) (hmv : fileGet c.mv 0 0 = 0) (clamp : Bool) (q : Point) :
    sourceAt c false clamp q = { ix := q.x, iy := q.y, fx := 0, fy := 0 } := by
  have hv : mvAt c false clamp q = ⟨0, 0⟩ := by
    by_cases h : q.plane = .y
    · rw [mvAt_luma h, lumaMv_zero hp hmv]
    · rw [mvAt_chroma h, chromaMv_zero hp hmv]
  rw [sourceAt, hv, sourceOf_zero]

/-! ### The pixels of the macroblock and their sources (R395) -/

theorem mem_mbAllPoints_iff {c : CfgRegs} {q : Point} : q ∈ mbAllPoints c ↔ InMb c q := by
  refine ⟨inMb_of_mem_mbAllPoints, fun h => ?_⟩
  obtain ⟨p, x, y⟩ := q
  obtain ⟨hx, hx', hy, hy'⟩ := h
  simp only at hx hx' hy hy'
  have hmem := areaPoints_mem p (mbX c p) (mbY c p) (show (y - mbY c p).toNat < mbSize p by omega)
    (show (x - mbX c p).toNat < mbSize p by omega)
  rw [show mbX c p + ((x - mbX c p).toNat : Int) = x by omega,
    show mbY c p + ((y - mbY c p).toNat : Int) = y by omega] at hmem
  exact List.mem_flatMap.2 ⟨p, by cases p <;> decide, hmem⟩

theorem pixelSource_eq_sourceAt (c : CfgRegs) (split clamp : Bool) (p : Plane) (dx dy : Nat) :
    pixelSource c split clamp p dx dy =
      sourceAt c split clamp { plane := p, x := mbX c p + (dx : Int), y := mbY c p + (dy : Int) } := by
  have hblock (n : Nat) : ((n : Int) * ((dy : Int) / 4) + (dx : Int) / 4).toNat = n * (dy / 4) + dx / 4 := by
    exact_mod_cast Int.toNat_natCast (n * (dy / 4) + dx / 4)
  have hluma := hblock 4
  have hchroma := hblock 2
  push_cast at hluma hchroma
  cases p <;> simp only [pixelSource, sourceAt, pixelMv, mvAt, add_sub_cancel_left, hluma, hchroma]

/-- A check of every source is a check at every point of the macroblock. -/
theorem allSources_iff {c : CfgRegs} {split clamp : Bool} {ok : Plane → Source → Bool} :
    allSources c split clamp ok = true ↔ ∀ q, InMb c q → ok q.plane (sourceAt c split clamp q) = true := by
  have hall : allSources c split clamp ok = (mbAllPoints c).all fun q => ok q.plane (sourceAt c split clamp q) := by
    simp only [allSources, mbAllPoints, List.all_flatMap, areaPoints, mbOffsets, List.all_map, pixelSource_eq_sourceAt]
    rfl
  simp only [hall, List.all_eq_true, mem_mbAllPoints_iff]

/-! ### Footprints (R390, R392) -/

/-- The offsets an axis reads lie in -2..3, and its integer position is among them. -/
theorem foot_bounds (bil : Bool) (f : Nat) :
    (-2 ≤ footLo bil f ∧ footLo bil f ≤ 0) ∧ 0 ≤ footHi bil f ∧ footHi bil f ≤ 3 := by
  unfold footLo footHi
  split_ifs <;> decide

/-- The positions an axis reads are an interval. -/
theorem footAxis_iff (bil : Bool) (f : Nat) (i x : Int) :
    (if f = 0 then x = i else if bil then i ≤ x ∧ x ≤ i + 1 else i - 2 ≤ x ∧ x ≤ i + 3) ↔
      i + footLo bil f ≤ x ∧ x ≤ i + footHi bil f := by
  unfold footLo footHi
  split_ifs <;> omega

/-- A footprint is a rectangle. -/
theorem inFootprint_iff {bil : Bool} {o : Source} {x y : Int} : InFootprint bil o x y ↔
    (o.ix + footLo bil o.fx ≤ x ∧ x ≤ o.ix + footHi bil o.fx) ∧
      o.iy + footLo bil o.fy ≤ y ∧ y ≤ o.iy + footHi bil o.fy := by
  rw [InFootprint, footAxis_iff, footAxis_iff]

theorem inFootprint_footMin (bil : Bool) (p : Plane) (o : Source) :
    InFootprint bil o (footMin bil p o).x (footMin bil p o).y := by
  have hx := foot_bounds bil o.fx
  have hy := foot_bounds bil o.fy
  simp only [inFootprint_iff, footMin]
  omega

theorem inFootprint_footMax (bil : Bool) (p : Plane) (o : Source) :
    InFootprint bil o (footMax bil p o).x (footMax bil p o).y := by
  have hx := foot_bounds bil o.fx
  have hy := foot_bounds bil o.fy
  simp only [inFootprint_iff, footMax]
  omega

/-- At phase 0 on both axes the footprint is the one pixel. -/
theorem inFootprint_zero {bil : Bool} {i j x y : Int} :
    InFootprint bil { ix := i, iy := j, fx := 0, fy := 0 } x y ↔ x = i ∧ y = j := by
  simp only [InFootprint, if_true]

theorem Visible.readable {c : CfgRegs} {q : Point} (h : Visible c q) : Readable c q := by
  obtain ⟨hx, hx', hy, hy'⟩ := h
  have hborder : 0 ≤ planeB c q.plane := by cases q.plane <;> exact Int.natCast_nonneg _
  unfold Readable
  omega

/-- The two corners of a footprint are readable exactly when all of it is: both are rectangles (R392). -/
theorem footReadable_iff {c : CfgRegs} {p : Plane} {o : Source} : footReadable c p o = true ↔
    ∀ x y, InFootprint c.mcBilinear o x y → Readable c { plane := p, x := x, y := y } := by
  simp only [footReadable, Bool.and_eq_true, readable_iff]
  constructor
  · rintro ⟨⟨hlo, -, hlo', -⟩, -, hhi, -, hhi'⟩ x y hxy
    obtain ⟨⟨hx, hx'⟩, hy, hy'⟩ := inFootprint_iff.1 hxy
    exact ⟨hlo.trans hx, hx'.trans_lt hhi, hlo'.trans hy, hy'.trans_lt hhi'⟩
  · exact fun h => ⟨h _ _ (inFootprint_footMin _ p o), h _ _ (inFootprint_footMax _ p o)⟩

/-- MC_MB's fourth check is that every footprint of the macroblock is readable (R395). -/
theorem allSources_footReadable_iff {c : CfgRegs} {split clamp : Bool} :
    allSources c split clamp (footReadable c) = true ↔ FootprintsReadable c split clamp := by
  simp only [allSources_iff, footReadable_iff, FootprintsReadable]

/-- A footprint whose pixels have addresses in data memory passes the model's check of its corners. -/
theorem footAddrOk_of_forall {c : CfgRegs} {slot : Nat} {p : Plane} {o : Source}
    (h : ∀ x y, InFootprint c.mcBilinear o x y →
      0 ≤ pixelAddr c slot p x y ∧ pixelAddr c slot p x y < (memSize : Int)) : footAddrOk c slot p o = true := by
  refine pointsOk_iff.2 fun q hq => pixelOk_iff.2 ?_
  rcases List.mem_pair.1 hq with rfl | rfl
  · exact h _ _ (inFootprint_footMin _ p o)
  · exact h _ _ (inFootprint_footMax _ p o)

/-! ### The border (R400) -/

/-- On one axis: a component within the clamp's range of a macroblock at `x0` in a plane of size `w` reads at most 21 pixels
before the plane and at most 21 after it. -/
theorem lumaFootprint_bounds {bil : Bool} {f : Nat} {x0 w x v z : Int} (hx : x0 ≤ x) (hx' : x < x0 + 16)
    (hv : -(4 * x0) - 76 ≤ v) (hv' : v ≤ 4 * (w - 16 - x0) + 72) (hz : x + v / 4 + footLo bil f ≤ z)
    (hz' : z ≤ x + v / 4 + footHi bil f) : -21 ≤ z ∧ z < w + 21 := by
  have hfoot := foot_bounds bil f
  omega

/-- Settles O51: the clamp's range is `uclamp_bounds`, and what it leaves each axis to read `lumaFootprint_bounds`. -/
theorem borderSufficiency : Obligations.BorderSufficiency := by
  unfold Obligations.BorderSufficiency
  intro c split clamp hp w h inRange
  refine ⟨fun hclamp b => ?clamped, fun hrange q hq hmb x y hfoot => ?footprint⟩
  case clamped =>
    obtain ⟨⟨hl, hr⟩, ht, hb⟩ := edges_of_posOk hp
    obtain ⟨hcol, hcol'⟩ := uclamp_bounds hl hr (mvReg c (if split then b else 0)).col
    obtain ⟨hrow, hrow'⟩ := uclamp_bounds ht hb (mvReg c (if split then b else 0)).row
    rw [lumaMv, if_pos hclamp]
    exact ⟨hcol, hcol', hrow, hrow'⟩
  case footprint =>
    obtain ⟨p, qx, qy⟩ := q
    obtain rfl : p = .y := hq
    obtain ⟨hqx, hqx', hqy, hqy'⟩ := hmb
    simp only [mbSize, Nat.cast_ofNat] at hqx hqx' hqy hqy'
    rw [sourceAt, mvAt_luma rfl, inFootprint_iff] at hfoot
    obtain ⟨hcol, hcol', hrow, hrow'⟩ :=
      hrange (4 * ((qy - mbY c .y) / 4) + (qx - mbX c .y) / 4).toNat (by omega)
    obtain ⟨⟨hx, hx'⟩, hy, hy'⟩ := hfoot
    obtain ⟨hxlo, hxhi⟩ := lumaFootprint_bounds hqx hqx' hcol hcol' hx hx'
    obtain ⟨hylo, hyhi⟩ := lumaFootprint_bounds hqy hqy' hrow hrow' hy hy'
    refine ⟨⟨hxlo, hxhi, hylo, hyhi⟩, fun hborder => ?_⟩
    simp only [Readable, planeB]
    omega

end Sys2Proof.Machine
end

section
/-! The two interpolation filters (45_inter.md R380, R388, R389): each is one filter along a row and then along a column, and
which values it can give. -/

namespace Sys2Proof.Machine

theorem asr_seven (a : Int) : asr a 7 = a / 128 := rfl

/-! ### Along one axis -/

/-- The six-tap filter along one axis at phase `f`, around place `z` of the pixels `g`. -/
def sixTapAxis (T : Config.Tables) (f : Nat) (g : Int → Int) (z : Int) : Int :=
  if f = 0 then g z
  else clamp255 (asr (((List.range 6).map fun k => sixTapAt T f k * g (z - 2 + (k : Int))).sum + 64) 7)

/-- The bilinear filter along one axis. -/
def bilinearAxis (T : Config.Tables) (f : Nat) (g : Int → Int) (z : Int) : Int :=
  if f = 0 then g z else asr (bilinearAt T f 0 * g z + bilinearAt T f 1 * g (z + 1) + 64) 7

/-- The filter that `interpolate` uses, along one axis. -/
def axisFilter (T : Config.Tables) (bil : Bool) : Nat → (Int → Int) → Int → Int :=
  if bil then bilinearAxis T else sixTapAxis T

/-- A prediction filters each row it needs, and then the column of the results. -/
theorem interpolate_eq (T : Config.Tables) (bil : Bool) (rf : Int → Int → Int) (o : Source) : interpolate T bil rf o =
    axisFilter T bil o.fy (fun j => axisFilter T bil o.fx (fun i => rf i j) o.ix) o.iy := by
  cases bil <;> rfl

/-- At phase 0 a filter copies the pixel. -/
theorem axisFilter_zero (T : Config.Tables) (bil : Bool) (g : Int → Int) (z : Int) : axisFilter T bil 0 g z = g z := by
  cases bil <;> rfl

/-- With both phases 0 either filter copies the pixel (R397). -/
theorem interpolate_zero (T : Config.Tables) (bil : Bool) (rf : Int → Int → Int) (x y : Int) :
    interpolate T bil rf { ix := x, iy := y, fx := 0, fy := 0 } = rf x y := by
  rw [interpolate_eq, axisFilter_zero, axisFilter_zero]

/-- The six taps written out (R388). -/
theorem sixTapAxis_eq (T : Config.Tables) (f : Nat) (g : Int → Int) (z : Int) : sixTapAxis T f g z =
    if f = 0 then g z
    else max 0 (min 255 ((sixTapAt T f 0 * g (z - 2) + sixTapAt T f 1 * g (z - 1) + sixTapAt T f 2 * g z +
      sixTapAt T f 3 * g (z + 1) + sixTapAt T f 4 * g (z + 2) + sixTapAt T f 5 * g (z + 3) + 64) / 128)) := by
  simp only [sixTapAxis, List.sum_range_succ, List.range_zero, List.map_nil, List.sum_nil, zero_add, asr_seven, clamp255,
    clamp_eq_max_min (show (0 : Int) ≤ 255 by decide), Nat.cast_zero, Nat.cast_one, Nat.cast_ofNat, add_zero,
    sub_add_cancel, show z - 2 + 1 = z - 1 by ring, show z - 2 + 3 = z + 1 by ring, show z - 2 + 4 = z + 2 by ring,
    show z - 2 + 5 = z + 3 by ring]

/-! ### The values are pixels -/

/-- The rows of T_BILINEAR are weights: not negative, of sum 128. -/
def BilinearWeights (T : Config.Tables) : Prop :=
  ∀ f, f < 8 → 0 ≤ bilinearAt T f 0 ∧ 0 ≤ bilinearAt T f 1 ∧ bilinearAt T f 0 + bilinearAt T f 1 = 128

/-- A weighted mean of two pixels, rounded. -/
theorem IsPixel.weighted {a b u v : Int} (ha : 0 ≤ a) (hb : 0 ≤ b) (hab : a + b = 128) (hu : IsPixel u) (hv : IsPixel v) :
    IsPixel ((a * u + b * v + 64) / 128) := by
  have hau := mul_nonneg ha hu.1
  have hbv := mul_nonneg hb hv.1
  have hau' := mul_le_mul_of_nonneg_left hu.2 ha
  have hbv' := mul_le_mul_of_nonneg_left hv.2 hb
  exact isPixel_mean (by omega) (by omega) (by decide) (by decide)

/-- Past the eight phases the table has no row. -/
theorem bilinearAt_outside (T : Config.Tables) {f : Nat} (hf : 8 ≤ f) (k : Nat) : bilinearAt T f k = 0 := by
  have hrow : T.bilinear[f]? = none := Vector.getElem?_eq_none hf
  simp only [bilinearAt, fileGet, hrow, Option.getD_none, Vector.getElem?_replicate]
  split_ifs <;> rfl

theorem isPixel_bilinearAxis {T : Config.Tables} (hT : BilinearWeights T) {g : Int → Int} (hg : ∀ z, IsPixel (g z))
    (f : Nat) (z : Int) : IsPixel (bilinearAxis T f g z) := by
  unfold bilinearAxis
  split_ifs
  · exact hg z
  rw [asr_seven]
  by_cases hf : f < 8
  · obtain ⟨ha, hb, hab⟩ := hT f hf
    exact IsPixel.weighted ha hb hab (hg z) (hg (z + 1))
  · rw [bilinearAt_outside T (Nat.not_lt.1 hf), bilinearAt_outside T (Nat.not_lt.1 hf), zero_mul, zero_mul]
    exact ⟨by decide, by decide⟩

theorem isPixel_sixTapAxis (T : Config.Tables) {g : Int → Int} (hg : ∀ z, IsPixel (g z)) (f : Nat) (z : Int) :
    IsPixel (sixTapAxis T f g z) := by
  unfold sixTapAxis
  split_ifs
  · exact hg z
  · exact isPixel_clamp255 _

theorem isPixel_axisFilter {T : Config.Tables} (hT : BilinearWeights T) (bil : Bool) {g : Int → Int}
    (hg : ∀ z, IsPixel (g z)) (f : Nat) (z : Int) : IsPixel (axisFilter T bil f g z) := by
  cases bil
  · exact isPixel_sixTapAxis T hg f z
  · exact isPixel_bilinearAxis hT hg f z

/-- A prediction from pixels is a pixel. -/
theorem isPixel_interpolate {T : Config.Tables} (hT : BilinearWeights T) {rf : Int → Int → Int}
    (hrf : ∀ x y, IsPixel (rf x y)) (bil : Bool) (o : Source) : IsPixel (interpolate T bil rf o) := by
  rw [interpolate_eq]
  exact isPixel_axisFilter hT bil (fun j => isPixel_axisFilter hT bil (fun i => hrf i j) _ _) _ _

/-! ### The default tables (R380) -/

theorem romTables_sixTap_sum {f : Nat} (hf : f < 8) : ((List.range 6).map (sixTapAt romTables f)).sum = 128 := by
  decide +revert

theorem romTables_bilinearWeights : BilinearWeights romTables := by
  unfold BilinearWeights
  decide

end Sys2Proof.Machine
end

section
/-! MC_MB (45_inter.md R395, R397): the checks in order, the command that passes them, and the pixels it writes. -/

namespace Sys2Proof.Machine

/-! ### Values taken modulo 256 (log entry 7) -/

/-- The write with its value taken to a byte. -/
def PixelWrite.toByte (w : PixelWrite) : PixelWrite := { w with value := w.value % 256 }

theorem writePixel_toByte (c : CfgRegs) (slot : Nat) (m : List Host.Cell) (w : PixelWrite) :
    writePixel c slot m w.toByte = writePixel c slot m w := by
  have hbyte : BitVec.ofInt 8 (w.value % 256) = BitVec.ofInt 8 w.value := by
    apply BitVec.eq_of_toNat_eq
    simp only [BitVec.toNat_ofInt]
    omega
  rw [writePixel, writePixel, PixelWrite.toByte, hbyte]

/-- Writing the points `P`, each with a value of which the byte takes the remainder, and no others. -/
theorem pixelsWritten_writePixels_emod {c : CfgRegs} {slot : Nat} {P : Point → Prop} {v : Point → Int}
    {ws : List PixelWrite} (hws : ∀ w, w ∈ ws ↔ P w.at_ ∧ w.value = v w.at_) (haddr : ∀ q, P q → 0 ≤ q.addr c slot)
    (m : List Host.Cell) : PixelsWritten c slot P (fun q => v q % 256) m (writePixels c slot ws m) := by
  have hsame : writePixels c slot (ws.map PixelWrite.toByte) m = writePixels c slot ws m := by
    simp only [writePixels, List.foldl_map, writePixel_toByte]
  rw [← hsame]
  refine pixelsWritten_writePixels (fun w => ?_) haddr (fun q _ => by omega) m
  rw [List.mem_map]
  constructor
  · rintro ⟨u, hu, rfl⟩
    obtain ⟨hP, hval⟩ := (hws u).1 hu
    exact ⟨hP, congrArg (· % 256) hval⟩
  · rintro ⟨hP, hval⟩
    exact ⟨⟨w.at_, v w.at_⟩, (hws _).2 ⟨hP, rfl⟩, by rw [PixelWrite.toByte, ← hval]⟩

/-! ### The checks (R395) -/

section
variable {r : Nat} (split clamp : Bool) {s : State}

theorem exec_mcMb_badParam (hr : r = 0) (s : State) : exec (.mcMb r split clamp) s =
    .next (errorEntry .badParam (Instr.mcMb r split clamp).word s) := if_pos hr

variable (hr : 1 ≤ r)
include hr

theorem exec_mcMb_posOob (hp : posOk s.cfg = false) : exec (.mcMb r split clamp) s =
    .next (errorEntry .posOob (Instr.mcMb r split clamp).word s) := by
  rw [exec, execMcMb, if_neg (Nat.ne_of_gt hr), if_pos (by simp [hp]), raise]

variable (hp : posOk s.cfg = true)
include hp

theorem exec_mcMb_refIsCur (hcur : s.cfg.roleSlot r = s.cfg.cur) : exec (.mcMb r split clamp) s =
    .next (errorEntry .refIsCur (Instr.mcMb r split clamp).word s) := by
  rw [exec, execMcMb, if_neg (Nat.ne_of_gt hr), if_neg (by simp [hp]), if_pos hcur, raise]

variable (hcur : s.cfg.roleSlot r ≠ s.cfg.cur)
include hcur

theorem exec_mcMb_mcOob (hfoot : ¬ FootprintsReadable s.cfg split clamp) : exec (.mcMb r split clamp) s =
    .next (errorEntry .mcOob (Instr.mcMb r split clamp).word s) := by
  rw [exec, execMcMb, if_neg (Nat.ne_of_gt hr), if_neg (by simp [hp]), if_neg hcur,
    if_pos (mt allSources_footReadable_iff.1 hfoot), raise]

end

/-! ### The pixels written (R395) -/

/-- The prediction of a point of the macroblock from slot `sr` of memory m. -/
def predictionAt (T : Config.Tables) (c : CfgRegs) (m : List Host.Cell) (sr : Nat) (split clamp : Bool) (q : Point) : Int :=
  interpolate T c.mcBilinear (fun x y => pixelAt c m sr { plane := q.plane, x := x, y := y }) (sourceAt c split clamp q)

/-- The writes of the three planes: one for each of the macroblock's pixels, with its prediction. -/
theorem mem_interWrites_iff {T : Config.Tables} {c : CfgRegs} {m : List Host.Cell} {sr : Nat} {split clamp : Bool}
    {w : PixelWrite} : w ∈ [Plane.y, .u, .v].flatMap (interWrites T c m sr split clamp) ↔
      InMb c w.at_ ∧ w.value = predictionAt T c m sr split clamp w.at_ := by
  have hval {p : Plane} {x y : Int} (hx : mbX c p ≤ x) (hy : mbY c p ≤ y) :
      interPred T c m sr split clamp p (y - mbY c p).toNat (x - mbX c p).toNat =
        predictionAt T c m sr split clamp { plane := p, x := x, y := y } := by
    rw [interPred, pixelSource_eq_sourceAt, Int.toNat_of_nonneg (Int.sub_nonneg.2 hx),
      Int.toNat_of_nonneg (Int.sub_nonneg.2 hy), add_sub_cancel, add_sub_cancel]
    rfl
  obtain ⟨⟨p, x, y⟩, v⟩ := w
  simp only [List.mem_flatMap, interWrites, mem_areaWrites_iff]
  constructor
  · rintro ⟨_, -, ⟨rfl, hin⟩, rfl⟩
    exact ⟨hin, hval hin.1 hin.2.2.1⟩
  · rintro ⟨hin, rfl⟩
    exact ⟨p, by cases p <;> decide, ⟨rfl, hin⟩, (hval hin.1 hin.2.2.1).symm⟩

/-- MC_MB with its checks passed and every pixel it reads or writes in data memory: the pixels of the macroblock become their
predictions, and nothing else changes. -/
theorem exec_mcMb_complete {r : Nat} {split clamp : Bool} {s : State} (hr : 1 ≤ r) (hp : posOk s.cfg = true)
    (hcur : s.cfg.roleSlot r ≠ s.cfg.cur) (hfoot : FootprintsReadable s.cfg split clamp)
    (hread : ∀ q, InMb s.cfg q → ∀ x y, InFootprint s.cfg.mcBilinear (sourceAt s.cfg split clamp q) x y →
      0 ≤ pixelAddr s.cfg (s.cfg.roleSlot r) q.plane x y ∧
        pixelAddr s.cfg (s.cfg.roleSlot r) q.plane x y < (memSize : Int))
    (hv : VisibleInMemory s.cfg s.cfg.cur) :
    ∃ m, exec (.mcMb r split clamp) s = .next { s with mem := m } ∧
      PixelsWritten s.cfg s.cfg.cur (InMb s.cfg)
        (fun q => predictionAt s.rom s.cfg s.mem (s.cfg.roleSlot r) split clamp q % 256) s.mem m := by
  have hreads : allSources s.cfg split clamp (footAddrOk s.cfg (s.cfg.roleSlot r)) = true :=
    allSources_iff.2 fun q hq => footAddrOk_of_forall (hread q hq)
  have hwrites : pointsOk s.cfg s.cfg.cur (mbAllPoints s.cfg) = true :=
    pointsOk_iff.2 fun q hq => pixelOk_iff.2 (hv q ((inMb_of_mem_mbAllPoints hq).visible hp))
  refine ⟨_, ?_, pixelsWritten_writePixels_emod (fun _ => mem_interWrites_iff) (fun q hq => (hv q (hq.visible hp)).1) _⟩
  rw [exec, execMcMb, if_neg (Nat.ne_of_gt hr), if_neg (by simp [hp]), if_neg hcur,
    if_neg (not_not_intro (allSources_footReadable_iff.2 hfoot)), hreads, hwrites, if_neg (by simp), State.setMem]

/-! ### The zero vector (R397) -/

/-- Settles O50: every source is the pixel's own place (`sourceAt_zero`), where either filter copies (`interpolate_zero`). -/
theorem zeroVectorCopies : Obligations.ZeroVectorCopies := by
  unfold Obligations.ZeroVectorCopies
  intro s r clamp hr hp hcur hmv href hv
  have hsource := sourceAt_zero hp hmv clamp
  have hplace {bil : Bool} {q : Point} {x y : Int} (h : InFootprint bil (sourceAt s.cfg false clamp q) x y) :
      ({ plane := q.plane, x := x, y := y } : Point) = q := by
    rw [hsource, inFootprint_zero] at h
    rw [h.1, h.2]
  have hfoot : FootprintsReadable s.cfg false clamp := fun q hq x y h => by
    rw [hplace h]
    exact (hq.visible hp).readable
  obtain ⟨m, hexec, hpixels⟩ := exec_mcMb_complete hr hp hcur hfoot (fun q hq x y h => by
    rw [← hplace h] at hq
    exact href _ (hq.visible hp)) hv
  refine ⟨m, hexec, hpixels.congr (fun _ => Iff.rfl) fun q _ => ?_⟩
  rw [predictionAt, hsource, interpolate_zero]
  obtain ⟨hlo, hhi⟩ := isPixel_pixel s.cfg s.mem (s.cfg.roleSlot r) q.plane q.x q.y
  exact Int.emod_eq_of_lt hlo (hhi.trans_lt (by decide))

/-! ### The rule (R395) -/

/-- Settles O49: the pixels are `exec_mcMb_complete`'s, the vectors' arithmetic is `uclampMv_eq` and `chromaAvg_eq`, the places
`sourceOf_luma` and `sourceOf_chroma`, and a prediction is one filter per axis (`interpolate_eq`) that gives pixels. -/
theorem mcMbRule : Obligations.McMbRule := by
  unfold Obligations.McMbRule
  refine ⟨fun s r split clamp => ?command, fun c split clamp => ?sources, fun T rf q => ?filters, by decide, by decide,
    fun f hf => ⟨romTables_sixTap_sum hf, romTables_bilinearWeights f hf⟩⟩
  case command =>
    intro c i
    refine ⟨fun hr => exec_mcMb_badParam split clamp hr s, fun hr hp => exec_mcMb_posOob split clamp hr hp,
      fun hr hp hcur => exec_mcMb_refIsCur split clamp hr hp hcur,
      fun hr hp hcur hfoot => exec_mcMb_mcOob split clamp hr hp hcur hfoot, fun hr hp hcur hfoot href hv => ?_⟩
    exact exec_mcMb_complete hr hp hcur hfoot (fun q hq x y h => href _ (hfoot q hq x y h)) hv
  case sources =>
    intro x0 y0 uc ucv row col sum avg whole
    have hucv (v : Mv) : uclampMv c v = ucv v := uclampMv_eq c v
    have hreg (b : Nat) : mvReg c b = ⟨row b, col b⟩ := by rw [mvReg, mvRow_eq, mvCol_eq]
    have havg (n : Int) : chromaAvg n = avg n := chromaAvg_eq n
    refine ⟨fun b hb => ?luma, fun j hj => ?chroma, fun q hq => ?place⟩
    case luma =>
      intro k v
      simp only [lumaMv, hucv, hreg]
      rfl
    case chroma =>
      intro k v w
      have hw : (if c.chromaFullpixel then { row := fullPixel v.row, col := fullPixel v.col } else v) = w := by
        rw [chromaFullpixel_eq]
        simp only [w, whole]
        split_ifs <;> rfl
      rw [← hw]
      simp only [chromaMv, hucv, mvRow_eq, mvCol_eq, havg]
      rfl
    case place =>
      intro o
      split_ifs with h
      · intro v
        have ho : o = sourceOf q.plane q.x q.y v := congrArg (sourceOf q.plane q.x q.y) (mvAt_luma h split clamp)
        rw [ho, h]
        exact sourceOf_luma q.x q.y v
      · intro v
        have ho : o = sourceOf q.plane q.x q.y v := congrArg (sourceOf q.plane q.x q.y) (mvAt_chroma h split clamp)
        rw [ho]
        exact sourceOf_chroma h q.x q.y v
  case filters =>
    intro pixelOf six two
    have hsix (f : Nat) (g : Int → Int) (z : Int) : sixTapAxis T f g z = six f g z := sixTapAxis_eq T f g z
    refine ⟨?_, rfl, fun hrf hT bil => isPixel_interpolate hT hrf bil q⟩
    rw [interpolate_eq]
    simp only [axisFilter, Bool.false_eq_true, if_false, hsix]

end Sys2Proof.Machine
end

section
/-! The level, the limits and the threshold of the loop filter in numbers (46_loopfilter.md R420, R422 to R425). -/

namespace Sys2Proof.Machine

/-! ### The effective level (R420) -/

theorem lfLevel_eq (c : CfgRegs) : c.lfLevel = (c.lfCfg.extractLsb' 0 6).toNat := bits_toNat _

theorem lfSharpness_eq (c : CfgRegs) : c.lfSharpness = (c.lfCfg.extractLsb' 8 3).toNat := bits_toNat _

theorem lfSimple_eq (c : CfgRegs) : c.lfSimple = c.lfCfg.getLsbD 16 := bit_toNat _ _

theorem lfDeltaEn_eq (c : CfgRegs) : c.lfDeltaEn = c.lfCfg.getLsbD 17 := bit_toNat _ _

theorem keyFrame_eq (c : CfgRegs) : c.keyFrame = c.decCfg.getLsbD 0 := bit_toNat _ _

theorem segLevel_eq (c : CfgRegs) (seg : Nat) : segLevel c seg =
    if c.segCfg.getLsbD 0 = false then ((c.lfCfg.extractLsb' 0 6).toNat : Int)
    else if c.segCfg.getLsbD 1 then max 0 (min 63 (c.segLf.extractLsb' (8 * seg) 8).toInt)
    else max 0 (min 63 ((c.lfCfg.extractLsb' 0 6).toNat + (c.segLf.extractLsb' (8 * seg) 8).toInt)) := by
  simp only [segLevel, CfgRegs.segEnabled, CfgRegs.segAbs, bit_toNat, lfLevel_eq, signedLane_eq, Bool.not_eq_true',
    clamp_eq_max_min (show (0 : Int) ≤ 63 by decide)]

theorem modeDelta_eq (c : CfgRegs) (ref mode : Nat) : modeDelta c ref mode =
    if ref = 0 then (if mode = 4 then (c.lfModeDelta.extractLsb' (8 * 0) 8).toInt else 0)
    else if mode = 7 then (c.lfModeDelta.extractLsb' (8 * 1) 8).toInt
    else if mode = 9 then (c.lfModeDelta.extractLsb' (8 * 3) 8).toInt
    else (c.lfModeDelta.extractLsb' (8 * 2) 8).toInt := by
  simp only [modeDelta, signedLane_eq, modeBPred, modeZeroMv, modeSplitMv]

theorem filterLevel_eq (c : CfgRegs) (seg ref mode : Nat) : filterLevel c seg ref mode =
    if c.lfCfg.getLsbD 17 = false then segLevel c seg
    else max 0 (min 63 (segLevel c seg + (c.lfRefDelta.extractLsb' (8 * ref) 8).toInt + modeDelta c ref mode)) := by
  simp only [filterLevel, lfDeltaEn_eq, signedLane_eq, Bool.not_eq_true', clamp_eq_max_min (show (0 : Int) ≤ 63 by decide)]

theorem segLevel_bounds (c : CfgRegs) (seg : Nat) : 0 ≤ segLevel c seg ∧ segLevel c seg ≤ 63 := by
  have hlevel := (c.lfCfg.extractLsb' 0 6).isLt
  rw [segLevel_eq]
  split_ifs <;> omega

theorem filterLevel_bounds (c : CfgRegs) (seg ref mode : Nat) :
    0 ≤ filterLevel c seg ref mode ∧ filterLevel c seg ref mode ≤ 63 := by
  rw [filterLevel_eq]
  split_ifs
  · exact segLevel_bounds c seg
  · omega

/-! ### The limits and the threshold (R422, R423, R425) -/

/-- The level is halved at a sharpness above 0, twice at one above 4, and bounded by 9 less the sharpness. -/
theorem interiorLimit_eq (lvl : Int) (sharp : Nat) : interiorLimit lvl sharp =
    max 1 (if sharp = 0 then lvl else min (lvl / (if 4 < sharp then 4 else 2)) (9 - sharp)) := by
  rw [interiorLimit, max_comm]
  rcases Nat.eq_zero_or_pos sharp with rfl | hpos
  · simp [asr]
  · by_cases h4 : 4 < sharp <;> simp [asr, hpos, hpos.ne', h4]

theorem interiorLimit_bounds {lvl : Int} (h1 : 1 ≤ lvl) (h63 : lvl ≤ 63) (sharp : Nat) :
    1 ≤ interiorLimit lvl sharp ∧ interiorLimit lvl sharp ≤ 63 := by
  rw [interiorLimit_eq]
  split_ifs <;> omega

/-- Settles O52: the level is `filterLevel_eq` and `filterLevel_bounds`, the interior limit `interiorLimit_eq` and its bounds, from
which those of E_mb and E_in follow. -/
theorem lfLevelAndLimits : Obligations.LfLevelAndLimits := by
  unfold Obligations.LfLevelAndLimits
  refine ⟨fun c seg ref mode _ _ => ?level, fun lvl sharp h1 h63 _ => ?limits, fun lvl key _ _ => ?threshold⟩
  case level =>
    intro lane cl level lvlSeg mdelta
    have hseg : segLevel c seg = lvlSeg := segLevel_eq c seg
    have hmode : modeDelta c ref mode = mdelta := modeDelta_eq c ref mode
    refine ⟨?_, filterLevel_bounds c seg ref mode⟩
    rw [filterLevel_eq, hseg, hmode]
  case limits =>
    intro i
    have hi : 1 ≤ i ∧ i ≤ 63 := interiorLimit_bounds h1 h63 sharp
    refine ⟨interiorLimit_eq lvl sharp, rfl, rfl, hi, ?_, ?_⟩
    · rw [edgeLimitIn]
      omega
    · rw [edgeLimitMb]
      omega
  case threshold =>
    unfold hevThreshold
    refine ⟨fun h => ?_, fun h h' => ?_, fun h h' => ?_, fun h => ?_⟩
    · rw [if_pos h]
    · rw [if_neg (by omega), if_pos h]
    · rw [if_neg (by omega), if_neg (by omega), if_pos h]
    · rw [if_neg (by omega), if_neg (by omega), if_neg (by omega)]

end Sys2Proof.Machine
end

section
/-! The filters of a line in numbers (46_loopfilter.md R427 to R429, R431, R439): the masks, the values the filters leave, and
the lines they leave unchanged. -/

namespace Sys2Proof.Machine

theorem asr_one (a : Int) : asr a 1 = a / 2 := rfl

theorem sclamp8_eq_max_min (v : Int) : sclamp8 v = max (-128) (min 127 v) := clamp_eq_max_min (by decide) v

theorem absI_sub (a b : Int) : absI (a - b) = max (a - b) (b - a) := by
  unfold absI
  omega

/-! ### The masks (R427) -/

theorem simpleMask_iff {l : Line8} {e : Int} : simpleMask l e = true ↔
    max (l.p0 - l.q0) (l.q0 - l.p0) * 2 + max (l.p1 - l.q1) (l.q1 - l.p1) / 2 ≤ e := by
  rw [simpleMask, decide_eq_true_iff, absI_sub, absI_sub, asr_one]

theorem normalMask_iff {l : Line8} {e i : Int} : normalMask l e i = true ↔
    max (l.p3 - l.p2) (l.p2 - l.p3) ≤ i ∧ max (l.p2 - l.p1) (l.p1 - l.p2) ≤ i ∧ max (l.p1 - l.p0) (l.p0 - l.p1) ≤ i ∧
    max (l.q1 - l.q0) (l.q0 - l.q1) ≤ i ∧ max (l.q2 - l.q1) (l.q1 - l.q2) ≤ i ∧ max (l.q3 - l.q2) (l.q2 - l.q3) ≤ i ∧
    max (l.p0 - l.q0) (l.q0 - l.p0) * 2 + max (l.p1 - l.q1) (l.q1 - l.p1) / 2 ≤ e := by
  simp only [normalMask, Bool.and_eq_true, decide_eq_true_eq, absI_sub, simpleMask_iff, and_assoc]

theorem hev_iff {l : Line8} {t : Int} : hev l t = true ↔
    t < max (l.p1 - l.p0) (l.p0 - l.p1) ∨ t < max (l.q1 - l.q0) (l.q0 - l.q1) := by
  simp only [hev, Bool.or_eq_true, decide_eq_true_eq, absI_sub]

/-! ### Lines of pixels (R426) -/

/-- Pixel k of a line, k = 0..7 for p3, p2, p1, p0, q0, q1, q2, q3. -/
def Line8.px (l : Line8) : Nat → Int
  | 0 => l.p3
  | 1 => l.p2
  | 2 => l.p1
  | 3 => l.p0
  | 4 => l.q0
  | 5 => l.q1
  | 6 => l.q2
  | _ => l.q3

theorem Line8.ext_px {l n : Line8} (h : ∀ k, k < 8 → l.px k = n.px k) : l = n := by
  obtain ⟨a0, a1, a2, a3, a4, a5, a6, a7⟩ := l
  obtain ⟨b0, b1, b2, b3, b4, b5, b6, b7⟩ := n
  rw [Line8.mk.injEq]
  exact ⟨h 0 (by decide), h 1 (by decide), h 2 (by decide), h 3 (by decide), h 4 (by decide), h 5 (by decide),
    h 6 (by decide), h 7 (by decide)⟩

/-- Every value of the line is a pixel's. -/
structure Line8.ArePixels (l : Line8) : Prop where
  p3 : IsPixel l.p3
  p2 : IsPixel l.p2
  p1 : IsPixel l.p1
  p0 : IsPixel l.p0
  q0 : IsPixel l.q0
  q1 : IsPixel l.q1
  q2 : IsPixel l.q2
  q3 : IsPixel l.q3

theorem Line8.arePixels_iff {l : Line8} :
    l.ArePixels ↔ ∀ v ∈ [l.p3, l.p2, l.p1, l.p0, l.q0, l.q1, l.q2, l.q3], 0 ≤ v ∧ v ≤ 255 := by
  simp only [List.forall_mem_cons, List.not_mem_nil, false_imp_iff, implies_true, and_true]
  exact ⟨fun ⟨h0, h1, h2, h3, h4, h5, h6, h7⟩ => ⟨h0, h1, h2, h3, h4, h5, h6, h7⟩,
    fun ⟨h0, h1, h2, h3, h4, h5, h6, h7⟩ => ⟨h0, h1, h2, h3, h4, h5, h6, h7⟩⟩

theorem Line8.ArePixels.px {l : Line8} (h : l.ArePixels) (k : Nat) : IsPixel (l.px k) := by
  unfold Line8.px
  split
  exacts [h.p3, h.p2, h.p1, h.p0, h.q0, h.q1, h.q2, h.q3]

/-! ### What a filter leaves (R428, R429, R431, R432) -/

/-- A filter's values are signed bytes, moved back to pixels. -/
theorem isPixel_sclamp8 (v : Int) : IsPixel (sclamp8 v + 128) := by
  rw [sclamp8_eq_max_min]
  unfold IsPixel
  omega

theorem sclamp8_sub_128 {v : Int} (h : IsPixel v) : sclamp8 (v - 128) = v - 128 := by
  rw [sclamp8_eq_max_min]
  unfold IsPixel at h
  omega

/-- `n` differs from `l` in pixels inside the outermost two only, and those are in 0..255 where the line's are. -/
structure FilterOf (l n : Line8) : Prop where
  p3 : n.p3 = l.p3
  q3 : n.q3 = l.q3
  arePixels : l.ArePixels → n.ArePixels

theorem filterOf_innerFilter (l : Line8) (e i t : Int) : FilterOf l (innerFilter l e i t) where
  p3 := rfl
  q3 := rfl
  arePixels h :=
    { h with
      p1 := by
        simp only [innerFilter]
        split
        exacts [h.p1, isPixel_sclamp8 _]
      p0 := isPixel_sclamp8 _
      q0 := isPixel_sclamp8 _
      q1 := by
        simp only [innerFilter]
        split
        exacts [h.q1, isPixel_sclamp8 _] }

theorem filterOf_mbFilter (l : Line8) (e i t : Int) : FilterOf l (mbFilter l e i t) where
  p3 := rfl
  q3 := rfl
  arePixels h :=
    ⟨h.p3, isPixel_sclamp8 _, isPixel_sclamp8 _, isPixel_sclamp8 _, isPixel_sclamp8 _, isPixel_sclamp8 _,
      isPixel_sclamp8 _, h.q3⟩

theorem filterOf_simpleFilter (l : Line8) (e : Int) : FilterOf l (simpleFilter l e) where
  p3 := rfl
  q3 := rfl
  arePixels h := { h with p0 := isPixel_sclamp8 _, q0 := isPixel_sclamp8 _ }

theorem filterOf_filterLine (f : FilterParams) (mbEdge : Bool) (l : Line8) : FilterOf l (filterLine f mbEdge l) := by
  unfold filterLine
  split_ifs
  exacts [filterOf_simpleFilter .., filterOf_simpleFilter .., filterOf_mbFilter .., filterOf_innerFilter ..]

/-! ### Lines left unchanged (R432, R439) -/

/-- The four middle pixels make no step across the edge that a filter could correct. -/
def Line8.FlatMiddle (l : Line8) : Prop := l.p1 = l.q1 ∧ l.p0 = l.q0

/-- The correction across the edge is 0 where the mask fails or there is no step. -/
theorem correction_eq_zero {m : Bool} {f0 p0 q0 : Int} (h : m = false ∨ (f0 = 0 ∧ p0 = q0)) :
    (if m then sclamp8 (f0 + 3 * (q0 - 128 - (p0 - 128))) else 0) = 0 := by
  rcases h with rfl | ⟨rfl, rfl⟩
  · exact if_neg (by decide)
  · rw [sub_self, mul_zero, add_zero, show sclamp8 0 = 0 from rfl, ite_self]

theorem sclamp8_step_eq_zero {a b : Int} (h : a = b) : sclamp8 (a - 128 - (b - 128)) = 0 := by
  rw [h, sub_self]
  rfl

theorem asr_sclamp8_four : asr (sclamp8 4) 3 = 0 := by decide

theorem asr_sclamp8_three : asr (sclamp8 3) 3 = 0 := by decide

section
variable {l : Line8} (hl : l.ArePixels) {e i t : Int}
include hl

theorem innerFilter_eq_self (h : normalMask l e i = false ∨ l.FlatMiddle) : innerFilter l e i t = l := by
  have hf : (if normalMask l e i then sclamp8 ((if hev l t then sclamp8 (l.p1 - 128 - (l.q1 - 128)) else 0) +
      3 * (l.q0 - 128 - (l.p0 - 128))) else 0) = 0 :=
    correction_eq_zero (h.imp_right fun ⟨h1, h0⟩ => ⟨by rw [sclamp8_step_eq_zero h1, ite_self], h0⟩)
  have ha : asr 1 1 = 0 := by decide
  simp only [innerFilter, hf, zero_add, asr_sclamp8_four, asr_sclamp8_three, ha, sub_zero, add_zero, sclamp8_sub_128,
    hl.p1, hl.p0, hl.q0, hl.q1, sub_add_cancel, ite_self]

theorem mbFilter_eq_self (h : normalMask l e i = false ∨ l.FlatMiddle) : mbFilter l e i t = l := by
  have hf : (if normalMask l e i then sclamp8 (sclamp8 (l.p1 - 128 - (l.q1 - 128)) +
      3 * (l.q0 - 128 - (l.p0 - 128))) else 0) = 0 :=
    correction_eq_zero (h.imp_right fun ⟨h1, h0⟩ => ⟨sclamp8_step_eq_zero h1, h0⟩)
  have hu : sclamp8 (asr 63 7) = 0 := by decide
  simp only [mbFilter, hf, ite_self, zero_mul, zero_add, asr_sclamp8_four, asr_sclamp8_three, hu, sub_zero, add_zero,
    sclamp8_sub_128, hl.p2, hl.p1, hl.p0, hl.q0, hl.q1, hl.q2, sub_add_cancel]

theorem simpleFilter_eq_self (h : simpleMask l e = false ∨ l.FlatMiddle) : simpleFilter l e = l := by
  have hf : (if simpleMask l e then sclamp8 (sclamp8 (l.p1 - 128 - (l.q1 - 128)) +
      3 * (l.q0 - 128 - (l.p0 - 128))) else 0) = 0 :=
    correction_eq_zero (h.imp_right fun ⟨h1, h0⟩ => ⟨sclamp8_step_eq_zero h1, h0⟩)
  simp only [simpleFilter, hf, zero_add, asr_sclamp8_four, asr_sclamp8_three, sub_zero, add_zero, sclamp8_sub_128,
    hl.p0, hl.q0, sub_add_cancel]

end

end Sys2Proof.Machine
end

section
/-! A line of an edge in memory (46_loopfilter.md R426, R430): the pixels that are written, and what the line reads as
afterwards. -/

namespace Sys2Proof.Machine

theorem readLine_px (c : CfgRegs) (m : List Host.Cell) (e : EdgeLine) {k : Nat} (hk : k < 8) :
    (readLine c m e).px k = pixelAt c m c.cur (linePoint e k) := by
  interval_cases k <;> rfl

theorem readLine_arePixels (c : CfgRegs) (m : List Host.Cell) (e : EdgeLine) : (readLine c m e).ArePixels := by
  constructor <;> exact isPixel_pixel ..

/-- The pixels written are those of p2..q2 that change. -/
theorem mem_changedPixels_iff {e : EdgeLine} {old new : Line8} {w : PixelWrite} : w ∈ changedPixels e old new ↔
    ∃ k, (1 ≤ k ∧ k ≤ 6) ∧ new.px k ≠ old.px k ∧ w = { at_ := linePoint e k, value := new.px k } := by
  have hput {k : Nat} {o n : Int} : w ∈ (if n = o then [] else [({ at_ := linePoint e k, value := n } : PixelWrite)]) ↔
      n ≠ o ∧ w = { at_ := linePoint e k, value := n } := by
    split_ifs with h <;> simp [h]
  simp only [changedPixels, List.mem_append, hput]
  constructor
  · rintro (((((h | h) | h) | h) | h) | h)
    exacts [⟨1, by decide, h⟩, ⟨2, by decide, h⟩, ⟨3, by decide, h⟩, ⟨4, by decide, h⟩, ⟨5, by decide, h⟩, ⟨6, by decide, h⟩]
  · rintro ⟨k, ⟨hk1, hk6⟩, h⟩
    interval_cases k
    · exact .inl (.inl (.inl (.inl (.inl h))))
    · exact .inl (.inl (.inl (.inl (.inr h))))
    · exact .inl (.inl (.inl (.inr h)))
    · exact .inl (.inl (.inr h))
    · exact .inl (.inr h)
    · exact .inr h

section
variable {c : CfgRegs} {e : EdgeLine} (haddr : ∀ k, k < 8 → 0 ≤ (linePoint e k).addr c c.cur)
include haddr

/-- Filtering a line leaves the bytes of all but its six middle pixels. -/
theorem readByte_filterOne_other (f : FilterParams) (m : List Host.Cell) {a : Nat}
    (ha : ∀ k, 1 ≤ k → k ≤ 6 → (linePoint e k).addr c c.cur ≠ (a : Int)) : readByte (filterOne c f m e) a = readByte m a := by
  refine (filterOne_mem c f m e).other a fun q hq hqa => ?_
  obtain ⟨k, hk, rfl⟩ := List.mem_map.1 hq
  have hk' : 1 ≤ k ∧ k ≤ 6 := (by decide : ∀ k ∈ [1, 2, 3, 4, 5, 6], 1 ≤ k ∧ k ≤ 6) k hk
  refine ha k hk'.1 hk'.2 ?_
  rw [← hqa, ← Point.addr, Int.toNat_of_nonneg (haddr k (by omega))]

variable (hown : ∀ j k, j < 8 → k < 8 → (linePoint e j).addr c c.cur = (linePoint e k).addr c c.cur → j = k)
include hown

/-- A written pixel with the address of pixel k of the line is pixel k. -/
theorem changedPixels_of_addr {old new : Line8} {w : PixelWrite} (hw : w ∈ changedPixels e old new) {k : Nat} (hk : k < 8)
    (ha : w.addr c c.cur = ((linePoint e k).addr c c.cur).toNat) : new.px k ≠ old.px k ∧ w.value = new.px k := by
  obtain ⟨j, hj, hne, rfl⟩ := mem_changedPixels_iff.1 hw
  obtain rfl : j = k := hown j k (by omega) hk (by
    rw [← Int.toNat_of_nonneg (haddr j (by omega)), ← Int.toNat_of_nonneg (haddr k hk), ← ha]
    rfl)
  exact ⟨hne, rfl⟩

/-- A line whose pixels have bytes of their own holds the new pixels once those that change are written. -/
theorem readLine_writePixels {m : List Host.Cell} {new : Line8} (hnew : FilterOf (readLine c m e) new) :
    readLine c (writePixels c c.cur (changedPixels e (readLine c m e) new) m) e = new := by
  refine Line8.ext_px fun k hk => ?_
  rw [readLine_px _ _ _ hk]
  by_cases hsame : new.px k = (readLine c m e).px k
  · rw [hsame, readLine_px _ _ _ hk, pixelAt_eq_iff]
    exact readByte_writePixels_other (fun w hw ha => (changedPixels_of_addr haddr hown hw hk ha).1 hsame) m
  · have hmid : 1 ≤ k ∧ k ≤ 6 := by
      by_contra hout
      obtain rfl | rfl : k = 0 ∨ k = 7 := by omega
      exacts [hsame hnew.p3, hsame hnew.q3]
    have hbyte : readByte (writePixels c c.cur (changedPixels e (readLine c m e) new) m)
        ((linePoint e k).addr c c.cur).toNat = BitVec.ofInt 8 (new.px k) :=
      readByte_writePixels_of_agree ⟨_, mem_changedPixels_iff.2 ⟨k, hmid, hsame, rfl⟩, rfl⟩
        (fun w hw ha => by rw [(changedPixels_of_addr haddr hown hw hk ha).2]) m
    have hpx := (hnew.arePixels (readLine_arePixels c m e)).px k
    unfold IsPixel at hpx
    rw [pixelAt, pixel, ← Point.addr, hbyte, BitVec.toNat_ofInt]
    omega

end

/-- Settles O53: the masks are `simpleMask_iff`, `normalMask_iff` and `hev_iff`; a filter keeps pixels and the outermost two
(`FilterOf`), and leaves a line with no correction to make (`innerFilter_eq_self` and its like); what is written back is
`readLine_writePixels`. -/
theorem filteredLines : Obligations.FilteredLines := by
  unfold Obligations.FilteredLines
  refine ⟨fun l e i t => ?equations, fun l e i t hl => ?pixels, fun v e i t h0 h255 => ?flat, fun c f m e => ?memory⟩
  case equations =>
    intro dist sc
    have hsc : sclamp8 = sc := funext sclamp8_eq_max_min
    refine ⟨simpleMask_iff, normalMask_iff, hev_iff, ?_, ?_, ?_⟩
    · simp only [innerFilter, asr_three, asr_one, hsc, sub_sub_sub_cancel_right]
    · simp only [mbFilter, asr_three, asr_seven, hsc, sub_sub_sub_cancel_right]
    · simp only [simpleFilter, asr_three, hsc, sub_sub_sub_cancel_right]
  case pixels =>
    rw [← Line8.arePixels_iff] at hl
    have hfilters : ∀ n ∈ [innerFilter l e i t, mbFilter l e i t, simpleFilter l e], FilterOf l n :=
      List.forall_mem_cons.2 ⟨filterOf_innerFilter l e i t,
        List.forall_mem_cons.2 ⟨filterOf_mbFilter l e i t, List.forall_mem_singleton.2 (filterOf_simpleFilter l e)⟩⟩
    exact ⟨fun n hn => ⟨Line8.arePixels_iff.1 ((hfilters n hn).arePixels hl), (hfilters n hn).p3, (hfilters n hn).q3⟩,
      fun h => ⟨innerFilter_eq_self hl (.inl h), mbFilter_eq_self hl (.inl h)⟩, fun h => simpleFilter_eq_self hl (.inl h)⟩
  case flat =>
    intro l
    have hv : IsPixel v := ⟨h0, h255⟩
    have hl : l.ArePixels := ⟨hv, hv, hv, hv, hv, hv, hv, hv⟩
    have hflat : l.FlatMiddle := ⟨rfl, rfl⟩
    exact ⟨innerFilter_eq_self hl (.inr hflat), mbFilter_eq_self hl (.inr hflat), simpleFilter_eq_self hl (.inr hflat)⟩
  case memory =>
    refine ⟨fun _ _ => rfl, rfl, fun haddr => ⟨fun a ha => readByte_filterOne_other haddr f m ha, fun hown => ?_⟩⟩
    exact readLine_writePixels haddr hown (filterOf_filterLine f e.mbEdge _)

end Sys2Proof.Machine
end

section
/-! LF_MB (46_loopfilter.md R421, R430, R433, R434, R437, R438): the checks in order, the edges of R434, and the command that
passes its checks. -/

namespace Sys2Proof.Machine

/-! ### The edges (R433, R434) -/

/-- A filtered edge has four pixels of the plane before it, and four of the macroblock after it. -/
theorem FilteredEdge.bounds {c : CfgRegs} {inner vertical : Bool} {p : Plane} {off : Int}
    (h : FilteredEdge c inner vertical p off) :
    4 ≤ (if vertical then mbX c p else mbY c p) + off ∧ off + 4 ≤ (mbSize p : Int) := by
  have hsize := eight_le_mbSize p
  obtain ⟨-, ⟨rfl, hpos⟩ | ⟨-, hoff⟩⟩ := h
  · have hstart : (mbSize p : Int) ≤ if vertical then mbX c p else mbY c p := by
      cases vertical
      exacts [mbSize_le_mbY hpos p, mbSize_le_mbX hpos p]
    omega
  · have hstart : 0 ≤ if vertical then mbX c p else mbY c p := by
      cases vertical
      exacts [mbY_nonneg c p, mbX_nonneg c p]
    have hoff := inner_offset_bounds hoff
    omega

/-- Every pixel of a filtered line is visible at a legal position. -/
theorem FilteredLine.visible {c : CfgRegs} (hp : posOk c = true) {inner : Bool} {e : EdgeLine} (h : FilteredLine c inner e)
    {k : Nat} (hk : k < 8) : Visible c (linePoint e k) := by
  obtain ⟨p, vertical, mbEdge, off, hf, he⟩ := h
  obtain ⟨j, hj, rfl⟩ := mem_edgeLines he
  have hedge := hf.bounds
  have hw := mbX_add_size_le hp p
  have hh := mbY_add_size_le hp p
  have hx0 := mbX_nonneg c p
  have hy0 := mbY_nonneg c p
  cases vertical
  · simp only [Visible, linePoint, Bool.false_eq_true, if_false] at hedge ⊢
    omega
  · simp only [Visible, linePoint, if_true] at hedge ⊢
    omega

/-- Where the visible region of slot CUR is in data memory, so are the pixels of every filtered line (R437). -/
theorem pointsOk_mbEdgeLines {c : CfgRegs} (hp : posOk c = true) (hv : VisibleInMemory c c.cur) (mode : Nat) (nocoef : Bool) :
    pointsOk c c.cur (linesPoints (mbEdgeLines c mode nocoef)) = true := by
  refine pointsOk_iff.2 fun q hq => pixelOk_iff.2 (hv q ?_)
  obtain ⟨e, he, hq⟩ := List.mem_flatMap.1 hq
  obtain ⟨k, hk, rfl⟩ := List.mem_map.1 hq
  exact (filteredLine_of_mem_mbEdgeLines he).visible hp (List.mem_range.1 hk)

/-- The chroma planes that are filtered: both in the normal family, none in the simple one (R434). -/
def lfChroma (c : CfgRegs) : List Plane := if c.lfSimple then [] else [.u, .v]

theorem mbEdgeGroup_eq (c : CfgRegs) (vertical : Bool) : mbEdgeGroup c c.lfSimple vertical =
    (Plane.y :: lfChroma c).flatMap (edgeLines c · vertical true 0) := by
  unfold mbEdgeGroup lfChroma
  cases c.lfSimple <;> simp

theorem innerEdgeGroup_eq (c : CfgRegs) (vertical : Bool) : innerEdgeGroup c c.lfSimple vertical =
    edgeLines c .y vertical false 4 ++ edgeLines c .y vertical false 8 ++ edgeLines c .y vertical false 12 ++
      (lfChroma c).flatMap (edgeLines c · vertical false 4) := by
  unfold innerEdgeGroup lfChroma
  cases c.lfSimple <;> simp

/-! ### The command (R421, R430, R438) -/

theorem lfOperandsOk_iff {ref mode : Nat} : lfOperandsOk ref mode = true ↔
    mode ≤ 9 ∧ ((ref = 0 ∧ mode ≤ 4) ∨ (1 ≤ ref ∧ 5 ≤ mode)) := by
  simp only [lfOperandsOk, Bool.and_eq_true, Bool.or_eq_true, decide_eq_true_eq]

section
variable {seg ref mode : Nat} {nocoef : Bool} {s : State}

theorem exec_lfMb_badParam (h : ¬ lfOperandsOk ref mode = true) : exec (.lfMb seg ref mode nocoef) s =
    .next (errorEntry .badParam (Instr.lfMb seg ref mode nocoef).word s) := if_pos h

variable (hok : lfOperandsOk ref mode = true)
include hok

theorem exec_lfMb_posOob (hp : posOk s.cfg = false) : exec (.lfMb seg ref mode nocoef) s =
    .next (errorEntry .posOob (Instr.lfMb seg ref mode nocoef).word s) := by
  rw [exec, execLfMb, if_neg (not_not_intro hok), if_pos (by simp [hp]), raise]

variable (hp : posOk s.cfg = true)
include hp

theorem exec_lfMb_levelZero (hz : s.cfg.lfLevel = 0 ∨ filterLevel s.cfg seg ref mode = 0) :
    exec (.lfMb seg ref mode nocoef) s = .next s := by
  rw [exec, execLfMb, if_neg (not_not_intro hok), if_neg (not_not_intro hp), if_pos hz]

theorem exec_lfMb_filters (hz : ¬ (s.cfg.lfLevel = 0 ∨ filterLevel s.cfg seg ref mode = 0))
    (hv : VisibleInMemory s.cfg s.cfg.cur) : exec (.lfMb seg ref mode nocoef) s =
      .next (s.setMem (filterLines s.cfg (filterParams s.cfg (filterLevel s.cfg seg ref mode))
        (mbEdgeLines s.cfg mode nocoef) s.mem)) := by
  rw [exec, execLfMb, if_neg (not_not_intro hok), if_neg (not_not_intro hp), if_neg hz,
    if_pos (pointsOk_mbEdgeLines hp hv mode nocoef)]

end

/-- Settles O54: the third check of LF_MB. -/
theorem lfLevelZero : Obligations.LfLevelZero := by
  unfold Obligations.LfLevelZero
  intro s seg ref mode nocoef hmode hmatch hp hz
  exact exec_lfMb_levelZero (lfOperandsOk_iff.2 ⟨hmode, hmatch⟩) hp hz

/-- Filtering the edges of R434 changes no byte but those of visible pixels within three of a filtered edge. -/
theorem readByte_filterLines_other {c : CfgRegs} (hp : posOk c = true) (hv : VisibleInMemory c c.cur) (f : FilterParams)
    {mode : Nat} {nocoef : Bool} (m : List Host.Cell) {a : Nat}
    (ha : ∀ q, Visible c q → NearFilteredEdge c (!skipInner mode nocoef) q → q.addr c c.cur ≠ (a : Int)) :
    readByte (filterLines c f (mbEdgeLines c mode nocoef) m) a = readByte m a := by
  refine (filterLines_mem c f _ m).other a fun q hq hqa => ?_
  have hnear := nearFilteredEdge_of_mem hq
  refine ha q (hnear.visible hp) hnear ?_
  rw [← hqa, ← Point.addr, Int.toNat_of_nonneg (hv q (hnear.visible hp)).1]

theorem filterParams_eq (c : CfgRegs) (lvl : Int) : filterParams c lvl =
    let i := interiorLimit lvl (c.lfCfg.extractLsb' 8 3).toNat
    ⟨c.lfCfg.getLsbD 16, i, edgeLimitMb lvl i, edgeLimitIn lvl i, hevThreshold lvl (c.decCfg.getLsbD 0)⟩ := by
  simp only [filterParams, lfSimple_eq, lfSharpness_eq, keyFrame_eq]

/-- Settles O55: the checks are the branches of `execLfMb`; the pixels of every filtered line are visible
(`FilteredLine.visible`), so it completes; the edges are `mbEdgeGroup_eq` and `innerEdgeGroup_eq`. -/
theorem lfMbRule : Obligations.LfMbRule := by
  unfold Obligations.LfMbRule
  refine ⟨fun s seg ref mode nocoef => ?command, fun c lvl l => ?filters⟩
  case command =>
    intro c i legal inner chroma edge mbEdges innerEdges
    refine ⟨fun hl => exec_lfMb_badParam (mt lfOperandsOk_iff.1 hl),
      fun hl hp => exec_lfMb_posOob (lfOperandsOk_iff.2 hl) hp, fun hl hp hv => ?_⟩
    have hok := lfOperandsOk_iff.2 hl
    by_cases hz : c.lfLevel = 0 ∨ filterLevel c seg ref mode = 0
    · exact ⟨s.mem, exec_lfMb_levelZero hok hp hz, fun _ => rfl,
        fun h h' => absurd hz (not_or.2 ⟨h, h'⟩), fun _ _ => rfl⟩
    · refine ⟨_, exec_lfMb_filters hok hp hz hv, fun h => absurd h hz, fun _ _ => ?_,
        fun a ha => readByte_filterLines_other hp hv _ s.mem ha⟩
      have hedge (vertical mbEdge : Bool) (off : Int) (p : Plane) :
          edgeLines c p vertical mbEdge off = edge vertical mbEdge off p := by
        cases p <;> rfl
      have hchroma : lfChroma c = chroma := by rw [lfChroma, lfSimple_eq]
      have hmb (vertical : Bool) : mbEdgeGroup c c.lfSimple vertical = mbEdges vertical := by
        rw [mbEdgeGroup_eq, hchroma]
        simp only [hedge]
        rfl
      have hinner (vertical : Bool) : innerEdgeGroup c c.lfSimple vertical = innerEdges vertical := by
        rw [innerEdgeGroup_eq, hchroma]
        simp only [hedge]
        rfl
      have hes : mbEdgeLines c mode nocoef = (if 0 < c.mbCol then mbEdges true else []) ++
          (if inner then innerEdges true else []) ++ (if 0 < c.mbRow then mbEdges false else []) ++
          (if inner then innerEdges false else []) := by
        rw [mbEdgeLines, hmb, hmb, hinner, hinner]
        rfl
      rw [← hes]
      rfl
  case filters =>
    intro f i t
    have hf : f = ⟨c.lfCfg.getLsbD 16, i, edgeLimitMb lvl i, edgeLimitIn lvl i, t⟩ := filterParams_eq c lvl
    rw [hf]
    exact ⟨rfl, rfl⟩

end Sys2Proof.Machine
end

section
/-! WREG (47_control.md R473; 10_state.md R31, R58): the word of the window at which each CFG register stands, and what every
register reads as after one of them is written. -/

namespace Sys2Proof.Machine

/-! ### The CFG part of the register map -/

/-- The word of the window at which a CFG register or a PROB word stands (10_state.md section 2); 0 for the others. -/
def Reg.cfgWord : Reg → Nat
  | .mbPos => 0x07
  | .frameDim => 0x08
  | .decCfg => 0x09
  | .roleMap => 0x0A
  | .slotYBase g => 0x10 + 4 * g
  | .slotUBase g => 0x11 + 4 * g
  | .slotVBase g => 0x12 + 4 * g
  | .slotStride g => 0x13 + 4 * g
  | .bdStart i => 0x20 + 2 * i
  | .bdSize i => 0x21 + 2 * i
  | .qBase => 0x80
  | .qDelta0 => 0x81
  | .qDelta1 => 0x82
  | .segCfg => 0x83
  | .segQ => 0x84
  | .segLf => 0x85
  | .lfCfg => 0x86
  | .lfRefDelta => 0x87
  | .lfModeDelta => 0x88
  | .mv b => 0xC0 + b
  | .prob j => 0x200 + j
  | _ => 0

/-- The register files have an entry for the register (10_state.md R45 to R47, R56). -/
def Reg.inFile : Reg → Bool
  | .slotYBase g | .slotUBase g | .slotVBase g | .slotStride g => decide (g < 4)
  | .bdStart i | .bdSize i => decide (i < 9)
  | .mv b => decide (b < 16)
  | _ => true

/-- The masks of the CFG registers by their words (10_state.md R41 to R54). -/
def cfgMaskAt (k : Nat) : Word :=
  if k = 0x07 ∨ k = 0x08 then 0x0FFF0FFF
  else if k = 0x09 then 0x0000FF07
  else if k = 0x0A ∨ k = 0x82 then 0x000000FF
  else if k = 0x80 then 0x0000007F
  else if k = 0x83 then 0x00000003
  else if k = 0x86 then 0x0003073F
  else 0xFFFFFFFF

theorem cfgMaskAt_of_le {k : Nat} (h : 0x87 ≤ k) : cfgMaskAt k = 0xFFFFFFFF := by
  unfold cfgMaskAt
  repeat rw [if_neg (by omega)]

/-- What the map puts at a CFG word: a register of that word, inside its file, with the mask of that word. -/
theorem regAtWord_cfg {k : Nat} (h : CfgWord k) :
    (regAtWord k).cfgWord = k ∧ (regAtWord k).inFile = true ∧ (regAtWord k).mask = cfgMaskAt k := by
  rcases h with ⟨hlo, hhi⟩ | ⟨hlo, hhi⟩ | ⟨hlo, hhi⟩ | ⟨hlo, hhi⟩ | ⟨hlo, hhi⟩
  iterate 4 · interval_cases k <;> exact ⟨rfl, rfl, rfl⟩
  · rw [regAtWord_prob_eq hlo hhi, cfgMaskAt_of_le (by omega)]
    exact ⟨Nat.add_sub_of_le hlo, rfl, rfl⟩

theorem regAtWord_isCfg_iff {k : Nat} : (regAtWord k).isCfg = true ↔ CfgWord k := by
  obtain ⟨-, -, -, hcfg⟩ := regAtWord_writable k
  exact ⟨hcfg, regAtWord_isCfg⟩

/-- No other word of the window is the same CFG register. -/
theorem regAtWord_ne {j k : Nat} (h : CfgWord k) (hne : j ≠ k) : regAtWord k ≠ regAtWord j := by
  intro e
  have hj : CfgWord j := regAtWord_isCfg_iff.1 (e ▸ regAtWord_isCfg h)
  exact hne (by rw [← (regAtWord_cfg hj).1, ← e, (regAtWord_cfg h).1])

/-! ### Register files and PROB words -/

theorem fileGet_fileSet_same {α : Type} {n i : Nat} (v : Vector α n) (x d : α) (h : i < n) :
    fileGet (fileSet v i x) i d = x := by
  simp [fileGet, fileSet, h]

theorem fileGet_fileSet_other {α : Type} {n i j : Nat} (v : Vector α n) (x d : α) (h : i ≠ j) :
    fileGet (fileSet v i x) j d = fileGet v j d := by
  simp [fileGet, fileSet, h]

/-- A word is its four byte lanes. -/
theorem eq_of_byteLanes {v w : Word} (h : ∀ k, k < 4 → v.extractLsb' (8 * k) 8 = w.extractLsb' (8 * k) 8) : v = w := by
  apply BitVec.eq_of_getLsbD_eq
  intro i hi
  have hbit := congrArg (fun b => b.getLsbD (i % 8)) (h (i / 8) (by omega))
  simpa [BitVec.getLsbD_extractLsb', Nat.mod_lt, Nat.div_add_mod] using hbit

/-- A PROB word whose four bytes are those of `d` reads `d` (10_state.md R58). -/
theorem probWord_eq_of_bytes {s : State} {j : Nat} {d : Word}
    (h : ∀ k, k < 4 → Cells.get s.ram.prob (4 * j + k) = some (d.extractLsb' (8 * k) 8)) : probWord s j = d :=
  eq_of_byteLanes fun k hk => by
    have hlane := probWord_lane (h k hk)
    rwa [show (4 * j + k) / 4 = j by omega, show (4 * j + k) % 4 = k by omega] at hlane

/-- A PROB word reads by its own four bytes. -/
theorem probWord_congr {s t : State} {j : Nat} (he : t.epoch = s.epoch)
    (h : ∀ k, k < 4 → Cells.get t.ram.prob (4 * j + k) = Cells.get s.ram.prob (4 * j + k)) :
    probWord t j = probWord s j := by
  simp only [probWord, freeWord, he, h 0 (by decide), h 1 (by decide), h 2 (by decide), h 3 (by decide)]

/-! ### Reading after a CFG write -/

/-- A CFG write changes the CFG registers and PROB only. -/
theorem writeCfg_frame (s : State) (r : Reg) (d : Word) : writeCfg s r d =
    { s with cfg := (writeCfg s r d).cfg, ram := { s.ram with prob := (writeCfg s r d).ram.prob } } := by
  cases r <;> rfl

/-- A CFG register reads as it was written, its RSV bits 0. -/
theorem readReg_writeCfg_same {r : Reg} (hcfg : r.isCfg = true) (hfile : r.inFile = true) (s : State) (k : Nat) (d : Word) :
    readReg (writeCfg s r d) k r = d &&& r.mask := by
  cases r with
  | slotYBase i | slotUBase i | slotVBase i | slotStride i | bdStart i | bdSize i | mv i =>
    exact fileGet_fileSet_same _ _ _ (of_decide_eq_true hfile)
  | prob j =>
    have hall : d &&& Reg.mask (.prob j) = d := BitVec.and_allOnes
    rw [hall]
    exact probWord_eq_of_bytes fun _ => writeProbWord_get _ j d
  | mbPos | frameDim | decCfg | roleMap | qBase | qDelta0 | qDelta1 | segCfg | segQ | segLf | lfCfg | lfRefDelta
    | lfModeDelta => rfl
  | _ => cases hcfg

/-- Every other register reads as before. -/
theorem readReg_writeCfg_other {r r' : Reg} (h : r ≠ r') (s : State) (k : Nat) (d : Word) :
    readReg (writeCfg s r d) k r' = readReg s k r' := by
  cases r' with
  | slotYBase j | slotUBase j | slotVBase j | slotStride j | bdStart j | bdSize j | mv j =>
    cases r with
    | slotYBase i | slotUBase i | slotVBase i | slotStride i | bdStart i | bdSize i | mv i =>
      simp_all [readReg, writeCfg, fileGet_fileSet_other]
    | _ => rfl
  | prob j =>
    cases r with
    | prob i =>
      refine probWord_congr rfl fun k hk => writeProbWord_get_other _ d ?_
      rw [ne_eq, Reg.prob.injEq] at h
      omega
    | _ => rfl
  | _ => cases r <;> trivial

end Sys2Proof.Machine
end

section
/-! The CFG registers and the places of pixels in numbers (10_state.md R41 to R56; 20_memory.md R106 to R108; 47_control.md
R476), and WregRule assembled from them and from the reads after a CFG write. -/

namespace Sys2Proof.Machine

/-! ### WREG (R473) -/

theorem exec_wreg_cfg {k : Nat} (h : CfgWord k) (s : State) (d : Word) :
    exec (.wreg k d) s = .next (writeCfg s (regAtWord k) d) :=
  if_pos (regAtWord_isCfg h)

theorem exec_wreg_badParam {k : Nat} (h : ¬ CfgWord k) (s : State) (d : Word) :
    exec (.wreg k d) s = .next (errorEntry .badParam (Instr.wreg k d).word s) :=
  if_neg (mt regAtWord_isCfg_iff.1 h)

theorem hostRead_writeCfg_same {k : Nat} (h : CfgWord k) (s : State) (d : Word) :
    hostRead (writeCfg s (regAtWord k) d) (4 * k) 4 = .ok (d &&& cfgMaskAt k) := by
  obtain ⟨-, hfile, hmask⟩ := regAtWord_cfg h
  have hk : k < 8192 := by unfold CfgWord at h; omega
  rw [hostRead_at _ rfl hk rfl, readReg_writeCfg_same (regAtWord_isCfg h) hfile, hmask]

theorem hostRead_writeCfg_other {j k : Nat} (h : CfgWord k) (hj : j < 8192) (hne : j ≠ k) (s : State) (d : Word) :
    hostRead (writeCfg s (regAtWord k) d) (4 * j) 4 = hostRead s (4 * j) 4 := by
  rw [hostRead_at _ rfl hj rfl, hostRead_at _ rfl hj rfl, readReg_writeCfg_other (regAtWord_ne h hne)]

/-- The four bytes of a PROB word are those of the data word (R58). -/
theorem writeCfg_prob_get {k : Nat} (hlo : 0x200 ≤ k) (hhi : k < 0x308) (s : State) (d : Word) {j : Nat} (hj : j < 4) :
    Cells.get (writeCfg s (regAtWord k) d).ram.prob (4 * (k - 0x200) + j) = some (d.extractLsb' (8 * j) 8) := by
  rw [regAtWord_prob_eq hlo hhi]
  exact writeProbWord_get _ _ d hj

/-! ### The map of the CFG registers (10_state.md section 2) -/

theorem regAtWord_slot : ∀ g, g < 4 →
    regAtWord (0x10 + 4 * g) = .slotYBase g ∧ regAtWord (0x11 + 4 * g) = .slotUBase g ∧
      regAtWord (0x12 + 4 * g) = .slotVBase g ∧ regAtWord (0x13 + 4 * g) = .slotStride g := by
  decide

theorem regAtWord_partition : ∀ i, i < 9 →
    regAtWord (0x20 + 2 * i) = .bdStart i ∧ regAtWord (0x21 + 2 * i) = .bdSize i := by
  decide

theorem regAtWord_mv : ∀ b, b < 16 → regAtWord (0xC0 + b) = .mv b := by decide

theorem hostRead_slot (s : State) {g : Nat} (hg : g < 4) :
    hostRead s (0x0040 + 16 * g) 4 = .ok (fileGet s.cfg.slotYBase g 0) ∧
      hostRead s (0x0044 + 16 * g) 4 = .ok (fileGet s.cfg.slotUBase g 0) ∧
      hostRead s (0x0048 + 16 * g) 4 = .ok (fileGet s.cfg.slotVBase g 0) ∧
      hostRead s (0x004C + 16 * g) 4 = .ok (fileGet s.cfg.slotStride g 0) := by
  obtain ⟨hy, hu, hv, hstride⟩ := regAtWord_slot g hg
  exact ⟨hostRead_at s (by omega) (by omega) hy, hostRead_at s (by omega) (by omega) hu,
    hostRead_at s (by omega) (by omega) hv, hostRead_at s (by omega) (by omega) hstride⟩

theorem hostRead_partition (s : State) {i : Nat} (hi : i < 9) :
    hostRead s (0x0080 + 8 * i) 4 = .ok (fileGet s.cfg.bdStart i 0) ∧
      hostRead s (0x0084 + 8 * i) 4 = .ok (fileGet s.cfg.bdSize i 0) := by
  obtain ⟨hstart, hsize⟩ := regAtWord_partition i hi
  exact ⟨hostRead_at s (by omega) (by omega) hstart, hostRead_at s (by omega) (by omega) hsize⟩

theorem hostRead_mv (s : State) {b : Nat} (hb : b < 16) : hostRead s (0x0300 + 4 * b) 4 = .ok (fileGet s.cfg.mv b 0) :=
  hostRead_at s (by omega) (by omega) (regAtWord_mv b hb)

/-! ### Fields (R41 to R54) -/

theorem mbCol_eq (c : CfgRegs) : c.mbCol = (c.mbPos.extractLsb' 0 12).toNat := bits_toNat _

theorem mbRow_eq (c : CfgRegs) : c.mbRow = (c.mbPos.extractLsb' 16 12).toNat := bits_toNat _

theorem mbCols_eq (c : CfgRegs) : c.mbCols = (c.frameDim.extractLsb' 0 12).toNat := bits_toNat _

theorem mbRows_eq (c : CfgRegs) : c.mbRows = (c.frameDim.extractLsb' 16 12).toNat := bits_toNat _

theorem mcBilinear_eq (c : CfgRegs) : c.mcBilinear = c.decCfg.getLsbD 1 := bit_toNat _ _

theorem borderY_eq (c : CfgRegs) : c.borderY = (c.decCfg.extractLsb' 8 8).toNat := bits_toNat _

theorem roleSlot_eq (c : CfgRegs) (r : Nat) : c.roleSlot r = (c.roleMap.extractLsb' (2 * r) 2).toNat := by
  rw [CfgRegs.roleSlot, bits_toNat, show 2 * r + 1 + 1 - 2 * r = 2 by omega]

theorem posOk_iff_four {c : CfgRegs} :
    posOk c = true ↔ 0 < c.mbCols ∧ 0 < c.mbRows ∧ c.mbCol < c.mbCols ∧ c.mbRow < c.mbRows := by
  simp only [posOk, Bool.and_eq_true, decide_eq_true_eq, and_assoc]

/-! ### Pixels, planes, macroblocks and blocks (20_memory.md R106 to R108) -/

theorem planePitch_y (c : CfgRegs) (slot : Nat) :
    planePitch c slot .y = ((fileGet c.slotStride slot 0).extractLsb' 0 16).toNat := bits_toNat _

theorem planePitch_chroma {p : Plane} (h : p ≠ .y) (c : CfgRegs) (slot : Nat) :
    planePitch c slot p = ((fileGet c.slotStride slot 0).extractLsb' 16 16).toNat := by
  cases p with
  | y => contradiction
  | u | v => exact bits_toNat _

theorem Point.addr_eq (c : CfgRegs) (slot : Nat) (q : Point) :
    q.addr c slot = planeBase c slot q.plane + q.y * planePitch c slot q.plane + q.x := by
  rw [Point.addr, pixelAddr, mul_comm q.y]

theorem mbSize_cast (p : Plane) : (mbSize p : Int) = if p = .y then 16 else 8 := by cases p <;> rfl

theorem planeB_eq (c : CfgRegs) (p : Plane) :
    planeB c p = if p = .y then (c.borderY : Int) else (c.borderY : Int) / 2 := by cases p <;> rfl

theorem visible_iff {c : CfgRegs} {q : Point} : Visible c q ↔
    0 ≤ q.x ∧ q.x < (mbSize q.plane : Int) * c.mbCols ∧ 0 ≤ q.y ∧ q.y < (mbSize q.plane : Int) * c.mbRows := by
  rw [Visible, planeW_eq, planeH_eq]

theorem readable_iff_border {c : CfgRegs} {q : Point} : Readable c q ↔
    -planeB c q.plane ≤ q.x ∧ q.x < (mbSize q.plane : Int) * c.mbCols + planeB c q.plane ∧
      -planeB c q.plane ≤ q.y ∧ q.y < (mbSize q.plane : Int) * c.mbRows + planeB c q.plane := by
  rw [Readable, planeW_eq, planeH_eq]

/-- A point of a block has the block's plane, so the block's corner counts from the macroblock's corner in the point's own
plane. -/
theorem inBlock_iff {c : CfgRegs} {b : Nat} {q : Point} : InBlock c b q ↔ q.plane = blockPlane b ∧
    mbX c q.plane + 4 * ((if b < 16 then b % 4 else b % 2 : Nat) : Int) ≤ q.x ∧
    q.x < mbX c q.plane + 4 * ((if b < 16 then b % 4 else b % 2 : Nat) : Int) + 4 ∧
    mbY c q.plane + 4 * ((if b < 16 then b / 4 else b % 4 / 2 : Nat) : Int) ≤ q.y ∧
    q.y < mbY c q.plane + 4 * ((if b < 16 then b / 4 else b % 4 / 2 : Nat) : Int) + 4 :=
  and_congr_right fun hp => by rw [hp, blockX, blockY]

/-- Settles O20: WREG is `writeCfg`, after which the named word reads the data (`hostRead_writeCfg_same`) and the others as
before (`hostRead_writeCfg_other`); the map, the fields and the geometry are the lemmas above. -/
theorem wregRule : Obligations.WregRule := by
  unfold Obligations.WregRule
  refine ⟨?write, fun s => ?map, fun c => ?fields⟩
  case write =>
    intro target mask s k d _
    have htarget : target k ↔ CfgWord k := by simp only [target, CfgWord]; omega
    rw [htarget]
    refine ⟨fun h => ⟨_, exec_wreg_cfg h s d, writeCfg_frame s _ d, hostRead_writeCfg_same h s d, fun hlo j hj => ?_,
      fun j hj hne => hostRead_writeCfg_other h hj hne s d⟩, fun h => exec_wreg_badParam h s d⟩
    exact writeCfg_prob_get hlo (by unfold CfgWord at h; omega) s d hj
  case map =>
    exact ⟨hostRead_at s (k := 0x07) rfl (by decide) rfl, hostRead_at s (k := 0x08) rfl (by decide) rfl,
      hostRead_at s (k := 0x09) rfl (by decide) rfl, hostRead_at s (k := 0x0A) rfl (by decide) rfl,
      fun _ => hostRead_slot s, fun _ => hostRead_partition s,
      hostRead_at s (k := 0x80) rfl (by decide) rfl, hostRead_at s (k := 0x81) rfl (by decide) rfl,
      hostRead_at s (k := 0x82) rfl (by decide) rfl, hostRead_at s (k := 0x83) rfl (by decide) rfl,
      hostRead_at s (k := 0x84) rfl (by decide) rfl, hostRead_at s (k := 0x85) rfl (by decide) rfl,
      hostRead_at s (k := 0x86) rfl (by decide) rfl, hostRead_at s (k := 0x87) rfl (by decide) rfl,
      hostRead_at s (k := 0x88) rfl (by decide) rfl, fun _ => hostRead_mv s⟩
  case fields =>
    refine ⟨mbCol_eq c, mbRow_eq c, mbCols_eq c, mbRows_eq c, keyFrame_eq c, mcBilinear_eq c, chromaFullpixel_eq c,
      borderY_eq c, roleSlot_eq c 0, fun r _ => roleSlot_eq c r, posOk_iff_four, fun _ => ⟨rfl, rfl⟩, lfLevel_eq c,
      lfSharpness_eq c, lfSimple_eq c, lfDeltaEn_eq c, fun slot x y => ?addr, fun q => ?regions⟩
    case addr =>
      simp only [Point.addr_eq, planePitch_y, planePitch_chroma (p := .u) (by decide),
        planePitch_chroma (p := .v) (by decide)]
      exact ⟨rfl, rfl, rfl⟩
    case regions =>
      intro n border
      have hn : n = (mbSize q.plane : Int) := (mbSize_cast _).symm
      have hborder : border = planeB c q.plane := (planeB_eq c _).symm
      rw [hn, hborder]
      exact ⟨visible_iff, readable_iff_border, Iff.rfl, fun b _ => inBlock_iff⟩

end Sys2Proof.Machine
end

section
/-! The other control commands and the command loop (47_control.md R470 to R472, R475; 30_encoding.md R137): what MB_SET leaves
in MBPOS, and what a turn of the CORE does with a command that decodes. -/

namespace Sys2Proof.Machine

/-! ### NOP and SYNC (R470, R472) -/

/-- Settles O19: `exec` of NOP and of SYNC, and the first disjunct of `irq`. -/
theorem nopAndSync : Obligations.NopAndSync := by
  unfold Obligations.NopAndSync
  exact fun s => ⟨rfl, rfl, fun hie => by rw [irq, hie]; rfl⟩

/-! ### MB_SET (R475) -/

/-- MBPOS with a row and a column at their fields (10_state.md R41). -/
def mbPosWord (row col : Nat) : Word := BitVec.ofNat 32 (65536 * row + col)

theorem mbRow_mbPosWord {row col : Nat} (hrow : row < 4096) (hcol : col < 4096) (c : CfgRegs) :
    ({ c with mbPos := mbPosWord row col } : CfgRegs).mbRow = row := by
  simp only [CfgRegs.mbRow, mbPosWord, bits, BitVec.toNat_ofNat]
  omega

theorem mbCol_mbPosWord (row : Nat) {col : Nat} (hcol : col < 4096) (c : CfgRegs) :
    ({ c with mbPos := mbPosWord row col } : CfgRegs).mbCol = col := by
  simp only [CfgRegs.mbCol, mbPosWord, bits, BitVec.toNat_ofNat]
  omega

/-- Settles O21: the two branches of MB_SET; the fields of the MBPOS it writes are its operands. -/
theorem mbSetRule : Obligations.MbSetRule := by
  unfold Obligations.MbSetRule
  intro s row col hrow hcol
  refine ⟨fun hin => ?inside, fun hout => if_neg hout⟩
  case inside =>
    have hexec : exec (.mbSet row col) s = .next { s with cfg := { s.cfg with mbPos := mbPosWord row col } } := if_pos hin
    exact ⟨_, hexec, mbRow_mbPosWord hrow hcol s.cfg, mbCol_mbPosWord row hcol s.cfg, rfl⟩

/-! ### The command loop (R471) -/

/-- A command that decodes is performed and completed. -/
theorem completeCommand_decoded {c : Command} {i : Instr} (h : decodeWord c.word c.data = .ok i) (s : State) :
    completeCommand c s = endCommand c (exec i s) := by
  simp only [completeCommand, h]

/-- Where the words at the head of CMDQ decode, the command taken is that of the decoded instruction (R137). -/
theorem takeCommand_of_decode {ws rest : List Word} {i : Instr} (h : decode ws = .ok (i, rest)) :
    ∃ c : Command, takeCommand ws = some (c, rest) ∧ decodeWord c.word c.data = .ok i := by
  rcases decode_ok_iff.1 h with ⟨w, hw, hd, rfl⟩ | ⟨w, d, hw, hd, rfl⟩
  · exact ⟨_, takeCommand_one hw, hd⟩
  · exact ⟨_, takeCommand_two hw, hd⟩

theorem startCommand_take {s : State} {c : Command} {rest : List Word} (hr : s.running = none) (he : s.err = false)
    (ht : takeCommand s.cmdq = some (c, rest)) : startCommand s = { s with cmdq := rest, running := some c } := by
  simp only [startCommand, hr, he, Option.isSome_none, Bool.or_self, Bool.false_eq_true, if_false, ht]

/-- No command is taken while one executes, while ERR = 1, or where no complete one is queued. -/
theorem startCommand_idle {s : State} (h : s.running.isSome = true ∨ s.err = true ∨ takeCommand s.cmdq = none) :
    startCommand s = s := by
  rcases startCommand_cases s with hs | ⟨hr, he, c, rest, ht, -⟩
  · exact hs
  · simp [hr, he, ht] at h

/-- Settles O6: a turn of the CORE takes what decodes (`coreStep_take`) or goes on with what executes (`coreStep_running`), and
performs it (`completeCommand_decoded`); a beginCommand entry is `startCommand`. -/
theorem stepRunsDecoded : Obligations.StepRunsDecoded := by
  unfold Obligations.StepRunsDecoded
  refine ⟨fun s i rest later hturn hr he hdec => ?taken, fun s i c later hturn hr hd => ?executing, fun c t hc => ?completed,
    fun _ _ _ => ⟨rfl, rfl⟩, fun s later hin => ?begun⟩
  case taken =>
    obtain ⟨c, ht, hd⟩ := takeCommand_of_decode hdec
    refine ⟨c, ht, (word_of_decodeWord hd).symm, takeCommand_resetAfter ht, hd, ?_⟩
    rw [step_coreTurn hturn, coreStep_take (s := { s with inputs := later }) hr he ht, completeCommand_decoded hd]
  case executing =>
    rw [step_coreTurn hturn, coreStep_running (s := { s with inputs := later }) hr, completeCommand_decoded hd]
  case completed =>
    simp [endCommand, hc]
  case begun =>
    have hstep : step s = .next (startCommand { s with inputs := later }) := step_of_input hin rfl
    rw [hstep]
    refine ⟨fun c rest hr he ht => ?_, fun hidle => ?_⟩
    · rw [startCommand_take (s := { s with inputs := later }) hr he ht]
    · rw [startCommand_idle (s := { s with inputs := later }) hidle]

end Sys2Proof.Machine
end

section
/-! What a command answers (60_exceptions.md R501, R503, R510): a state with ERR as it was, the entry of an error that its
opcode may raise, or one of the two model-only faults. One theorem over every command, `exec_answers`; what errors and faults
there are is read off it. -/

namespace Sys2Proof.Machine

/-- The opcodes that may raise an error (R501); ILLEGAL_CMD is raised by words that decode to no command. -/
def ErrorCode.raisers : ErrorCode → List Nat
  | .illegalCmd => []
  | .bdNotInit => [0x08, 0x09, 0x0A, 0x12]
  | .posOob => [0x03, 0x12, 0x21, 0x22, 0x28, 0x29, 0x2A, 0x30, 0x38]
  | .badParam => [0x02, 0x0A, 0x21, 0x28, 0x29, 0x2A, 0x30, 0x38]
  | .mcOob => [0x30]
  | .bdRange => [0x08]
  | .refIsCur => [0x30]

/-- The opcodes of the commands that read COEF, DQ, PROB or the flags (10_state.md R65). -/
def ramReaders : List Nat := [0x12, 0x19, 0x20, 0x21, 0x22]

/-- The opcodes of the commands that form pixel addresses (20_memory.md R102). -/
def addressFormers : List Nat := [0x21, 0x22, 0x28, 0x29, 0x2A, 0x30, 0x38]

/-- The HOST's boot duty for every slot (20_memory.md R102). -/
def SlotsInMemory (c : CfgRegs) : Prop := ∀ slot, slot < 4 → ReadableInMemory c slot

/-- What command `i` may answer in state `s`. Its opcode is looked up by a test, which evaluation closes for each command. -/
inductive Answers (i : Instr) (s : State) : Outcome → Prop
  | completes {t : State} (herr : t.err = s.err) : Answers i s (.next t)
  | raises {e : ErrorCode} (h : e.raisers.contains i.opcode = true) : Answers i s (raise e i s)
  | uninit (h : ramReaders.contains i.opcode = true) : Answers i s (.fault .uninit)
  | addrWrap (h : addressFormers.contains i.opcode = true) (hmem : ¬ SlotsInMemory s.cfg) : Answers i s (.fault .addrWrap)

theorem roleSlot_lt (c : CfgRegs) (r : Nat) : c.roleSlot r < 4 := by
  rw [roleSlot_eq]
  exact BitVec.isLt _

theorem SlotsInMemory.readable {c : CfgRegs} (h : SlotsInMemory c) (r : Nat) : ReadableInMemory c (c.roleSlot r) :=
  h _ (roleSlot_lt c r)

theorem SlotsInMemory.visible {c : CfgRegs} (h : SlotsInMemory c) (r : Nat) : VisibleInMemory c (c.roleSlot r) :=
  fun q hq => h.readable r q hq.readable

/-! ### What the shared shapes answer -/

namespace Answers

variable {i : Instr} {s : State}

theorem ite {c : Prop} [Decidable c] {o o' : Outcome} (hthen : c → Answers i s o) (helse : ¬ c → Answers i s o') :
    Answers i s (if c then o else o') := by
  split
  · exact hthen ‹_›
  · exact helse ‹_›

section
variable (hop : addressFormers.contains i.opcode = true) (hp : posOk s.cfg = true)
include hop hp

/-- The pixels of every block are visible, so where the slots are in memory only UNINIT is left. -/
theorem of_addBlocks (hram : ramReaders.contains i.opcode = true) (bs : List Nat) {u : State} (hcfg : u.cfg = s.cfg)
    (herr : u.err = s.err) : Answers i s (addBlocks bs u) := by
  induction bs generalizing u with
  | nil => exact .completes herr
  | cons b bs ih =>
    rw [addBlocks]
    refine .ite (fun _ => .uninit hram) fun _ => .ite (fun hwrap => .addrWrap hop fun hmem => hwrap ?_) fun _ => ih ?_ ?_
    · rw [hcfg]
      exact pointsOk_blockPoints hp (hmem.visible 0) b
    · rw [addBlock_cfg, hcfg]
    · rw [addBlock_frame, State.orWide_err, State.setMem_err, herr]

theorem of_predictPlanes (ps : List Plane) (md : IntraMode) : Answers i s (predictPlanes ps md s) := by
  by_cases hmem : SlotsInMemory s.cfg
  · rw [predictPlanes_complete hp (hmem.visible 0)]
    exact .completes rfl
  · exact .ite (fun _ => .completes rfl) fun _ => .addrWrap hop hmem

theorem of_predictSub {b : Nat} (hb : b ≤ 15) (md : SubMode) : Answers i s (predictSub b md s) := by
  by_cases hmem : SlotsInMemory s.cfg
  · rw [predictSub_complete hp (hmem.visible 0) hb]
    exact .completes rfl
  · exact .ite (fun _ => .completes rfl) fun _ => .addrWrap hop hmem

end

theorem of_execWhole (hop : addressFormers.contains i.opcode = true) (hpos : ErrorCode.posOob.raisers.contains i.opcode = true)
    (hparam : ErrorCode.badParam.raisers.contains i.opcode = true) (ps : List Plane) (mode : Nat) :
    Answers i s (execWhole i ps mode s) := by
  unfold execWhole
  split
  · exact .raises hparam
  · exact .ite (fun hp => of_predictPlanes hop hp ps _) fun _ => .raises hpos

end Answers

/-! ### The commands with checks of their own -/

theorem execDetokMb_answers (ctx : Nat) (y2 skip : Bool) (s : State) :
    Answers (.detokMb ctx y2 skip) s (execDetokMb ctx y2 skip s) := by
  refine .ite (fun _ => .raises rfl) fun _ => .ite (fun _ => .completes (State.setDetok_err ..)) fun _ =>
    .ite (fun _ => .raises rfl) fun _ => ?_
  split
  · exact .uninit rfl
  · exact .completes rfl

theorem execIpred4_answers (b mode : Nat) (s : State) : Answers (.ipred4 b mode) s (execIpred4 b mode s) := by
  refine .ite (fun _ => .raises rfl) fun hb => ?_
  split
  · exact .raises rfl
  · exact .ite (fun hp => .of_predictSub rfl hp (Nat.not_lt.1 hb) _) fun _ => .raises rfl

/-- MC_MB has checked that every footprint is readable before it forms an address (R395). -/
theorem execMcMb_answers (r : Nat) (split clamp : Bool) (s : State) :
    Answers (.mcMb r split clamp) s (execMcMb r split clamp s) := by
  refine .ite (fun _ => .raises rfl) fun _ => .ite (fun _ => .raises rfl) fun hp => .ite (fun _ => .raises rfl) fun _ =>
    .ite (fun _ => .raises rfl) fun hfoot => .ite (fun hwrap => .addrWrap rfl fun hmem => hwrap ?_) fun _ =>
      .completes (State.setMem_err ..)
  have hfoot : FootprintsReadable s.cfg split clamp := allSources_footReadable_iff.1 (not_not.1 hfoot)
  refine Bool.and_eq_true_iff.2 ⟨allSources_iff.2 fun q hq => footAddrOk_of_forall fun x y hxy => ?_,
    pointsOk_iff.2 fun q hq => pixelOk_iff.2 ?_⟩
  · exact hmem.readable r _ (hfoot q hq x y hxy)
  · exact hmem.visible 0 q ((inMb_of_mem_mbAllPoints hq).visible (not_not.1 hp))

theorem execLfMb_answers (seg ref mode : Nat) (nocoef : Bool) (s : State) :
    Answers (.lfMb seg ref mode nocoef) s (execLfMb seg ref mode nocoef s) :=
  .ite (fun _ => .raises rfl) fun _ => .ite (fun _ => .raises rfl) fun hp => .ite (fun _ => .completes rfl) fun _ =>
    .ite (fun _ => .completes rfl) fun hwrap => .addrWrap rfl fun hmem =>
      hwrap (pointsOk_mbEdgeLines (not_not.1 hp) (hmem.visible 0) mode nocoef)

/-! ### Every command -/

theorem exec_answers (i : Instr) (s : State) : Answers i s (exec i s) := by
  cases i with
  | nop | sync | detokFrame | detokRow | qsetup => exact .completes rfl
  | wreg widx d => exact .ite (fun _ => .completes (writeCfg_err ..)) fun _ => .raises rfl
  | mbSet row col => exact .ite (fun _ => .completes rfl) fun _ => .raises rfl
  | bdInit ctx => exact .ite (fun _ => .raises rfl) fun _ => .ite (fun _ => .raises rfl) fun _ => .completes rfl
  | bdBool ctx prob => exact .ite (fun _ => .completes rfl) fun _ => .raises rfl
  | bdLit ctx n => exact .ite (fun _ => .raises rfl) fun _ => .ite (fun _ => .raises rfl) fun _ => .completes rfl
  | detokMb ctx y2 skip => exact execDetokMb_answers ctx y2 skip s
  | deqMb seg => exact .ite (fun _ => .completes ((State.orWide_err ..).trans (State.setDq_err ..))) fun _ => .uninit rfl
  | iwht => exact .ite (fun _ => .completes ((State.orWide_err ..).trans (State.setDq_err ..))) fun _ => .uninit rfl
  | idctAdd b =>
    exact .ite (fun _ => .raises rfl) fun _ => .ite (fun _ => .raises rfl) fun hp =>
      .of_addBlocks rfl (not_not.1 hp) rfl [b] rfl rfl
  | reconMb uvonly =>
    exact .ite (fun _ => .raises rfl) fun hp => .of_addBlocks rfl (not_not.1 hp) rfl (reconBlocks uvonly) rfl rfl
  | ipred16 mode =>
    rw [exec_ipred16]
    exact .of_execWhole rfl rfl rfl [.y] mode
  | ipredUv mode =>
    rw [exec_ipredUv]
    exact .of_execWhole rfl rfl rfl [.u, .v] mode
  | ipred4 b mode => exact execIpred4_answers b mode s
  | mcMb r split clamp => exact execMcMb_answers r split clamp s
  | lfMb seg ref mode nocoef => exact execLfMb_answers seg ref mode nocoef s

/-- A command that turns ERR on raised an error that R501 lets its opcode raise. -/
theorem exec_raised {i : Instr} {s t : State} (hs : s.err = false) (h : exec i s = .next t) (ht : t.err = true) :
    ∃ e : ErrorCode, i.opcode ∈ e.raisers ∧ t = errorEntry e i.word s := by
  have hans := exec_answers i s
  rw [h] at hans
  generalize ho : Host.Outcome.next t = o at hans
  cases hans with
  | completes herr =>
    obtain rfl := Host.Outcome.next.inj ho
    rw [herr, hs] at ht
    cases ht
  | raises hop => exact ⟨_, List.contains_iff_mem.1 hop, raise_next ho.symm⟩
  | uninit | addrWrap => cases ho

/-- Settles O16: the table of R501 is `ErrorCode.code` with `ErrorCode.raisers`, and an error raised is the entry
(`exec_raised`). -/
theorem errorEntryPrecise : Obligations.ErrorEntryPrecise := by
  unfold Obligations.ErrorEntryPrecise
  refine ⟨?entry, fun i s t hs hexec ht => ?command⟩
  case entry =>
    intro codes e
    exact ⟨e.code, by cases e <;> decide, fun _ _ => rfl⟩
  case command =>
    obtain ⟨e, hop, rfl⟩ := exec_raised hs hexec ht
    refine ⟨rfl, ⟨(e.code, e.raisers), ?_, rfl, hop⟩, rfl, rfl⟩
    cases e with
    | illegalCmd => cases hop
    | _ => decide

/-- Settles O58: the faults of `Answers`. -/
theorem onlySpecFaults : Obligations.OnlySpecFaults := by
  unfold Obligations.OnlySpecFaults
  intro i s
  have hans := exec_answers i s
  generalize exec i s = o at hans
  refine ⟨fun f hf => ?faults, fun r hr => ?refused⟩
  case faults =>
    cases hans with
    | completes | raises => cases hf
    | uninit hop =>
      obtain rfl := Host.Outcome.fault.inj hf
      exact .inl ⟨rfl, by simpa [ramReaders] using hop⟩
    | addrWrap hop hmem =>
      obtain rfl := Host.Outcome.fault.inj hf
      exact .inr ⟨rfl, by simpa [addressFormers] using hop, hmem⟩
  case refused =>
    cases hans <;> cases hr

end Sys2Proof.Machine
end

section
/-! The error state (60_exceptions.md R505 to R507): what works in it, and that only a reset leaves it. -/

namespace Sys2Proof.Machine

/-- STATUS.BUSY is 0 with CMDQ empty and nothing in execution (10_state.md R64). -/
theorem busy_eq_false {s : State} (hq : s.cmdq = []) (hr : s.running = none) : busy s = false := by
  rw [busy, hq, hr]
  rfl

/-- Settles O17: the CORE waits (`coreStep_wait`), a CMD write is `cmdPort`'s, a CFG write `cfgWritePaths`' with BUSY = 0. -/
theorem errorStateHolds : Obligations.ErrorStateHolds := by
  unfold Obligations.ErrorStateHolds
  intro s he hq hr
  refine ⟨fun h => ?idle, fun later h => ?run, fun v later h => ?cmd, fun k v later hk h => ?cfg, fun k hk => ?read⟩
  case idle =>
    simp only [step, turn, h]
    exact coreStep_wait hr (.inl he)
  case run =>
    rw [step_coreTurn (.inr (.inl h))]
    exact coreStep_wait hr (.inl he)
  case cmd =>
    obtain ⟨-, hport⟩ := cmdPort
    obtain ⟨-, hdiscarded, -⟩ := hport s v later h
    exact hdiscarded he
  case cfg =>
    obtain ⟨hwrite, -⟩ := cfgWritePaths s k v later hk
    obtain ⟨-, hperformed⟩ := hwrite h
    exact ⟨_, hperformed (busy_eq_false hq hr), rfl, (writeCfg_err ..).trans he, writeCfg_errCode .., writeCfg_errInfo ..⟩
  case read => exact ⟨_, hostRead_at s rfl hk rfl⟩

/-- ERR, ERRCODE and ERRINFO of `t` are those of `s`. -/
def SameError (s t : State) : Prop := t.err = s.err ∧ t.errCode = s.errCode ∧ t.errInfo = s.errInfo

/-- ERR, ERRCODE and ERRINFO are 0. -/
def NoError (t : State) : Prop := t.err = false ∧ t.errCode = 0 ∧ t.errInfo = 0

theorem SameError.refl (s : State) : SameError s s := ⟨rfl, rfl, rfl⟩

theorem softReset_noError (s : State) : NoError (softReset s) := ⟨rfl, rfl, rfl⟩

theorem hardReset_noError (s : State) : NoError (hardReset s) := ⟨rfl, rfl, rfl⟩

/-- With nothing in execution, a HOST write to a register keeps the error unless it is to CTRL with SOFT_RESET = 1. -/
theorem hostWrite_error {r : Reg} {v : Word} {s t : State} (hr : s.running = none) (h : hostWrite r v s = .next t) :
    SameError s t ∨ (r = .ctrl ∧ v.getLsbD 0 = true ∧ NoError t) := by
  rcases hostWrite_cases r v s with ⟨hctrl, e⟩ | ⟨-, e⟩ | ⟨-, e⟩ | ⟨-, -, e⟩ | ⟨-, -, e⟩ | e <;>
    obtain rfl := Host.Outcome.next.inj (e.symm.trans h)
  · cases hv : v.getLsbD 0 with
    | true =>
      have hreset : ctrlWrite v s = softReset s := by simp only [ctrlWrite_reset hv, requestReset, hr]
      rw [hreset]
      exact .inr ⟨hctrl, rfl, softReset_noError s⟩
    | false =>
      rw [ctrlWrite_enables hv]
      exact .inl ⟨rfl, rfl, rfl⟩
  · exact .inl ⟨rfl, rfl, rfl⟩
  · unfold cmdWrite
    split <;> exact .inl ⟨rfl, rfl, rfl⟩
  · exact .inl ⟨rfl, rfl, rfl⟩
  · exact .inl ⟨writeCfg_err .., writeCfg_errCode .., writeCfg_errInfo ..⟩
  · exact .inl (.refl s)

/-- In the error state a HOST action keeps the error unless it is a reset. -/
theorem inputStep_error {i : Input} {s t : State} (he : s.err = true) (hr : s.running = none)
    (h : inputStep i s = .next t) :
    SameError s t ∨ ((i = .hardReset ∨ ∃ v, i = .mmioWrite 0x0004 4 v ∧ v.getLsbD 0 = true) ∧ NoError t) := by
  cases i with
  | mmioWrite offset width v =>
    simp only [inputStep] at h
    split at h
    · rename_i hok
      rcases hostWrite_error hr h with hsame | ⟨hctrl, hv, hno⟩
      · exact .inl hsame
      · obtain ⟨rfl, haligned, -⟩ := mmioAccessOk_iff.1 hok
        have hword : offset / 4 = 1 := (regAtWord_writable _).1 hctrl
        obtain rfl : offset = 4 := by omega
        exact .inr ⟨.inr ⟨v, rfl, hv⟩, hno⟩
    · cases h
  | memWrite a v =>
    simp only [inputStep, hostMemWrite] at h
    split at h
    · cases h
    · obtain rfl := Host.Outcome.next.inj h
      exact .inl ⟨rfl, rfl, rfl⟩
  | hardReset =>
    obtain rfl := Host.Outcome.next.inj h
    exact .inr ⟨.inl rfl, hardReset_noError s⟩
  | beginCommand =>
    obtain rfl := Host.Outcome.next.inj h
    rw [startCommand_idle (.inr (.inl he))]
    exact .inl (.refl s)
  | run =>
    obtain rfl := Host.Outcome.next.inj ((coreStep_wait hr (.inl he)).symm.trans h)
    exact .inl (.refl s)

/-- Settles O18: by the invariant nothing executes, so a turn of the CORE changes nothing, and a HOST action is
`inputStep_error`'s. -/
theorem onlyResetClearsError : Obligations.OnlyResetClearsError := by
  unfold Obligations.OnlyResetClearsError
  intro s t hinv he h
  obtain ⟨-, hr, -⟩ := hinv.error.held he
  have hkeeps {u : State} (hsame : SameError s u) : u.err = true ∧ u.errCode = s.errCode ∧ u.errInfo = s.errInfo :=
    ⟨hsame.1.trans he, hsame.2⟩
  have hcore (hturn : coreStep s = .next t) : SameError s t := by
    obtain rfl := Host.Outcome.next.inj ((coreStep_wait hr (.inl he)).symm.trans hturn)
    exact .refl s
  simp only [step, turn] at h
  split at h
  · exact .inl (hkeeps (hcore h))
  · rename_i i later hin
    split at h
    · exact .inl (hkeeps (hcore h))
    · rcases inputStep_error (s := { s with inputs := later }) he hr h with hsame | ⟨hreset, hno⟩
      · exact .inl (hkeeps hsame)
      · refine .inr ⟨?_, hno⟩
        rcases hreset with rfl | ⟨v, rfl, hv⟩
        · exact .inl ⟨later, hin⟩
        · exact .inr ⟨v, later, hin, hv⟩

end Sys2Proof.Machine
end

section
/-! The two resets (70_reset_and_hazards.md R540 to R543; 10_state.md R35, R65): when each takes place, what it leaves, and what
the commands do with the reset values. -/

namespace Sys2Proof.Machine

/-! ### The soft reset (R541) -/

theorem step_ctrlWrite {s : State} {v : Word} {later : List Input} (h : s.inputs = .mmioWrite 0x0004 4 v :: later) :
    step s = .next (ctrlWrite v { s with inputs := later }) := step_mmioWrite (k := 1) h (by decide) rfl

theorem endCommand_reset {c : Command} (h : c.resetAfter = true) (s : State) :
    endCommand c (.next s) = .next (softReset s) := by
  simp only [endCommand, h, if_true]

/-- A word that does not decode raises ILLEGAL_CMD, whatever waits for its completion. -/
theorem completeCommand_undecoded {c : Command} (h : ∀ i, decodeWord c.word c.data ≠ .ok i) (s : State) :
    completeCommand c s = endCommand c (.next (errorEntry .illegalCmd c.word s)) := by
  cases hd : decodeWord c.word c.data with
  | ok i => exact absurd hd (h i)
  | error e => simp only [completeCommand, hd]

/-- Settles O12: a CTRL write is `ctrlWrite`; the completing turn resets what the command's exec (`exec_writeSet`: the tables,
the HOST's list and the epoch as before) or its error entry leaves. -/
theorem softResetRule : Obligations.SoftResetRule := by
  unfold Obligations.SoftResetRule
  refine ⟨fun s v later h => ?request, fun s c later hr hreset hturn => ?complete⟩
  case request =>
    rw [step_ctrlWrite h]
    refine ⟨fun hv hr => ?_, fun c hv hr => ?_, fun hv => by rw [ctrlWrite_enables hv]⟩
    all_goals simp only [ctrlWrite_reset hv, requestReset, hr]
    rfl
  case complete =>
    have hstep : step s = completeCommand c { s with inputs := later } := by
      rw [step_coreTurn hturn, coreStep_running (s := { s with inputs := later }) hr]
    rw [hstep]
    refine ⟨fun i t hd hexec => ?decoded, fun hd => ?undecoded⟩
    case decoded =>
      obtain ⟨hrom, -, -, -, hinputs, hepoch⟩ := (exec_writeSet hexec).never
      rw [completeCommand_decoded hd, hexec, endCommand_reset hreset, softReset, hrom, hinputs, hepoch]
    case undecoded =>
      rw [completeCommand_undecoded hd, endCommand_reset hreset]
      rfl

/-! ### The hard reset (R540) -/

theorem fileGet_replicate {α : Type} (n : Nat) (x : α) (i : Nat) : fileGet (Vector.replicate n x) i x = x := by
  simp only [fileGet, Vector.getElem?_replicate]
  split <;> rfl

/-- Settles O13: the step is `hardReset`, and no store of `Rams.reset` lists an entry. -/
theorem hardResetRule : Obligations.HardResetRule := by
  unfold Obligations.HardResetRule
  intro s later h
  have hstep : step s = .next (hardReset { s with inputs := later }) := step_of_input h rfl
  have hflags (k : Nat) : nzGet NzRow.unwritten k = none := fileGet_replicate 9 none k
  exact ⟨_, hstep, rfl, rfl, fun k => ⟨rfl, rfl, rfl, rfl, hflags k, fun _ => hflags k⟩⟩

/-! ### The reset values (R542) -/

/-- Settles O59: each part of the invariant at its reset value. -/
theorem resetInv : Obligations.ResetInv where
  mem := rfl
  ram := Rams.reset_ok
  ctx i _ := by
    rw [show State.reset.ctx i = BoolCtx.reset from ctx_replicate_reset i]
    exact BoolCtx.reset_ok
  reserved := CfgRegs.reset_reservedZero
  error := ⟨fun _ => ⟨rfl, rfl⟩, fun h => by cases h⟩
  total := Nat.zero_le _
  queue := Nat.zero_le _

/-- Every register and context of `t` has its reset value; the tables, the RAMs, data memory and the model's own fields are
free. -/
def State.RegsReset (t : State) : Prop :=
  t = { State.reset with rom := t.rom, ram := t.ram, mem := t.mem, inputs := t.inputs, epoch := t.epoch }

/-- The words of the RAM windows, which a reset leaves unspecified or unchanged (R542). -/
def Reg.inRamWindow : Reg → Bool
  | .eob _ | .prob _ | .coef _ | .dq _ | .nzLeft | .nzAbove _ => true
  | _ => false

/-- Where the map puts ID and the RAM windows. -/
theorem regAtWord_ramWindow (k : Nat) :
    (regAtWord k = .id → k = 0) ∧ ((regAtWord k).inRamWindow = true →
      (0x100 ≤ k ∧ k < 0x119) ∨ (0x200 ≤ k ∧ k < 0x308) ∨ (0x400 ≤ k ∧ k < 0x4C8) ∨ (0x800 ≤ k ∧ k < 0x990) ∨ k = 0xC00 ∨
        0x1000 ≤ k) := by
  unfold regAtWord
  repeat' refine Reg.ite_of (P := fun r => (r = .id → k = 0) ∧ (r.inRamWindow = true → _)) (fun h => ?_) ?_
  all_goals
    simp only [Reg.inRamWindow, reduceCtorEq, Bool.false_eq_true, false_imp_iff, forall_const, true_and, and_true]
  all_goals omega

theorem State.RegsReset.ctx_eq {t : State} (h : t.RegsReset) (i : Nat) : t.ctx i = BoolCtx.reset := by
  rw [h]
  exact ctx_replicate_reset i

/-- Every register but ID reads 0. -/
theorem State.RegsReset.readReg_eq_zero {t : State} (h : t.RegsReset) (k : Nat) {r : Reg} (hid : r ≠ .id)
    (hram : ¬ r.inRamWindow = true) : readReg t k r = 0 := by
  cases r with
  | id => contradiction
  | eob | prob | coef | dq | nzLeft | nzAbove => exact absurd rfl hram
  | bdValue i | bdState i | bdPos i | bdZfill i =>
    rw [readReg, h.ctx_eq]
    rfl
  | slotYBase i | slotUBase i | slotVBase i | slotStride i | bdStart i | bdSize i | mv i =>
    rw [h, readReg]
    exact fileGet_replicate ..
  | dqf j =>
    rw [h, readReg]
    exact congrArg (BitVec.setWidth 32) (fileGet_replicate 24 (0 : BitVec 16) j)
  | _ =>
    rw [h]
    rfl

/-- Settles O14: both resets leave `State.RegsReset`, whose words outside the RAM windows read 0. -/
theorem resetValues : Obligations.ResetValues := by
  unfold Obligations.ResetValues
  intro s t ht
  have hreset : t.RegsReset := by rcases ht with rfl | rfl | rfl <;> rfl
  refine ⟨hostRead_at t (k := 0) rfl (by decide) rfl, fun k h1 hk heob hprob hcoef hdq hleft habove => ?words,
    fun i _ => ?contexts, ?queue, ?running, ?irq, fun hsoft => by rw [hsoft, softReset_ram]⟩
  case words =>
    obtain ⟨hid, hram⟩ := regAtWord_ramWindow k
    rw [hostRead_at t rfl hk rfl, hreset.readReg_eq_zero k (fun e => absurd (hid e) (by omega)) fun e => ?_]
    have := hram e
    omega
  case contexts =>
    rw [hreset.ctx_eq]
    exact ⟨rfl, rfl, rfl, rfl, rfl, rfl, rfl, rfl⟩
  all_goals
    rw [hreset]
    rfl

/-! ### What the commands do with the reset values (R543) -/

theorem posOk_of_frameDim_zero {c : CfgRegs} (h : c.frameDim = 0) : posOk c = false := by
  have hcols : c.mbCols = 0 := by rw [mbCols_eq, h]; rfl
  simp only [posOk, hcols, Nat.lt_irrefl, decide_false, Bool.false_and]

/-- Settles O15: the per-macroblock commands' position check fails, the entropy commands find no usable context, the products
of DEQ_MB are 0, and every role names slot 0. -/
theorem resetConsequences : Obligations.ResetConsequences := by
  unfold Obligations.ResetConsequences
  intro s
  refine ⟨fun hdim i hi => ?position, fun hvalid => ?contexts, fun hdqf hcoef seg _ => ?dequant,
    fun hroles hp r split clamp hr _ => ?roles⟩
  case position =>
    have hp : posOk s.cfg = false := posOk_of_frameDim_zero hdim
    rcases hi with ⟨c, y2, skip, rfl⟩ | ⟨m, hm, rfl | rfl⟩ | ⟨b, m, hb, hm, rfl⟩ | ⟨b, hb, rfl⟩ | ⟨u, rfl⟩ |
      ⟨r, split, clamp, hr, rfl⟩ | ⟨seg, r, m, nocoef, hm, hmode, rfl⟩
    · exact exec_detokMb_badPos hp c y2 skip
    · exact execWhole_posOob hm hp _ _
    · exact execWhole_posOob hm hp _ _
    · exact exec_ipred4_posOob hb hm hp
    · exact exec_idctAdd_posOob hb hp
    · exact exec_reconMb_posOob hp u
    · exact exec_mcMb_posOob split clamp hr hp
    · exact exec_lfMb_posOob (lfOperandsOk_iff.2 ⟨hm, hmode⟩) hp
  case contexts =>
    have hunusable (i : Nat) : ¬ ctxUsable s i = true := fun h =>
      Bool.false_ne_true ((hvalid i).symm.trans (ctxUsable_iff.1 h).2)
    exact ⟨fun i p => exec_bdBool_unusable (hunusable i), fun i n => exec_bdLit_unusable (hunusable i),
      fun hp i y2 => exec_detokMb_unusable hp (hunusable i) y2⟩
  case dequant =>
    have hproduct (j : Nat) : dequantAt s seg j = 0 := by
      rw [dequantAt, dequantValue, dqfAt, hdqf, fileGet_replicate]
      exact Int.mul_zero _
    refine ⟨_, execDeqMb_of_written seg (coefWritten_iff.2 hcoef), fun j hj => ?_⟩
    rw [State.orWide_ram, State.setDq_ram, Cells.get_fill_lt _ hj, hproduct]
    rfl
  case roles =>
    have hslot (r : Nat) : s.cfg.roleSlot r = 0 := by
      rw [roleSlot_eq, hroles]
      simp
    exact exec_mcMb_refIsCur split clamp hr hp ((hslot r).trans (hslot 0).symm)

end Sys2Proof.Machine
end
